-- ==== Sys2Proof/Word.lean ====
section
/-! DEFINITION. The words of the links: a byte, and a stamp of the millisecond counter. -/

namespace Sys2Proof

/-- One byte of a frame, a message or an envelope (R177, R186). A tag is a byte, 0..255. -/
abbrev Byte := BitVec 8

/-- A stamp: a value of the 32-bit millisecond counter, which wraps (R94, R166). -/
abbrev Stamp := BitVec 32

end Sys2Proof
end

