-- ==== Sys2Proof/Syntax.lean ====
section
/-! DEFINITION. The commands of the block: one constructor of `Instr` for each row of spec/opcode_table.json. -/

namespace Sys2Proof

/-- The part's two path ports (R92). A server is named by the port it is attached to. -/
inductive Port where
  | A
  | B
  deriving DecidableEq, Repr, Inhabited

/-- For port A, port B; for port B, port A (chapter 0, section 5). -/
def Port.partner : Port → Port
  | .A => .B
  | .B => .A

/-- Who sends a request: a server through its path port, or the service processor through the mailbox (chapter 0, section 2).
Also a notice target (R153) and the giver of a readmit key (R92). -/
inductive Client where
  | port (p : Port)
  | mgmt
  deriving DecidableEq, Repr, Inhabited

/-- A frame as the physical layer of a path link delivers it (R177, R178): a runt, or byte 0, the tag, and the body whose
length bytes 2 and 3 give. -/
inductive ArrivingFrame where
  | runt (bytes : List Byte)
  | frame (head tag : Byte) (body : List Byte)
  deriving DecidableEq, Repr, Inhabited

/-- The answer values of the drive (R76, R83); a value that is none of the four is `other`. -/
inductive DriveValue where
  | good
  | mediaError
  | dataLost
  | aborted
  | other (code : Nat)
  deriving DecidableEq, Repr, Inhabited

/-- One entry of the drive's answer to IDENTIFY (R1). -/
structure IdentifyEntry where
  id : Nat
  size : Nat
  blockSize : Nat
  deriving DecidableEq, Repr, Inhabited

/-- The commands: one constructor per row of the table. A row "taken from the intake head" or "from the mailbox" names only
the port or the client; the request it acts on stands in that port's intake or in the request buffer. -/
inductive Instr where
  | frameArrival (p : Port) (f : ArrivingFrame)
  | beacon (p : Port) (seq : BitVec 16) (view : Byte)
  | read (p : Port)
  | write (p : Port)
  | trim (p : Port)
  | flush (p : Port)
  | acquire (p : Port)
  | release (p : Port)
  | handOver (p : Port)
  | split (p : Port)
  | setHeir (p : Port)
  | adopt (p : Port)
  | adoptFor
  | dissolve
  | query (c : Client)
  | list (c : Client)
  | releaseCompletion
  | handOverCompletion
  | walkStep
  | takeNotice (c : Client)
  | ackNotice (c : Client)
  | setThreshold (c : Client)
  | join (p : Port)
  | resign (p : Port)
  | fencePartner (p : Port)
  | forceFence
  | readmit (c : Client)
  | rejoin (p : Port)
  | status (c : Client)
  | readTakeover
  | configure
  | readConfig
  | controllerReset
  | requestBufferWrite (bytes : List Byte) (stop : Bool)
  | clearOverrun (value : Byte) (stop : Bool)
  | answerBufferRead (n : Nat) (stop : Bool)
  | i2cWriteOther (selector : Byte) (bytes : List Byte)
  | linkDown (p : Port)
  | linkUp (p : Port)
  | windowEnd (p : Port)
  | drainTimerExpiry (p : Port)
  | abortTimerExpiry (p : Port)
  | submitCommand
  | sendTransferFailure
  | sendAbort
  | sendQueueClear
  | sendIdentify
  | driveAnswer (slot : Fin 32) (value : DriveValue)
  | cleared
  | identifyAnswer (entries : List IdentifyEntry)
  | pullRequest (slot : Fin 32)
  | pullEnd (slot : Fin 32)
  | deliveryStart (slot : Fin 32) (data : List Byte)
  | deliveryEnd (slot : Fin 32)
  | serverData (p : Port) (tag : Byte) (data : List Byte)
  | identifyRetryExpiry
  | resetAbortTimerExpiry
  | clearedTimerExpiry
  | powerOnReset
  | managementRequestMalformed
  deriving DecidableEq, Repr, Inhabited

end Sys2Proof
end

