-- ==== Sys2Proof/Config.lean ====
section
/-! DEFINITION. What a part's board fixes, and the free values: constants with no value given, so that no proof can use one. -/

namespace Sys2Proof.Config

/-- The levels of the pins ASEL1 and ASEL0 (R188, section 11.8), strapped on the board. Log entry 21. -/
opaque addressSelect : BitVec 2

/-- The free values: the byte sent where the spec states no value for it. Applied to `State.free`, a count of the free values
used so far, so that each use is a fresh value. DESIGN CHOICE, safe: log entry 9. -/
opaque freeByte : Nat → Byte

end Sys2Proof.Config
end

