-- ==== Sys2Proof/Machine/State.lean ====
section
/-! DEFINITION. The state of the Wolgace 2S as plain data, the reasons a step can stop, and the state after power-on reset. -/

namespace Sys2Proof.Machine

/-! ## Names of the spec -/

/-- The state of the part (section 11.5). -/
inductive PartState where
  | starting
  | ready
  | resetting
  deriving DecidableEq, Repr, Inhabited

/-- The path states (R92). -/
inductive PathState where
  | outside
  | member
  | suspect
  | lost
  | draining
  | shedding
  | fenced
  deriving DecidableEq, Repr, Inhabited

/-- The loss causes (R92, R108). -/
inductive Cause where
  | beacon
  | link
  | resigned
  | partnerFence
  | mgmtFence
  deriving DecidableEq, Repr, Inhabited

/-- The seen flag (R100). -/
inductive Seen where
  | clear
  | set
  | setForNext
  deriving DecidableEq, Repr, Inhabited

/-- A beacon's partner view (R99). -/
inductive PartnerView where
  | up
  | down
  deriving DecidableEq, Repr, Inhabited

/-- The access of a holding (R5). -/
inductive Access where
  | exclusive
  | writeGuard
  deriving DecidableEq, Repr, Inhabited

/-- The heir of a holding (R6). -/
inductive Heir where
  | partner
  | none
  deriving DecidableEq, Repr, Inhabited

/-- The uncovered policy of a namespace id (R2); `openArea` is OPEN. -/
inductive Policy where
  | openArea
  | readOnly
  | closed
  deriving DecidableEq, Repr, Inhabited

/-- The kinds of I/O command (chapter 3). -/
inductive IoKind where
  | read
  | write
  | trim
  | flush
  deriving DecidableEq, Repr, Inhabited

/-- The notice kinds (section 8.1). -/
inductive NoticeKind where
  | partnerLost
  | partnerSuspect
  | partnerBack
  | takeoverDone
  | orphans
  | unresolvedCleared
  | rejoinWaiting
  | contention
  | received
  | driveSilent
  deriving DecidableEq, Repr, Inhabited

/-- The answer codes (R187). -/
inductive AnswerCode where
  | good
  | mediaError
  | dataLost
  | aborted
  | fenced
  | notMember
  | notReady
  | busy
  | tagInUse
  | malformed
  | badNamespace
  | outOfRange
  | span
  | notOwner
  | closedArea
  | stale
  | transferPending
  | conflict
  | overlap
  | busyRange
  | tableFull
  | noHolding
  | wrongState
  | generationSpent
  | unresolved
  | partnerAbsent
  | notFenced
  | noNotice
  deriving DecidableEq, Repr, Inhabited

/-- The sources of the table arbiter (R22), in its cyclic order (R23). -/
inductive Source where
  | portA
  | portB
  | management
  | internal
  deriving DecidableEq, Repr, Inhabited

/-! ## Two of a kind -/

/-- One thing for port A and one for port B. -/
structure Pair (α : Type) where
  a : α
  b : α
  deriving DecidableEq, Repr, Inhabited

/-- The thing of port `p`. -/
def Pair.get {α : Type} (x : Pair α) : Port → α
  | .A => x.a
  | .B => x.b

/-- The pair with port `p`'s thing replaced. -/
def Pair.set {α : Type} (x : Pair α) (p : Port) (v : α) : Pair α :=
  match p with
  | .A => { x with a := v }
  | .B => { x with b := v }

/-! ## Frames in the intake -/

/-- An I/O command as carried (R183): start and count are of no use to a FLUSH. -/
structure IoCommand where
  kind : IoKind
  ns : Nat
  start : Nat
  count : Nat
  gen : Option Nat
  deriving DecidableEq, Repr, Inhabited

/-- A request with its fields as carried, defined values or not (R184). `readmit` and `status` carry a field from management only. -/
inductive Request where
  | acquire (ns start length access heir rank : Nat)
  | release (id gen : Nat)
  | handOver (id gen : Nat)
  | split (id offset : Nat)
  | setHeir (id heir rank : Nat)
  | adopt (id : Nat)
  | query (ns block : Nat)
  | list (ns fromBlock max : Nat)
  | takeNotice
  | ackNotice (kind : Nat)
  | setThreshold (threshold : Nat)
  | join
  | resign
  | fencePartner
  | readmit (port : Option Nat)
  | rejoin
  | status (sect : Option Nat)
  | adoptFor (port id : Nat)
  | dissolve (id : Nat)
  | forceFence (port : Nat)
  | readTakeover (port : Nat)
  | configure (param index value : Nat)
  | readConfig (param index : Nat)
  | controllerReset
  deriving DecidableEq, Repr, Inhabited

/-- What a frame of the intake carries: a COMMAND or a REQUEST (R177). -/
inductive Message where
  | io (c : IoCommand)
  | request (r : Request)
  deriving DecidableEq, Repr, Inhabited

/-- A frame in an intake (R180). -/
structure IntakeFrame where
  tag : Byte
  msg : Message
  deriving DecidableEq, Repr, Inhabited

/-- What a path port keeps for itself: its intake (R180), whether the command at its head waits for room (R65, R75), and its hold
indication (R181). The outstanding tags (R53) are read off by `State.outstanding`. -/
structure PortBlock where
  intake : List IntakeFrame
  roomWait : Bool
  hold : Bool
  deriving DecidableEq, Repr, Inhabited

/-! ## The holding table -/

/-- A namespace record (R2). -/
structure Namespace where
  id : Nat
  size : Nat
  blockSize : Nat
  deriving DecidableEq, Repr, Inhabited

/-- The state of a holding, with the optional fields that go with it (R4): the owner; in RELEASING and HANDING the tag of the
parked answer, whose port is the owner and whose kind follows from the state (R28); in ORPHANED the last owner. The receiver of
a HANDING holding is the owner's partner (R11). -/
inductive Tenure where
  | held (owner : Port)
  | releasing (owner : Port) (tag : Byte)
  | handing (owner : Port) (tag : Byte)
  | pending (owner : Port)
  | orphaned (last : Port)
  deriving DecidableEq, Repr, Inhabited

/-- A holding record (R3). -/
structure Holding where
  id : Nat
  ns : Nat
  start : Nat
  length : Nat
  access : Access
  heir : Heir
  rank : Nat
  gen : Nat
  tenure : Tenure
  deriving DecidableEq, Repr, Inhabited

/-- The two kinds of completion (R25): of a RELEASING and of a HANDING holding. -/
inductive DueKind where
  | release
  | handOver
  deriving DecidableEq, Repr, Inhabited

/-- A due completion (R25): the holding by id and generation, its owner's port, and the kind. Log entry 17. -/
structure Due where
  id : Nat
  gen : Nat
  port : Port
  kind : DueKind
  deriving DecidableEq, Repr, Inhabited

/-- The holding table, the generation counter (`none` is spent, R19) and the table arbiter. -/
structure TableBlock where
  namespaces : List Namespace
  holdings : List Holding
  gen : Option Nat
  pointer : Source
  due : List Due
  deriving DecidableEq, Repr, Inhabited

/-! ## The flight table and the media port -/

/-- The stages of a flight entry with its media slot, present in every stage but WAITING (R68, R70). -/
inductive Stage where
  | waiting
  | submitted (slot : Fin 32)
  | aborting (slot : Fin 32)
  | abandoned (slot : Fin 32)
  deriving DecidableEq, Repr, Inhabited

/-- The transfer indication of an occupied slot (R77). -/
inductive Transfer where
  | none
  | pulling
  | delivering
  deriving DecidableEq, Repr, Inhabited

/-- The admitted range of a flight entry (R68). -/
structure BlockRange where
  start : Nat
  count : Nat
  deriving DecidableEq, Repr, Inhabited

/-- A flight entry (R68). The range is absent for a FLUSH. The arrival order is the entry's place in the flight list (R69), and
`xfer` is the transfer indication of the slot it occupies (R77). -/
structure Entry where
  index : Nat
  port : Port
  tag : Byte
  kind : IoKind
  ns : Nat
  range : Option BlockRange
  stage : Stage
  xfer : Transfer
  deriving DecidableEq, Repr, Inhabited

/-- The flight table: its entries in the order of their admission (R64, R69), and the space turn (R66). -/
structure FlightBlock where
  entries : List Entry
  spaceTurn : Port
  deriving DecidableEq, Repr, Inhabited

/-- The QUEUE-CLEAR of a controller reset: none, waiting at the arbiter, or sent and awaiting CLEARED (R88). -/
inductive ClearState where
  | idle
  | requested
  | awaiting
  deriving DecidableEq, Repr, Inhabited

/-- The media port (R78 to R91). The 32 slots are read off the entries by `State.slotEntry`. -/
structure MediaBlock where
  abortList : List (Fin 32)
  failureList : List (Fin 32)
  turn : Port
  clear : ClearState
  identify : Nat
  deriving DecidableEq, Repr, Inhabited

/-! ## The path supervisor -/

/-- The window in progress; its end is `start + width` modulo 2^32 (R94). -/
structure Window where
  start : Stamp
  width : Nat
  deriving DecidableEq, Repr, Inhabited

/-- The held last beacon (R99). -/
structure LastBeacon where
  seq : BitVec 16
  view : PartnerView
  stamp : Stamp
  deriving DecidableEq, Repr, Inhabited

/-- A takeover record (R132). -/
structure Takeover where
  cause : Cause
  survivor : Option Port
  lostAt : Option Stamp
  drainBegan : Option Stamp
  fencedAt : Option Stamp
  withdrawn : Nat
  completed : Nat
  aborted : Nat
  abandoned : Nat
  answeredLate : Nat
  transferred : Nat
  orphaned : Nat
  deriving DecidableEq, Repr, Inhabited

/-- A path record (R92), with the port's timers (R123) in microseconds left and its parked answers' tags (R110, R141). -/
structure Path where
  state : PathState
  linkUp : Bool
  cause : Option Cause
  w : Nat
  m : Nat
  window : Option Window
  seen : Seen
  miss : Nat
  last : Option LastBeacon
  rejoinKey : Bool
  readmitKey : Option Client
  takeover : Option Takeover
  drainTimer : Option Nat
  abortTimer : Option Nat
  parkedResign : Option Byte
  parkedRejoin : Option Byte
  deriving DecidableEq, Repr, Inhabited

/-- The millisecond counter (R94) and the microseconds of the millisecond in progress. -/
structure Clock where
  ms : Stamp
  us : Nat
  deriving DecidableEq, Repr, Inhabited

/-! ## Notices -/

/-- A notice's detail: a port and a value (R183). -/
structure Detail where
  port : Option Port
  value : Nat
  deriving DecidableEq, Repr, Inhabited

/-- An entry of a pending set (R155). -/
structure Notice where
  kind : NoticeKind
  occurrences : Nat
  detail : Detail
  deriving DecidableEq, Repr, Inhabited

/-- A notice target: pending set, in-service record and level, threshold (R155, R159, R162). -/
structure Target where
  pending : List Notice
  inService : Option NoticeKind
  level : Nat
  threshold : Nat
  deriving DecidableEq, Repr, Inhabited

/-- The three targets (chapter 8). -/
structure NoticeBlock where
  ports : Pair Target
  mgmt : Target
  deriving DecidableEq, Repr, Inhabited

/-! ## Configuration, mailbox, part state, outputs -/

/-- The configuration values that no other block holds (R191): k, a, quotas, act enables, priorities and copy flags by kind, and
uncovered policies by id. W and M stand in the path records, thresholds in the targets. -/
structure Settings where
  drainExp : Nat
  abortExp : Nat
  quotas : Pair Nat
  actOnBeacon : Bool
  actOnLink : Bool
  priorities : List Nat
  copyFlags : List Bool
  policies : List Policy
  deriving DecidableEq, Repr, Inhabited

/-- The mailbox (R188, R189). REQUEST-FULL is the presence of `request`. `resetAnswer` is a reset answer that waits to be placed
(R193, R194). -/
structure Mailbox where
  request : Option (List Byte)
  answerReady : Bool
  answer : List Byte
  overrun : Bool
  resetAnswer : Bool
  selector : Nat
  deriving DecidableEq, Repr, Inhabited

/-- The part state (section 11.5) with start-up's count and timer (R192) and the reset procedure's timers (R193, R194), timers in
microseconds left. -/
structure PartBlock where
  state : PartState
  attempts : Nat
  retryTimer : Option Nat
  resetAbortTimer : Option Nat
  clearedTimer : Option Nat
  deriving DecidableEq, Repr, Inhabited

/-- What goes out on a path link: a frame (R177) with its class code, hold flag, tag and body; a hold mark (R181); and, on the data
lane, a pull request with its byte count (R85) or a READ's data (R86). -/
inductive LinkOut where
  | frame (cls : Nat) (hold : Bool) (tag : Byte) (body : List Byte)
  | holdMark (on : Bool)
  | pull (tag : Byte) (bytes : Nat)
  | readData (tag : Byte) (data : List Byte)
  deriving DecidableEq, Repr, Inhabited

/-- What goes out on the media link (R78, R79), and on its data lane a pull's data (R85). -/
inductive MediaOut where
  | command (slot : Fin 32) (kind : IoKind) (ns : Nat) (range : Option BlockRange)
  | abort (slot : Fin 32)
  | transferFailed (slot : Fin 32)
  | queueClear
  | identify
  | data (slot : Fin 32) (bytes : List Byte)
  deriving DecidableEq, Repr, Inhabited

/-- The outputs of the part, oldest first: the model's own record of what left on its pins. Log entry 6. -/
structure Output where
  links : Pair (List LinkOut)
  drive : List MediaOut
  i2c : List Byte
  deriving DecidableEq, Repr, Inhabited

/-- The state of the part. `free` counts the free values used (log entry 9), and `pending` is the queue of waiting commands. -/
structure State where
  part : PartBlock
  clock : Clock
  settings : Settings
  table : TableBlock
  flight : FlightBlock
  media : MediaBlock
  ports : Pair PortBlock
  paths : Pair Path
  walk : List Port
  notices : NoticeBlock
  mailbox : Mailbox
  out : Output
  free : Nat
  pending : List Instr
  deriving DecidableEq, Repr, Inhabited

/-- The reasons a step stops with a fault. Both are raised where the drive breaks what R76 relies on, so that the spec gives the
transfer no effect. Both are safe: the model stops where the part may go on. Log entry 10. -/
inductive Fault where
  /-- PULL_REQUEST for a slot whose entry is no WRITE: R85 gives pulls of WRITEs only. Safe. -/
  | pullOfNonWrite
  /-- DELIVERY_START for a slot whose entry is no READ: R86 gives deliveries of READs only. Safe. -/
  | deliveryOfNonRead
  deriving DecidableEq, Repr

/-- The reasons a command is refused. -/
inductive Refusal where
  /-- The command of this mnemonic has no meaning in the model. Raised by `exec`'s arms alone; safe. No arm raises it now. -/
  | notModelled (mnemonic : String)
  deriving DecidableEq, Repr

/-! ## After power-on reset -/

/-- A path record after power-on reset (R115, R152). -/
def Path.powerOn : Path where
  state := .outside
  linkUp := false
  cause := none
  w := 100
  m := 3
  window := none
  seen := .clear
  miss := 0
  last := none
  rejoinKey := false
  readmitKey := none
  takeover := none
  drainTimer := none
  abortTimer := none
  parkedResign := none
  parkedRejoin := none

/-- A path port after power-on reset (R75, R180, R181). -/
def PortBlock.powerOn : PortBlock where
  intake := []
  roomWait := false
  hold := false

/-- A notice target after power-on reset (R165). -/
def Target.powerOn : Target where
  pending := []
  inService := none
  level := 0
  threshold := 0

/-- The configuration defaults (R191, section 8.1). -/
def Settings.powerOn : Settings where
  drainExp := 20
  abortExp := 17
  quotas := ⟨40, 40⟩
  actOnBeacon := true
  actOnLink := true
  priorities := [15, 8, 4, 10, 12, 6, 7, 5, 3, 9]
  copyFlags := [true, false, false, true, true, false, true, false, false, false]
  policies := [.readOnly, .readOnly, .readOnly, .readOnly, .readOnly, .readOnly, .readOnly, .readOnly]

/-- The part right after power-on reset (R26, R75, R91, R115, R152, R165, R180, R181, R188, R195): it has entered STARTING, which
requests an IDENTIFY and starts the 1000 ms retry timer (R192). Values no rule gives are named in log entry 7. -/
def State.reset : State where
  part := { state := .starting, attempts := 0, retryTimer := some 1000000, resetAbortTimer := none, clearedTimer := none }
  clock := { ms := 0, us := 0 }
  settings := Settings.powerOn
  table := { namespaces := [], holdings := [], gen := some 1, pointer := .portA, due := [] }
  flight := { entries := [], spaceTurn := .A }
  media := { abortList := [], failureList := [], turn := .A, clear := .idle, identify := 1 }
  ports := ⟨PortBlock.powerOn, PortBlock.powerOn⟩
  paths := ⟨Path.powerOn, Path.powerOn⟩
  walk := []
  notices := { ports := ⟨Target.powerOn, Target.powerOn⟩, mgmt := Target.powerOn }
  mailbox := { request := none, answerReady := false, answer := [], overrun := false, resetAnswer := false, selector := 0 }
  out := { links := ⟨[], []⟩, drive := [], i2c := [] }
  free := 0
  pending := []

end Sys2Proof.Machine
end

