-- ==== Sys2Proof/Machine/Operands.lean ====
section
/-! DEFINITION. The operand forms of the links: byte order, the bodies of COMMAND, REQUEST and BEACON frames (R177 to R184), the
request envelope of the mailbox (R186), and the codes that name values of fields. -/

namespace Sys2Proof.Machine

/-! ## Byte order (R177): most significant byte first -/

/-- `v` in `n` bytes, most significant first; a value too large keeps its low bytes. -/
def be : Nat → Nat → List Byte
  | 0, _ => []
  | n + 1, v => BitVec.ofNat 8 (v >>> (8 * n)) :: be n v

/-- The number a byte list spells, most significant first, after the number `acc`. -/
def beNatFrom (acc : Nat) : List Byte → Nat
  | [] => acc
  | x :: xs => beNatFrom (acc * 256 + x.toNat) xs

/-- The number a byte list spells, most significant first. -/
def beNat (bytes : List Byte) : Nat := beNatFrom 0 bytes

/-- Bytes `i` to `i + n - 1` of a body as a number; a byte beyond the end counts as absent. -/
def field (body : List Byte) (i n : Nat) : Nat := beNat ((body.drop i).take n)

/-! ## Codes -/

/-- The class codes of R177. -/
def classOf (head : Byte) : Nat := head.toNat % 8

/-- The answer codes of R187. -/
def AnswerCode.num : AnswerCode → Nat
  | .good => 0
  | .mediaError => 1
  | .dataLost => 2
  | .aborted => 3
  | .fenced => 4
  | .notMember => 5
  | .notReady => 6
  | .busy => 7
  | .tagInUse => 8
  | .malformed => 9
  | .badNamespace => 10
  | .outOfRange => 11
  | .span => 12
  | .notOwner => 13
  | .closedArea => 14
  | .stale => 15
  | .transferPending => 16
  | .conflict => 17
  | .overlap => 18
  | .busyRange => 19
  | .tableFull => 20
  | .noHolding => 21
  | .wrongState => 22
  | .generationSpent => 23
  | .unresolved => 24
  | .partnerAbsent => 25
  | .notFenced => 26
  | .noNotice => 27

/-- The notice kinds' numbers (section 8.1). -/
def NoticeKind.num : NoticeKind → Nat
  | .partnerLost => 1
  | .partnerSuspect => 2
  | .partnerBack => 3
  | .takeoverDone => 4
  | .orphans => 5
  | .unresolvedCleared => 6
  | .rejoinWaiting => 7
  | .contention => 8
  | .received => 9
  | .driveSilent => 10

/-- The kind a number names, 1..10 (R160). -/
def noticeKindOf : Nat → Option NoticeKind
  | 1 => some .partnerLost
  | 2 => some .partnerSuspect
  | 3 => some .partnerBack
  | 4 => some .takeoverDone
  | 5 => some .orphans
  | 6 => some .unresolvedCleared
  | 7 => some .rejoinWaiting
  | 8 => some .contention
  | 9 => some .received
  | 10 => some .driveSilent
  | _ => none

/-- The path states' numbers in status sections 1 and 2 (R186). -/
def PathState.num : PathState → Nat
  | .outside => 1
  | .member => 2
  | .suspect => 3
  | .lost => 4
  | .draining => 5
  | .shedding => 6
  | .fenced => 7

/-- The part states' numbers (R186). -/
def PartState.num : PartState → Nat
  | .starting => 1
  | .ready => 2
  | .resetting => 3

/-- The loss causes' numbers (R183). -/
def Cause.num : Cause → Nat
  | .beacon => 1
  | .link => 2
  | .resigned => 3
  | .partnerFence => 4
  | .mgmtFence => 5

/-- The uncovered policies' numbers (R185, R191). -/
def Policy.num : Policy → Nat
  | .openArea => 1
  | .readOnly => 2
  | .closed => 3

/-- A port field: 1 A, 2 B (R184). -/
def portOf : Nat → Option Port
  | 1 => some .A
  | 2 => some .B
  | _ => none

/-- The number of a port: 1 A, 2 B (R183, R186). -/
def portNum : Port → Nat
  | .A => 1
  | .B => 2

/-- An access field: 1 EXCLUSIVE, 2 WRITE-GUARD (R184). -/
def accessOf : Nat → Option Access
  | 1 => some .exclusive
  | 2 => some .writeGuard
  | _ => none

/-- An heir field: 1 PARTNER, 2 NONE (R184). -/
def heirOf : Nat → Option Heir
  | 1 => some .partner
  | 2 => some .none
  | _ => none

/-- A rank field: 1..15 (R27). -/
def rankOf (n : Nat) : Option Nat := if 1 ≤ n ∧ n ≤ 15 then some n else none

/-- A beacon's partner view: 1 PARTNER-UP, 2 PARTNER-DOWN (R183). -/
def viewOf (b : Byte) : Option PartnerView :=
  match b.toNat with
  | 1 => some .up
  | 2 => some .down
  | _ => none

/-- The write-class kinds: WRITE, TRIM and FLUSH (chapter 0, section 5). -/
def IoKind.writeClass : IoKind → Bool
  | .read => false
  | .write => true
  | .trim => true
  | .flush => true

/-- The kind codes of a COMMAND (R183). -/
def ioKindOf : Nat → Option IoKind
  | 1 => some .read
  | 2 => some .write
  | 3 => some .trim
  | 4 => some .flush
  | _ => none

/-- The request codes of R184. -/
def Request.code : Request → Nat
  | .acquire .. => 1
  | .release .. => 2
  | .handOver .. => 3
  | .split .. => 4
  | .setHeir .. => 5
  | .adopt .. => 6
  | .query .. => 7
  | .list .. => 8
  | .takeNotice => 9
  | .ackNotice .. => 10
  | .setThreshold .. => 11
  | .join => 12
  | .resign => 13
  | .fencePartner => 14
  | .readmit .. => 15
  | .rejoin => 16
  | .status .. => 17
  | .adoptFor .. => 18
  | .dissolve .. => 19
  | .forceFence .. => 20
  | .readTakeover .. => 21
  | .configure .. => 22
  | .readConfig .. => 23
  | .controllerReset => 24

/-! ## Bodies -/

/-- A COMMAND body (R183): 16 bytes; bytes 2 to 15 of a FLUSH are ignored, and the supplied generation is read only with its flag. -/
def commandOf (body : List Byte) : Option IoCommand :=
  if body.length = 16 then
    (ioKindOf (field body 0 1)).map fun kind =>
      if kind = .flush then { kind := kind, ns := field body 1 1, start := 0, count := 0, gen := none }
      else
        { kind := kind
          ns := field body 1 1
          start := field body 4 6
          count := field body 2 1 + 1
          gen := if field body 3 1 % 2 = 1 then some (field body 10 6) else none }
  else none

/-- A path-link REQUEST body by its code and length (R184); `none` for a code or a length that R179 calls malformed. -/
def pathRequestOf (body : List Byte) : Option Request :=
  match field body 0 1, body.length with
  | 1, 17 => some (.acquire (field body 1 1) (field body 2 6) (field body 8 6) (field body 14 1) (field body 15 1) (field body 16 1))
  | 2, 9 => some (.release (field body 1 2) (field body 3 6))
  | 3, 9 => some (.handOver (field body 1 2) (field body 3 6))
  | 4, 9 => some (.split (field body 1 2) (field body 3 6))
  | 5, 5 => some (.setHeir (field body 1 2) (field body 3 1) (field body 4 1))
  | 6, 3 => some (.adopt (field body 1 2))
  | 7, 8 => some (.query (field body 1 1) (field body 2 6))
  | 8, 9 => some (.list (field body 1 1) (field body 2 6) (field body 8 1))
  | 9, 1 => some .takeNotice
  | 10, 2 => some (.ackNotice (field body 1 1))
  | 11, 2 => some (.setThreshold (field body 1 1))
  | 12, 1 => some .join
  | 13, 1 => some .resign
  | 14, 1 => some .fencePartner
  | 15, 1 => some (.readmit none)
  | 16, 1 => some .rejoin
  | 17, 1 => some (.status none)
  | _, _ => none

/-- A management request by its code and its fields (R184): the fields are the body less its code. -/
def mgmtRequestOf (code : Nat) (fields : List Byte) : Option Request :=
  match code, fields.length with
  | 7, 7 => some (.query (field fields 0 1) (field fields 1 6))
  | 8, 8 => some (.list (field fields 0 1) (field fields 1 6) (field fields 7 1))
  | 9, 0 => some .takeNotice
  | 10, 1 => some (.ackNotice (field fields 0 1))
  | 11, 1 => some (.setThreshold (field fields 0 1))
  | 15, 1 => some (.readmit (some (field fields 0 1)))
  | 17, 1 => some (.status (some (field fields 0 1)))
  | 18, 3 => some (.adoptFor (field fields 0 1) (field fields 1 2))
  | 19, 2 => some (.dissolve (field fields 0 2))
  | 20, 1 => some (.forceFence (field fields 0 1))
  | 21, 1 => some (.readTakeover (field fields 0 1))
  | 22, 4 => some (.configure (field fields 0 1) (field fields 1 1) (field fields 2 2))
  | 23, 2 => some (.readConfig (field fields 0 1) (field fields 1 1))
  | 24, 0 => some .controllerReset
  | _, _ => none

/-- The request of an envelope (R186): code, body length n, n bytes of fields. `none` for a code not taken, a length that disagrees,
or fewer than 2 + n bytes written; bytes after the n fields are not part of the request (log entry 32). -/
def envelopeRequest (bytes : List Byte) : Option Request :=
  match bytes with
  | code :: n :: rest =>
    if n.toNat ≤ rest.length then mgmtRequestOf code.toNat (rest.take n.toNat) else none
  | _ => none

/-- The message of a COMMAND or REQUEST frame, or `none` where R179 calls the frame malformed. -/
def messageOf (head : Byte) (body : List Byte) : Option Message :=
  match classOf head with
  | 1 => (commandOf body).map .io
  | 3 => (pathRequestOf body).map .request
  | _ => none

/-! ## The sender's side: the bodies as R183, R184 and R186 lay them out -/

/-- The link carries the request: its code is taken there, and READMIT and STATUS have their field on the management link only (R184). -/
def Request.carriedBy : Client → Request → Bool
  | .port _, .adoptFor .. => false
  | .port _, .dissolve .. => false
  | .port _, .forceFence .. => false
  | .port _, .readTakeover .. => false
  | .port _, .configure .. => false
  | .port _, .readConfig .. => false
  | .port _, .controllerReset => false
  | .port _, .readmit port => port.isNone
  | .port _, .status sect => sect.isNone
  | .port _, _ => true
  | .mgmt, .acquire .. => false
  | .mgmt, .release .. => false
  | .mgmt, .handOver .. => false
  | .mgmt, .split .. => false
  | .mgmt, .setHeir .. => false
  | .mgmt, .adopt .. => false
  | .mgmt, .join => false
  | .mgmt, .resign => false
  | .mgmt, .fencePartner => false
  | .mgmt, .rejoin => false
  | .mgmt, .readmit port => port.isSome
  | .mgmt, .status sect => sect.isSome
  | .mgmt, _ => true

/-- The request's fields with the number of bytes of each (R184). -/
def Request.layout : Request → List (Nat × Nat)
  | .acquire ns start length access heir rank => [(1, ns), (6, start), (6, length), (1, access), (1, heir), (1, rank)]
  | .release id gen => [(2, id), (6, gen)]
  | .handOver id gen => [(2, id), (6, gen)]
  | .split id offset => [(2, id), (6, offset)]
  | .setHeir id heir rank => [(2, id), (1, heir), (1, rank)]
  | .adopt id => [(2, id)]
  | .query ns block => [(1, ns), (6, block)]
  | .list ns fromBlock max => [(1, ns), (6, fromBlock), (1, max)]
  | .takeNotice => []
  | .ackNotice kind => [(1, kind)]
  | .setThreshold threshold => [(1, threshold)]
  | .join => []
  | .resign => []
  | .fencePartner => []
  | .readmit port => port.toList.map fun x => (1, x)
  | .rejoin => []
  | .status sect => sect.toList.map fun x => (1, x)
  | .adoptFor port id => [(1, port), (2, id)]
  | .dissolve id => [(2, id)]
  | .forceFence port => [(1, port)]
  | .readTakeover port => [(1, port)]
  | .configure param index value => [(1, param), (1, index), (2, value)]
  | .readConfig param index => [(1, param), (1, index)]
  | .controllerReset => []

/-- Every field fits its bytes. -/
def Request.fits (r : Request) : Bool := r.layout.all fun x => x.2 < 256 ^ x.1

/-- The request's fields, most significant byte first (R177). -/
def Request.fields (r : Request) : List Byte := r.layout.flatMap fun x => be x.1 x.2

/-- The body of a REQUEST frame (R184). -/
def Request.body (r : Request) : List Byte := be 1 r.code ++ r.fields

/-- The envelope of a management request (R186). -/
def Request.envelope (r : Request) : List Byte := be 1 r.code ++ be 1 r.fields.length ++ r.fields

/-- The kind codes of a COMMAND (R183). -/
def IoKind.num : IoKind → Nat
  | .read => 1
  | .write => 2
  | .trim => 3
  | .flush => 4

/-- The body of a READ, WRITE or TRIM (R183); `spare` stands in the flag byte's bits 7..1 and in the generation's place when none is
supplied. -/
def IoCommand.body (c : IoCommand) (spare : Nat) : List Byte :=
  be 1 c.kind.num ++ be 1 c.ns ++ be 1 (c.count - 1) ++ be 1 (2 * (spare % 128) + if c.gen.isSome then 1 else 0)
    ++ be 6 c.start ++ be 6 (c.gen.getD spare)

/-- The values a READ, WRITE or TRIM carries fit their bytes: a count of 1..256 (R183). -/
def IoCommand.fits (c : IoCommand) : Bool :=
  c.ns < 256 && 1 ≤ c.count && c.count ≤ 256 && c.start < 2 ^ 48 && decide (c.gen.getD 0 < 2 ^ 48)

end Sys2Proof.Machine
end

