-- ==== Sys2Proof/Machine/Flags.lean ====
section
/-! DEFINITION. The flags the part computes: the hold indication (R181), qualification and the alert line (R156, R158), and the mailbox
status byte (R186). -/

namespace Sys2Proof.Machine

/-- The hold indication after the number of frames in the intake has changed to `n` (R181). -/
def holdAfter (before : Bool) (n : Nat) : Bool := if before then decide (7 ≤ n) else decide (12 ≤ n)

/-- The configured priority of a kind (R154). -/
def State.priority (s : State) (k : NoticeKind) : Nat := s.settings.priorities.getD (k.num - 1) 0

/-- The management copy flag of a kind (R154). -/
def State.copyFlag (s : State) (k : NoticeKind) : Bool := s.settings.copyFlags.getD (k.num - 1) false

/-- A kind qualifies at a target: its priority is above threshold and in-service level, or is 15 (R156). -/
def State.qualifies (s : State) (t : Target) (k : NoticeKind) : Bool :=
  decide (max t.threshold t.level < s.priority k) || s.priority k = 15

/-- The alert line: asserted exactly while an entry of the MGMT pending set qualifies at MGMT (R158). ALERT_N is low while it is. -/
def State.alertLine (s : State) : Bool := s.notices.mgmt.pending.any fun n => s.qualifies s.notices.mgmt n.kind

/-- The mailbox status byte (R186): bit 0 REQUEST-FULL, 1 ANSWER-READY, 2 OVERRUN, 3 ALERT, 4 and 5 the part state. -/
def State.statusByte (s : State) : Byte :=
  BitVec.ofNat 8
    ((if s.mailbox.request.isSome then 1 else 0) + (if s.mailbox.answerReady then 2 else 0)
      + (if s.mailbox.overrun then 4 else 0) + (if s.alertLine then 8 else 0) + 16 * s.part.state.num)

end Sys2Proof.Machine
end

