-- ==== Sys2Proof/Machine/Ops.lean ====
section
/-! DEFINITION. The shared operations: reading and replacing the blocks of the state, sending on the links, taking and answering
requests, the overlap tests, and the table arbiter's choice. -/

namespace Sys2Proof.Machine

/-- What a command answers. -/
abbrev Out := Host.Outcome State Fault Refusal

/-! ## Replacing a block -/

def State.withPart (s : State) (x : PartBlock) : State := { s with part := x }
def State.withClock (s : State) (x : Clock) : State := { s with clock := x }
def State.withSettings (s : State) (x : Settings) : State := { s with settings := x }
def State.withTable (s : State) (x : TableBlock) : State := { s with table := x }
def State.withFlight (s : State) (x : FlightBlock) : State := { s with flight := x }
def State.withMedia (s : State) (x : MediaBlock) : State := { s with media := x }
def State.withPort (s : State) (p : Port) (x : PortBlock) : State := { s with ports := s.ports.set p x }
def State.withPath (s : State) (p : Port) (x : Path) : State := { s with paths := s.paths.set p x }
def State.withWalk (s : State) (x : List Port) : State := { s with walk := x }
def State.withNotices (s : State) (x : NoticeBlock) : State := { s with notices := x }
def State.withMailbox (s : State) (x : Mailbox) : State := { s with mailbox := x }
def State.withOut (s : State) (x : Output) : State := { s with out := x }
def State.withFree (s : State) (x : Nat) : State := { s with free := x }

/-- The path record of port `p` (R92). -/
def State.path (s : State) (p : Port) : Path := s.paths.get p

/-- The port block of port `p`. -/
def State.port (s : State) (p : Port) : PortBlock := s.ports.get p

/-- A member: a port whose path state is MEMBER or SUSPECT (chapter 0, section 5). -/
def PathState.isMember : PathState → Bool
  | .member => true
  | .suspect => true
  | _ => false

/-- Port `p` is a member. -/
def State.isMember (s : State) (p : Port) : Bool := (s.path p).state.isMember

/-! ## Sending on the path links -/

/-- Sends on port `p`'s path link; what is produced while the link is DOWN is dropped and not kept (R182). -/
def State.sendOn (s : State) (p : Port) (o : LinkOut) : State :=
  if (s.path p).linkUp then s.withOut { s.out with links := s.out.links.set p (s.out.links.get p ++ [o]) } else s

/-- Sends a frame, whose header carries the hold indication (R177, R181). -/
def State.sendFrame (s : State) (p : Port) (cls : Nat) (tag : Byte) (body : List Byte) : State :=
  s.sendOn p (.frame cls (s.port p).hold tag body)

/-- A REPLY to a command (R183). -/
def State.reply (s : State) (p : Port) (tag : Byte) (code : AnswerCode) : State := s.sendFrame p 2 tag (be 1 code.num)

/-- An ANSWER to a request (R185). -/
def State.answer (s : State) (p : Port) (tag : Byte) (echo : Nat) (code : AnswerCode) (result : List Byte) : State :=
  s.sendFrame p 4 tag (be 1 code.num ++ be 1 echo ++ result)

/-- Sends a message or data on the media link. -/
def State.sendDrive (s : State) (m : MediaOut) : State := s.withOut { s.out with drive := s.out.drive ++ [m] }

/-! ## The intake -/

/-- Replaces the intake; the hold indication is judged again with the number after the change, and a change is signalled by a hold
mark (R181). -/
def State.setIntake (s : State) (p : Port) (frames : List IntakeFrame) : State :=
  let hold := holdAfter (s.port p).hold frames.length
  let s1 := s.withPort p { s.port p with intake := frames, hold := hold }
  if hold = (s.port p).hold then s1 else s1.sendOn p (.holdMark hold)

/-- Takes the frame at the head of the intake (R52, R180). -/
def State.takeHead (s : State) (p : Port) : State :=
  (s.withPort p { s.port p with roomWait := false }).setIntake p (s.port p).intake.tail

/-- The I/O command at the head of the intake, with its tag. -/
def State.headIo (s : State) (p : Port) : Option (Byte × IoCommand) :=
  match (s.port p).intake with
  | ⟨tag, .io c⟩ :: _ => some (tag, c)
  | _ => none

/-- The request at the head of the intake, with its tag. -/
def State.headRequest (s : State) (p : Port) : Option (Byte × Request) :=
  match (s.port p).intake with
  | ⟨tag, .request r⟩ :: _ => some (tag, r)
  | _ => none

/-! ## Requests: where they are taken from and how they are answered -/

/-- The part takes a buffered management request while ANSWER-READY is clear; from the end of RESETTING until the reset answer has
been read it takes none (R189, R194). -/
def State.mailboxTakes (s : State) : Bool :=
  !s.mailbox.answerReady && (s.part.state = .resetting || !s.mailbox.resetAnswer)

/-- The request next to be taken from client `c`, with its tag (0 for management, whose answers carry none). -/
def State.front (s : State) : Client → Option (Byte × Request)
  | .port p => if (s.port p).roomWait then none else s.headRequest p
  | .mgmt => if s.mailboxTakes then (s.mailbox.request.bind envelopeRequest).map fun r => (0, r) else none

/-- Takes the request from where it stands: a port's leaves its intake; management's stays in the buffer until it is answered (R189). -/
def State.takeFront (s : State) : Client → State
  | .port p => s.takeHead p
  | .mgmt => s

/-- Places an answer envelope (R186) in the answer buffer: in the same event REQUEST-FULL is cleared and ANSWER-READY set (R189). -/
def State.placeAnswer (s : State) (echo : Nat) (code : AnswerCode) (result : List Byte) : State :=
  s.withMailbox { s.mailbox with
    request := none
    answerReady := true
    answer := be 1 code.num ++ be 1 echo ++ be 1 result.length ++ result }

/-- Answers client `c`: under the tag on a path link, or in the answer buffer (R27). -/
def State.respond (s : State) (c : Client) (tag : Byte) (echo : Nat) (code : AnswerCode) (result : List Byte) : State :=
  match c with
  | .port p => s.answer p tag echo code result
  | .mgmt => s.placeAnswer echo code result

/-- The table of R95 for requests: `none` where the path state lets the request through. -/
def requestGate (st : PathState) (r : Request) : Option AnswerCode :=
  match r with
  | .status _ => none
  | .join => none
  | .rejoin =>
    match st with
    | .outside => some .notMember
    | .member => none
    | .suspect => none
    | .fenced => none
    | _ => some .fenced
  | .query .. | .list .. | .takeNotice | .ackNotice _ =>
    match st with
    | .outside => some .notMember
    | .member => none
    | .suspect => none
    | .lost => none
    | _ => some .fenced
  | _ =>
    match st with
    | .outside => some .notMember
    | .member => none
    | .suspect => none
    | _ => some .fenced

/-- The requests that only a READY part performs: every path-link request but STATUS (R95), and those management requests that
R190 answers NOT-READY in STARTING and RESETTING. -/
def needsReady (c : Client) (r : Request) : Bool :=
  match c, r with
  | _, .status _ => false
  | .port _, _ => true
  | .mgmt, .takeNotice => false
  | .mgmt, .ackNotice _ => false
  | .mgmt, .setThreshold _ => false
  | .mgmt, .readTakeover _ => false
  | .mgmt, .configure .. => false
  | .mgmt, .readConfig .. => false
  | .mgmt, .controllerReset => false
  | .mgmt, _ => true

/-- The code a request is refused with before any check of its own: NOT-READY first, then the path state's (R95, R190). -/
def State.refusal (s : State) (c : Client) (r : Request) : Option AnswerCode :=
  if needsReady c r && s.part.state != .ready then some .notReady
  else
    match c with
    | .port p => requestGate (s.path p).state r
    | .mgmt => none

/-! ## Holdings and flight entries -/

/-- The owner, absent in ORPHANED (R4). -/
def Tenure.owner : Tenure → Option Port
  | .held o => some o
  | .releasing o _ => some o
  | .handing o _ => some o
  | .pending o => some o
  | .orphaned _ => none

/-- The last owner, present in ORPHANED alone (R4). -/
def Tenure.lastOwner : Tenure → Option Port
  | .orphaned l => some l
  | _ => none

/-- The receiver, present in HANDING alone: the owner's partner (R4, R11). -/
def Tenure.receiver : Tenure → Option Port
  | .handing o _ => some o.partner
  | _ => none

/-- The answer a holding has parked (R28): the port and the tag. -/
def Tenure.parked : Tenure → Option (Port × Byte)
  | .releasing o tag => some (o, tag)
  | .handing o tag => some (o, tag)
  | _ => none

/-- The last block of a holding (R3). -/
def Holding.last (h : Holding) : Nat := h.start + h.length - 1

/-- Two ranges of one namespace share at least one block (R7). -/
def rangesMeet (start1 length1 start2 length2 : Nat) : Bool :=
  max start1 start2 < min (start1 + length1) (start2 + length2)

/-- The holding shares a block with a range (R7). -/
def Holding.meets (h : Holding) (ns start length : Nat) : Bool := h.ns = ns && rangesMeet h.start h.length start length

/-- The flight entry overlaps a range; a FLUSH covers every block of its namespace (R7). -/
def Entry.meets (e : Entry) (ns start length : Nat) : Bool :=
  e.ns = ns &&
    match e.range with
    | none => true
    | some r => rangesMeet r.start r.count start length

/-- The flight entry overlaps the holding (R7). -/
def Entry.overlaps (e : Entry) (h : Holding) : Bool := e.meets h.ns h.start h.length

/-- The media slot of a stage (R68). -/
def Stage.slot : Stage → Option (Fin 32)
  | .waiting => none
  | .submitted k => some k
  | .aborting k => some k
  | .abandoned k => some k

def Stage.isWaiting : Stage → Bool
  | .waiting => true
  | _ => false

def Stage.isSubmitted : Stage → Bool
  | .submitted _ => true
  | _ => false

def Stage.isAborting : Stage → Bool
  | .aborting _ => true
  | _ => false

def Stage.isAbandoned : Stage → Bool
  | .abandoned _ => true
  | _ => false

/-- The entry is a write-class entry of port `p`. -/
def Entry.writeOf (e : Entry) (p : Port) : Bool := e.port = p && e.kind.writeClass

/-- The entry in media slot `k`, if the slot is occupied (R77). -/
def State.slotEntry (s : State) (k : Fin 32) : Option Entry := s.flight.entries.find? fun e => e.stage.slot = some k

/-- A holding is unresolved while an ABANDONED write-class entry, of either port, overlaps it (R8). -/
def State.unresolved (s : State) (h : Holding) : Bool :=
  s.flight.entries.any fun e => e.stage.isAbandoned && e.kind.writeClass && e.overlaps h

/-- A write-class entry of port `p`, in any stage, overlaps the holding: what a RELEASING or HANDING holding of `p` waits for (R35, R36). -/
def State.writesOver (s : State) (p : Port) (h : Holding) : Bool :=
  s.flight.entries.any fun e => e.writeOf p && e.overlaps h

/-- The record with an id (R16: at most one). -/
def State.holdingById (s : State) (id : Nat) : Option Holding := s.table.holdings.find? fun h => h.id = id

/-- The namespace record with an id (R2). -/
def State.namespaceById (s : State) (id : Nat) : Option Namespace := s.table.namespaces.find? fun n => n.id = id

/-- The uncovered policy configured for an id (R2). -/
def State.policy (s : State) (id : Nat) : Policy := s.settings.policies.getD id .readOnly

/-- The lowest number from `i` on, among `n` numbers, that `used` does not hold (R17, R68). -/
def firstFree (used : List Nat) : Nat → Nat → Option Nat
  | 0, _ => none
  | n + 1, i => if i ∈ used then firstFree used n (i + 1) else some i

/-- The tags outstanding on port `p` (R53): of the frames in its intake, of its flight entries, and of its parked answers. -/
def State.outstanding (s : State) (p : Port) : List Byte :=
  (s.port p).intake.map (·.tag)
    ++ (s.flight.entries.filter fun e => e.port = p).map (·.tag)
    ++ s.table.holdings.filterMap (fun h => h.tenure.parked.bind fun x => if x.1 = p then some x.2 else none)
    ++ (s.path p).parkedResign.toList ++ (s.path p).parkedRejoin.toList

/-- Replaces the record with an id; the table order stands (R15). -/
def State.setHolding (s : State) (id : Nat) (f : Holding → Holding) : State :=
  s.withTable { s.table with holdings := s.table.holdings.map fun h => if h.id = id then f h else h }

/-- The record in another tenure, with its generation kept. -/
def Holding.withTenure (h : Holding) (t : Tenure) : Holding := { h with tenure := t }

/-- The record granted to port `p` under a new generation (R19). -/
def Holding.grantedTo (h : Holding) (p : Port) (g : Nat) : Holding := { h with tenure := .held p, gen := g }

/-- Removes the record with an id: retirement (R18). -/
def State.retire (s : State) (id : Nat) : State :=
  s.withTable { s.table with holdings := s.table.holdings.filter fun h => h.id != id }

/-- The counter after a grant took its value; after 2^48 - 1 it is spent (R19). -/
def genAfter (g : Nat) : Option Nat := if g + 1 < 2 ^ 48 then some (g + 1) else none

/-- The counter advances (R19). -/
def State.advanceGen (s : State) (g : Nat) : State := s.withTable { s.table with gen := genAfter g }

/-! ## Path records -/

/-- Changes the takeover record, if there is one (R132). -/
def State.onTakeover (s : State) (p : Port) (f : Takeover → Takeover) : State :=
  s.withPath p { s.path p with takeover := (s.path p).takeover.map f }

/-! ## The table arbiter -/

/-- The requests that are table operations (R22). -/
def Request.isTable : Request → Bool
  | .acquire .. => true
  | .release .. => true
  | .handOver .. => true
  | .split .. => true
  | .setHeir .. => true
  | .adopt .. => true
  | .query .. => true
  | .list .. => true
  | .adoptFor .. => true
  | .dissolve .. => true
  | _ => false

/-- The arbiter's source for a client (R22). -/
def clientSource : Client → Source
  | .port .A => .portA
  | .port .B => .portB
  | .mgmt => .management

/-- The source that follows in the cyclic order (R23). -/
def Source.next : Source → Source
  | .portA => .portB
  | .portB => .management
  | .management => .internal
  | .internal => .portA

/-- A client waits at the arbiter: its request is a table request that nothing refuses (R22). -/
def State.clientWaits (s : State) (c : Client) : Bool :=
  match s.front c with
  | some (_, r) => r.isTable && (s.refusal c r).isNone
  | none => false

/-- Holding `h` is a PENDING holding of port `p`. -/
def Holding.isPendingOf (h : Holding) (p : Port) : Bool := h.tenure = .pending p

/-- A walk step is due: the port the walk serves has a PENDING holding (R25, R128). -/
def State.walkDue (s : State) : Bool :=
  match s.walk with
  | p :: _ => s.table.holdings.any fun h => h.isPendingOf p
  | [] => false

/-- A source is waiting (R22). -/
def State.waits (s : State) : Source → Bool
  | .portA => s.clientWaits (.port .A)
  | .portB => s.clientWaits (.port .B)
  | .management => s.clientWaits .mgmt
  | .internal => !s.table.due.isEmpty || s.walkDue

/-- The source granted next: the first waiting one round the cyclic order from the rotation pointer (R23). -/
def State.grantee (s : State) : Option Source :=
  let q := s.table.pointer
  [q, q.next, q.next.next, q.next.next.next].find? fun x => s.waits x

/-- After a grant the pointer moves to the source that follows the granted one (R23). -/
def State.granted (s : State) (x : Source) : State := s.withTable { s.table with pointer := x.next }

/-- A request that works on the table: refused at the port or the mailbox, or performed if the arbiter grants its source now; while
another source is granted first it goes on waiting (R22, R23, R27). -/
def State.atTable (s : State) (c : Client) (tag : Byte) (r : Request) (op : State → State) : State :=
  match s.refusal c r with
  | some code => (s.takeFront c).respond c tag r.code code []
  | none => if s.grantee = some (clientSource c) then op ((s.takeFront c).granted (clientSource c)) else s

/-- A request answered by the block that owns it as soon as it is taken (R189): refused, or performed. -/
def State.atOnce (s : State) (c : Client) (tag : Byte) (r : Request) (op : State → State) : State :=
  match s.refusal c r with
  | some code => (s.takeFront c).respond c tag r.code code []
  | none => op (s.takeFront c)

end Sys2Proof.Machine
end

