-- ==== Sys2Proof/Machine/Layouts.lean ====
section
/-! DEFINITION. The layouts of what the part sends: the holding record (R185), the status sections and the takeover record (R186), and
the detail of a notice (R183). -/

namespace Sys2Proof.Machine

/-- A flag in bit `i` of a byte under construction. -/
def bit (b : Bool) (i : Nat) : Nat := if b then 2 ^ i else 0

/-- The header of a frame that the part sends: the class in bits 0 to 2 of byte 0, the hold flag in bit 7 and zeros between, the tag,
and the body length, most significant byte first (R177). -/
def frameHeader (cls : Nat) (hold : Bool) (tag : Byte) (length : Nat) : List Byte := be 1 (cls + bit hold 7) ++ [tag] ++ be 2 length

/-- The bytes of a frame on a path link's frame lane: header and body (R177). Hold marks and the data lane are outside any frame. -/
def LinkOut.frameBytes : LinkOut → Option (List Byte)
  | .frame cls hold tag body => some (frameHeader cls hold tag body.length ++ body)
  | .holdMark _ => none
  | .pull .. => none
  | .readData .. => none

/-- The states' numbers in a carried holding record (R185). -/
def Tenure.num : Tenure → Nat
  | .held _ => 1
  | .releasing .. => 2
  | .handing .. => 3
  | .pending _ => 4
  | .orphaned _ => 5

/-- The owner, or in ORPHANED the last owner: the port bit of byte 22 (R4, R185). -/
def Tenure.anyOwner : Tenure → Port
  | .held o => o
  | .releasing o _ => o
  | .handing o _ => o
  | .pending o => o
  | .orphaned l => l

/-- The carried holding record: 26 bytes (R185). The receiver's port bit is sent as 0 while no receiver is present, which the spec leaves
open: DESIGN CHOICE, log entry 37. -/
def holdingBytes (h : Holding) (unresolved : Bool) : List Byte :=
  be 2 h.id ++ be 1 h.ns ++ be 1 h.tenure.num ++ be 6 h.start ++ be 6 h.length ++ be 6 h.gen
    ++ be 1 (bit (h.tenure.anyOwner = .B) 0 + bit (h.tenure.receiver = some .B) 1)
    ++ be 1 (bit h.tenure.owner.isSome 0 + bit h.tenure.lastOwner.isSome 1 + bit h.tenure.receiver.isSome 2 + bit unresolved 3
        + bit (h.access = .writeGuard) 4 + bit (h.heir = .partner) 5)
    ++ be 1 h.rank ++ be 1 0

/-- The record of a holding as it stands, with the unresolved value of this moment (R3, R8). -/
def State.holdingRecord (s : State) (h : Holding) : List Byte := holdingBytes h (s.unresolved h)

/-- A stamp in four bytes. -/
def stampBytes (x : Stamp) : List Byte := be 4 x.toNat

/-- A notice's detail: port and value, three bytes (R183); the value stops at 65535. -/
def detailBytes (d : Detail) : List Byte :=
  be 1 (match d.port with
    | none => 0
    | some p => portNum p) ++ be 2 (min d.value 65535)

/-- A client as a number: 1 A, 2 B, 3 MGMT (R186). -/
def clientNum : Client → Nat
  | .port p => portNum p
  | .mgmt => 3

/-- How many flight entries satisfy a test (R96). -/
def State.entriesWith (s : State) (f : Entry → Bool) : Nat := (s.flight.entries.filter f).length

/-- A port's count of flight entries, in every stage (R64). -/
def State.portCount (s : State) (p : Port) : Nat := s.entriesWith fun e => e.port = p

/-- Status section 0, the part: 24 bytes (R186). -/
def State.partSection (s : State) : List Byte :=
  be 1 s.part.state.num ++ stampBytes s.clock.ms ++ be 2 s.table.holdings.length ++ be 6 (s.table.gen.getD 0)
    ++ be 1 (s.settings.quotas.get .A) ++ be 1 (s.settings.quotas.get .B) ++ be 1 (s.portCount .A) ++ be 1 (s.portCount .B)
    ++ be 1 (s.entriesWith fun e => e.stage.isWaiting) ++ be 1 (s.entriesWith fun e => e.stage.isSubmitted)
    ++ be 1 (s.entriesWith fun e => e.stage.isAborting) ++ be 1 (s.entriesWith fun e => e.stage.isAbandoned)
    ++ be 1 (s.entriesWith fun e => e.stage.slot.isSome) ++ be 1 s.media.abortList.length ++ be 1 0

/-- The end of a window: start + window W, modulo 2^32 (R94). -/
def Window.stop (w : Window) : Stamp := w.start + BitVec.ofNat 32 w.width

def Seen.num : Seen → Nat
  | .clear => 0
  | .set => 1
  | .setForNext => 2

def PartnerView.num : PartnerView → Nat
  | .up => 1
  | .down => 2

/-- Window start, window end and window W: ten bytes, zero when absent (R186). -/
def windowBytes : Option Window → List Byte
  | some w => stampBytes w.start ++ stampBytes w.stop ++ be 2 w.width
  | none => be 10 0

/-- The last beacon: seven bytes, zero when absent (R186). -/
def lastBeaconBytes : Option LastBeacon → List Byte
  | some b => be 2 b.seq.toNat ++ be 1 b.view.num ++ stampBytes b.stamp
  | none => be 7 0

/-- Status sections 1 and 2, a path: 27 bytes (R186). -/
def pathSection (x : Path) : List Byte :=
  be 1 x.state.num ++ be 1 (bit x.linkUp 0)
    ++ be 1 (match x.cause with
      | none => 0
      | some c => c.num)
    ++ be 2 x.w ++ be 1 x.m
    ++ be 1 (bit x.window.isSome 0 + bit x.last.isSome 1 + bit x.rejoinKey 2 + bit x.readmitKey.isSome 3)
    ++ be 1 (match x.readmitKey with
      | none => 0
      | some c => clientNum c)
    ++ windowBytes x.window ++ be 1 x.seen.num ++ be 1 x.miss ++ lastBeaconBytes x.last

/-- One namespace id of status sections 3 and 4: 9 bytes; the policy byte is carried whether or not the id is installed (R186;
log entry 22). -/
def State.namespaceBytes (s : State) (id : Nat) : List Byte :=
  (match s.namespaceById id with
    | some n => be 1 (128 + n.id) ++ be 6 n.size ++ be 1 (if n.blockSize = 512 then 1 else 2)
    | none => be 8 0) ++ be 1 (s.policy id).num

/-- The status sections 0..4 (R186). -/
def State.statusSection (s : State) : Nat → Option (List Byte)
  | 0 => some s.partSection
  | 1 => some (pathSection (s.path .A))
  | 2 => some (pathSection (s.path .B))
  | 3 => some (s.namespaceBytes 0 ++ s.namespaceBytes 1 ++ s.namespaceBytes 2 ++ s.namespaceBytes 3)
  | 4 => some (s.namespaceBytes 4 ++ s.namespaceBytes 5 ++ s.namespaceBytes 6 ++ s.namespaceBytes 7)
  | _ => none

/-- All five status sections in order, 150 bytes (R186). -/
def State.fullStatus (s : State) : List Byte :=
  s.partSection ++ pathSection (s.path .A) ++ pathSection (s.path .B)
    ++ (s.namespaceBytes 0 ++ s.namespaceBytes 1 ++ s.namespaceBytes 2 ++ s.namespaceBytes 3)
    ++ (s.namespaceBytes 4 ++ s.namespaceBytes 5 ++ s.namespaceBytes 6 ++ s.namespaceBytes 7)

/-- A stamp field of a takeover record. An absent stamp is sent as zero, which the spec leaves open: DESIGN CHOICE, log entry 37. -/
def optStampBytes : Option Stamp → List Byte
  | some x => stampBytes x
  | none => be 4 0

/-- The takeover record: 24 bytes, all zero when the record is absent (R186). -/
def takeoverBytes : Option Takeover → List Byte
  | none => be 24 0
  | some t =>
    be 1 (bit true 0 + bit t.lostAt.isSome 1 + bit t.drainBegan.isSome 2 + bit t.fencedAt.isSome 3) ++ be 1 t.cause.num
      ++ be 1 (match t.survivor with
        | none => 0
        | some p => portNum p)
      ++ optStampBytes t.lostAt ++ optStampBytes t.drainBegan ++ optStampBytes t.fencedAt
      ++ be 1 t.withdrawn ++ be 1 t.completed ++ be 1 t.aborted ++ be 1 t.abandoned ++ be 1 t.answeredLate
      ++ be 2 t.transferred ++ be 2 t.orphaned

/-- W, M and the start stamp of the window in progress: the GOOD result of JOIN and REJOIN (R98, R185). -/
def membershipBytes (x : Path) : List Byte :=
  be 2 x.w ++ be 1 x.m ++ (match x.window with
    | some w => stampBytes w.start
    | none => be 4 0)

end Sys2Proof.Machine
end

