-- ==== Sys2Proof/Machine/Notices.lean ====
section
/-! DEFINITION. The notice unit (chapter 8): recording, alert frames, and TAKE-NOTICE, ACK-NOTICE's own part and SET-THRESHOLD. -/

namespace Sys2Proof.Machine

/-- The target of a client (chapter 8). -/
def State.target (s : State) : Client → Target
  | .port p => s.notices.ports.get p
  | .mgmt => s.notices.mgmt

def State.withTarget (s : State) (c : Client) (t : Target) : State :=
  match c with
  | .port p => s.withNotices { s.notices with ports := s.notices.ports.set p t }
  | .mgmt => s.withNotices { s.notices with mgmt := t }

/-- The pending entry of a kind (R155: at most one). -/
def Target.find (t : Target) (k : NoticeKind) : Option Notice := t.pending.find? fun n => n.kind = k

/-- A recording at a target (R155): a new entry with occurrences 1, or one more occurrence, stopping at 255, with the new detail. -/
def Target.record (t : Target) (k : NoticeKind) (d : Detail) : Target :=
  match t.find k with
  | none => { t with pending := t.pending ++ [{ kind := k, occurrences := 1, detail := d }] }
  | some _ =>
    { t with pending := t.pending.map fun n => if n.kind = k then { n with occurrences := min 255 (n.occurrences + 1), detail := d } else n }

/-- The alert frame of a kind pending at a port: class 6, tag 0, 6 bytes (R157, R183). -/
def State.alertFrame (s : State) (p : Port) (k : NoticeKind) (n : Notice) : State :=
  s.sendFrame p 6 0 (be 1 k.num ++ be 1 (s.priority k) ++ be 1 n.occurrences ++ detailBytes n.detail)

/-- Records a notice for a port target that is a member; a recording that qualifies sends one alert frame (R153, R157). -/
def State.recordAtPort (s : State) (k : NoticeKind) (d : Detail) (p : Port) : State :=
  if s.isMember p && s.priority k != 0 then
    let t := (s.target (.port p)).record k d
    let s1 := s.withTarget (.port p) t
    match t.find k with
    | some n => if s.qualifies t k then s1.alertFrame p k n else s1
    | none => s1
  else s

/-- Records a notice for MGMT: UNRESOLVED-CLEARED and DRIVE-SILENT always, the other kinds by their copy flag (R153). -/
def State.recordAtMgmt (s : State) (k : NoticeKind) (d : Detail) : State :=
  if s.priority k != 0 && (s.copyFlag k || k = .unresolvedCleared || k = .driveSilent) then
    s.withTarget .mgmt ((s.target .mgmt).record k d)
  else s

/-- Raises a notice for the port targets given, and for MGMT (R153). -/
def State.raise (s : State) (k : NoticeKind) (d : Detail) (targets : List Port) : State :=
  (targets.foldl (fun x p => x.recordAtPort k d p) s).recordAtMgmt k d

/-- Entry to DRAINING clears the port's target; the threshold is kept (R163). A controller reset clears every target so (R165). -/
def Target.cleared (t : Target) : Target := { t with pending := [], inService := none, level := 0 }

/-- The higher of two pending entries: the higher configured priority, and among equals the lower kind number (R159). -/
def State.higher (s : State) (x y : Notice) : Notice :=
  if s.priority x.kind < s.priority y.kind then y
  else if s.priority x.kind = s.priority y.kind && y.kind.num < x.kind.num then y
  else x

/-- The top entry of a pending set, threshold and level regardless (R159). -/
def State.topNotice (s : State) (t : Target) : Option Notice :=
  match t.pending with
  | [] => none
  | n :: ns => some (ns.foldl s.higher n)

/-- TAKE-NOTICE (R159). -/
def State.takeNotice (c : Client) (tag : Byte) (s : State) : State :=
  let t := s.target c
  match s.topNotice t with
  | none => s.respond c tag 9 .noNotice []
  | some n =>
    (s.withTarget c { t with inService := some n.kind, level := s.priority n.kind }).respond c tag 9 .good
      (be 1 n.kind.num ++ be 1 (s.priority n.kind) ++ be 1 n.occurrences ++ detailBytes n.detail ++ be 1 t.pending.length)

/-- A target without its entry of a kind; if that kind was in service, the record becomes none and the level 0 (R160). -/
def Target.acknowledge (t : Target) (k : NoticeKind) : Target :=
  let rest := t.pending.filter fun n => n.kind != k
  if t.inService = some k then { t with pending := rest, inService := none, level := 0 } else { t with pending := rest }

/-- ACK-NOTICE of a pending kind: the entry is removed and the answer says what is still pending (R160). -/
def State.acknowledge (c : Client) (tag : Byte) (k : NoticeKind) (s : State) : State :=
  let t := (s.target c).acknowledge k
  (s.withTarget c t).respond c tag 10 .good
    (be 1 t.pending.length ++ be 1 (bit (t.pending.any fun n => s.qualifies t n.kind) 0))

/-- SET-THRESHOLD (R162). -/
def State.setThreshold (c : Client) (tag : Byte) (v : Nat) (s : State) : State :=
  if v ≤ 15 then (s.withTarget c { s.target c with threshold := v }).respond c tag 11 .good (be 1 v)
  else s.respond c tag 11 .malformed []

/-- TAKE-NOTICE from a server or from management (R95, R159, R190). -/
def execTakeNotice (c : Client) (s : State) : Out :=
  .next (match s.front c with
    | some (tag, .takeNotice) => s.atOnce c tag .takeNotice (State.takeNotice c tag)
    | _ => s)

/-- SET-THRESHOLD from a server or from management (R95, R162, R190). -/
def execSetThreshold (c : Client) (s : State) : Out :=
  .next (match s.front c with
    | some (tag, .setThreshold v) => s.atOnce c tag (.setThreshold v) (State.setThreshold c tag v)
    | _ => s)

end Sys2Proof.Machine
end

