-- ==== Sys2Proof/Machine/Admission.lean ====
section
/-! DEFINITION. The admission unit and the flight table (chapter 3): coverage, the seven checks, waiting for room, departures, and the
meanings of READ, WRITE, TRIM and FLUSH. -/

namespace Sys2Proof.Machine

/-! ## Coverage (R57 to R60) -/

/-- A segment of a command's range, by its first and last block (R57). -/
inductive Segment where
  | holding (h : Holding) (first last : Nat)
  | uncovered (first last : Nat)
  deriving DecidableEq, Repr, Inhabited

/-- The segments of the blocks `pos` to `stop`, given the holdings that overlap them in start order (R57). -/
def segmentsFrom (pos stop : Nat) : List Holding → List Segment
  | [] => if pos ≤ stop then [.uncovered pos stop] else []
  | h :: hs =>
    (if pos < h.start then [.uncovered pos (h.start - 1)] else [])
      ++ .holding h (max pos h.start) (min stop h.last) :: segmentsFrom (h.last + 1) stop hs

/-- The holdings of a namespace whose first block is at or before `last` and whose last block is at or after `first`, in start order
(R21, R57). -/
def State.rangeHoldings (s : State) (ns first last : Nat) : List Holding :=
  s.table.holdings.filter fun h => h.ns = ns && h.start ≤ last && first ≤ h.last

/-- The coverage of a range (R57). -/
def State.coverage (s : State) (ns first last : Nat) : List Segment := segmentsFrom first last (s.rangeHoldings ns first last)

def Segment.isHolding : Segment → Bool
  | .holding .. => true
  | .uncovered .. => false

/-- A WRITE or TRIM segment judged (R59): `none` passes. -/
def judgeWrite (p : Port) (policy : Policy) : Segment → Option AnswerCode
  | .holding h _ _ =>
    match h.tenure with
    | .held o => if o = p then none else some .notOwner
    | .releasing .. => some .notOwner
    | .handing .. => some .notOwner
    | .pending _ => some .transferPending
    | .orphaned _ => some .notOwner
  | .uncovered _ _ =>
    match policy with
    | .openArea => none
    | .readOnly => some .closedArea
    | .closed => some .closedArea

/-- A READ segment judged (R60): `none` passes. -/
def judgeRead (p : Port) (policy : Policy) : Segment → Option AnswerCode
  | .holding h _ _ =>
    match h.tenure with
    | .pending _ => some .transferPending
    | t => if t.owner = some p || h.access = .writeGuard then none else some .notOwner
  | .uncovered _ _ =>
    match policy with
    | .openArea => none
    | .readOnly => none
    | .closed => some .closedArea

/-- Check 5 for a command with a range: SPAN above 4 holding segments, else the first segment that fails (R58). -/
def State.checkCoverage (s : State) (p : Port) (c : IoCommand) (segments : List Segment) : Option AnswerCode :=
  if 4 < (segments.filter Segment.isHolding).length then some .span
  else segments.findSome? (if c.kind = .read then judgeRead p (s.policy c.ns) else judgeWrite p (s.policy c.ns))

/-- Check 6: a supplied generation needs one segment, a holding segment, whose generation it equals (R63). -/
def checkGeneration (c : IoCommand) (segments : List Segment) : Option AnswerCode :=
  match c.gen, segments with
  | none, _ => none
  | some g, [.holding h _ _] => if h.gen = g then none else some .stale
  | some _, _ => some .stale

/-! ## The checks in order (R54) -/

/-- Check 1: the table of R55. -/
def checkPath (st : PathState) (kind : IoKind) : Option AnswerCode :=
  match st with
  | .outside => some .notMember
  | .member => none
  | .suspect => none
  | .lost => if kind = .read then none else some .fenced
  | _ => some .fenced

/-- Check 4: the range lies inside the namespace, computed exactly (R56). -/
def checkRange (n : Namespace) (c : IoCommand) : Option AnswerCode :=
  if c.start < n.size ∧ c.start + c.count - 1 < n.size then none else some .outOfRange

/-- Checks 1 to 6 (R54): `none` passes. A FLUSH is judged by its namespace alone (R61). -/
def State.checkCommand (s : State) (p : Port) (c : IoCommand) : Option AnswerCode :=
  match checkPath (s.path p).state c.kind with
  | some code => some code
  | none =>
    if s.part.state != .ready then some .notReady
    else
      match s.namespaceById c.ns with
      | none => some .badNamespace
      | some n =>
        if c.kind = .flush then none
        else
          match checkRange n c with
          | some code => some code
          | none =>
            let segments := s.coverage c.ns c.start (c.start + c.count - 1)
            match s.checkCoverage p c segments with
            | some code => some code
            | none => checkGeneration c segments

/-- Check 7: the port is below its quota and the flight table has room (R64). -/
def State.hasRoom (s : State) (p : Port) : Bool := s.portCount p < s.settings.quotas.get p && s.flight.entries.length < 64

/-! ## Admission (R52, R68) -/

/-- The flight entry of an admitted command: WAITING, with the lowest free index; a FLUSH has no range (R68). -/
def State.newEntry (s : State) (p : Port) (tag : Byte) (c : IoCommand) : Entry where
  index := (firstFree (s.flight.entries.map (·.index)) 64 0).getD 0
  port := p
  tag := tag
  kind := c.kind
  ns := c.ns
  range := if c.kind = .flush then none else some { start := c.start, count := c.count }
  stage := .waiting
  xfer := .none

/-- Makes the flight entry of an admitted command, last in arrival order (R68, R69). -/
def State.admitted (s : State) (p : Port) (tag : Byte) (c : IoCommand) : State :=
  s.withFlight { s.flight with entries := s.flight.entries ++ [s.newEntry p tag c] }

/-- The three outcomes of a judgment of the command at the head: refused, admitted, or waiting there for room (R52, R65). -/
def State.judgeHead (s : State) (p : Port) (tag : Byte) (c : IoCommand) : State :=
  match s.checkCommand p c with
  | some code => (s.takeHead p).reply p tag code
  | none => if s.hasRoom p then (s.takeHead p).admitted p tag c else s.withPort p { s.port p with roomWait := true }

/-- The command that waits for room at the head of a port's intake, if one does (R65). -/
def State.waitingHead (s : State) (p : Port) : Option (Byte × IoCommand) := if (s.port p).roomWait then s.headIo p else none

/-- A command that waits for room is judged again from check 1 (R65). -/
def State.rejudge (s : State) (p : Port) : State :=
  match s.waitingHead p with
  | some (tag, c) => s.judgeHead p tag c
  | none => s

/-- The waiting head command of port `p` would be admitted now. -/
def State.wouldAdmit (s : State) (p : Port) : Bool :=
  match s.waitingHead p with
  | some (_, c) => (s.checkCommand p c).isNone && s.hasRoom p
  | none => false

/-- Both waiting head commands judged again at a departure, the space turn's port first. When the table was full and both waited, an
admission of the first moves the turn (R65, R66). -/
def State.rejudgeBoth (s : State) (full : Bool) : State :=
  let p := s.flight.spaceTurn
  let moves := full && (s.waitingHead p).isSome && (s.waitingHead p.partner).isSome && s.wouldAdmit p
  let s1 := s.rejudge p
  let s2 := if moves then s1.withFlight { s1.flight with spaceTurn := p.partner } else s1
  s2.rejudge p.partner

/-! ## Departures (R71, R74) -/

/-- The kind of completion a RELEASING or HANDING holding waits for. -/
def Tenure.dueKind : Tenure → Option DueKind
  | .releasing .. => some .release
  | .handing .. => some .handOver
  | _ => none

/-- The completion of a holding of port `p` in RELEASING or HANDING. -/
def Holding.completion (h : Holding) (p : Port) : Option Due :=
  match h.tenure.dueKind with
  | some k => if h.tenure.owner = some p then some { id := h.id, gen := h.gen, port := p, kind := k } else none
  | none => none

/-- The completion names this record (R25). Log entry 17. -/
def Due.names (d : Due) (h : Holding) : Bool := h.id = d.id && h.gen = d.gen

/-- The waits that the departure of entry `e` ended, in table order: RELEASING and HANDING holdings of its port that it overlapped, and
over which no write-class entry of that port remains, a completion due already or not (R25, R36; log entry 16). -/
def State.endedWaits (s : State) (e : Entry) : List Due :=
  if e.kind.writeClass then
    s.table.holdings.filterMap fun h =>
      if e.overlaps h && !s.writesOver e.port h then h.completion e.port else none
  else []

/-- An entry leaves the flight table: waits it ended become due completions, and then waiting head commands are judged again (R74).
DESIGN CHOICE: the waits are tested first, so that a FLUSH admitted at this departure does not hold them back. Log entry 38. -/
def State.depart (s : State) (e : Entry) : State :=
  let full := decide (64 ≤ s.flight.entries.length)
  let s1 := s.withFlight { s.flight with entries := s.flight.entries.filter fun x => x.index != e.index }
  let s2 := s1.withTable { s1.table with due := s1.table.due ++ s1.endedWaits e }
  s2.rejudgeBoth full

/-- A WAITING entry is withdrawn: answered FENCED, and it departs (R71). -/
def State.withdraw (s : State) (e : Entry) : State := (s.reply e.port e.tag .fenced).depart e

/-- Withdraws entries in arrival order (R71; log entry 15). -/
def State.withdrawAll (s : State) (es : List Entry) : State := es.foldl State.withdraw s

/-- The WAITING entries of a port, those of write class alone or of every kind (R71). -/
def State.waitingEntries (s : State) (p : Port) (writesOnly : Bool) : List Entry :=
  s.flight.entries.filter fun e => e.port = p && e.stage.isWaiting && (!writesOnly || e.kind.writeClass)

/-! ## READ, WRITE, TRIM, FLUSH -/

/-- A command taken from the intake head: NOT-READY outside READY (R95), else judged (R52). A command that waits for room is judged
again by the events of R65 only. -/
def State.takeCommand (s : State) (p : Port) (kind : IoKind) : State :=
  match s.headIo p with
  | some (tag, c) =>
    if c.kind = kind && !(s.port p).roomWait then
      if s.part.state != .ready then (s.takeHead p).reply p tag .notReady else s.judgeHead p tag c
    else s
  | none => s

/-- READ (R54, R60). -/
def execRead (p : Port) (s : State) : Out := .next (s.takeCommand p .read)

/-- WRITE (R54, R59). -/
def execWrite (p : Port) (s : State) : Out := .next (s.takeCommand p .write)

/-- TRIM (R54, R59). -/
def execTrim (p : Port) (s : State) : Out := .next (s.takeCommand p .trim)

/-- FLUSH (R54, R61). -/
def execFlush (p : Port) (s : State) : Out := .next (s.takeCommand p .flush)

end Sys2Proof.Machine
end

