-- ==== Sys2Proof/Machine/Takeover.lean ====
section
/-! DEFINITION. Losing and fencing a port: entry to LOST (R107), the drain (R119 to R127), the shedding walk (R128 to R130), and the meanings
of DRAIN_TIMER_EXPIRY, ABORT_TIMER_EXPIRY and WALK_STEP. -/

namespace Sys2Proof.Machine

/-! ## Entry to FENCED and the walk queue (R128, R130) -/

/-- The served port may enter FENCED: it has no PENDING holding, and no completion is due for any of its holdings (R128; log entry 17). -/
def State.walkOver (s : State) (p : Port) : Bool :=
  !(s.table.holdings.any fun h => h.isPendingOf p)
    && !(s.table.due.any fun d => s.table.holdings.any fun h => d.names h && (h.completion p).isSome)

/-- A parked RESIGN answer comes due with a code (R110, R130). -/
def State.settleResign (s : State) (p : Port) (code : AnswerCode) : State :=
  match (s.path p).parkedResign with
  | some tag => (s.withPath p { s.path p with parkedResign := none }).answer p tag 13 code []
  | none => s

/-- The path record at entry to FENCED (R130, changes 1 and 2). -/
def Path.fenced (x : Path) (now : Stamp) : Path :=
  { x with
    state := .fenced
    rejoinKey := false
    readmitKey := none
    takeover := x.takeover.map fun t => { t with fencedAt := some now } }

/-- Entry to FENCED (R130). -/
def State.enterFenced (s : State) (p : Port) : State :=
  let x := s.path p
  let s1 := s.withPath p (x.fenced s.clock.ms)
  let s2 := s1.withWalk (s1.walk.filter fun q => q != p)
  let transferred := (x.takeover.map (·.transferred)).getD 0
  let orphaned := (x.takeover.map (·.orphaned)).getD 0
  let s3 := s2.raise .takeoverDone { port := some p, value := transferred } [p.partner]
  let s4 := if 0 < orphaned then s3.raise .orphans { port := some p, value := orphaned } [p.partner] else s3
  s4.settleResign p .good

/-- Serves the ports of a walk queue in turn: each whose walk is over enters FENCED, and the next is served from that moment (R128). -/
def settleWalk : List Port → State → State
  | [], s => s
  | p :: rest, s => if s.walkOver p then settleWalk rest (s.enterFenced p) else s

/-- The test of R128. -/
def State.walkTest (s : State) : State := settleWalk s.walk s

/-! ## The drain (R119 to R127) -/

/-- A write-class entry of the port in SUBMITTED or ABORTING: what its drain waits for (R122). -/
def Entry.inDrain (e : Entry) (p : Port) : Bool := e.writeOf p && (e.stage.isSubmitted || e.stage.isAborting)

/-- The path record at the end of a drain (R126, changes 1 and 3). -/
def Path.shed (x : Path) : Path := { x with state := .shedding, drainTimer := none, abortTimer := none }

/-- The end of a drain (R126). -/
def State.endDrain (s : State) (p : Port) : State :=
  let s1 := s.withPath p (s.path p).shed
  let s2 := s1.withTable { s1.table with due := s1.table.due ++ s1.table.holdings.filterMap fun h => h.completion p }
  (s2.withWalk (s2.walk ++ [p])).walkTest

/-- The test of R122: the drain of a DRAINING port ends when its set is empty. -/
def State.drainTest (s : State) (p : Port) : State :=
  if (s.path p).state = .draining && !(s.flight.entries.any fun e => e.inDrain p) then s.endDrain p else s

/-- A new takeover record (R107, R119). DESIGN CHOICE: the survivor field is none until the entry to DRAINING sets it (R119, R132), so also
in the record of a port that is LOST, for which R107 names the cause, the stamps and the counts only. Log entry 43. -/
def Takeover.begin (cause : Cause) (lostAt : Option Stamp) (withdrawn : Nat) : Takeover where
  cause := cause
  survivor := none
  lostAt := lostAt
  drainBegan := none
  fencedAt := none
  withdrawn := withdrawn
  completed := 0
  aborted := 0
  abandoned := 0
  answeredLate := 0
  transferred := 0
  orphaned := 0

/-- The port's HELD holdings become PENDING (R121). -/
def Holding.toPending (p : Port) (h : Holding) : Holding := if h.tenure = .held p then h.withTenure (.pending p) else h

/-- The path record at entry to DRAINING (R119): the loss cause is taken, or kept from LOST (R108); the drain timer is set to 2^k
microseconds (R123). -/
def Path.drained (x : Path) (cause : Cause) (survivor : Option Port) (now : Stamp) (k : Nat) : Path :=
  let record := if x.state = .lost then x.takeover else some (Takeover.begin cause none 0)
  { x with
    state := .draining
    cause := if x.state = .lost then x.cause else some cause
    window := none
    seen := .clear
    takeover := record.map fun t => { t with survivor := survivor, drainBegan := some now }
    drainTimer := some (2 ^ k) }

/-- The first changes of the entry to DRAINING (R119): path and takeover record, PENDING holdings (R121), the notice target (R163). -/
def State.drainBegun (s : State) (p : Port) (cause : Cause) : State :=
  let survivor := if s.isMember p.partner then some p.partner else none
  let s1 := s.withPath p ((s.path p).drained cause survivor s.clock.ms s.settings.drainExp)
  let s2 := s1.withTable { s1.table with holdings := s1.table.holdings.map (Holding.toPending p) }
  s2.withTarget (.port p) (s2.target (.port p)).cleared

/-- Write-class withdrawals are added to the withdrawn count (R120). -/
def Takeover.countWithdrawn (es : List Entry) (t : Takeover) : Takeover :=
  { t with withdrawn := t.withdrawn + (es.filter fun e => e.kind.writeClass).length }

/-- Entry to DRAINING (R119): the first changes, the waiting head (R65), the withdrawals with their count (R120), and one test of the
drain's end. The order within the event is log entry 18's. -/
def State.enterDraining (s : State) (p : Port) (cause : Cause) : State :=
  let s1 := (s.drainBegun p cause).rejudge p
  let es := s1.waitingEntries p false
  ((s1.withdrawAll es).onTakeover p (Takeover.countWithdrawn es)).drainTest p

/-- A table request that was waiting at the arbiter stops waiting when the port's path no longer accepts it, and is answered (R22). -/
def State.dropRefused (s : State) (p : Port) (was : Bool) : State :=
  match s.front (.port p) with
  | some (tag, r) =>
    match requestGate (s.path p).state r with
    | some code => if was then (s.takeHead p).answer p tag r.code code [] else s
    | none => s
  | none => s

/-- Takes another agent's port to DRAINING; a request of that port waiting at the arbiter is answered (R22, R119). -/
def State.fence (s : State) (p : Port) (cause : Cause) : State :=
  (s.enterDraining p cause).dropRefused p (s.clientWaits (.port p))

/-! ## Entry to LOST (R107) -/

/-- The path record at entry to LOST (R101, R107, R108). -/
def Path.lost (x : Path) (cause : Cause) : Path := { x with state := .lost, cause := some cause, window := none, seen := .clear }

/-- A new takeover record replaces any earlier one (R132). -/
def Path.withTakeover (x : Path) (t : Takeover) : Path := { x with takeover := some t }

/-- Entry to LOST (R107): the cause, the waiting head (R65), the withdrawals, the takeover record, PARTNER-LOST, and a table request the
path no longer accepts (R22). DESIGN CHOICE: the port's own waiting head command is judged before the withdrawals, so that a refused WRITE
takes no part in the turn for the places they free (R66). Log entry 39. -/
def State.enterLost (s : State) (p : Port) (cause : Cause) : State :=
  let s1 := (s.withPath p ((s.path p).lost cause)).rejudge p
  let es := s1.waitingEntries p true
  let s2 := s1.withdrawAll es
  let s3 := s2.withPath p ((s2.path p).withTakeover (Takeover.begin cause (some s.clock.ms) es.length))
  (s3.raise .partnerLost { port := none, value := cause.num } [p.partner]).dropRefused p (s.clientWaits (.port p))

/-! ## The timers of a drain -/

/-- An ABORT is requested for an entry that satisfies a test: a SUBMITTED one becomes ABORTING (R81). -/
def Entry.requestAbort (f : Entry → Bool) (e : Entry) : Entry :=
  match e.stage with
  | .submitted k => if f e then { e with stage := .aborting k } else e
  | _ => e

/-- The slot that an entry's ABORT request adds to the abort list (R81). -/
def Entry.abortSlot (f : Entry → Bool) (e : Entry) : Option (Fin 32) :=
  match e.stage with
  | .submitted k => if f e then some k else none
  | _ => none

/-- The media port takes ABORT requests for the SUBMITTED entries that satisfy a test: each becomes ABORTING and its slot joins the tail
of the abort list (R81; the order within one event is log entry 15's). -/
def State.requestAborts (s : State) (f : Entry → Bool) : State :=
  (s.withFlight { s.flight with entries := s.flight.entries.map (Entry.requestAbort f) }).withMedia
    { s.media with abortList := s.media.abortList ++ s.flight.entries.filterMap (Entry.abortSlot f) }

/-- The path record at the expiry of its drain timer: the timer is off, and the abort timer is set when the port drains (R123). -/
def Path.drainExpired (x : Path) (a : Nat) : Path :=
  { x with drainTimer := none, abortTimer := if x.state = .draining then some (2 ^ a) else x.abortTimer }

/-- DRAIN_TIMER_EXPIRY (R123): ABORTs are requested for the port's write-class entries still SUBMITTED, and the abort timer is set to
2^a microseconds. Without an expired drain timer nothing is due. -/
def execDrainTimerExpiry (p : Port) (s : State) : Out :=
  .next (
    if (s.path p).drainTimer = some 0 then
      let s1 := s.withPath p ((s.path p).drainExpired s.settings.abortExp)
      if (s.path p).state = .draining then s1.requestAborts fun e => e.writeOf p else s1
    else s)

/-- The path record at the expiry of its abort timer. -/
def Path.abortExpired (x : Path) : Path := { x with abortTimer := none }

/-- A write-class entry of the port in ABORTING becomes ABANDONED; it keeps its slot (R124). -/
def Entry.abandon (p : Port) (e : Entry) : Entry :=
  match e.stage with
  | .aborting k => if e.writeOf p then { e with stage := .abandoned k } else e
  | _ => e

/-- ABORT_TIMER_EXPIRY (R124): the port's ABORTING write-class entries become ABANDONED and are counted, and the drain ends. Without an
expired abort timer nothing is due. -/
def execAbortTimerExpiry (p : Port) (s : State) : Out :=
  .next (
    if (s.path p).abortTimer = some 0 then
      let s1 := s.withPath p (s.path p).abortExpired
      if (s.path p).state = .draining then
        let count := (s.flight.entries.filter fun e => e.writeOf p && e.stage.isAborting).length
        let s2 := s1.withFlight { s1.flight with entries := s1.flight.entries.map (Entry.abandon p) }
        (s2.onTakeover p fun t => { t with abandoned := t.abandoned + count }).endDrain p
      else s1
    else s)

/-! ## The shedding walk (R129) -/

/-- The holding walked first of two: the higher rank, and among equal ranks the lower id (R6, R129). -/
def walkedFirst (x y : Holding) : Holding :=
  if x.rank < y.rank then y
  else if x.rank = y.rank && y.id < x.id then y
  else x

/-- The PENDING holding of port `p` that a walk step takes (R129). -/
def State.walkChoice (s : State) (p : Port) : Option Holding :=
  match s.table.holdings.filter fun h => h.isPendingOf p with
  | [] => none
  | h :: hs => some (hs.foldl walkedFirst h)

/-- The holding would be transferred: not unresolved, heir PARTNER, the partner a member (R129). -/
def State.transferable (s : State) (p : Port) (h : Holding) : Bool := !s.unresolved h && h.heir = .partner && s.isMember p.partner

/-- One walk step on holding `h` of port `p` (R129): transferred with a new generation, or orphaned. -/
def State.walkOne (s : State) (p : Port) (h : Holding) : State :=
  match s.table.gen with
  | some g =>
    if s.transferable p h then
      ((s.setHolding h.id fun x => x.grantedTo p.partner g).advanceGen g).onTakeover p
        fun t => { t with transferred := t.transferred + 1 }
    else
      (s.setHolding h.id fun x => x.withTenure (.orphaned p)).onTakeover p fun t => { t with orphaned := t.orphaned + 1 }
  | none =>
    (s.setHolding h.id fun x => x.withTenure (.orphaned p)).onTakeover p fun t => { t with orphaned := t.orphaned + 1 }

/-- WALK_STEP (R129): performed when the arbiter grants the internal source and no completion is due (R25); the entry to FENCED is tested
after it (R128). -/
def execWalkStep (s : State) : Out :=
  .next (
    match s.table.due, s.walk with
    | [], p :: _ =>
      if s.grantee = some .internal then
        match s.walkChoice p with
        | some h => ((s.granted .internal).walkOne p h).walkTest
        | none => s
      else s
    | _, _ => s)

end Sys2Proof.Machine
end

