-- ==== Sys2Proof/Machine/Ownership.lean ====
section
/-! DEFINITION. The ownership requests (chapter 2): the meanings of ACQUIRE, RELEASE, HAND_OVER, SPLIT, SET_HEIR, ADOPT, ADOPT_FOR, DISSOLVE,
QUERY, LIST, RELEASE_COMPLETION and HAND_OVER_COMPLETION. -/

namespace Sys2Proof.Machine

/-! ## The id checks (R29) -/

/-- The checks of RELEASE and HAND-OVER (with the generation) and of SPLIT and SET-HEIR (without): steps 1 to 5 of R29, HELD needed. -/
def State.ownedHolding (s : State) (p : Port) (id : Nat) (gen : Option Nat) : Except AnswerCode Holding :=
  match s.holdingById id with
  | none => .error .noHolding
  | some h =>
    match h.tenure with
    | .pending _ => .error .transferPending
    | t =>
      if t.owner = some p then
        match gen with
        | some g => if h.gen = g then (if t = .held p then .ok h else .error .wrongState) else .error .stale
        | none => if t = .held p then .ok h else .error .wrongState
      else .error .noHolding

/-- The checks of ADOPT, ADOPT-FOR and DISSOLVE: an ORPHANED holding is needed (R29). -/
def State.orphanHolding (s : State) (id : Nat) (pendingCode : AnswerCode) : Except AnswerCode Holding :=
  match s.holdingById id with
  | none => .error .noHolding
  | some h =>
    match h.tenure with
    | .pending _ => .error pendingCode
    | .orphaned _ => .ok h
    | _ => .error .wrongState

/-! ## ACQUIRE (R30 to R34) -/

/-- Places a record at its ordered position: ascending namespace, then ascending start (R15). -/
def insertHolding (h : Holding) : List Holding → List Holding
  | [] => [h]
  | x :: xs => if h.ns < x.ns ∨ (h.ns = x.ns ∧ h.start < x.start) then h :: x :: xs else x :: insertHolding h xs

/-- The lowest id that no record holds (R17). -/
def State.freeId (s : State) : Nat := (firstFree (s.table.holdings.map (·.id)) 1024 0).getD 0

/-- The records that meet a range, in start order (R21). -/
def State.holdingsOver (s : State) (ns start length : Nat) : List Holding := s.table.holdings.filter fun h => h.meets ns start length

/-- The first record over the range that the requester owns: what check 4 of R30 fails on. -/
def State.ownOver (s : State) (p : Port) (ns start length : Nat) : Option Holding :=
  (s.holdingsOver ns start length).find? fun h => h.tenure.owner = some p

/-- The first record over the range that the partner owns. -/
def State.partnerOver (s : State) (p : Port) (ns start length : Nat) : Option Holding :=
  (s.holdingsOver ns start length).find? fun h => h.tenure.owner = some p.partner

/-- The first record over the range that is not the requester's: what check 5 of R30 fails on. -/
def State.otherOver (s : State) (p : Port) (ns start length : Nat) : Option Holding :=
  (s.holdingsOver ns start length).find? fun h => h.tenure.owner != some p

/-- Checks 2 to 8 of R30, with the record that an OVERLAP or CONFLICT answer carries (R31); `none` when all pass. -/
def State.acquireRefusal (s : State) (p : Port) (ns start length : Nat) : Option (AnswerCode × Option Holding) :=
  match s.namespaceById ns with
  | none => some (.badNamespace, none)
  | some n =>
    if length = 0 ∨ n.size < start + length then some (.outOfRange, none)
    else
      match s.ownOver p ns start length with
      | some h => some (.overlap, some h)
      | none =>
        match s.otherOver p ns start length with
        | some h => some (.conflict, some h)
        | none =>
          if s.flight.entries.any fun e => e.writeOf p.partner && e.meets ns start length then some (.busyRange, none)
          else if 1024 ≤ s.table.holdings.length then some (.tableFull, none)
          else if s.table.gen.isNone then some (.generationSpent, none)
          else none

/-- The CONTENTION notice of an ACQUIRE answered CONFLICT: for a member partner that owns a holding in the way (R32). -/
def State.contention (s : State) (p : Port) (ns start length : Nat) : State :=
  match s.partnerOver p ns start length with
  | some h => if s.isMember p.partner then s.raise .contention { port := none, value := h.id } [p.partner] else s
  | none => s

/-- The record an ACQUIRE makes (R34). -/
def State.newHolding (s : State) (p : Port) (ns start length : Nat) (access : Access) (heir : Heir) (rank : Nat) : Holding where
  id := s.freeId
  ns := ns
  start := start
  length := length
  access := access
  heir := heir
  rank := rank
  gen := s.table.gen.getD 0
  tenure := .held p

/-- ACQUIRE at its grant (R30, R34). -/
def State.acquire (p : Port) (tag : Byte) (ns start length access heir rank : Nat) (s : State) : State :=
  match accessOf access, heirOf heir, rankOf rank with
  | some acc, some hr, some rk =>
    match s.acquireRefusal p ns start length with
    | some (code, blocker) =>
      let s1 := if code = .conflict then s.contention p ns start length else s
      s1.answer p tag 1 code (match blocker with
        | some h => s.holdingRecord h
        | none => [])
    | none =>
      let h := s.newHolding p ns start length acc hr rk
      let s1 := (s.withTable { s.table with holdings := insertHolding h s.table.holdings }).advanceGen h.gen
      s1.answer p tag 1 .good (s1.holdingRecord h)
  | _, _, _ => s.answer p tag 1 .malformed []

/-- ACQUIRE (R30). -/
def execAcquire (p : Port) (s : State) : Out :=
  .next (match s.front (.port p) with
    | some (tag, .acquire ns start length access heir rank) =>
      s.atTable (.port p) tag (.acquire ns start length access heir rank) (State.acquire p tag ns start length access heir rank)
    | _ => s)

/-! ## RELEASE (R35, R37) -/

/-- RELEASE at its grant (R35): retired at once, or RELEASING with its answer parked. -/
def State.release (p : Port) (tag : Byte) (id gen : Nat) (s : State) : State :=
  match s.ownedHolding p id (some gen) with
  | .error code => s.answer p tag 2 code []
  | .ok h =>
    if s.writesOver p h then s.setHolding id fun x => x.withTenure (.releasing p tag)
    else (s.retire id).answer p tag 2 .good []

/-- RELEASE (R35). -/
def execRelease (p : Port) (s : State) : Out :=
  .next (match s.front (.port p) with
    | some (tag, .release id gen) => s.atTable (.port p) tag (.release id gen) (State.release p tag id gen)
    | _ => s)

/-- The holding a due completion names, if it still exists (R25). -/
def State.dueHolding (s : State) (d : Due) : Option Holding := s.table.holdings.find? fun h => d.names h

/-- A completion leaves the queue and the internal source has had its turn (R25). -/
def State.takeDue (s : State) : State := (s.withTable { s.table with due := s.table.due.tail }).granted .internal

/-- The end of a RELEASING holding's wait: retired, and its parked GOOD comes due (R37). A completion that finds no RELEASING holding does
nothing. -/
def State.completeRelease (s : State) (d : Due) : State :=
  match s.dueHolding d with
  | some h =>
    match h.tenure with
    | .releasing o tag => (s.retire h.id).answer o tag 2 .good []
    | _ => s
  | none => s

/-- RELEASE_COMPLETION (R25, R37): the oldest due completion is a RELEASING holding's and the internal source is granted. -/
def execReleaseCompletion (s : State) : Out :=
  .next (match s.table.due with
    | d :: _ => if d.kind = .release ∧ s.grantee = some .internal then (s.takeDue.completeRelease d).walkTest else s
    | [] => s)

/-! ## HAND-OVER (R39 to R41) -/

/-- What a holding returned to its old owner enters: PENDING while the old owner is DRAINING or SHEDDING, else HELD (R40). -/
def returnTenure (st : PathState) (p : Port) : Tenure :=
  match st with
  | .draining => .pending p
  | .shedding => .pending p
  | _ => .held p

/-- The code of a hand-over that is not made, by the first condition of R40 that applies. -/
def State.handOverRefusal (s : State) (p : Port) (h : Holding) : Option AnswerCode :=
  if s.unresolved h then some .unresolved
  else if !s.isMember p.partner then some .partnerAbsent
  else if s.table.gen.isNone then some .generationSpent
  else none

/-- The completion of a hand-over of `p`'s holding (R40), its RECEIVED notice (R41) and its count in a takeover (R127). -/
def State.finishHandOver (s : State) (p : Port) (h : Holding) (tag : Byte) : State :=
  match s.handOverRefusal p h with
  | some code =>
    (s.setHolding h.id fun x => x.withTenure (returnTenure (s.path p).state p)).answer p tag 3 code []
  | none =>
    let g := s.table.gen.getD 0
    let s1 := (s.setHolding h.id fun x => x.grantedTo p.partner g).advanceGen g
    let s2 := if returnTenure (s.path p).state p = .pending p then
        s1.onTakeover p fun t => { t with transferred := t.transferred + 1 }
      else s1
    let s3 := s2.raise .received { port := none, value := h.id } [p.partner]
    s3.answer p tag 3 .good (s3.holdingRecord (h.grantedTo p.partner g))

/-- HAND-OVER at its grant (R39): completed at once, or HANDING with its answer parked. -/
def State.handOver (p : Port) (tag : Byte) (id gen : Nat) (s : State) : State :=
  match s.ownedHolding p id (some gen) with
  | .error code => s.answer p tag 3 code []
  | .ok h =>
    if !s.isMember p.partner then s.answer p tag 3 .partnerAbsent []
    else if s.writesOver p h then s.setHolding id fun x => x.withTenure (.handing p tag)
    else s.finishHandOver p h tag

/-- HAND-OVER (R39). -/
def execHandOver (p : Port) (s : State) : Out :=
  .next (match s.front (.port p) with
    | some (tag, .handOver id gen) => s.atTable (.port p) tag (.handOver id gen) (State.handOver p tag id gen)
    | _ => s)

/-- A completion after an earlier one of the same wait: it keeps its place in the queue and names no holding, by the generation 0, which
no grant gives (R19, R25). DEDUCED: log entry 17. -/
def Due.spend (d x : Due) : Due := if x.id = d.id && x.gen = d.gen then { x with gen := 0 } else x

/-- The wait that `d` was due for is over: the other completions of it do nothing when granted (R25). -/
def State.spendDue (s : State) (d : Due) : State := s.withTable { s.table with due := s.table.due.map d.spend }

/-- A due completion of a HANDING holding (R40); one that finds no HANDING holding does nothing (R25). -/
def State.completeHandOver (s : State) (d : Due) : State :=
  match s.dueHolding d with
  | some h =>
    match h.tenure with
    | .handing o tag => (s.spendDue d).finishHandOver o h tag
    | _ => s
  | none => s

/-- HAND_OVER_COMPLETION (R25, R40): the oldest due completion is a HANDING holding's and the internal source is granted. -/
def execHandOverCompletion (s : State) : Out :=
  .next (match s.table.due with
    | d :: _ => if d.kind = .handOver ∧ s.grantee = some .internal then (s.takeDue.completeHandOver d).walkTest else s
    | [] => s)

/-! ## SPLIT and SET-HEIR (R43, R44) -/

/-- The code a SPLIT of `h` at an offset is refused with after the id checks (R43). -/
def State.splitRefusal (s : State) (h : Holding) (offset : Nat) : Option AnswerCode :=
  if offset = 0 ∨ h.length ≤ offset then some .outOfRange
  else if 1024 ≤ s.table.holdings.length then some .tableFull
  else if s.table.gen.isNone then some .generationSpent
  else none

/-- The old record of a SPLIT: its id and generation are kept (R43). -/
def Holding.lowerHalf (h : Holding) (offset : Nat) : Holding := { h with length := offset }

/-- The new record of a SPLIT: every field not given is the old record's (R43). -/
def Holding.upperHalf (h : Holding) (offset id g : Nat) : Holding :=
  { h with id := id, start := h.start + offset, length := h.length - offset, gen := g }

/-- SPLIT at its grant (R43). -/
def State.split (p : Port) (tag : Byte) (id offset : Nat) (s : State) : State :=
  match s.ownedHolding p id none with
  | .error code => s.answer p tag 4 code []
  | .ok h =>
    match s.splitRefusal h offset with
    | some code => s.answer p tag 4 code []
    | none =>
      let g := s.table.gen.getD 0
      let new := h.upperHalf offset s.freeId g
      let s1 := s.setHolding id fun x => x.lowerHalf offset
      let s2 := (s1.withTable { s1.table with holdings := insertHolding new s1.table.holdings }).advanceGen g
      s2.answer p tag 4 .good (s2.holdingRecord (h.lowerHalf offset) ++ s2.holdingRecord new)

/-- SPLIT (R43). -/
def execSplit (p : Port) (s : State) : Out :=
  .next (match s.front (.port p) with
    | some (tag, .split id offset) => s.atTable (.port p) tag (.split id offset) (State.split p tag id offset)
    | _ => s)

/-- The record with another heir and rank (R44). -/
def Holding.withHeir (h : Holding) (heir : Heir) (rank : Nat) : Holding := { h with heir := heir, rank := rank }

/-- SET-HEIR at its grant (R44), its fields checked first (R27). -/
def State.setHeir (p : Port) (tag : Byte) (id heir rank : Nat) (s : State) : State :=
  match heirOf heir, rankOf rank with
  | some hr, some rk =>
    match s.ownedHolding p id none with
    | .error code => s.answer p tag 5 code []
    | .ok h =>
      let s1 := s.setHolding id fun x => x.withHeir hr rk
      s1.answer p tag 5 .good (s1.holdingRecord (h.withHeir hr rk))
  | _, _ => s.answer p tag 5 .malformed []

/-- SET-HEIR (R44). -/
def execSetHeir (p : Port) (s : State) : Out :=
  .next (match s.front (.port p) with
    | some (tag, .setHeir id heir rank) => s.atTable (.port p) tag (.setHeir id heir rank) (State.setHeir p tag id heir rank)
    | _ => s)

/-! ## ADOPT, ADOPT-FOR and DISSOLVE (R45 to R47) -/

/-- An orphan given to port `p` (R45). -/
def Holding.adopted (h : Holding) (p : Port) (g : Nat) : Holding :=
  { h with tenure := .held p, gen := g, heir := .none, rank := 1 }

/-- ADOPT and ADOPT-FOR after their own first checks (R45, R46): client `c` is answered, port `p` adopts. -/
def State.adoptBy (c : Client) (tag : Byte) (echo : Nat) (p : Port) (id : Nat) (s : State) : State :=
  match s.orphanHolding id .transferPending with
  | .error code => s.respond c tag echo code []
  | .ok h =>
    if s.unresolved h then s.respond c tag echo .unresolved []
    else
      match s.table.gen with
      | none => s.respond c tag echo .generationSpent []
      | some g =>
        let s1 := (s.setHolding id fun x => x.adopted p g).advanceGen g
        s1.respond c tag echo .good (s1.holdingRecord (h.adopted p g))

/-- ADOPT (R45). -/
def execAdopt (p : Port) (s : State) : Out :=
  .next (match s.front (.port p) with
    | some (tag, .adopt id) => s.atTable (.port p) tag (.adopt id) (State.adoptBy (.port p) tag 6 p id)
    | _ => s)

/-- ADOPT-FOR at its grant (R46): the port field (R27), the port's membership, then the checks of ADOPT. -/
def State.adoptFor (port id : Nat) (s : State) : State :=
  match portOf port with
  | none => s.placeAnswer 18 .malformed []
  | some p => if s.isMember p then s.adoptBy .mgmt 0 18 p id else s.placeAnswer 18 .notMember []

/-- ADOPT-FOR (R46). -/
def execAdoptFor (s : State) : Out :=
  .next (match s.front .mgmt with
    | some (tag, .adoptFor port id) => s.atTable .mgmt tag (.adoptFor port id) (State.adoptFor port id)
    | _ => s)

/-- DISSOLVE at its grant (R47). -/
def State.dissolve (id : Nat) (s : State) : State :=
  match s.orphanHolding id .wrongState with
  | .error code => s.placeAnswer 19 code []
  | .ok h => if s.unresolved h then s.placeAnswer 19 .unresolved [] else (s.retire id).placeAnswer 19 .good []

/-- DISSOLVE (R47). -/
def execDissolve (s : State) : Out :=
  .next (match s.front .mgmt with
    | some (tag, .dissolve id) => s.atTable .mgmt tag (.dissolve id) (State.dissolve id)
    | _ => s)

/-! ## QUERY and LIST (R49, R50) -/

/-- The covering holding of a block (R21). -/
def State.lookup (s : State) (ns block : Nat) : Option Holding :=
  s.table.holdings.find? fun h => h.ns = ns && h.start ≤ block && block ≤ h.last

/-- QUERY at its grant (R49). -/
def State.query (c : Client) (tag : Byte) (ns block : Nat) (s : State) : State :=
  match s.namespaceById ns with
  | none => s.respond c tag 7 .badNamespace []
  | some n =>
    if n.size ≤ block then s.respond c tag 7 .outOfRange []
    else
      match s.lookup ns block with
      | some h => s.respond c tag 7 .good (be 1 1 ++ s.holdingRecord h)
      | none => s.respond c tag 7 .good (be 1 2 ++ be 1 (s.policy ns).num)

/-- QUERY from a server or from management (R49). -/
def execQuery (c : Client) (s : State) : Out :=
  .next (match s.front c with
    | some (tag, .query ns block) => s.atTable c tag (.query ns block) (State.query c tag ns block)
    | _ => s)

/-- The largest LIST max of a client's link (R50). -/
def listMax : Client → Nat
  | .port _ => 16
  | .mgmt => 2

/-- The records of a namespace whose last block is at or after a block, in start order (R50). -/
def State.recordsFrom (s : State) (ns block : Nat) : List Holding := s.table.holdings.filter fun h => h.ns = ns && block ≤ h.last

/-- The GOOD result of a LIST: count, flags, next from-block, records (R50, R185). -/
def State.listResult (s : State) (n : Namespace) (fromBlock max : Nat) : List Byte :=
  let records := s.recordsFrom n.id fromBlock
  let rest := records.drop max
  be 1 (records.take max).length ++ be 1 (bit (!rest.isEmpty) 0)
    ++ be 6 (match rest with
      | [] => n.size
      | h :: _ => h.start)
    ++ (records.take max).flatMap s.holdingRecord

/-- LIST at its grant (R50): the max first (R27), then namespace and from-block. -/
def State.list (c : Client) (tag : Byte) (ns fromBlock max : Nat) (s : State) : State :=
  if max = 0 ∨ listMax c < max then s.respond c tag 8 .malformed []
  else
    match s.namespaceById ns with
    | none => s.respond c tag 8 .badNamespace []
    | some n =>
      if n.size ≤ fromBlock then s.respond c tag 8 .outOfRange []
      else s.respond c tag 8 .good (s.listResult n fromBlock max)

/-- LIST from a server or from management (R50). -/
def execList (c : Client) (s : State) : Out :=
  .next (match s.front c with
    | some (tag, .list ns fromBlock max) => s.atTable c tag (.list ns fromBlock max) (State.list c tag ns fromBlock max)
    | _ => s)

end Sys2Proof.Machine
end

