-- ==== Sys2Proof/Machine/Paths.lean ====
section
/-! DEFINITION. The path supervisor (chapters 5 to 7): beacons, windows, joining, leaving, fencing, acknowledgment of a loss, and rejoin; the
meanings of BEACON, JOIN, RESIGN, FENCE_PARTNER, FORCE_FENCE, ACK_NOTICE, READMIT, REJOIN, LINK_DOWN, LINK_UP and WINDOW_END. -/

namespace Sys2Proof.Machine

/-! ## Beacons (R99, R100) -/

/-- The stamp's offset from the window start, modulo 2^32 (R166, R168). -/
def Window.offset (w : Window) (now : Stamp) : Nat := (now - w.start).toNat

/-- The seen flag after a valid beacon stamped `now` (R100): SET inside the window, SET-FOR-NEXT at its end not yet taken, and
SET-FOR-NEXT stays. Log entry 19. -/
def seenAfter (x : Path) (now : Stamp) : Seen :=
  match x.window with
  | none => x.seen
  | some w => if x.seen = .setForNext then .setForNext else if w.offset now < w.width then .set else .setForNext

/-- A beacon is valid if no last beacon is held or its sequence number differs from the held one (R99). -/
def Path.validBeacon (x : Path) (seq : BitVec 16) : Bool :=
  match x.last with
  | none => true
  | some b => b.seq != seq

/-- The path record after a beacon with a defined view: the held last beacon, and in MEMBER and SUSPECT the seen flag of a valid one
(R99, R100). -/
def Path.heard (x : Path) (seq : BitVec 16) (v : PartnerView) (now : Stamp) : Path :=
  { x with
    last := some { seq := seq, view := v, stamp := now }
    seen := if x.validBeacon seq && x.state.isMember then seenAfter x now else x.seen }

/-- A BEACON frame taken by the path supervisor (R99). -/
def State.takeBeacon (s : State) (p : Port) (seq : BitVec 16) (view : Byte) : State :=
  if s.part.state != .ready then s
  else
    match viewOf view with
    | none => s
    | some v => s.withPath p ((s.path p).heard seq v s.clock.ms)

/-- BEACON (R99). While the link is DOWN no frame arrives (R178). -/
def execBeacon (p : Port) (seq : BitVec 16) (view : Byte) (s : State) : Out :=
  .next (if (s.path p).linkUp then s.takeBeacon p seq view else s)

/-! ## JOIN (R98) -/

/-- The path at the start of a window train: MEMBER, first window at `now` (R98, R101, R147). -/
def Path.started (x : Path) (now : Stamp) : Path :=
  { x with state := .member, window := some { start := now, width := x.w }, miss := 0, seen := .clear }

/-- JOIN as the supervisor takes it (R98). -/
def State.join (p : Port) (tag : Byte) (s : State) : State :=
  match (s.path p).state with
  | .outside =>
    let x := (s.path p).started s.clock.ms
    (s.withPath p x).answer p tag 12 .good (membershipBytes x)
  | .member => s.answer p tag 12 .good (membershipBytes (s.path p))
  | .suspect => s.answer p tag 12 .good (membershipBytes (s.path p))
  | .fenced => s.answer p tag 12 .fenced []
  | _ => s.answer p tag 12 .wrongState []

/-- JOIN (R98). -/
def execJoin (p : Port) (s : State) : Out :=
  .next (match s.front (.port p) with
    | some (tag, .join) => s.atOnce (.port p) tag .join (State.join p tag)
    | _ => s)

/-! ## Leaving and fencing (R110, R111, R118) -/

/-- RESIGN as the supervisor takes it (R110): the answer is parked, PARTNER-LOST is raised, and the path enters DRAINING. -/
def State.resign (p : Port) (tag : Byte) (s : State) : State :=
  ((s.withPath p { s.path p with parkedResign := some tag }).raise .partnerLost
    { port := none, value := Cause.resigned.num } [p.partner]).enterDraining p .resigned

/-- RESIGN (R110). -/
def execResign (p : Port) (s : State) : Out :=
  .next (match s.front (.port p) with
    | some (tag, .resign) => s.atOnce (.port p) tag .resign (State.resign p tag)
    | _ => s)

/-- FENCE-PARTNER as the supervisor takes it (R111). -/
def State.fencePartner (p : Port) (tag : Byte) (s : State) : State :=
  match (s.path p.partner).state with
  | .outside => s.answer p tag 14 .notMember []
  | .member => (s.answer p tag 14 .good []).fence p.partner .partnerFence
  | .suspect => (s.answer p tag 14 .good []).fence p.partner .partnerFence
  | .lost => (s.answer p tag 14 .good []).fence p.partner .partnerFence
  | _ => s.answer p tag 14 .good []

/-- FENCE_PARTNER (R111). -/
def execFencePartner (p : Port) (s : State) : Out :=
  .next (match s.front (.port p) with
    | some (tag, .fencePartner) => s.atOnce (.port p) tag .fencePartner (State.fencePartner p tag)
    | _ => s)

/-- FORCE-FENCE of port `p` (R118); from MEMBER or SUSPECT it raises PARTNER-LOST. -/
def State.forceFencePort (p : Port) (s : State) : State :=
  match (s.path p).state with
  | .outside => s.placeAnswer 20 .notMember []
  | .member =>
    ((s.placeAnswer 20 .good []).raise .partnerLost { port := none, value := Cause.mgmtFence.num } [p.partner]).fence p .mgmtFence
  | .suspect =>
    ((s.placeAnswer 20 .good []).raise .partnerLost { port := none, value := Cause.mgmtFence.num } [p.partner]).fence p .mgmtFence
  | .lost => (s.placeAnswer 20 .good []).fence p .mgmtFence
  | _ => s.placeAnswer 20 .good []

/-- FORCE-FENCE with its port field (R118). -/
def State.forceFence (port : Nat) (s : State) : State :=
  match portOf port with
  | none => s.placeAnswer 20 .malformed []
  | some p => s.forceFencePort p

/-- FORCE_FENCE (R118, R190). -/
def execForceFence (s : State) : Out :=
  .next (match s.front .mgmt with
    | some (tag, .forceFence port) => s.atOnce .mgmt tag (.forceFence port) (State.forceFence port)
    | _ => s)

/-! ## ACK-NOTICE and the acknowledgment of PARTNER-LOST (R116, R160, R161) -/

/-- The act enable for a loss cause (R116, R117). -/
def State.actEnable (s : State) : Option Cause → Bool
  | some .beacon => s.settings.actOnBeacon
  | some .link => s.settings.actOnLink
  | _ => false

/-- A passed acknowledgment of PARTNER-LOST from port `y` (R116): it starts the LOST partner's takeover when `y` is a member and the act
enable for the partner's loss cause is set. -/
def State.acknowledgeLoss (s : State) (y : Port) : State :=
  let x := s.path y.partner
  if s.isMember y && x.state = .lost && s.actEnable x.cause then s.fence y.partner .partnerFence else s

/-- ACK-NOTICE as the notice unit takes it (R160): the entry is removed and answered; from a port, PARTNER-LOST is then passed on (R161). -/
def State.ackNotice (c : Client) (tag : Byte) (kind : Nat) (s : State) : State :=
  match noticeKindOf kind with
  | none => s.respond c tag 10 .malformed []
  | some k =>
    match (s.target c).find k with
    | none => s.respond c tag 10 .noNotice []
    | some _ =>
      match c, k with
      | .port y, .partnerLost => (s.acknowledge c tag k).acknowledgeLoss y
      | _, _ => s.acknowledge c tag k

/-- ACK-NOTICE from a server or from management (R95, R160, R190). -/
def execAckNotice (c : Client) (s : State) : Out :=
  .next (match s.front c with
    | some (tag, .ackNotice kind) => s.atOnce c tag (.ackNotice kind) (State.ackNotice c tag kind)
    | _ => s)

/-! ## READMIT and REJOIN (R141 to R149) -/

/-- A parked REJOIN answer comes due with a code (R147, R152). -/
def State.settleRejoin (s : State) (p : Port) (code : AnswerCode) (result : List Byte) : State :=
  match (s.path p).parkedRejoin with
  | some tag => (s.withPath p { s.path p with parkedRejoin := none }).answer p tag 16 code result
  | none => s

/-- The path record at the return from FENCED to MEMBER (R147). -/
def Path.returned (x : Path) (now : Stamp) : Path := { x.started now with cause := none }

/-- The return from FENCED to MEMBER (R147). -/
def State.returnToMember (s : State) (p : Port) : State :=
  let x := (s.path p).returned s.clock.ms
  (s.withPath p x).settleRejoin p .good (membershipBytes x)

/-- READMIT of port `q` by client `c` (R144, R145); the GOOD answer carries the resulting path state. -/
def State.readmitPort (c : Client) (tag : Byte) (q : Port) (s : State) : State :=
  if (s.path q).state = .fenced then
    match (s.path q).readmitKey with
    | some _ => s.respond c tag 15 .good (be 1 (s.path q).state.num)
    | none =>
      let s1 := s.withPath q { s.path q with readmitKey := some c }
      let s2 := if (s.path q).rejoinKey then s1.returnToMember q else s1
      s2.respond c tag 15 .good (be 1 (s2.path q).state.num)
  else s.respond c tag 15 .notFenced []

/-- READMIT: a server names its partner (R144), management a port (R145). -/
def State.readmit (c : Client) (tag : Byte) (port : Option Nat) (s : State) : State :=
  match c with
  | .port p => s.readmitPort c tag p.partner
  | .mgmt =>
    match port.bind portOf with
    | none => s.placeAnswer 15 .malformed []
    | some q => s.readmitPort c tag q

/-- READMIT from a server or from management (R144, R145). -/
def execReadmit (c : Client) (s : State) : Out :=
  .next (match s.front c with
    | some (tag, .readmit port) => s.atOnce c tag (.readmit port) (State.readmit c tag port)
    | _ => s)

/-- Four bytes with no value stated, fresh free values. -/
def State.freeStamp (s : State) : List Byte :=
  [Config.freeByte s.free, Config.freeByte (s.free + 1), Config.freeByte (s.free + 2), Config.freeByte (s.free + 3)]

/-- A REJOIN that repeats one already parked (R143): GOOD at once. Its window start has no stated value, since no window is in progress:
a free value (log entry 9). -/
def State.repeatRejoin (p : Port) (tag : Byte) (s : State) : State :=
  (s.withFree (s.free + 4)).answer p tag 16 .good (be 2 (s.path p).w ++ be 1 (s.path p).m ++ s.freeStamp)

/-- REJOIN as the supervisor takes it (R141 to R143). -/
def State.rejoin (p : Port) (tag : Byte) (s : State) : State :=
  if (s.path p).state = .fenced then
    if (s.path p).rejoinKey then s.repeatRejoin p tag
    else
      let s1 := s.withPath p { s.path p with rejoinKey := true }
      match (s.path p).readmitKey with
      | some _ =>
        let s2 := s1.returnToMember p
        s2.answer p tag 16 .good (membershipBytes (s2.path p))
      | none =>
        (s1.withPath p { s1.path p with parkedRejoin := some tag }).raise .rejoinWaiting { port := some p, value := 0 } [p.partner]
  else s.answer p tag 16 .good (membershipBytes (s.path p))

/-- REJOIN (R141, R142). -/
def execRejoin (p : Port) (s : State) : Out :=
  .next (match s.front (.port p) with
    | some (tag, .rejoin) => s.atOnce (.port p) tag .rejoin (State.rejoin p tag)
    | _ => s)

/-! ## Link reports (R87, R93, R106) -/

/-- Every transfer in progress for an entry of the port fails: the drive is to be told, and the indication becomes NONE (R87). -/
def State.failTransfers (s : State) (p : Port) : State :=
  let slots := s.flight.entries.filterMap fun e => if e.port = p && e.xfer != .none then e.stage.slot else none
  let entries := s.flight.entries.map fun e => if e.port = p then { e with xfer := .none } else e
  (s.withFlight { s.flight with entries := entries }).withMedia { s.media with failureList := s.media.failureList ++ slots }

/-- The path record with its link field set (R93). -/
def Path.withLink (x : Path) (up : Bool) : Path := { x with linkUp := up }

/-- LINK_DOWN (R93, R106): the link is DOWN, transfers fail, and a member enters LOST with cause LINK. -/
def execLinkDown (p : Port) (s : State) : Out :=
  .next (
    let s1 := (s.withPath p ((s.path p).withLink false)).failTransfers p
    if s.isMember p then s1.enterLost p .link else s1)

/-- LINK_UP (R93, R106, R181): the link is UP, and the port signals its hold indication as it stands. -/
def execLinkUp (p : Port) (s : State) : Out :=
  .next ((s.withPath p ((s.path p).withLink true)).sendOn p (.holdMark (s.port p).hold))

/-! ## Window ends (R101 to R103) -/

/-- The counter has reached the end of the window in progress of a member (R94). -/
def State.windowDue (s : State) (p : Port) : Bool :=
  match (s.path p).window with
  | some w => s.isMember p && decide (w.width ≤ w.offset s.clock.ms)
  | none => false

/-- The window after `w`: it begins at the end of `w` and takes the configured W of this moment (R101). -/
def Path.nextWindow (x : Path) (w : Window) : Window := { start := w.stop, width := x.w }

/-- The path record after a seen window (R102). -/
def Path.afterSeen (x : Path) (w : Window) : Path :=
  { x with state := .member, miss := 0, seen := .clear, window := some (x.nextWindow w) }

/-- The path record after a missed window that does not lose the port (R103). -/
def Path.afterMissed (x : Path) (w : Window) : Path :=
  { x with
    state := .suspect
    miss := x.miss + 1
    seen := if x.seen = .setForNext then .set else .clear
    window := some (x.nextWindow w) }

/-- The path record after the missed window that loses the port, before its entry to LOST (R103). -/
def Path.lastMissed (x : Path) : Path := { x with miss := x.miss + 1 }

/-- A seen window (R102): the miss count becomes 0, and a SUSPECT path returns to MEMBER and raises PARTNER-BACK. -/
def State.seenWindow (s : State) (p : Port) (w : Window) : State :=
  let x := s.path p
  let s1 := s.withPath p (x.afterSeen w)
  if x.state = .suspect then (s1.rejudge p).raise .partnerBack { port := none, value := x.miss } [p.partner] else s1

/-- A missed window (R103): at or above M the path enters LOST with cause BEACON, else it is SUSPECT, and PARTNER-SUSPECT is raised on
the way from MEMBER. -/
def State.missedWindow (s : State) (p : Port) (w : Window) : State :=
  let x := s.path p
  if x.m ≤ x.miss + 1 then (s.withPath p x.lastMissed).enterLost p .beacon
  else
    let s1 := s.withPath p (x.afterMissed w)
    if x.state = .member then (s1.rejudge p).raise .partnerSuspect { port := none, value := x.m } [p.partner] else s1

/-- WINDOW_END (R101 to R103). No window end is taken before the counter reaches it, nor outside MEMBER and SUSPECT. -/
def execWindowEnd (p : Port) (s : State) : Out :=
  .next (
    if s.windowDue p then
      match (s.path p).window with
      | some w => if (s.path p).seen = .set then s.seenWindow p w else s.missedWindow p w
      | none => s
    else s)

end Sys2Proof.Machine
end

