-- ==== Sys2Proof/Machine/Ports.lean ====
section
/-! DEFINITION. The path ports (chapter 10): the handling of a frame at arrival (R178), and STATUS; the meanings of FRAME_ARRIVAL and STATUS. -/

namespace Sys2Proof.Machine

/-! ## Arrival (R178, R179) -/

/-- An answer made at arrival: in a REPLY if the frame's class is COMMAND, else in an ANSWER that carries the request code as received
(R177, R179). An empty body carries no code: the byte sent is a free value (log entry 9). -/
def State.answerArrival (s : State) (p : Port) (head tag : Byte) (body : List Byte) (code : AnswerCode) : State :=
  if classOf head = 1 then s.reply p tag code
  else
    match body with
    | echo :: _ => s.sendFrame p 4 tag (be 1 code.num ++ [echo])
    | [] => (s.withFree (s.free + 1)).sendFrame p 4 tag (be 1 code.num ++ [Config.freeByte s.free])

/-- The code with which a frame that is no runt and no BEACON is refused at arrival: steps 3 to 5 of R178. -/
def State.arrivalRefusal (s : State) (p : Port) (head tag : Byte) (body : List Byte) : Option AnswerCode :=
  if tag ∈ s.outstanding p then some .tagInUse
  else if (messageOf head body).isNone then some .malformed
  else if 16 ≤ (s.port p).intake.length then some .busy
  else none

/-- The frame is placed at the tail of the intake (step 6 of R178). -/
def State.enqueue (s : State) (p : Port) (tag : Byte) (m : Message) : State :=
  s.setIntake p ((s.port p).intake ++ [{ tag := tag, msg := m }])

/-- A frame with a whole header (steps 2 to 6 of R178). -/
def State.arrive (s : State) (p : Port) (head tag : Byte) (body : List Byte) : State :=
  if classOf head = 5 then
    if body.length = 3 then s.takeBeacon p (BitVec.ofNat 16 (field body 0 2)) (BitVec.ofNat 8 (field body 2 1)) else s
  else
    match s.arrivalRefusal p head tag body, messageOf head body with
    | some code, _ => s.answerArrival p head tag body code
    | none, some m => s.enqueue p tag m
    | none, none => s

/-- FRAME_ARRIVAL (R178): a runt is discarded; while the link is DOWN no frame arrives (log entry 4). -/
def execFrameArrival (p : Port) (f : ArrivingFrame) (s : State) : Out :=
  .next (
    if (s.path p).linkUp then
      match f with
      | .runt _ => s
      | .frame head tag body => s.arrive p head tag body
    else s)

/-! ## STATUS (R96, R186, R190) -/

/-- STATUS: all sections on a path link, the one named on the management link (R186). -/
def State.statusAnswer (c : Client) (tag : Byte) (sect : Option Nat) (s : State) : State :=
  match c with
  | .port p => s.answer p tag 17 .good s.fullStatus
  | .mgmt =>
    match sect.bind s.statusSection with
    | some bytes => s.placeAnswer 17 .good bytes
    | none => s.placeAnswer 17 .malformed []

/-- STATUS from a server or from management, in every part state and path state (R95, R96, R190). -/
def execStatus (c : Client) (s : State) : Out :=
  .next (match s.front c with
    | some (tag, .status sect) => s.atOnce c tag (.status sect) (State.statusAnswer c tag sect)
    | _ => s)

end Sys2Proof.Machine
end

