-- ==== Sys2Proof/Machine/Media.lean ====
section
/-! DEFINITION. The media port (chapter 4): the submission arbiter, drive answers, transfers and QUEUE-CLEAR's request; the meanings of
SUBMIT_COMMAND, SEND_TRANSFER_FAILURE, SEND_ABORT, SEND_QUEUE_CLEAR, SEND_IDENTIFY, DRIVE_ANSWER, PULL_REQUEST, PULL_END, DELIVERY_START,
DELIVERY_END and SERVER_DATA. -/

namespace Sys2Proof.Machine

/-! ## The submission arbiter (R78, R79) -/

/-- Case 1 of R78 applies: a transfer failure or an ABORT is to be sent. -/
def State.urgent (s : State) : Bool := !s.media.failureList.isEmpty || !s.media.abortList.isEmpty

/-- Case 2 of R78 applies: a QUEUE-CLEAR or an IDENTIFY is to be sent. -/
def State.managed (s : State) : Bool := s.media.clear = .requested || s.media.identify != 0

/-- The lowest-numbered free slot (R79). -/
def State.freeSlot (s : State) : Option (Fin 32) := (List.finRange 32).find? fun k => (s.slotEntry k).isNone

/-- The oldest WAITING entry of a port (R69, R79). -/
def State.oldestWaiting (s : State) (p : Port) : Option Entry := s.flight.entries.find? fun e => e.port = p && e.stage.isWaiting

/-- The entry sent next: of the submission turn's port, else of the other (R79). -/
def State.submissionChoice (s : State) : Option Entry :=
  match s.oldestWaiting s.media.turn with
  | some e => some e
  | none => s.oldestWaiting s.media.turn.partner

/-- The command leaves for slot `k`: the entry becomes SUBMITTED there, and the turn names the other port (R79). -/
def State.submit (s : State) (e : Entry) (k : Fin 32) : State :=
  let entries := s.flight.entries.map fun x => if x.index = e.index then { x with stage := .submitted k, xfer := .none } else x
  ((s.withFlight { s.flight with entries := entries }).withMedia { s.media with turn := e.port.partner }).sendDrive
    (.command k e.kind e.ns e.range)

/-- SUBMIT_COMMAND: case 3 of R78, when neither case 1 nor case 2 applies. -/
def execSubmitCommand (s : State) : Out :=
  .next (
    if s.urgent || s.managed then s
    else
      match s.freeSlot, s.submissionChoice with
      | some k, some e => s.submit e k
      | _, _ => s)

/-- SEND_TRANSFER_FAILURE: case 1 of R78, the head of the failure list. -/
def execSendTransferFailure (s : State) : Out :=
  .next (match s.media.failureList with
    | k :: rest => (s.withMedia { s.media with failureList := rest }).sendDrive (.transferFailed k)
    | [] => s)

/-- SEND_ABORT: case 1 of R78, the head of the abort list when no transfer failure waits (R81). -/
def execSendAbort (s : State) : Out :=
  .next (match s.media.failureList, s.media.abortList with
    | [], k :: rest => (s.withMedia { s.media with abortList := rest }).sendDrive (.abort k)
    | _, _ => s)

/-- SEND_QUEUE_CLEAR: case 2 of R78; the wait for CLEARED is timed by 2^a microseconds (R194). -/
def execSendQueueClear (s : State) : Out :=
  .next (
    if !s.urgent && s.media.clear = .requested then
      ((s.withMedia { s.media with clear := .awaiting }).withPart
        { s.part with clearedTimer := some (2 ^ s.settings.abortExp) }).sendDrive .queueClear
    else s)

/-- SEND_IDENTIFY: case 2 of R78 (R90; log entry 23). DESIGN CHOICE: a requested QUEUE-CLEAR goes first; R78 says that the two do not
compete. Log entry 41. -/
def execSendIdentify (s : State) : Out :=
  .next (
    if !s.urgent && s.media.clear != .requested && s.media.identify != 0 then
      (s.withMedia { s.media with identify := s.media.identify - 1 }).sendDrive .identify
    else s)

/-! ## QUEUE-CLEAR's request (R88) -/

/-- QUEUE-CLEAR is requested: the abort list is emptied and the clear waits at the arbiter. A second request is not taken (R88). -/
def State.requestClear (s : State) : State :=
  if s.media.clear = .idle then s.withMedia { s.media with abortList := [], clear := .requested } else s

/-- In RESETTING, once no flight entry remains, QUEUE-CLEAR is requested and the reset's abort timer is stopped (R194). -/
def State.clearWhenEmpty (s : State) : State :=
  if s.part.state = .resetting && s.flight.entries.isEmpty then
    (s.withPart { s.part with resetAbortTimer := none }).requestClear
  else s

/-! ## Drive answers (R72, R73, R83, R84) -/

/-- The resolved value by the entry's kind (R83). -/
def resolvedValue (kind : IoKind) : DriveValue → AnswerCode
  | .good => .good
  | .mediaError => .mediaError
  | .dataLost => if kind = .write then .dataLost else .mediaError
  | .aborted => .aborted
  | .other _ => .mediaError

/-- The reply to a resolved entry; an ABANDONED one sends none (R73). -/
def State.replyResolved (s : State) (e : Entry) (code : AnswerCode) : State :=
  if e.stage.isAbandoned then s else s.reply e.port e.tag code

/-- A resolution counted in a record of a DRAINING port by the resolved value (R127). -/
def Takeover.countDrain (t : Takeover) (code : AnswerCode) : Takeover :=
  if code = .aborted then { t with aborted := t.aborted + 1 } else { t with completed := t.completed + 1 }

/-- The counts of a takeover record (R127): answered late for an ABANDONED entry, in whatever path state, and for any other by the resolved
value while the port is DRAINING. DEDUCED: an earlier takeover's ABANDONED entry answered while DRAINING is answered late only (R127's
fourth exception, R175). Log entry 28. -/
def State.countResolution (s : State) (e : Entry) (code : AnswerCode) : State :=
  if e.kind.writeClass then
    if e.stage.isAbandoned then s.onTakeover e.port fun t => { t with answeredLate := t.answeredLate + 1 }
    else if (s.path e.port).state = .draining then s.onTakeover e.port fun t => t.countDrain code
    else s
  else s

/-- UNRESOLVED-CLEARED for each ORPHANED holding that a departed ABANDONED write-class entry overlapped and that is no longer
unresolved, in table order (R133). -/
def State.raiseCleared (s : State) (e : Entry) : State :=
  if e.stage.isAbandoned && e.kind.writeClass then
    (s.table.holdings.filter fun h => h.tenure.lastOwner.isSome && e.overlaps h && !s.unresolved h).foldl
      (fun x h => x.raise .unresolvedCleared { port := none, value := h.id } [.A, .B]) s
  else s

/-- Resolves an entry (R83, R84): reply, counts, departure (R74), drain test (R122), UNRESOLVED-CLEARED (R133), and in RESETTING the
request of QUEUE-CLEAR when the table is empty (R194). -/
def State.resolve (s : State) (e : Entry) (k : Fin 32) (code : AnswerCode) : State :=
  let s1 := (s.replyResolved e code).countResolution e code
  let s2 := (s1.withMedia { s1.media with abortList := s1.media.abortList.filter fun x => x != k }).depart e
  let s3 := if e.kind.writeClass then s2.drainTest e.port else s2
  (s3.raiseCleared e).clearWhenEmpty

/-- DRIVE_ANSWER (R83): an answer for a free slot is discarded. -/
def execDriveAnswer (k : Fin 32) (value : DriveValue) (s : State) : Out :=
  .next (match s.slotEntry k with
    | some e => s.resolve e k (resolvedValue e.kind value)
    | none => s)

/-! ## Transfers (R85 to R87) -/

/-- Sets the transfer indication of an occupied slot (R77). -/
def State.setTransfer (s : State) (k : Fin 32) (x : Transfer) : State :=
  s.withFlight { s.flight with entries := s.flight.entries.map fun e => if e.stage.slot = some k then { e with xfer := x } else e }

/-- A transfer fails: the drive is to be told, and the indication is NONE (R87). -/
def State.failTransfer (s : State) (k : Fin 32) : State :=
  (s.setTransfer k .none).withMedia { s.media with failureList := s.media.failureList ++ [k] }

/-- The byte count of a pull: the entry's count times the namespace's block size (R85). -/
def State.pullBytes (s : State) (e : Entry) : Nat :=
  (match e.range with
    | some r => r.count
    | none => 0) * (match s.namespaceById e.ns with
    | some n => n.blockSize
    | none => 0)

/-- PULL_REQUEST (R85, R87). A pull for an entry that is no WRITE is what R76 rules out: a fault (log entry 10). -/
def execPullRequest (k : Fin 32) (s : State) : Out :=
  match s.slotEntry k with
  | none => .next (s.failTransfer k)
  | some e =>
    if (s.path e.port).linkUp then
      if e.kind = .write then .next ((s.setTransfer k .pulling).sendOn e.port (.pull e.tag (s.pullBytes e)))
      else .fault .pullOfNonWrite
    else .next (s.failTransfer k)

/-- PULL_END (R85): the drive has taken the whole count. -/
def execPullEnd (k : Fin 32) (s : State) : Out :=
  .next (match s.slotEntry k with
    | some e => if e.xfer = .pulling then s.setTransfer k .none else s
    | none => s)

/-- DELIVERY_START (R86, R87), with the data of the delivery (log entry 24). A delivery for an entry that is no READ is what R76 rules
out: a fault (log entry 10). -/
def execDeliveryStart (k : Fin 32) (data : List Byte) (s : State) : Out :=
  match s.slotEntry k with
  | none => .next (s.failTransfer k)
  | some e =>
    if (s.path e.port).linkUp then
      if e.kind = .read then .next ((s.setTransfer k .delivering).sendOn e.port (.readData e.tag data))
      else .fault .deliveryOfNonRead
    else .next (s.failTransfer k)

/-- DELIVERY_END (R86). -/
def execDeliveryEnd (k : Fin 32) (s : State) : Out :=
  .next (match s.slotEntry k with
    | some e => if e.xfer = .delivering then s.setTransfer k .none else s
    | none => s)

/-- The slot of the pull in progress that a tag names on a port, if there is one (R85). -/
def State.pullFor (s : State) (p : Port) (tag : Byte) : Option (Fin 32) :=
  (s.flight.entries.find? fun e => e.port = p && e.tag = tag && e.xfer = .pulling).bind fun e => e.stage.slot

/-- SERVER_DATA (R85): relayed to the drive, or discarded when no pull is in progress for its tag. -/
def execServerData (p : Port) (tag : Byte) (data : List Byte) (s : State) : Out :=
  .next (
    if (s.path p).linkUp then
      match s.pullFor p tag with
      | some k => s.sendDrive (.data k data)
      | none => s
    else s)

end Sys2Proof.Machine
end

