-- ==== Sys2Proof/Machine/Mailbox.lean ====
section
/-! DEFINITION. The management mailbox and the configuration (chapter 11): the meanings of REQUEST_BUFFER_WRITE, CLEAR_OVERRUN,
ANSWER_BUFFER_READ, I2C_WRITE_OTHER, MANAGEMENT_REQUEST_MALFORMED, READ_TAKEOVER, CONFIGURE and READ_CONFIG. -/

namespace Sys2Proof.Machine

/-! ## The I2C link (R188, R189) -/

/-- The 7-bit target address 1011 0xy, x and y the levels of ASEL1 and ASEL0 (R188). -/
def mailboxAddress : BitVec 7 := 0b10110#5 ++ Config.addressSelect

/-- The selector byte of a write transaction (R188). -/
def State.select (s : State) (selector : Nat) : State := s.withMailbox { s.mailbox with selector := selector }

/-- A written request: buffered if REQUEST-FULL is clear, else discarded with OVERRUN set (R189). Bytes beyond the 64th are ignored. -/
def State.bufferRequest (s : State) (bytes : List Byte) : State :=
  match s.mailbox.request with
  | none => s.withMailbox { s.mailbox with request := some (bytes.take 64) }
  | some _ => s.withMailbox { s.mailbox with overrun := true }

/-- REQUEST_BUFFER_WRITE: a write transaction to selector 2. Without a stop condition or with fewer than 2 bytes it places no request
(R188). -/
def execRequestBufferWrite (bytes : List Byte) (stop : Bool) (s : State) : Out :=
  .next (if stop && decide (2 ≤ bytes.length) then (s.select 2).bufferRequest bytes else s.select 2)

/-- OVERRUN is cleared by the clear-overrun byte (R189). -/
def State.clearOverrun (s : State) : State := s.withMailbox { s.mailbox with overrun := false }

/-- CLEAR_OVERRUN: a write of one byte of any value to selector 1, taken at its stop condition (R188, R189). -/
def execClearOverrun (_value : Byte) (stop : Bool) (s : State) : Out :=
  .next (if stop then (s.select 1).clearOverrun else s.select 1)

/-- A reset answer that waits is placed at the first moment ANSWER-READY is clear, once RESETTING has ended; a buffered request stays
(R194). -/
def State.placeResetAnswer (s : State) : State :=
  if s.mailbox.resetAnswer && !s.mailbox.answerReady && s.part.state != .resetting then
    s.withMailbox { s.mailbox with
      answerReady := true
      answer := be 1 AnswerCode.good.num ++ be 1 24 ++ be 1 0
      resetAnswer := false }
  else s

/-- The bytes that a read of `n` bytes of the answer buffer returns: the envelope from its first byte, then zeros (R188). -/
def State.answerBytes (s : State) (n : Nat) : List Byte :=
  s.mailbox.answer.take n ++ List.replicate (n - s.mailbox.answer.length) 0

/-- The bytes that a read of `n` bytes of the status byte returns, at any time: the status byte (R188). What follows it has no stated
value: free values (log entry 9). -/
def State.statusRead (s : State) : Nat → List Byte
  | 0 => []
  | n + 1 => s.statusByte :: (List.range n).map fun i => Config.freeByte (s.free + i)

/-- What a read transaction of `n` bytes returns, from the object that the last selector names (R188). Only a read of the answer buffer
changes the part, so no other read is a row of the table: this function is what it returns, and it may be asked of any state. -/
def State.readBytes (s : State) (n : Nat) : List Byte :=
  match s.mailbox.selector with
  | 0 => s.statusRead n
  | 3 => s.answerBytes n
  | _ => List.replicate n 0

/-- ANSWER_BUFFER_READ: a read of selector 3; its stop condition clears ANSWER-READY (R188, R189; log entry 20). -/
def execAnswerBufferRead (n : Nat) (stop : Bool) (s : State) : Out :=
  .next (
    let s1 := (s.select 3).withOut { s.out with i2c := (s.select 3).readBytes n }
    if stop then (s1.withMailbox { s1.mailbox with answerReady := false }).placeResetAnswer else s1)

/-- I2C_WRITE_OTHER: the bytes after selector 0 or 3 are ignored, selector 1 without a byte clears nothing, and a selector above 3 is not
acknowledged (R188; log entry 20). DESIGN CHOICE: a write of two or more bytes to selector 1, of which R188 says nothing, clears OVERRUN
by its first byte (R189), and the others are ignored. Log entry 42. -/
def execI2cWriteOther (selector : Byte) (bytes : List Byte) (s : State) : Out :=
  .next (
    if selector = 0 then s.select 0
    else if selector = 1 then if bytes.isEmpty then s.select 1 else (s.select 1).clearOverrun
    else if selector = 3 then s.select 3
    else s)

/-! ## Requests that the mailbox answers itself (R186, R190) -/

/-- MANAGEMENT_REQUEST_MALFORMED: a buffered request whose code is not taken on this link, whose length disagrees, or that ends early is
answered MALFORMED in every part state (R186, R190). -/
def execManagementRequestMalformed (s : State) : Out :=
  .next (match s.mailbox.request with
    | some (code :: rest) =>
      if s.mailboxTakes && (envelopeRequest (code :: rest)).isNone then s.placeAnswer code.toNat .malformed [] else s
    | _ => s)

/-- READ-TAKEOVER: the record as it stands, or the absent form (R190). -/
def State.readTakeover (port : Nat) (s : State) : State :=
  match portOf port with
  | none => s.placeAnswer 21 .malformed []
  | some p => s.placeAnswer 21 .good (takeoverBytes (s.path p).takeover)

/-- READ_TAKEOVER (R190). -/
def execReadTakeover (s : State) : Out :=
  .next (match s.front .mgmt with
    | some (tag, .readTakeover port) => s.atOnce .mgmt tag (.readTakeover port) (State.readTakeover port)
    | _ => s)

/-! ## Configuration (R191) -/

/-- A configuration value by its parameter and its index (R191). -/
inductive Parameter where
  | windowLength (p : Port)
  | missLimit (p : Port)
  | drainExponent
  | abortExponent
  | quota (p : Port)
  | actOnBeacon
  | actOnLink
  | priority (kind : Nat)
  | copyFlag (kind : Nat)
  | threshold (target : Client)
  | policy (id : Nat)
  deriving DecidableEq, Repr, Inhabited

/-- A target index: 1 A, 2 B, 3 MGMT (R191). -/
def targetOf : Nat → Option Client
  | 1 => some (.port .A)
  | 2 => some (.port .B)
  | 3 => some .mgmt
  | _ => none

/-- The parameter that a number and an index name; `none` outside the table of R191. -/
def parameterOf (number index : Nat) : Option Parameter :=
  match number with
  | 1 => (portOf index).map .windowLength
  | 2 => (portOf index).map .missLimit
  | 3 => if index = 0 then some .drainExponent else none
  | 4 => if index = 0 then some .abortExponent else none
  | 5 => (portOf index).map .quota
  | 6 => if index = 0 then some .actOnBeacon else none
  | 7 => if index = 0 then some .actOnLink else none
  | 8 => if 1 ≤ index ∧ index ≤ 10 then some (.priority index) else none
  | 9 => if 1 ≤ index ∧ index ≤ 10 then some (.copyFlag index) else none
  | 10 => (targetOf index).map .threshold
  | 11 => if index ≤ 7 then some (.policy index) else none
  | _ => none

/-- A value clamped to the nearer end of a range. -/
def clamp (lo hi v : Nat) : Nat := max lo (min hi v)

/-- The value stored for a value carried: clamped, and for parameters 6, 7 and 9 every value but 0 is 1 (R191). -/
def Parameter.stored : Parameter → Nat → Nat
  | .windowLength _, v => clamp 10 10000 v
  | .missLimit _, v => clamp 1 16 v
  | .drainExponent, v => clamp 10 24 v
  | .abortExponent, v => clamp 10 24 v
  | .quota _, v => clamp 8 56 v
  | .actOnBeacon, v => if v = 0 then 0 else 1
  | .actOnLink, v => if v = 0 then 0 else 1
  | .priority _, v => clamp 0 15 v
  | .copyFlag _, v => if v = 0 then 0 else 1
  | .threshold _, v => clamp 0 15 v
  | .policy _, v => clamp 1 3 v

/-- A policy by its number; every number from 3 on is CLOSED (the stored numbers are 1..3). -/
def policyOf : Nat → Policy
  | 0 => .openArea
  | 1 => .openArea
  | 2 => .readOnly
  | _ => .closed

/-- The value in force (R191). -/
def State.parameter (s : State) : Parameter → Nat
  | .windowLength p => (s.path p).w
  | .missLimit p => (s.path p).m
  | .drainExponent => s.settings.drainExp
  | .abortExponent => s.settings.abortExp
  | .quota p => s.settings.quotas.get p
  | .actOnBeacon => bit s.settings.actOnBeacon 0
  | .actOnLink => bit s.settings.actOnLink 0
  | .priority kind => s.settings.priorities.getD (kind - 1) 0
  | .copyFlag kind => bit (s.settings.copyFlags.getD (kind - 1) false) 0
  | .threshold c => (s.target c).threshold
  | .policy id => (s.policy id).num

/-- Stores a quota; when it changes, a command waiting for room at that port is judged again (R65, R67). -/
def State.storeQuota (s : State) (p : Port) (v : Nat) : State :=
  let s1 := s.withSettings { s.settings with quotas := s.settings.quotas.set p v }
  if s.settings.quotas.get p = v then s1 else s1.rejudge p

/-- Stores a value that is in range (R191). -/
def State.store (s : State) (x : Parameter) (v : Nat) : State :=
  match x with
  | .windowLength p => s.withPath p { s.path p with w := v }
  | .missLimit p => s.withPath p { s.path p with m := v }
  | .drainExponent => s.withSettings { s.settings with drainExp := v }
  | .abortExponent => s.withSettings { s.settings with abortExp := v }
  | .quota p => s.storeQuota p v
  | .actOnBeacon => s.withSettings { s.settings with actOnBeacon := v != 0 }
  | .actOnLink => s.withSettings { s.settings with actOnLink := v != 0 }
  | .priority kind => s.withSettings { s.settings with priorities := s.settings.priorities.set (kind - 1) v }
  | .copyFlag kind => s.withSettings { s.settings with copyFlags := s.settings.copyFlags.set (kind - 1) (v != 0) }
  | .threshold c => s.withTarget c { s.target c with threshold := v }
  | .policy id => s.withSettings { s.settings with policies := s.settings.policies.set id (policyOf v) }

/-- CONFIGURE: stores the clamped value and answers the value now stored (R191). -/
def State.configure (number index value : Nat) (s : State) : State :=
  match parameterOf number index with
  | none => s.placeAnswer 22 .malformed []
  | some x =>
    (s.store x (x.stored value)).placeAnswer 22 .good (be 1 number ++ be 1 index ++ be 2 (x.stored value))

/-- CONFIGURE (R191), in every part state (R190). -/
def execConfigure (s : State) : Out :=
  .next (match s.front .mgmt with
    | some (tag, .configure number index value) =>
      s.atOnce .mgmt tag (.configure number index value) (State.configure number index value)
    | _ => s)

/-- READ-CONFIG: answers the value in force (R191). -/
def State.readConfig (number index : Nat) (s : State) : State :=
  match parameterOf number index with
  | none => s.placeAnswer 23 .malformed []
  | some x => s.placeAnswer 23 .good (be 1 number ++ be 1 index ++ be 2 (s.parameter x))

/-- READ_CONFIG (R191), in every part state (R190). -/
def execReadConfig (s : State) : Out :=
  .next (match s.front .mgmt with
    | some (tag, .readConfig number index) => s.atOnce .mgmt tag (.readConfig number index) (State.readConfig number index)
    | _ => s)

end Sys2Proof.Machine
end

