-- ==== Sys2Proof/Machine/Reset.lean ====
section
/-! DEFINITION. Start-up and the resets (sections 11.5 to 11.7): the meanings of IDENTIFY_ANSWER, IDENTIFY_RETRY_EXPIRY, CONTROLLER_RESET,
RESET_ABORT_TIMER_EXPIRY, CLEARED, CLEARED_TIMER_EXPIRY and POWER_ON_RESET. -/

namespace Sys2Proof.Machine

/-! ## Start-up (R1, R192) -/

/-- Entry to STARTING (R192). -/
def State.enterStarting (s : State) : State :=
  (s.withPart { s.part with state := .starting, attempts := 0, retryTimer := some 1000000 }).withMedia
    { s.media with identify := s.media.identify + 1 }

/-- An entry of the IDENTIFY answer qualifies by its own values (R1). -/
def entryQualifies (e : IdentifyEntry) : Bool :=
  decide (e.id ≤ 7) && decide (1 ≤ e.size) && decide (e.size < 2 ^ 48) && (e.blockSize = 512 || e.blockSize = 4096)

/-- The records an IDENTIFY answer installs, given the ids of the entries before (R1): an entry whose id an earlier entry carried is
passed over. -/
def installFrom (seen : List Nat) : List IdentifyEntry → List Namespace
  | [] => []
  | e :: es =>
    (if entryQualifies e && !seen.contains e.id then [{ id := e.id, size := e.size, blockSize := e.blockSize }] else [])
      ++ installFrom (e.id :: seen) es

/-- The records an IDENTIFY answer installs (R1). -/
def installed (entries : List IdentifyEntry) : List Namespace := installFrom [] entries

/-- One more unanswered attempt; from the tenth on DRIVE-SILENT is raised for MGMT (R192). -/
def State.countAttempt (s : State) : State :=
  let n := s.part.attempts + 1
  let s1 := s.withPart { s.part with attempts := n }
  if 10 ≤ n then s1.raise .driveSilent { port := none, value := min n 65535 } [] else s1

/-- An IDENTIFY answer shows that the drive holds no command: every slot is free and the abort list empty (R90). -/
def State.freeSlots (s : State) : State :=
  (s.withFlight { s.flight with entries := s.flight.entries.filter fun e => e.stage.slot.isNone }).withMedia
    { s.media with abortList := [] }

/-- IDENTIFY_ANSWER (R1, R90, R192): outside STARTING it is discarded. -/
def execIdentifyAnswer (entries : List IdentifyEntry) (s : State) : Out :=
  .next (
    if s.part.state = .starting then
      match installed entries with
      | [] => s.freeSlots.countAttempt
      | n :: ns =>
        (s.freeSlots.withTable { s.table with namespaces := n :: ns }).withPart
          { s.part with state := .ready, attempts := 0, retryTimer := none }
    else s)

/-- IDENTIFY_RETRY_EXPIRY (R192): one more attempt, a new IDENTIFY, and the timer again. Without an expired timer nothing is due. -/
def execIdentifyRetryExpiry (s : State) : Out :=
  .next (
    if s.part.retryTimer = some 0 then
      if s.part.state = .starting then
        (((s.withPart { s.part with retryTimer := some 1000000 }).withMedia { s.media with identify := s.media.identify + 1 })).countAttempt
      else s.withPart { s.part with retryTimer := none }
    else s)

/-! ## Controller reset (R193, R194) -/

/-- The request code of a parked answer of a holding: RELEASE or HAND-OVER (R28). -/
def Tenure.parkedEcho : Tenure → Nat
  | .releasing .. => 2
  | _ => 3

/-- The parked RELEASE and HAND-OVER answers go out NOT-READY (R26, R193). -/
def State.sweepHoldings (s : State) : State :=
  s.table.holdings.foldl
    (fun x h => match h.tenure.parked with
      | some (p, tag) => x.answer p tag h.tenure.parkedEcho .notReady []
      | none => x) s

/-- The parked RESIGN and REJOIN answers of a port go out NOT-READY (R115, R152). -/
def State.sweepPath (s : State) (p : Port) : State := (s.settleResign p .notReady).settleRejoin p .notReady []

/-- The intake is emptied without answers (R180), and no command waits (R75). -/
def State.emptyIntake (s : State) (p : Port) : State := (s.withPort p { s.port p with roomWait := false }).setIntake p []

/-- WAITING entries are removed with NOT-READY replies (R75). -/
def State.removeWaiting (s : State) : State :=
  let s1 := (s.flight.entries.filter fun e => e.stage.isWaiting).foldl (fun x e => x.reply e.port e.tag .notReady) s
  s1.withFlight { s1.flight with entries := s1.flight.entries.filter fun e => !e.stage.isWaiting }

/-- A path record at entry to RESETTING (R115, R138, R152): link, W and M are kept. -/
def Path.controllerReset (x : Path) : Path := { Path.powerOn with linkUp := x.linkUp, w := x.w, m := x.m }

/-- The notice sets at entry to RESETTING (R165). -/
def NoticeBlock.controllerReset (n : NoticeBlock) : NoticeBlock where
  ports := ⟨n.ports.a.cleared, n.ports.b.cleared⟩
  mgmt := n.mgmt.cleared

/-- The answers and replies that entry to RESETTING sends, and the intakes it empties (R193, step 2; log entry 13). -/
def State.sweep (s : State) : State :=
  ((((s.sweepHoldings.sweepPath .A).sweepPath .B).emptyIntake .A).emptyIntake .B).removeWaiting

/-- The values that blocks take at entry to RESETTING (R26, R75, R80, R91, R94, R115, R138, R152, R165, R193). -/
def State.resetBlocks (s : State) : State :=
  { s with
    table := { s.table with holdings := [], gen := some 1, pointer := .portA, due := [] }
    paths := ⟨s.paths.a.controllerReset, s.paths.b.controllerReset⟩
    clock := { ms := 0, us := 0 }
    walk := []
    notices := s.notices.controllerReset
    flight := { s.flight with spaceTurn := .A }
    media := { s.media with turn := .A, clear := .idle, identify := 0 }
    mailbox := { s.mailbox with request := none, resetAnswer := true }
    part := { s.part with
      state := .resetting
      retryTimer := none
      resetAbortTimer := some (2 ^ s.settings.abortExp)
      clearedTimer := none } }

/-- Entry to RESETTING (R193): the sweep, the blocks' values, an ABORT for every SUBMITTED entry, and QUEUE-CLEAR if no entry remains
(R194). -/
def State.enterResetting (s : State) : State := (s.sweep.resetBlocks.requestAborts fun _ => true).clearWhenEmpty

/-- CONTROLLER-RESET (R190, R193): BUSY while RESETTING. -/
def State.controllerReset (s : State) : State :=
  if s.part.state = .resetting then s.placeAnswer 24 .busy [] else s.enterResetting

/-- CONTROLLER_RESET (R193). -/
def execControllerReset (s : State) : Out :=
  .next (match s.front .mgmt with
    | some (tag, .controllerReset) => s.atOnce .mgmt tag .controllerReset State.controllerReset
    | _ => s)

/-- RESET_ABORT_TIMER_EXPIRY (R194): QUEUE-CLEAR is requested. Without an expired timer nothing is due. -/
def execResetAbortTimerExpiry (s : State) : Out :=
  .next (
    if s.part.resetAbortTimer = some 0 then
      let s1 := s.withPart { s.part with resetAbortTimer := none }
      if s.part.state = .resetting then s1.requestClear else s1
    else s)

/-- The flight table and the slots are emptied without replies, and the QUEUE-CLEAR is over (R89, R194). -/
def State.emptyFlight (s : State) : State :=
  ((s.withFlight { s.flight with entries := [] }).withMedia { s.media with clear := .idle }).withPart
    { s.part with clearedTimer := none }

/-- CLEARED (R89, R194): the part enters READY, or STARTING if it has no namespace list; the reset answer is placed. A CLEARED that
nothing awaits is discarded. DESIGN CHOICE: a CLEARED that arrives while one is awaited is taken as the answer awaited, since the spec
gives no way to tell it from a late one of an earlier QUEUE-CLEAR. Log entry 40. -/
def execCleared (s : State) : Out :=
  .next (
    if s.part.state = .resetting && s.media.clear = .awaiting then
      let s1 := s.emptyFlight
      (if s.table.namespaces.isEmpty then s1.enterStarting else s1.withPart { s1.part with state := .ready }).placeResetAnswer
    else s)

/-- CLEARED_TIMER_EXPIRY (R194): the abort list is emptied too, and the part falls back to STARTING. Without an expired timer nothing is
due. -/
def execClearedTimerExpiry (s : State) : Out :=
  .next (
    if s.part.clearedTimer = some 0 then
      if s.part.state = .resetting then
        let s1 := s.emptyFlight
        ((s1.withMedia { s1.media with abortList := [] }).enterStarting).placeResetAnswer
      else s.withPart { s.part with clearedTimer := none }
    else s)

/-! ## Power-on reset (R195) -/

/-- POWER_ON_RESET (R195): every block takes its power-on values and the part enters STARTING. The model's own records (outputs, free
values used, waiting commands) stay: log entries 6 and 31. -/
def execPowerOnReset (s : State) : Out := .next { State.reset with pending := s.pending, out := s.out, free := s.free }

end Sys2Proof.Machine
end

