-- ==== Sys2Proof/Machine/Clock.lean ====
section
/-! DEFINITION. The part's own time: one microsecond of the millisecond counter and of the running timers (R94, R123, R192, R194), and the
events of the part that are due. The step takes them on an empty queue (log entries 2, 3). -/

namespace Sys2Proof.Machine

/-- A running timer counts down; an expired one waits for its event. -/
def tickTimer : Option Nat → Option Nat
  | some n => some (n - 1)
  | none => none

/-- The clock after one microsecond (R94, R167). -/
def Clock.tick (c : Clock) : Clock := if c.us + 1 < 1000 then { c with us := c.us + 1 } else { ms := c.ms + 1, us := 0 }

/-- A path's timers after one microsecond (R123). -/
def Path.tick (x : Path) : Path := { x with drainTimer := tickTimer x.drainTimer, abortTimer := tickTimer x.abortTimer }

/-- The part's timers after one microsecond (R192, R194). -/
def PartBlock.tick (x : PartBlock) : PartBlock :=
  { x with
    retryTimer := tickTimer x.retryTimer
    resetAbortTimer := tickTimer x.resetAbortTimer
    clearedTimer := tickTimer x.clearedTimer }

/-- One microsecond passes. -/
def State.tick (s : State) : State :=
  { s with part := s.part.tick, clock := s.clock.tick, paths := ⟨s.paths.a.tick, s.paths.b.tick⟩ }

/-- The time-driven event that is due, if one is: a window end, then a timer's expiry, in a fixed order (log entry 3). -/
def State.dueEvent (s : State) : Option Instr :=
  if s.windowDue .A then some (.windowEnd .A)
  else if s.windowDue .B then some (.windowEnd .B)
  else if (s.path .A).drainTimer = some 0 then some (.drainTimerExpiry .A)
  else if (s.path .B).drainTimer = some 0 then some (.drainTimerExpiry .B)
  else if (s.path .A).abortTimer = some 0 then some (.abortTimerExpiry .A)
  else if (s.path .B).abortTimer = some 0 then some (.abortTimerExpiry .B)
  else if s.part.retryTimer = some 0 then some .identifyRetryExpiry
  else if s.part.resetAbortTimer = some 0 then some .resetAbortTimerExpiry
  else if s.part.clearedTimer = some 0 then some .clearedTimerExpiry
  else none

end Sys2Proof.Machine
end

