-- ==== Sys2Proof/Machine/Dispatch.lean ====
section
/-! DEFINITION. The dispatch: one arm per command. -/

namespace Sys2Proof.Machine

def exec (i : Instr) (s : State) : Host.Outcome State Fault Refusal :=
  match i with
  | .frameArrival p f => Sys2Proof.Machine.execFrameArrival p f s
  | .beacon p seq view => Sys2Proof.Machine.execBeacon p seq view s
  | .read p => Sys2Proof.Machine.execRead p s
  | .write p => Sys2Proof.Machine.execWrite p s
  | .trim p => Sys2Proof.Machine.execTrim p s
  | .flush p => Sys2Proof.Machine.execFlush p s
  | .acquire p => Sys2Proof.Machine.execAcquire p s
  | .release p => Sys2Proof.Machine.execRelease p s
  | .handOver p => Sys2Proof.Machine.execHandOver p s
  | .split p => Sys2Proof.Machine.execSplit p s
  | .setHeir p => Sys2Proof.Machine.execSetHeir p s
  | .adopt p => Sys2Proof.Machine.execAdopt p s
  | .adoptFor => Sys2Proof.Machine.execAdoptFor s
  | .dissolve => Sys2Proof.Machine.execDissolve s
  | .query c => Sys2Proof.Machine.execQuery c s
  | .list c => Sys2Proof.Machine.execList c s
  | .releaseCompletion => Sys2Proof.Machine.execReleaseCompletion s
  | .handOverCompletion => Sys2Proof.Machine.execHandOverCompletion s
  | .walkStep => Sys2Proof.Machine.execWalkStep s
  | .takeNotice c => Sys2Proof.Machine.execTakeNotice c s
  | .ackNotice c => Sys2Proof.Machine.execAckNotice c s
  | .setThreshold c => Sys2Proof.Machine.execSetThreshold c s
  | .join p => Sys2Proof.Machine.execJoin p s
  | .resign p => Sys2Proof.Machine.execResign p s
  | .fencePartner p => Sys2Proof.Machine.execFencePartner p s
  | .forceFence => Sys2Proof.Machine.execForceFence s
  | .readmit c => Sys2Proof.Machine.execReadmit c s
  | .rejoin p => Sys2Proof.Machine.execRejoin p s
  | .status c => Sys2Proof.Machine.execStatus c s
  | .readTakeover => Sys2Proof.Machine.execReadTakeover s
  | .configure => Sys2Proof.Machine.execConfigure s
  | .readConfig => Sys2Proof.Machine.execReadConfig s
  | .controllerReset => Sys2Proof.Machine.execControllerReset s
  | .requestBufferWrite bytes stop => Sys2Proof.Machine.execRequestBufferWrite bytes stop s
  | .clearOverrun value stop => Sys2Proof.Machine.execClearOverrun value stop s
  | .answerBufferRead n stop => Sys2Proof.Machine.execAnswerBufferRead n stop s
  | .i2cWriteOther selector bytes => Sys2Proof.Machine.execI2cWriteOther selector bytes s
  | .linkDown p => Sys2Proof.Machine.execLinkDown p s
  | .linkUp p => Sys2Proof.Machine.execLinkUp p s
  | .windowEnd p => Sys2Proof.Machine.execWindowEnd p s
  | .drainTimerExpiry p => Sys2Proof.Machine.execDrainTimerExpiry p s
  | .abortTimerExpiry p => Sys2Proof.Machine.execAbortTimerExpiry p s
  | .submitCommand => Sys2Proof.Machine.execSubmitCommand s
  | .sendTransferFailure => Sys2Proof.Machine.execSendTransferFailure s
  | .sendAbort => Sys2Proof.Machine.execSendAbort s
  | .sendQueueClear => Sys2Proof.Machine.execSendQueueClear s
  | .sendIdentify => Sys2Proof.Machine.execSendIdentify s
  | .driveAnswer slot value => Sys2Proof.Machine.execDriveAnswer slot value s
  | .cleared => Sys2Proof.Machine.execCleared s
  | .identifyAnswer entries => Sys2Proof.Machine.execIdentifyAnswer entries s
  | .pullRequest slot => Sys2Proof.Machine.execPullRequest slot s
  | .pullEnd slot => Sys2Proof.Machine.execPullEnd slot s
  | .deliveryStart slot data => Sys2Proof.Machine.execDeliveryStart slot data s
  | .deliveryEnd slot => Sys2Proof.Machine.execDeliveryEnd slot s
  | .serverData p tag data => Sys2Proof.Machine.execServerData p tag data s
  | .identifyRetryExpiry => Sys2Proof.Machine.execIdentifyRetryExpiry s
  | .resetAbortTimerExpiry => Sys2Proof.Machine.execResetAbortTimerExpiry s
  | .clearedTimerExpiry => Sys2Proof.Machine.execClearedTimerExpiry s
  | .powerOnReset => Sys2Proof.Machine.execPowerOnReset s
  | .managementRequestMalformed => Sys2Proof.Machine.execManagementRequestMalformed s

end Sys2Proof.Machine
end

