-- ==== Sys2Proof/Safety.lean ====
section
/-! DEFINITION. What counts as a sound state: the laws that the spec's rules state of every moment, as predicates of the state; and what
it means that a request is taken. -/

namespace Sys2Proof.Machine

/-! ## The intakes (R180, R181) -/

/-- The intake of port `p`: at most 16 frames with no two tags equal, a hold indication that the number of frames can leave standing, and
a wait for room only where an I/O command stands at the head (R52, R65, R180, R181). -/
abbrev State.intakeSound (s : State) (p : Port) : Prop :=
  (s.port p).intake.length ≤ 16 ∧ ((s.port p).intake.map (·.tag)).Nodup
    ∧ ((s.port p).hold = true → 7 ≤ (s.port p).intake.length)
    ∧ ((s.port p).hold = false → (s.port p).intake.length ≤ 11)
    ∧ ((s.port p).roomWait = true → (s.headIo p).isSome = true)

abbrev State.intakesSound (s : State) : Prop := s.intakeSound .A ∧ s.intakeSound .B

/-! ## The holding table (R15 to R20) -/

/-- Two records in table order that share no block (R15). -/
abbrev Holding.before (x y : Holding) : Prop := x.ns < y.ns ∨ (x.ns = y.ns ∧ x.start + x.length ≤ y.start)

/-- A generation that has been given: not 0, and below the counter's next value or, once it is spent, below 2^48 (R19). -/
abbrev givenGeneration (counter : Option Nat) (g : Nat) : Prop := 1 ≤ g ∧ g < counter.getD (2 ^ 48)

/-- The values a record may hold (R3, R6, R17, R19), and its place inside an installed namespace (R15). -/
abbrev State.recordSound (s : State) (h : Holding) : Prop :=
  h.id < 1024 ∧ 1 ≤ h.length ∧ 1 ≤ h.rank ∧ h.rank ≤ 15 ∧ givenGeneration s.table.gen h.gen
    ∧ (s.namespaceById h.ns).any (fun n => h.start + h.length ≤ n.size) = true

/-- The holding table: order, disjointness, capacity, ids and generations; outside READY there is no record (R15 to R19, R26). -/
abbrev State.tableSound (s : State) : Prop :=
  s.table.holdings.Pairwise Holding.before ∧ s.table.holdings.length ≤ 1024
    ∧ (s.table.holdings.map (·.id)).Nodup ∧ (s.table.holdings.map (·.gen)).Nodup
    ∧ (∀ h ∈ s.table.holdings, s.recordSound h)
    ∧ (1 ≤ s.table.gen.getD 1 ∧ s.table.gen.getD 1 < 2 ^ 48)
    ∧ (s.part.state ≠ .ready → s.table.holdings = [])

/-! ## The flight table (R64, R68, R77) -/

/-- The flight table: capacity, indices, slots, and ranges by kind (R64, R68, R77). -/
abbrev State.flightSound (s : State) : Prop :=
  s.flight.entries.length ≤ 64 ∧ (s.flight.entries.map (·.index)).Nodup ∧ (∀ e ∈ s.flight.entries, e.index < 64)
    ∧ (s.flight.entries.filterMap (·.stage.slot)).Nodup
    ∧ (∀ e ∈ s.flight.entries, (e.range = none ↔ e.kind = .flush))

/-! ## Takeovers (R14, R71, R122 to R130) -/

/-- The path states in which a port may have WAITING entries (R71). -/
abbrev PathState.mayWait : PathState → Prop
  | .member => True
  | .suspect => True
  | .lost => True
  | _ => False

/-- The path states after the drain (R126, R130). -/
abbrev PathState.drained : PathState → Prop
  | .shedding => True
  | .fenced => True
  | _ => False

/-- What the phases of a takeover of port `p` leave of its flight entries, its abort timer and its place in the walk queue. -/
abbrev State.drainSound (s : State) (p : Port) : Prop :=
  (∀ e ∈ s.flight.entries, e.port = p → e.stage = .waiting →
      (s.path p).state.mayWait ∧ ((s.path p).state = .lost → e.kind.writeClass = false))
    ∧ (∀ e ∈ s.flight.entries, e.writeOf p = true → (s.path p).state.drained → e.stage.isAbandoned = true)
    ∧ ((s.path p).abortTimer.isSome = true →
        (s.path p).state = .draining ∧ ∀ e ∈ s.flight.entries, e.writeOf p = true → e.stage.isSubmitted = false)
    ∧ (p ∈ s.walk ↔ (s.path p).state = .shedding)

abbrev State.drainsSound (s : State) : Prop := s.drainSound .A ∧ s.drainSound .B ∧ s.walk.Nodup

/-- The path states in which a port may own holdings: every holding (R14), a PENDING one, and one in HELD. -/
abbrev PathState.mayOwn : PathState → Prop
  | .outside => False
  | .fenced => False
  | _ => True

abbrev PathState.leaving : PathState → Prop
  | .draining => True
  | .shedding => True
  | _ => False

/-- The owner of a record stands in a path state that R14 allows its tenure; once its drain is over, a RELEASING or HANDING holding has
a completion due (R126). -/
abbrev State.ownerSound (s : State) (h : Holding) : Prop :=
  match h.tenure with
  | .held p => (s.path p).state.mayWait
  | .releasing p _ => (s.path p).state.mayOwn ∧ ((s.path p).state = .shedding → s.table.due.any (fun d => d.names h) = true)
  | .handing p _ => (s.path p).state.mayOwn ∧ ((s.path p).state = .shedding → s.table.due.any (fun d => d.names h) = true)
  | .pending p => (s.path p).state.leaving
  | .orphaned _ => True

abbrev State.ownersSound (s : State) : Prop := ∀ h ∈ s.table.holdings, s.ownerSound h

/-! ## The law of the flight table (R62) -/

/-- An entry that can still change the blocks of its range: a WRITE or a TRIM. -/
abbrev Entry.changesBlocks (e : Entry) : Prop := e.kind = .write ∨ e.kind = .trim

/-- The law of the flight table: no WRITE or TRIM entry of one port overlaps a holding owned by the other port (R62). -/
abbrev State.writeLaw (s : State) : Prop :=
  ∀ e ∈ s.flight.entries, ∀ h ∈ s.table.holdings, e.changesBlocks → h.tenure.owner = some e.port.partner → e.overlaps h = false

/-- What else a step needs to keep the law. Over an ORPHANED holding, and over a holding with a completion due, every WRITE and TRIM is
ABANDONED. A completion that names a holding names one of its own port that waits for it; and its generation has been given, or is 0 when
the wait it was due for is over (R19, R25; log entry 17). -/
abbrev State.settledSound (s : State) : Prop :=
  (∀ e ∈ s.flight.entries, ∀ h ∈ s.table.holdings, e.changesBlocks → e.overlaps h = true →
      (h.tenure.owner = none ∨ s.table.due.any (fun d => d.names h) = true) → e.stage.isAbandoned = true)
    ∧ (∀ d ∈ s.table.due, ∀ h ∈ s.table.holdings, d.names h = true →
        h.tenure.owner = some d.port ∧ h.tenure.dueKind = some d.kind)
    ∧ (∀ d ∈ s.table.due, d.gen = 0 ∨ givenGeneration s.table.gen d.gen)

/-! ## The settings (R191) -/

/-- Every configuration value is one that R191 lets be stored. -/
abbrev State.settingsSound (s : State) : Prop :=
  s.settings.priorities.length = 10 ∧ s.settings.copyFlags.length = 10 ∧ s.settings.policies.length = 8
    ∧ ∀ number < 12, ∀ index < 11, (parameterOf number index).all (fun x => x.stored (s.parameter x) = s.parameter x) = true

/-- Every law of this file together: what a step is shown to keep. -/
abbrev State.sound (s : State) : Prop :=
  s.intakesSound ∧ s.tableSound ∧ s.flightSound ∧ s.drainsSound ∧ s.ownersSound ∧ s.writeLaw ∧ s.settledSound
    ∧ s.settingsSound

/-! ## Requests taken (R22, R27, R95) -/

/-- The request next to be taken from client `c` is `r`, under `tag`, and neither the part state nor the path state refuses it. -/
abbrev State.takes (s : State) (c : Client) (tag : Byte) (r : Request) : Prop := s.front c = some (tag, r) ∧ s.refusal c r = none

/-- A table request that is taken, and whose source the table arbiter grants next. -/
abbrev State.grants (s : State) (c : Client) (tag : Byte) (r : Request) : Prop :=
  s.takes c tag r ∧ s.grantee = some (clientSource c)

/-- The state in which a granted request is performed: taken from where it stood, with the arbiter's pointer moved on. -/
def State.atGrant (s : State) (c : Client) : State := (s.takeFront c).granted (clientSource c)

/-- The command that takes a request from a client: the row of the table for its name and link. -/
def commandFor (c : Client) (r : Request) : Option Instr :=
  match c, r with
  | .port p, .acquire .. => some (.acquire p)
  | .port p, .release .. => some (.release p)
  | .port p, .handOver .. => some (.handOver p)
  | .port p, .split .. => some (.split p)
  | .port p, .setHeir .. => some (.setHeir p)
  | .port p, .adopt .. => some (.adopt p)
  | c, .query .. => some (.query c)
  | c, .list .. => some (.list c)
  | c, .takeNotice => some (.takeNotice c)
  | c, .ackNotice .. => some (.ackNotice c)
  | c, .setThreshold .. => some (.setThreshold c)
  | .port p, .join => some (.join p)
  | .port p, .resign => some (.resign p)
  | .port p, .fencePartner => some (.fencePartner p)
  | c, .readmit .. => some (.readmit c)
  | .port p, .rejoin => some (.rejoin p)
  | c, .status .. => some (.status c)
  | .mgmt, .adoptFor .. => some .adoptFor
  | .mgmt, .dissolve .. => some .dissolve
  | .mgmt, .forceFence .. => some .forceFence
  | .mgmt, .readTakeover .. => some .readTakeover
  | .mgmt, .configure .. => some .configure
  | .mgmt, .readConfig .. => some .readConfig
  | .mgmt, .controllerReset => some .controllerReset
  | _, _ => none

/-- The command that takes an I/O command of a kind from a port's intake. -/
def ioCommandFor (p : Port) : IoKind → Instr
  | .read => .read p
  | .write => .write p
  | .trim => .trim p
  | .flush => .flush p

/-! ## The rotation of the table arbiter (R23) -/

/-- How many places `y` stands after `x` in the arbiter's cyclic order. -/
def Source.after : Source → Source → Nat
  | .portA, .portA => 0
  | .portA, .portB => 1
  | .portA, .management => 2
  | .portA, .internal => 3
  | .portB, .portB => 0
  | .portB, .management => 1
  | .portB, .internal => 2
  | .portB, .portA => 3
  | .management, .management => 0
  | .management, .internal => 1
  | .management, .portA => 2
  | .management, .portB => 3
  | .internal, .internal => 0
  | .internal, .portA => 1
  | .internal, .portB => 2
  | .internal, .management => 3

/-! ## What leaves on a path link -/

/-- A frame, a pull or a READ's data without its hold flag; a hold mark is none of them. -/
def LinkOut.unmarked : LinkOut → Option LinkOut
  | .frame cls _ tag body => some (.frame cls false tag body)
  | .holdMark _ => none
  | .pull tag bytes => some (.pull tag bytes)
  | .readData tag data => some (.readData tag data)

/-- The value of a hold mark. -/
def LinkOut.mark : LinkOut → Option Bool
  | .holdMark on => some on
  | .frame .. => none
  | .pull .. => none
  | .readData .. => none

/-- What has been sent on port `p`'s link in order, hold marks and hold flags left out. -/
def State.sent (s : State) (p : Port) : List LinkOut := (s.out.links.get p).filterMap LinkOut.unmarked

/-- The hold marks sent on port `p`'s link. -/
def State.marks (s : State) (p : Port) : List Bool := (s.out.links.get p).filterMap LinkOut.mark

/-! ## Waits of RELEASING and HANDING holdings (R25, R35, R36) -/

/-- The completion that a RELEASING or HANDING holding of port `p` waits for (R25). -/
def Holding.waitOf (h : Holding) (p : Port) : Option Due :=
  match h.tenure with
  | .releasing o _ => if o = p then some { id := h.id, gen := h.gen, port := p, kind := .release } else none
  | .handing o _ => if o = p then some { id := h.id, gen := h.gen, port := p, kind := .handOver } else none
  | .held _ => none
  | .pending _ => none
  | .orphaned _ => none

/-- The completions of the RELEASING and HANDING holdings of port `p`, in table order. -/
def State.waitsOf (s : State) (p : Port) : List Due := s.table.holdings.filterMap fun h => h.waitOf p

/-- The completions that come due when the entries of port `p` that satisfy a test leave (R25, R36, R74): of its RELEASING and HANDING
holdings that a write-class one of them overlaps and that no write-class entry of `p` that stays does. -/
def State.waitsEnded (s : State) (p : Port) (gone : Entry → Bool) : List Due :=
  s.table.holdings.filterMap fun h =>
    if (s.flight.entries.any fun e => gone e && e.writeOf p && e.overlaps h)
        && !(s.flight.entries.any fun e => !gone e && e.writeOf p && e.overlaps h) then h.waitOf p
    else none

/-! ## Departures and the commands that wait for room (R65, R66, R71, R74) -/

/-- What became of the command that waited for room at the head of port `q`'s intake, from `s` to `t`, when it was judged again (R52, R65):
refused; admitted, the one entry of `q` among those that joined the flight table; or still waiting, for want of room. -/
abbrev State.headTo (s t : State) (q : Port) (joined : List Entry) (tag : Byte) (c : IoCommand) : Prop :=
  match s.checkCommand q c with
  | some _ => t.port q = (s.takeHead q).port q ∧ ∀ e ∈ joined, e.port ≠ q
  | none =>
    (t.port q = (s.takeHead q).port q ∧ ∃ index, joined.filter (fun e => e.port = q) =
        [{ index := index, port := q, tag := tag, kind := c.kind, ns := c.ns,
           range := if c.kind = .flush then none else some { start := c.start, count := c.count },
           stage := .waiting, xfer := .none }])
      ∨ (t.port q = s.port q ∧ (∀ e ∈ joined, e.port ≠ q)
          ∧ (s.settings.quotas.get q ≤ t.portCount q ∨ 64 ≤ t.flight.entries.length))

/-- From `s` to `t` the flight entries that satisfy a test have left, with these replies on port `p`'s link and these completions come due;
the waiting head commands of the ports `judged` were judged again, a refused one replied to first; and nothing else has changed but the
hold marks of the frames taken (R65, R66, R71, R74). -/
abbrev State.leaveTo (s t : State) (p : Port) (gone : Entry → Bool) (judged : Port → Bool) (replies : List (Byte × AnswerCode))
    (ended : List Due) : Prop :=
  let reply := fun x : Byte × AnswerCode => LinkOut.frame 2 false x.1 [BitVec.ofNat 8 x.2.num]
  ∃ joined : List Entry,
    t = { s with
        flight := { entries := s.flight.entries.filter (fun e => !gone e) ++ joined, spaceTurn := t.flight.spaceTurn }
        ports := t.ports
        table := { s.table with due := s.table.due ++ ended }
        out := { s.out with links := t.out.links } }
      ∧ (s.flight.entries.length < 64 ∨ s.waitingHead p = none ∨ s.waitingHead p.partner = none →
          t.flight.spaceTurn = s.flight.spaceTurn)
      ∧ ∀ q,
        let refused : List (Byte × AnswerCode) := match s.waitingHead q with
          | some (tag, c) => if judged q then (s.checkCommand q c).toList.map fun code => (tag, code) else []
          | none => []
        (match s.waitingHead q with
          | some (tag, c) => if judged q then s.headTo t q joined tag c else t.port q = s.port q ∧ ∀ e ∈ joined, e.port ≠ q
          | none => t.port q = s.port q ∧ ∀ e ∈ joined, e.port ≠ q)
          ∧ t.sent q = s.sent q ++ (if (s.path q).linkUp then (refused ++ if q = p then replies else []).map reply else [])
          ∧ t.marks q = s.marks q ++
              (if (s.path q).linkUp = true ∧ (t.port q).hold ≠ (s.port q).hold then [(t.port q).hold] else [])

/-- The place that entry `e` frees by leaving the flight table of `s` (R65, R66, R68): each waiting head command is judged again. A refused
one is taken off; one that passes and whose port is below its quota is admitted while there is room, the space turn's port first, under the
lowest index free then; a command held by its own quota, or for which no place is left, waits on. The turn moves exactly when the table
was full, both heads waited and the turn's was admitted. -/
abbrev State.freedTo (s t : State) (e : Entry) : Prop :=
  let left := s.flight.entries.filter fun x => x.index ≠ e.index
  let turn := s.flight.spaceTurn
  let passes := fun q : Port => match s.waitingHead q with
    | some (_, c) => decide (s.checkCommand q c = none) && decide ((left.filter fun x => x.port = q).length < s.settings.quotas.get q)
    | none => false
  let placed := ([turn, turn.partner].filter passes).take (64 - left.length)
  ∃ joined, t.flight.entries = left ++ joined ∧ joined.map (·.port) = placed
    ∧ (∀ before x after, joined = before ++ x :: after →
        (∃ c, s.waitingHead x.port = some (x.tag, c) ∧ x.kind = c.kind ∧ x.ns = c.ns
          ∧ x.range = (if c.kind = .flush then none else some { start := c.start, count := c.count })
          ∧ x.stage = .waiting ∧ x.xfer = .none)
        ∧ x.index < 64 ∧ (∀ y ∈ left ++ before, y.index ≠ x.index) ∧ ∀ j < x.index, ∃ y ∈ left ++ before, y.index = j)
    ∧ t.flight.spaceTurn =
        (if s.flight.entries.length = 64 ∧ passes turn = true ∧ (s.waitingHead turn.partner).isSome = true then turn.partner else turn)
    ∧ ∀ q, t.port q = match s.waitingHead q with
      | some (_, c) => if s.checkCommand q c ≠ none ∨ q ∈ placed then (s.takeHead q).port q else s.port q
      | none => s.port q

/-! ## Leaving membership (R107, R119 to R126) -/

/-- The FENCED replies to the entries that an entry to LOST or DRAINING withdraws, in arrival order (R71; log entry 15). -/
def State.withdrawn (s : State) (gone : Entry → Bool) : List (Byte × AnswerCode) :=
  (s.flight.entries.filter gone).map fun e => (e.tag, .fenced)

/-- The state after an entry to LOST or DRAINING of port `p`, begun in `v`, has judged the port's own waiting head command again and then
withdrawn these entries in turn, each a FENCED reply and a departure (R65, R71, R74). What a departure makes of the waiting head commands,
with their indices and the space turn, is `State.freedTo`. -/
def State.withdrawing (v : State) (p : Port) (es : List Entry) : State :=
  es.foldl (fun u e => (u.reply p e.tag .fenced).depart e) (v.rejudge p)

/-- Port `p` has entered LOST with a cause in `t`, from `s` (R22, R71, R105, R107): its own waiting head command is judged, the WAITING
write-class entries are withdrawn, the takeover record is new, PARTNER-LOST is raised, and a table request that waited at the arbiter and
that a LOST path does not carry is answered FENCED. That the new record's survivor field is none is the model's choice: log entry 43. -/
abbrev State.lostTo (s t : State) (p : Port) (cause : Cause) : Prop :=
  let gone := fun e : Entry => e.writeOf p && e.stage.isWaiting
  let v : State := { s with paths := s.paths.set p { s.path p with state := .lost, cause := some cause, window := none, seen := .clear } }
  let w := v.withdrawing p (s.flight.entries.filter gone)
  ∃ ended : List Due, ended.Perm (v.waitsEnded p gone)
    ∧ v.leaveTo w p gone (fun q => q = p || s.flight.entries.any gone) (s.withdrawn gone) ended
    ∧ let record : Takeover :=
        { cause := cause, survivor := none, lostAt := some s.clock.ms, drainBegan := none, fencedAt := none,
          withdrawn := (s.flight.entries.filter gone).length, completed := 0, aborted := 0, abandoned := 0, answeredLate := 0,
          transferred := 0, orphaned := 0 }
      let x := { w with paths := w.paths.set p { w.path p with takeover := some record } }.raise .partnerLost
        { port := none, value := cause.num } [p.partner]
      t = match s.front (.port p) with
        | some (tag, r) =>
          if r.isTable = true ∧ s.refusal (.port p) r = none ∧ r.code ≠ 7 ∧ r.code ≠ 8 then
            (x.takeHead p).answer p tag r.code .fenced []
          else x
        | none => x

/-- The end of port `p`'s drain (R126): SHEDDING with its timers stopped, a completion due for each of its RELEASING and HANDING holdings,
and the tail of the walk queue; the walk's end is tested (R128). -/
def State.shed (s : State) (p : Port) : State :=
  { s with
    paths := s.paths.set p { s.path p with state := .shedding, drainTimer := none, abortTimer := none }
    table := { s.table with due := s.table.due ++ s.waitsOf p }
    walk := s.walk ++ [p] }.walkTest

/-- Port `p` has entered DRAINING in `t`, from `s`, with this cause and this takeover record (R22, R71, R119 to R123, R126, R163): path,
holdings and notice target have changed, every WAITING entry is withdrawn, and the write-class ones are counted; a drain with nothing to
wait for ends in the same event; and, where another agent began it (`dropping`), a table request of the port that waited at the arbiter is
answered FENCED. -/
abbrev State.drainedTo (s t : State) (p : Port) (cause : Option Cause) (record : Takeover) (dropping : Bool) : Prop :=
  let gone := fun e : Entry => e.port = p && e.stage.isWaiting
  let begun := { record with survivor := if s.isMember p.partner then some p.partner else none, drainBegan := some s.clock.ms }
  let v : State := { s with
    paths := s.paths.set p { s.path p with
      state := .draining, cause := cause, window := none, seen := .clear, takeover := some begun
      drainTimer := some (2 ^ s.settings.drainExp) }
    table := { s.table with
      holdings := s.table.holdings.map fun h : Holding => if h.tenure = .held p then { h with tenure := .pending p } else h }
    notices := { s.notices with
      ports := s.notices.ports.set p { s.notices.ports.get p with pending := [], inService := none, level := 0 } } }
  let w := v.withdrawing p (s.flight.entries.filter gone)
  ∃ ended : List Due, ended.Perm (v.waitsEnded p gone)
    ∧ v.leaveTo w p gone (fun q => q = p || s.flight.entries.any gone) (s.withdrawn gone) ended
    ∧ let x := { w with paths := w.paths.set p { w.path p with takeover := some { begun with
        withdrawn := record.withdrawn + (s.flight.entries.filter fun e => gone e && e.kind.writeClass).length } } }
      let y := if x.flight.entries.any fun e => e.writeOf p && (e.stage.isSubmitted || e.stage.isAborting) then x else x.shed p
      t = match s.front (.port p) with
        | some (tag, r) =>
          if dropping = true ∧ r.isTable = true ∧ s.refusal (.port p) r = none then (y.takeHead p).answer p tag r.code .fenced [] else y
        | none => y

end Sys2Proof.Machine
end

