-- ==== Sys2Proof/Certificates/Slice0/Obligations.lean ====
section
/-! DEFINITION. The statements for the provers: each says what a command does, by the spec's rules, or a law that every step keeps. A
request is stated from where it is granted or taken (`State.atGrant`, `State.takeFront`), so that a statement's equation gives the result
and, with it, that every other field of the state is left alone. -/

open Sys2Proof Sys2Proof.Machine

/-! ## The step, the queue and the arbiter -/

/-- A step with a command at the front of the queue performs it with the queue's rest. -/
def Obligations.StepPerformsFrontCommand : Prop :=
  ∀ (i : Instr) (rest : List Instr) (s : State), step { s with pending := i :: rest } = exec i { s with pending := rest }

/-- On an empty queue the step takes the first event of a fixed list that is due, and otherwise one microsecond passes (log entries 2 and
3, the model's choice): a member's window end that the counter has reached (R94), then an expired drain, abort, retry, reset abort or
CLEARED timer (R123, R192, R194). -/
def Obligations.EmptyQueueIsTime : Prop :=
  ∀ s : State, s.pending = [] →
    let ended := fun p : Port => match (s.path p).window with
      | some w => s.isMember p && decide (w.width ≤ (s.clock.ms - w.start).toNat)
      | none => false
    let events : List (Bool × Instr) :=
      [(ended .A, .windowEnd .A), (ended .B, .windowEnd .B),
       ((s.path .A).drainTimer = some 0, .drainTimerExpiry .A), ((s.path .B).drainTimer = some 0, .drainTimerExpiry .B),
       ((s.path .A).abortTimer = some 0, .abortTimerExpiry .A), ((s.path .B).abortTimer = some 0, .abortTimerExpiry .B),
       (s.part.retryTimer = some 0, .identifyRetryExpiry), (s.part.resetAbortTimer = some 0, .resetAbortTimerExpiry),
       (s.part.clearedTimer = some 0, .clearedTimerExpiry)]
    (∀ before after i, events = before ++ (true, i) :: after → (∀ x ∈ before, x.1 = false) → step s = exec i s)
      ∧ ((∀ x ∈ events, x.1 = false) →
          let timers := fun x : Path => { x with drainTimer := x.drainTimer.map (· - 1), abortTimer := x.abortTimer.map (· - 1) }
          step s = .next { s with
            clock := if s.clock.us + 1 < 1000 then { ms := s.clock.ms, us := s.clock.us + 1 } else { ms := s.clock.ms + 1, us := 0 }
            paths := ⟨timers s.paths.a, timers s.paths.b⟩
            part := { s.part with
              retryTimer := s.part.retryTimer.map (· - 1)
              resetAbortTimer := s.part.resetAbortTimer.map (· - 1)
              clearedTimer := s.part.clearedTimer.map (· - 1) } })

/-- No command is refused; a fault is a pull of an entry that is no WRITE or a delivery of one that is no READ, with its port's link up
(log entry 10); and a next state keeps the queue. -/
def Obligations.CommandsEndAndKeepQueue : Prop :=
  ∀ (c : Instr) (s : State),
    (∀ r, exec c s ≠ .refused r) ∧ (∀ t, exec c s = .next t → t.pending = s.pending)
      ∧ (∀ f, exec c s = .fault f ↔
          (∃ k e, c = .pullRequest k ∧ s.slotEntry k = some e ∧ (s.path e.port).linkUp = true ∧ e.kind ≠ .write
              ∧ f = .pullOfNonWrite)
            ∨ ∃ k data e, c = .deliveryStart k data ∧ s.slotEntry k = some e ∧ (s.path e.port).linkUp = true ∧ e.kind ≠ .read
              ∧ f = .deliveryOfNonRead)

/-- What stands next to be taken: of a port the request at the head of its intake, of management the request in a full buffer whose envelope
is one, while ANSWER-READY is clear and, outside RESETTING, no reset answer waits (R180, R189, R194); a command that takes a request changes
nothing where another or none stands there (log entry 1). A client waits at the arbiter while a table request that nothing refuses stands
next to be taken from it, and the internal source while a completion is due or the served port has a PENDING holding (R22, R25). The arbiter
grants the first waiting source round the cyclic order from its pointer; and while a waiting source is not the one granted, each grant moves
the pointer nearer to it (R23). -/
def Obligations.ArbiterGrantsInRotation : Prop :=
  ∀ (s : State) (x : Source),
    (∀ p tag r, s.front (.port p) = some (tag, r) ↔
        (s.port p).roomWait = false ∧ ∃ rest, (s.port p).intake = { tag := tag, msg := .request r } :: rest)
      ∧ (∀ p tag c, s.headIo p = some (tag, c) ↔ ∃ rest, (s.port p).intake = { tag := tag, msg := .io c } :: rest)
      ∧ (∀ tag r, s.front .mgmt = some (tag, r) ↔
        tag = 0 ∧ (∃ bytes, s.mailbox.request = some bytes ∧ envelopeRequest bytes = some r) ∧ s.mailbox.answerReady = false
          ∧ (s.part.state = .resetting ∨ s.mailbox.resetAnswer = false))
      ∧ (∀ c r i, commandFor c r = some i → (∀ tag r', s.front c = some (tag, r') → commandFor c r' ≠ some i) → exec i s = .next s)
      ∧ (∀ c, s.waits (clientSource c) = true ↔ ∃ tag r, s.front c = some (tag, r) ∧ s.refusal c r = none
        ∧ (r.code ≤ 8 ∨ r.code = 18 ∨ r.code = 19))
      ∧ (s.waits .internal = true ↔ s.table.due ≠ []
          ∨ ∃ p ports, s.walk = p :: ports ∧ ∃ h ∈ s.table.holdings, h.tenure = .pending p)
      ∧ (s.grantee = some x ↔ s.waits x = true ∧ ∀ y, s.waits y = true → s.table.pointer.after x ≤ s.table.pointer.after y)
      ∧ ∀ y, s.waits x = true → s.grantee = some y → y ≠ x →
          (s.granted y).table.pointer.after x < s.table.pointer.after x

/-- A request that the part state or the path state refuses is answered with that code at once (R27, R95, R190); the command of a table
request that is not refused changes nothing while another source is granted first: it goes on waiting (R22; that such a command changes
nothing is the model's choice, log entry 1). -/
def Obligations.RequestsRefusedOrWaiting : Prop :=
  ∀ (c : Client) (r : Request) (i : Instr) (tag : Byte) (s : State), commandFor c r = some i → s.front c = some (tag, r) →
    (∀ code, s.refusal c r = some code → exec i s = .next ((s.takeFront c).respond c tag r.code code []))
      ∧ (s.refusal c r = none → r.isTable = true → s.grantee ≠ some (clientSource c) → exec i s = .next s)

/-- The answers that the part state and the path state give before any check of a request (R95, R190). -/
def Obligations.RequestGate : Prop :=
  ∀ (s : State) (r : Request),
    (∀ p, s.part.state ≠ .ready → s.refusal (.port p) r = if r.code = 17 then none else some .notReady)
      ∧ (∀ p, s.part.state = .ready → s.refusal (.port p) r =
          if r.code = 17 ∨ r.code = 12 then none
          else match (s.path p).state with
            | .outside => some .notMember
            | .member => none
            | .suspect => none
            | .lost => if r.code = 7 ∨ r.code = 8 ∨ r.code = 9 ∨ r.code = 10 then none else some .fenced
            | .draining => some .fenced
            | .shedding => some .fenced
            | .fenced => if r.code = 16 then none else some .fenced)
      ∧ (r.carriedBy .mgmt = true →
          s.refusal .mgmt r =
            if s.part.state ≠ .ready ∧ r.code ∈ [7, 8, 18, 19, 20, 15] then some .notReady else none)

/-- A frame leaves the intake, no command waits any more, and the hold indication is judged with the number left (R180, R181); at a
grant the pointer moves on too. An answer made from the state after the removal carries the hold flag judged here and follows the hold mark
sent here: the model's choice, log entries 13 and 14. -/
def Obligations.TakingAFrame : Prop :=
  ∀ (s : State) (p : Port) (f : IntakeFrame) (rest : List IntakeFrame), (s.port p).intake = f :: rest →
    let hold := if (s.port p).hold then decide (7 ≤ rest.length) else decide (12 ≤ rest.length)
    s.takeHead p = { s with
        ports := s.ports.set p { intake := rest, roomWait := false, hold := hold }
        out := if hold ≠ (s.port p).hold ∧ (s.path p).linkUp = true then
            { s.out with links := s.out.links.set p (s.out.links.get p ++ [.holdMark hold]) }
          else s.out }
      ∧ s.takeFront (.port p) = s.takeHead p
      ∧ ∀ c, s.atGrant c = { s.takeFront c with table := { s.table with pointer := (clientSource c).next } }

/-- How the part answers: a REPLY or an ANSWER on a path link that is up, nothing on one that is down, and an envelope in the answer
buffer for management (R182, R183, R185, R186, R189). The hold flag is the indication of this moment; after the removal of the frame
answered, the one judged at that removal, behind its hold mark (log entries 13 and 14). The bytes of a frame's header (R177), of the carried
holding record (R185; the port bit of an absent receiver: log entry 37) and of a notice's detail (R183). The numbers of the answer codes
(R187), notice kinds (section 8.1), loss causes (R183) and policies (R185), and the values that a port, access, heir or rank field names
(R27, R184). -/
def Obligations.AnswersAndReplies : Prop :=
  (∀ (s : State) (p : Port) (tag : Byte) (code : AnswerCode) (echo : Nat) (result : List Byte),
    s.reply p tag code =
        (if (s.path p).linkUp then
          { s with out := { s.out with
              links := s.out.links.set p (s.out.links.get p ++ [.frame 2 (s.port p).hold tag [BitVec.ofNat 8 code.num]]) } }
        else s)
      ∧ s.respond (.port p) tag echo code result =
        (if (s.path p).linkUp then
          { s with out := { s.out with
              links := s.out.links.set p (s.out.links.get p ++
                [.frame 4 (s.port p).hold tag ([BitVec.ofNat 8 code.num, BitVec.ofNat 8 echo] ++ result)]) } }
        else s)
      ∧ s.respond .mgmt tag echo code result = { s with mailbox := { s.mailbox with
          request := none
          answerReady := true
          answer := [BitVec.ofNat 8 code.num, BitVec.ofNat 8 echo, BitVec.ofNat 8 result.length] ++ result } })
    ∧ (∀ (cls : Nat) (hold : Bool) (tag : Byte) (body : List Byte), cls < 8 → body.length < 65536 →
      ∃ head hi lo : Byte, (LinkOut.frame cls hold tag body).frameBytes = some ([head, tag, hi, lo] ++ body)
        ∧ head.toNat % 8 = cls ∧ (∀ i ∈ [3, 4, 5, 6], head.getLsbD i = false) ∧ head.getLsbD 7 = hold
        ∧ 256 * hi.toNat + lo.toNat = body.length)
    ∧ (∀ (h : Holding) (unresolved : Bool),
      let bytes := holdingBytes h unresolved
      let bit := fun i j : Nat => (BitVec.ofNat 8 (field bytes i 1)).getLsbD j
      bytes.length = 26
        ∧ (∀ x ∈ [(0, 2, h.id), (2, 1, h.ns),
              (3, 1, match h.tenure with
                | .held _ => 1
                | .releasing .. => 2
                | .handing .. => 3
                | .pending _ => 4
                | .orphaned _ => 5),
              (4, 6, h.start), (10, 6, h.length), (16, 6, h.gen), (24, 1, h.rank), (25, 1, 0)],
            field bytes x.1 x.2.1 = x.2.2 % 256 ^ x.2.1)
        ∧ (∀ p, h.tenure.owner = some p ∨ h.tenure.lastOwner = some p → bit 22 0 = (p == .B))
        ∧ bit 22 1 = (h.tenure.receiver == some .B) ∧ (∀ j, 2 ≤ j → bit 22 j = false)
        ∧ bit 23 0 = h.tenure.owner.isSome ∧ bit 23 1 = h.tenure.lastOwner.isSome ∧ bit 23 2 = h.tenure.receiver.isSome
        ∧ bit 23 3 = unresolved ∧ bit 23 4 = (h.access == .writeGuard) ∧ bit 23 5 = (h.heir == .partner)
        ∧ bit 23 6 = false ∧ bit 23 7 = false)
    ∧ (∀ d : Detail, (detailBytes d).length = 3 ∧ field (detailBytes d) 1 2 = min d.value 65535
        ∧ field (detailBytes d) 0 1 = (match d.port with
          | none => 0
          | some .A => 1
          | some .B => 2))
    ∧ (∀ c : AnswerCode, c.num = match c with
      | .good => 0
      | .mediaError => 1
      | .dataLost => 2
      | .aborted => 3
      | .fenced => 4
      | .notMember => 5
      | .notReady => 6
      | .busy => 7
      | .tagInUse => 8
      | .malformed => 9
      | .badNamespace => 10
      | .outOfRange => 11
      | .span => 12
      | .notOwner => 13
      | .closedArea => 14
      | .stale => 15
      | .transferPending => 16
      | .conflict => 17
      | .overlap => 18
      | .busyRange => 19
      | .tableFull => 20
      | .noHolding => 21
      | .wrongState => 22
      | .generationSpent => 23
      | .unresolved => 24
      | .partnerAbsent => 25
      | .notFenced => 26
      | .noNotice => 27)
    ∧ (∀ (k : NoticeKind) (v : Nat), (k.num = v ↔ (v, k) ∈ [(1, NoticeKind.partnerLost), (2, .partnerSuspect), (3, .partnerBack),
        (4, .takeoverDone), (5, .orphans), (6, .unresolvedCleared), (7, .rejoinWaiting), (8, .contention), (9, .received),
        (10, .driveSilent)]) ∧ (noticeKindOf v = some k ↔ k.num = v))
    ∧ (∀ c : Cause, c.num = match c with
      | .beacon => 1
      | .link => 2
      | .resigned => 3
      | .partnerFence => 4
      | .mgmtFence => 5)
    ∧ (∀ x : Policy, x.num = match x with
      | .openArea => 1
      | .readOnly => 2
      | .closed => 3)
    ∧ ∀ v : Nat,
      (∀ p, portOf v = some p ↔ (v = 1 ∧ p = .A) ∨ (v = 2 ∧ p = .B))
        ∧ (∀ a, accessOf v = some a ↔ (v = 1 ∧ a = .exclusive) ∨ (v = 2 ∧ a = .writeGuard))
        ∧ (∀ h, heirOf v = some h ↔ (v = 1 ∧ h = .partner) ∨ (v = 2 ∧ h = .none))
        ∧ ∀ r, rankOf v = some r ↔ r = v ∧ 1 ≤ v ∧ v ≤ 15

/-! ## Encodings (R177, R183, R184, R186) -/

/-- A request whose fields fit their bytes, and that its link carries, is read back from the body or the envelope that R184 and R186 lay
out, code and fields most significant byte first (R177); bytes written after an envelope change nothing (log entry 32). What is no request:
a REQUEST body whose code and length are no row of R184's path column (R179), and an envelope of a code not taken on the management link, of
a body length that is not the code's less one, or that ends with fewer than 2 + n bytes (R184, R186, R190). -/
def Obligations.RequestsDecodeAsEncoded : Prop :=
  (∀ (p : Port) (r : Request), r.carriedBy (.port p) = true → r.fits = true → messageOf 3 r.body = some (.request r))
    ∧ (∀ (r : Request) (after : List Byte), r.carriedBy .mgmt = true → r.fits = true → envelopeRequest (r.envelope ++ after) = some r)
    ∧ (∀ r : Request,
      r.body = BitVec.ofNat 8 r.code :: (r.layout.flatMap fun x => be x.1 x.2)
        ∧ r.envelope = BitVec.ofNat 8 r.code :: BitVec.ofNat 8 (r.body.length - 1) :: (r.layout.flatMap fun x => be x.1 x.2)
        ∧ (r.fits = true ↔ ∀ x ∈ r.layout, x.2 < 256 ^ x.1)
        ∧ (r.code, r.layout) = match r with
          | .acquire ns start length access heir rank => (1, [(1, ns), (6, start), (6, length), (1, access), (1, heir), (1, rank)])
          | .release id gen => (2, [(2, id), (6, gen)])
          | .handOver id gen => (3, [(2, id), (6, gen)])
          | .split id offset => (4, [(2, id), (6, offset)])
          | .setHeir id heir rank => (5, [(2, id), (1, heir), (1, rank)])
          | .adopt id => (6, [(2, id)])
          | .query ns block => (7, [(1, ns), (6, block)])
          | .list ns fromBlock max => (8, [(1, ns), (6, fromBlock), (1, max)])
          | .takeNotice => (9, [])
          | .ackNotice kind => (10, [(1, kind)])
          | .setThreshold threshold => (11, [(1, threshold)])
          | .join => (12, [])
          | .resign => (13, [])
          | .fencePartner => (14, [])
          | .readmit none => (15, [])
          | .readmit (some port) => (15, [(1, port)])
          | .rejoin => (16, [])
          | .status none => (17, [])
          | .status (some sect) => (17, [(1, sect)])
          | .adoptFor port id => (18, [(1, port), (2, id)])
          | .dissolve id => (19, [(2, id)])
          | .forceFence port => (20, [(1, port)])
          | .readTakeover port => (21, [(1, port)])
          | .configure param index value => (22, [(1, param), (1, index), (2, value)])
          | .readConfig param index => (23, [(1, param), (1, index)])
          | .controllerReset => (24, []))
    ∧ (∀ n v : Nat, (be n v).length = n ∧ ∀ i < n, (be n v)[i]? = some (BitVec.ofNat 8 (v / 256 ^ (n - 1 - i))))
    ∧ (∀ (bytes : List Byte) (i n : Nat) (b : Byte), field bytes i 0 = 0
        ∧ (bytes[i + n]? = some b → field bytes i (n + 1) = 256 * field bytes i n + b.toNat))
    ∧ (∀ (head : Byte) (body : List Byte), classOf head = 3 →
      (messageOf head body = none ↔ ¬ ∃ (code : Byte) (rest : List Byte), body = code :: rest ∧ (code.toNat, body.length) ∈
        [(1, 17), (2, 9), (3, 9), (4, 9), (5, 5), (6, 3), (7, 8), (8, 9), (9, 1), (10, 2), (11, 2), (12, 1), (13, 1), (14, 1), (15, 1),
         (16, 1), (17, 1)]))
    ∧ ∀ bytes : List Byte, envelopeRequest bytes = none ↔
      ¬ ∃ (code n : Byte) (rest : List Byte), bytes = code :: n :: rest ∧ n.toNat ≤ rest.length ∧ (code.toNat, n.toNat + 1) ∈
        [(7, 8), (8, 9), (9, 1), (10, 2), (11, 2), (15, 2), (17, 2), (18, 4), (19, 3), (20, 2), (21, 2), (22, 5), (23, 3), (24, 1)]

/-- An I/O command whose values fit their bytes is read back from its 16-byte body, whatever stands in the bits that carry nothing; of a
FLUSH only the kind and the namespace are read (R183). The bytes of that body; a COMMAND is malformed exactly when its body is not 16 bytes
long or its kind is outside 1..4, and a frame of a class other than COMMAND, REQUEST and BEACON always (R177, R179). -/
def Obligations.IoCommandsDecodeAsEncoded : Prop :=
  (∀ (c : IoCommand) (spare : Nat), c.kind ≠ .flush → c.fits = true → messageOf 1 (c.body spare) = some (.io c))
    ∧ (∀ (ns : Byte) (others : List Byte), others.length = 14 →
        messageOf 1 ([4, ns] ++ others) = some (.io { kind := .flush, ns := ns.toNat, start := 0, count := 0, gen := none }))
    ∧ (∀ (c : IoCommand) (spare : Nat), c.kind ≠ .flush → c.fits = true →
      let body := c.body spare
      body.length = 16 ∧ field body 1 1 = c.ns ∧ field body 2 1 + 1 = c.count ∧ field body 4 6 = c.start
        ∧ (field body 3 1 % 2 = 1 ↔ c.gen.isSome = true) ∧ (∀ g, c.gen = some g → field body 10 6 = g)
        ∧ field body 0 1 = match c.kind with
          | .read => 1
          | .write => 2
          | .trim => 3
          | .flush => 4)
    ∧ (∀ (head : Byte) (body : List Byte), classOf head = 1 →
      (messageOf head body = none ↔
        body.length ≠ 16 ∨ ∀ (kind : Byte) (rest : List Byte), body = kind :: rest → kind.toNat < 1 ∨ 4 < kind.toNat))
    ∧ ∀ (head : Byte) (body : List Byte), classOf head = head.toNat % 8
      ∧ (classOf head ≠ 1 → classOf head ≠ 3 → messageOf head body = none)

/-! ## Start-up and resets (chapter 11) -/

/-- POWER_ON_RESET gives every block its power-on values, and `State.reset` is that state with nothing sent, no free value used and an
empty queue. The values no rule gives, and the model's own records that stay, are the model's choice: log entries 6, 7 and 31. -/
def Obligations.PowerOnValues : Prop :=
  let path : Machine.Path :=
    { state := .outside, linkUp := false, cause := none, w := 100, m := 3, window := none, seen := .clear, miss := 0, last := none,
      rejoinKey := false, readmitKey := none, takeover := none, drainTimer := none, abortTimer := none, parkedResign := none,
      parkedRejoin := none }
  let port : PortBlock := { intake := [], roomWait := false, hold := false }
  let target : Target := { pending := [], inService := none, level := 0, threshold := 0 }
  let value : Output → Nat → List Instr → State := fun out free pending =>
    { part := { state := .starting, attempts := 0, retryTimer := some 1000000, resetAbortTimer := none, clearedTimer := none }
      clock := { ms := 0, us := 0 }
      settings :=
        { drainExp := 20, abortExp := 17, quotas := ⟨40, 40⟩, actOnBeacon := true, actOnLink := true,
          priorities := [15, 8, 4, 10, 12, 6, 7, 5, 3, 9],
          copyFlags := [true, false, false, true, true, false, true, false, false, false],
          policies := [.readOnly, .readOnly, .readOnly, .readOnly, .readOnly, .readOnly, .readOnly, .readOnly] }
      table := { namespaces := [], holdings := [], gen := some 1, pointer := .portA, due := [] }
      flight := { entries := [], spaceTurn := .A }
      media := { abortList := [], failureList := [], turn := .A, clear := .idle, identify := 1 }
      ports := ⟨port, port⟩
      paths := ⟨path, path⟩
      walk := []
      notices := { ports := ⟨target, target⟩, mgmt := target }
      mailbox := { request := none, answerReady := false, answer := [], overrun := false, resetAnswer := false, selector := 0 }
      out := out, free := free, pending := pending }
  (∀ s : State, exec .powerOnReset s = .next (value s.out s.free s.pending))
    ∧ State.reset = value { links := ⟨[], []⟩, drive := [], i2c := [] } 0 []

/-- What an IDENTIFY answer installs: the entries that qualify by R1, each the first of its id. -/
def Obligations.InstalledNamespaces : Prop :=
  ∀ entries : List IdentifyEntry,
    (∀ n, n ∈ installed entries ↔
      ∃ before e after, entries = before ++ e :: after ∧ n = { id := e.id, size := e.size, blockSize := e.blockSize }
        ∧ e.id ≤ 7 ∧ 1 ≤ e.size ∧ e.size ≤ 2 ^ 48 - 1 ∧ (e.blockSize = 512 ∨ e.blockSize = 4096)
        ∧ ∀ x ∈ before, x.id ≠ e.id)
      ∧ ((installed entries).map (·.id)).Nodup ∧ (installed entries).length ≤ 8

/-- IDENTIFY_ANSWER and IDENTIFY_RETRY_EXPIRY (R1, R90, R192): in STARTING an answer that installs a namespace makes the part READY; one
that installs none, and the expired retry timer, count an attempt, with DRIVE-SILENT from the tenth on. Outside STARTING an answer is
discarded. -/
def Obligations.StartUp : Prop :=
  ∀ s : State,
    let counted := fun t : State =>
      let t1 := { t with part := { t.part with attempts := t.part.attempts + 1 } }
      if t.part.attempts < 9 then t1 else t1.raise .driveSilent { port := none, value := min (t.part.attempts + 1) 65535 } []
    let freed := { s with
      flight := { s.flight with entries := s.flight.entries.filter fun e => e.stage.slot = none }
      media := { s.media with abortList := [] } }
    (∀ entries, s.part.state = .starting → installed entries ≠ [] → exec (.identifyAnswer entries) s = .next { freed with
        table := { s.table with namespaces := installed entries }
        part := { s.part with state := .ready, attempts := 0, retryTimer := none } })
      ∧ (∀ entries, s.part.state = .starting → installed entries = [] → exec (.identifyAnswer entries) s = .next (counted freed))
      ∧ (∀ entries, s.part.state ≠ .starting → exec (.identifyAnswer entries) s = .next s)
      ∧ (s.part.state = .starting → s.part.retryTimer = some 0 → exec .identifyRetryExpiry s = .next (counted { s with
          part := { s.part with retryTimer := some 1000000 }
          media := { s.media with identify := s.media.identify + 1 } }))

/-- CONTROLLER_RESET (R26, R75, R81, R88, R115, R138, R152, R165, R180, R190, R193, R194): BUSY while RESETTING; else the entry to
RESETTING, field by field. The microseconds within the millisecond restart with the counter (log entry 7), and the ABORTs are requested in
arrival order (log entry 15). -/
def Obligations.ControllerResetEntry : Prop :=
  ∀ (s : State) (tag : Byte), s.front .mgmt = some (tag, .controllerReset) →
    (s.part.state = .resetting → exec .controllerReset s = .next (s.placeAnswer 24 .busy []))
      ∧ (s.part.state ≠ .resetting → ∃ t, exec .controllerReset s = .next t
        ∧ let kept := s.flight.entries.filter fun e => !e.stage.isWaiting
          t.part = { s.part with
              state := .resetting
              retryTimer := none
              resetAbortTimer := if kept = [] then none else some (2 ^ s.settings.abortExp)
              clearedTimer := none }
            ∧ t.clock = { ms := 0, us := 0 } ∧ t.settings = s.settings
            ∧ t.table = { s.table with holdings := [], gen := some 1, pointer := .portA, due := [] }
            ∧ t.flight = { entries := kept.map (Entry.requestAbort fun _ => true), spaceTurn := .A }
            ∧ t.media = { s.media with
                abortList := if kept = [] then [] else s.media.abortList ++ kept.filterMap (Entry.abortSlot fun _ => true)
                turn := .A
                clear := if kept = [] then .requested else .idle
                identify := 0 }
            ∧ t.walk = [] ∧ t.mailbox = { s.mailbox with request := none, resetAnswer := true }
            ∧ t.notices.mgmt = { s.notices.mgmt with pending := [], inService := none, level := 0 }
            ∧ t.out.drive = s.out.drive ∧ t.out.i2c = s.out.i2c ∧ t.free = s.free ∧ t.pending = s.pending
            ∧ ∀ p,
              t.port p = { intake := [], roomWait := false, hold := false }
                ∧ t.path p = { Path.powerOn with linkUp := (s.path p).linkUp, w := (s.path p).w, m := (s.path p).m }
                ∧ t.notices.ports.get p = { s.notices.ports.get p with pending := [], inService := none, level := 0 }
                ∧ t.out.links.get p = s.out.links.get p ++
                    if (s.path p).linkUp then
                      (s.table.holdings.filterMap fun h => match h.tenure with
                          | .releasing o x => if o = p then some (LinkOut.frame 4 (s.port p).hold x [6, 2]) else none
                          | .handing o x => if o = p then some (LinkOut.frame 4 (s.port p).hold x [6, 3]) else none
                          | _ => none)
                        ++ (s.path p).parkedResign.toList.map (fun x => LinkOut.frame 4 (s.port p).hold x [6, 13])
                        ++ (s.path p).parkedRejoin.toList.map (fun x => LinkOut.frame 4 (s.port p).hold x [6, 16])
                        ++ (if (s.port p).hold then [LinkOut.holdMark false] else [])
                        ++ (s.flight.entries.filter fun e => e.port = p && e.stage.isWaiting).map
                            (fun e => LinkOut.frame 2 false e.tag [6])
                    else [])

/-- The end of the controller reset procedure (R88, R89, R192, R194): RESET_ABORT_TIMER_EXPIRY requests QUEUE-CLEAR; CLEARED empties the
flight table, and CLEARED_TIMER_EXPIRY the abort list too; each ends RESETTING and places the reset answer when it can. Any CLEARED that
arrives while one is awaited is taken as the one awaited, a late answer to an earlier QUEUE-CLEAR included: the model's choice, log entry
40. The requests for IDENTIFY are counted (log entry 23). -/
def Obligations.ControllerResetEnd : Prop :=
  ∀ s : State, s.part.state = .resetting →
    let answered := if s.mailbox.resetAnswer = true ∧ s.mailbox.answerReady = false then
        { s.mailbox with answerReady := true, answer := [0, 24, 0], resetAnswer := false }
      else s.mailbox
    (s.part.resetAbortTimer = some 0 → s.media.clear = .idle → exec .resetAbortTimerExpiry s = .next { s with
        part := { s.part with resetAbortTimer := none }
        media := { s.media with abortList := [], clear := .requested } })
      ∧ (s.media.clear = .awaiting → s.table.namespaces ≠ [] → exec .cleared s = .next { s with
          part := { s.part with state := .ready, clearedTimer := none }
          flight := { s.flight with entries := [] }
          media := { s.media with clear := .idle }
          mailbox := answered })
      ∧ (s.media.clear = .awaiting → s.table.namespaces = [] → exec .cleared s = .next { s with
          part := { s.part with state := .starting, attempts := 0, retryTimer := some 1000000, clearedTimer := none }
          flight := { s.flight with entries := [] }
          media := { s.media with clear := .idle, identify := s.media.identify + 1 }
          mailbox := answered })
      ∧ (s.part.clearedTimer = some 0 → exec .clearedTimerExpiry s = .next { s with
          part := { s.part with state := .starting, attempts := 0, retryTimer := some 1000000, clearedTimer := none }
          flight := { s.flight with entries := [] }
          media := { s.media with abortList := [], clear := .idle, identify := s.media.identify + 1 }
          mailbox := answered })

/-! ## Path ports (chapter 10) -/

/-- FRAME_ARRIVAL of a frame that is no BEACON, with the link up (R53, R178, R179, R181): the first of TAG-IN-USE, MALFORMED and BUSY that
applies is answered at once, in a REPLY for a COMMAND and else in an ANSWER with the code byte as received, a free value where the body is
empty (log entry 9); otherwise the frame joins the intake and the hold indication is judged. A tag is outstanding in the intake, in the
flight table and for a parked answer. A runt is discarded. -/
def Obligations.FrameArrival : Prop :=
  ∀ (p : Port) (head tag : Byte) (body : List Byte) (s : State), (s.path p).linkUp = true →
    let code : Option AnswerCode :=
      if tag ∈ s.outstanding p then some .tagInUse
      else if messageOf head body = none then some .malformed
      else if 16 ≤ (s.port p).intake.length then some .busy
      else none
    let count := (s.port p).intake.length + 1
    let hold := if (s.port p).hold then decide (7 ≤ count) else decide (12 ≤ count)
    (tag ∈ s.outstanding p ↔ (∃ f ∈ (s.port p).intake, f.tag = tag) ∨ (∃ e ∈ s.flight.entries, e.port = p ∧ e.tag = tag)
        ∨ (∃ h ∈ s.table.holdings, h.tenure = .releasing p tag ∨ h.tenure = .handing p tag)
        ∨ (s.path p).parkedResign = some tag ∨ (s.path p).parkedRejoin = some tag)
      ∧ (∀ bytes, exec (.frameArrival p (.runt bytes)) s = .next s)
      ∧ (∀ c, classOf head = 1 → code = some c → exec (.frameArrival p (.frame head tag body)) s = .next (s.reply p tag c))
      ∧ (∀ c echo rest, classOf head ≠ 1 → classOf head ≠ 5 → code = some c → body = echo :: rest →
          exec (.frameArrival p (.frame head tag body)) s = .next (s.answer p tag echo.toNat c []))
      ∧ (∀ c, classOf head ≠ 1 → classOf head ≠ 5 → code = some c → body = [] →
          ∃ b, exec (.frameArrival p (.frame head tag body)) s = .next { s with
            free := s.free + 1
            out := { s.out with
              links := s.out.links.set p (s.out.links.get p ++ [.frame 4 (s.port p).hold tag [BitVec.ofNat 8 c.num, b]]) } })
      ∧ (∀ m, classOf head ≠ 5 → code = none → messageOf head body = some m →
          exec (.frameArrival p (.frame head tag body)) s = .next { s with
            ports := s.ports.set p { s.port p with intake := (s.port p).intake ++ [{ tag := tag, msg := m }], hold := hold }
            out := if hold ≠ (s.port p).hold then
                { s.out with links := s.out.links.set p (s.out.links.get p ++ [.holdMark hold]) }
              else s.out })

/-- BEACON (R99, R100, R178): the held last beacon is overwritten, and a valid beacon of a member sets the seen flag by the window it
belongs to; one with another view, or while the part is not READY, changes nothing. A BEACON frame of three bytes is that command, and one
of another length is discarded. -/
def Obligations.Beacons : Prop :=
  ∀ (p : Port) (seq : BitVec 16) (view : Byte) (s : State), (s.path p).linkUp = true →
    let x := s.path p
    let valid := ∀ b, x.last = some b → b.seq ≠ seq
    let record := fun v seen => s.withPath p { x with last := some { seq := seq, view := v, stamp := s.clock.ms }, seen := seen }
    (∀ head tag, classOf head = 5 → exec (.frameArrival p (.frame head tag (be 2 seq.toNat ++ [view]))) s = exec (.beacon p seq view) s)
      ∧ (∀ head tag body, classOf head = 5 → body.length ≠ 3 → exec (.frameArrival p (.frame head tag body)) s = .next s)
      ∧ ((view ≠ 1 ∧ view ≠ 2) ∨ s.part.state ≠ .ready → exec (.beacon p seq view) s = .next s)
      ∧ ∀ v, s.part.state = .ready → view = (if v = .up then 1 else 2) →
          (¬ valid ∨ x.state.isMember = false → exec (.beacon p seq view) s = .next (record v x.seen))
          ∧ ∀ w, valid → x.state.isMember = true → x.window = some w →
              exec (.beacon p seq view) s = .next (record v
                (if x.seen = .setForNext then .setForNext
                 else if (s.clock.ms - w.start).toNat < w.width then .set else .setForNext))

/-- STATUS (R96, R186, R190): in every part state and path state a server is answered all five sections, 150 bytes, and management the one
it names. The layouts of the sections and of the takeover record by byte and bit (R186), each field at the value of this moment; that an
absent stamp of a takeover record is sent as zero is the model's choice, log entry 37, and that the id byte of an uninstalled id is zero
is its reading, log entry 22. -/
def Obligations.StatusAnswers : Prop :=
  (∀ (s : State) (tag : Byte) (sect : Option Nat),
    (∀ p, s.front (.port p) = some (tag, .status sect) →
      exec (.status (.port p)) s = .next ((s.takeHead p).answer p tag 17 .good (s.takeHead p).fullStatus)
        ∧ (s.takeHead p).fullStatus = s.fullStatus)
      ∧ (∀ k bytes, s.front .mgmt = some (tag, .status (some k)) → s.statusSection k = some bytes →
          exec (.status .mgmt) s = .next (s.placeAnswer 17 .good bytes))
      ∧ (∀ k, s.front .mgmt = some (tag, .status (some k)) → 4 < k → exec (.status .mgmt) s = .next (s.placeAnswer 17 .malformed []))
      ∧ ((List.range 5).map fun k => (s.statusSection k).map List.length) = [some 24, some 27, some 27, some 36, some 36]
      ∧ some s.fullStatus = ((List.range 5).mapM s.statusSection).map List.flatten
      ∧ s.fullStatus.length = 150)
    ∧ (∀ (s : State) (bytes : List Byte), s.statusSection 0 = some bytes →
      let count := fun f : Entry → Bool => (s.flight.entries.filter f).length
      ∀ x ∈ [(0, 1, match s.part.state with
            | .starting => 1
            | .ready => 2
            | .resetting => 3),
          (1, 4, s.clock.ms.toNat), (5, 2, s.table.holdings.length), (7, 6, s.table.gen.getD 0),
          (13, 1, s.settings.quotas.a), (14, 1, s.settings.quotas.b),
          (15, 1, count fun e => e.port = .A), (16, 1, count fun e => e.port = .B),
          (17, 1, count fun e => e.stage = .waiting), (18, 1, count fun e => e.stage.isSubmitted),
          (19, 1, count fun e => e.stage.isAborting), (20, 1, count fun e => e.stage.isAbandoned),
          (21, 1, count fun e => e.stage ≠ .waiting), (22, 1, s.media.abortList.length), (23, 1, 0)],
        field bytes x.1 x.2.1 = x.2.2 % 256 ^ x.2.1)
    ∧ (∀ (s : State) (p : Port) (bytes : List Byte), s.statusSection (portNum p) = some bytes →
      let y := s.path p
      let window := fun f : Window → Nat => (y.window.map f).getD 0
      let last := fun f : LastBeacon → Nat => (y.last.map f).getD 0
      ∀ x ∈ [(0, 1, match y.state with
            | .outside => 1
            | .member => 2
            | .suspect => 3
            | .lost => 4
            | .draining => 5
            | .shedding => 6
            | .fenced => 7),
          (1, 1, if y.linkUp then 1 else 0),
          (2, 1, match y.cause with
            | none => 0
            | some .beacon => 1
            | some .link => 2
            | some .resigned => 3
            | some .partnerFence => 4
            | some .mgmtFence => 5),
          (3, 2, y.w), (5, 1, y.m),
          (6, 1, (if y.window = none then 0 else 1) + (if y.last = none then 0 else 2) + (if y.rejoinKey then 4 else 0)
            + (if y.readmitKey = none then 0 else 8)),
          (7, 1, match y.readmitKey with
            | none => 0
            | some (.port .A) => 1
            | some (.port .B) => 2
            | some .mgmt => 3),
          (8, 4, window fun w => w.start.toNat), (12, 4, window fun w => w.start.toNat + w.width), (16, 2, window fun w => w.width),
          (18, 1, match y.seen with
            | .clear => 0
            | .set => 1
            | .setForNext => 2),
          (19, 1, y.miss), (20, 2, last fun b => b.seq.toNat), (22, 1, last fun b => if b.view = .up then 1 else 2),
          (23, 4, last fun b => b.stamp.toNat)],
        field bytes x.1 x.2.1 = x.2.2 % 256 ^ x.2.1)
    ∧ (∀ (s : State) (id : Nat) (bytes : List Byte), id < 8 → s.statusSection (3 + id / 4) = some bytes →
      let o := 9 * (id % 4)
      let installed := fun f : Namespace → Nat => ((s.namespaceById id).map f).getD 0
      ∀ x ∈ [(o, 1, installed fun n => n.id + 128), (o + 1, 6, installed fun n => n.size),
          (o + 7, 1, installed fun n => if n.blockSize = 512 then 1 else 2),
          (o + 8, 1, match s.policy id with
            | .openArea => 1
            | .readOnly => 2
            | .closed => 3)],
        field bytes x.1 x.2.1 = x.2.2 % 256 ^ x.2.1)
    ∧ takeoverBytes none = List.replicate 24 0
    ∧ ∀ t : Takeover, (takeoverBytes (some t)).length = 24
      ∧ ∀ x ∈ [(0, 1, 1 + (if t.lostAt = none then 0 else 2) + (if t.drainBegan = none then 0 else 4)
            + (if t.fencedAt = none then 0 else 8)),
          (1, 1, match t.cause with
            | .beacon => 1
            | .link => 2
            | .resigned => 3
            | .partnerFence => 4
            | .mgmtFence => 5),
          (2, 1, match t.survivor with
            | none => 0
            | some .A => 1
            | some .B => 2),
          (3, 4, (t.lostAt.map (·.toNat)).getD 0), (7, 4, (t.drainBegan.map (·.toNat)).getD 0),
          (11, 4, (t.fencedAt.map (·.toNat)).getD 0), (15, 1, t.withdrawn), (16, 1, t.completed), (17, 1, t.aborted),
          (18, 1, t.abandoned), (19, 1, t.answeredLate), (20, 2, t.transferred), (22, 2, t.orphaned)],
        field (takeoverBytes (some t)) x.1 x.2.1 = x.2.2 % 256 ^ x.2.1

/-- LINK_UP, and LINK_DOWN of a port that is no member (R87, R93, R106, R181): only the link field changes, the hold indication is
signalled at a link-up, and at a link-down the port's transfers fail, in arrival order (log entry 15). -/
def Obligations.LinkReports : Prop :=
  ∀ (p : Port) (s : State),
    exec (.linkUp p) s = .next { s with
        paths := s.paths.set p { s.path p with linkUp := true }
        out := { s.out with links := s.out.links.set p (s.out.links.get p ++ [.holdMark (s.port p).hold]) } }
      ∧ (s.isMember p = false → exec (.linkDown p) s = .next { s with
          paths := s.paths.set p { s.path p with linkUp := false }
          flight := { s.flight with entries := s.flight.entries.map fun e => if e.port = p then { e with xfer := .none } else e }
          media := { s.media with failureList := s.media.failureList ++
            s.flight.entries.filterMap fun e => if e.port = p ∧ e.xfer ≠ .none then e.stage.slot else none } })

/-- Entry to LOST (R22, R71, R103, R105 to R107): LINK_DOWN of a member, and the WINDOW_END that makes the miss count reach M.
`State.lostTo` is the whole of it: the path, its cause and new takeover record; each WAITING write-class entry gone, counted and answered
FENCED; the completions this makes due; the waiting head commands judged again and what they added to the flight table; PARTNER-LOST at a
member partner and at MGMT; a waiting table request refused; and nothing else. The transfers of a link-down fail in arrival order (log
entry 15), and so do the withdrawals, each a FENCED reply and a departure (`State.withdrawing`; what a departure lets in, under which
index, and the space turn: `State.freedTo`); the port's own waiting head is judged before them (log entry 39). The order of the frames of
this one event is log entry 13's, and at each departure the waits are tested before the heads are judged (log entry 38). That the survivor
field of the new record is none is the model's choice: log entry 43. -/
def Obligations.EntersLost : Prop :=
  ∀ (p : Port) (s : State), s.flightSound → s.isMember p = true →
    (∃ t, exec (.linkDown p) s = .next t ∧ ({ s with
        paths := s.paths.set p { s.path p with linkUp := false }
        flight := { s.flight with entries := s.flight.entries.map fun e : Entry => if e.port = p then { e with xfer := .none } else e }
        media := { s.media with failureList := s.media.failureList ++
          s.flight.entries.filterMap fun e : Entry => if e.port = p ∧ e.xfer ≠ Transfer.none then e.stage.slot else none } }).lostTo t p .link)
      ∧ ∀ w, (s.path p).window = some w → w.width ≤ (s.clock.ms - w.start).toNat → (s.path p).seen ≠ .set →
        (s.path p).m ≤ (s.path p).miss + 1 →
        ∃ t, exec (.windowEnd p) s = .next t
          ∧ ({ s with paths := s.paths.set p { s.path p with miss := (s.path p).miss + 1 } }).lostTo t p .beacon

/-! ## I/O commands (chapter 3) -/

/-- READ, WRITE, TRIM and FLUSH from the intake head (R52, R54, R64, R65, R68, R95): outside READY answered NOT-READY; else judged, with one
of three outcomes: refused under the first failing check, admitted as the last flight entry in WAITING under the lowest free index, or left
waiting for room. A command that already waits for room is judged again, with the same outcomes, by the events that call `State.rejudge`,
and by no command of its own. -/
def Obligations.IoCommands : Prop :=
  ∀ (p : Port) (tag : Byte) (c : IoCommand) (s : State), s.headIo p = some (tag, c) →
    let judged := fun t : State =>
      (∀ code, s.checkCommand p c = some code → t = (s.takeHead p).reply p tag code)
        ∧ (s.checkCommand p c = none → s.portCount p < s.settings.quotas.get p → s.flight.entries.length < 64 →
            ∃ index, index < 64 ∧ (∀ e ∈ s.flight.entries, e.index ≠ index)
              ∧ (∀ j < index, ∃ e ∈ s.flight.entries, e.index = j)
              ∧ t = { s.takeHead p with flight := { s.flight with
                  entries := s.flight.entries ++
                    [{ index := index, port := p, tag := tag, kind := c.kind, ns := c.ns,
                       range := if c.kind = .flush then none else some { start := c.start, count := c.count },
                       stage := .waiting, xfer := .none }] } })
        ∧ (s.checkCommand p c = none → s.settings.quotas.get p ≤ s.portCount p ∨ 64 ≤ s.flight.entries.length →
            t = { s with ports := s.ports.set p { s.port p with roomWait := true } })
    ((s.port p).roomWait = false →
        (s.part.state ≠ .ready → exec (ioCommandFor p c.kind) s = .next ((s.takeHead p).reply p tag .notReady))
        ∧ (s.part.state = .ready → ∃ t, exec (ioCommandFor p c.kind) s = .next t ∧ judged t))
      ∧ ((s.port p).roomWait = true → exec (ioCommandFor p c.kind) s = .next s ∧ judged (s.rejudge p))
      ∧ s.portCount p = (s.flight.entries.filter fun e => e.port = p).length

/-- The checks of a command in their order (R54 to R56, R58, R61, R63), the range computed exactly. -/
def Obligations.ChecksInOrder : Prop :=
  ∀ (s : State) (p : Port) (c : IoCommand),
    let segments := s.coverage c.ns c.start (c.start + c.count - 1)
    s.checkCommand p c =
      if (s.path p).state = .outside then some .notMember
      else if (s.path p).state = .draining ∨ (s.path p).state = .shedding ∨ (s.path p).state = .fenced then some .fenced
      else if (s.path p).state = .lost ∧ c.kind ≠ .read then some .fenced
      else if s.part.state ≠ .ready then some .notReady
      else match s.namespaceById c.ns with
        | none => some .badNamespace
        | some n =>
          if c.kind = .flush then none
          else if n.size ≤ c.start ∨ n.size ≤ c.start + c.count - 1 then some .outOfRange
          else (s.checkCoverage p c segments).or (checkGeneration c segments)

/-- Check 5 block by block (R57 to R60), of a sound table: a READ, WRITE or TRIM passes exactly when at most four holdings overlap its
range and each of its blocks may be used: for a WRITE or a TRIM a HELD holding of the requester or an uncovered OPEN block, for a READ
no PENDING holding and one of the requester's own or under WRITE-GUARD, or an uncovered block that is not CLOSED. It is refused SPAN above
four holdings, and else under the code of the first block that fails. -/
def Obligations.CoverageBlockByBlock : Prop :=
  ∀ (s : State) (p : Port) (c : IoCommand), s.tableSound → 1 ≤ c.count → c.kind ≠ .flush →
    let met := (s.table.holdings.filter fun h => h.meets c.ns c.start c.count).length
    let judge := fun b : Nat => match s.table.holdings.find? fun h => h.ns = c.ns && h.start ≤ b && b < h.start + h.length with
      | some h =>
        if h.tenure = .pending .A ∨ h.tenure = .pending .B then some AnswerCode.transferPending
        else if c.kind = .read then if h.tenure.owner = some p ∨ h.access = .writeGuard then none else some .notOwner
        else if h.tenure = .held p then none else some .notOwner
      | none =>
        if s.policy c.ns = .openArea ∨ (c.kind = .read ∧ s.policy c.ns = .readOnly) then none else some .closedArea
    (s.checkCoverage p c (s.coverage c.ns c.start (c.start + c.count - 1)) = none ↔
      met ≤ 4
        ∧ ∀ b, c.start ≤ b → b < c.start + c.count →
          if c.kind = .read then
            (∀ h ∈ s.table.holdings, h.ns = c.ns → h.start ≤ b → b < h.start + h.length →
                (∀ q, h.tenure ≠ .pending q) ∧ (h.tenure.owner = some p ∨ h.access = .writeGuard))
              ∧ ((∀ h ∈ s.table.holdings, h.ns = c.ns → ¬ (h.start ≤ b ∧ b < h.start + h.length)) → s.policy c.ns ≠ .closed)
          else
            (∀ h ∈ s.table.holdings, h.ns = c.ns → h.start ≤ b → b < h.start + h.length → h.tenure = .held p)
              ∧ ((∀ h ∈ s.table.holdings, h.ns = c.ns → ¬ (h.start ≤ b ∧ b < h.start + h.length)) → s.policy c.ns = .openArea))
      ∧ ∀ code, s.checkCoverage p c (s.coverage c.ns c.start (c.start + c.count - 1)) = some code ↔
        if 4 < met then code = .span
        else ∃ b, c.start ≤ b ∧ b < c.start + c.count ∧ judge b = some code ∧ ∀ j, c.start ≤ j → j < b → judge j = none

/-- Check 6 (R63), of a sound table: a supplied generation passes exactly when the whole range lies within one holding of that
generation, else STALE; 0 matches no holding; and the check is reached only after check 5 has passed. -/
def Obligations.GenerationCheck : Prop :=
  ∀ (s : State) (p : Port) (c : IoCommand), s.tableSound → 1 ≤ c.count → c.kind ≠ .flush →
    let segments := s.coverage c.ns c.start (c.start + c.count - 1)
    (checkGeneration c segments = none ∨ checkGeneration c segments = some .stale)
      ∧ (c.gen = none → checkGeneration c segments = none)
      ∧ (∀ g, c.gen = some g → (checkGeneration c segments = none ↔
          ∃ h ∈ s.table.holdings, h.ns = c.ns ∧ h.start ≤ c.start ∧ c.start + c.count ≤ h.start + h.length ∧ h.gen = g))
      ∧ (c.gen = some 0 → checkGeneration c segments = some .stale)
      ∧ (s.checkCommand p c = some .stale →
          s.checkCoverage p c segments = none ∧ checkGeneration c segments = some .stale)

/-- The place that an entry frees by leaving, in a DRIVE_ANSWER and in every departure (R65, R66, R68): each waiting head command is
judged again. A refused one is taken off; one that passes and whose port is below its quota is admitted while there is room, the space
turn's port first, whether the table was full or not (log entry 27 where it was not), under the lowest free index; a command held by its
own quota, or for which no place is left, waits on. The turn moves exactly when the table was full, both heads waited and the turn's was
admitted. A departure makes due, in table order, the completions whose waits it ended (R36, R74); that the waits are tested before the
heads are judged, so that a FLUSH let in by the same departure does not hold one back, is the model's choice, log entry 38. -/
def Obligations.FreedPlaceGoesByTurn : Prop :=
  (∀ (k : Fin 32) (value : DriveValue) (e : Entry) (s : State), s.flightSound → s.slotEntry k = some e →
      ∃ t, exec (.driveAnswer k value) s = .next t ∧ s.freedTo t e)
    ∧ ∀ (e : Entry) (s : State), s.flightSound → e ∈ s.flight.entries →
      s.freedTo (s.depart e) e
        ∧ (s.depart e).table = { s.table with due := s.table.due ++ s.waitsEnded e.port fun x => decide (x.index = e.index) }

/-! ## Ownership requests (chapter 2) -/

/-- ACQUIRE that passes its checks (R17, R19, R30, R34): a HELD holding of the requester under the lowest free id and the counter's
value, at its place in the table, and the counter advanced; the answer carries the record. -/
def Obligations.AcquireGrants : Prop :=
  ∀ (p : Port) (tag : Byte) (ns start length access heir rank g : Nat) (acc : Access) (hr : Heir) (n : Namespace) (s : State),
    s.grants (.port p) tag (.acquire ns start length access heir rank) →
    accessOf access = some acc → heirOf heir = some hr → 1 ≤ rank → rank ≤ 15 →
    s.namespaceById ns = some n → 1 ≤ length → start + length ≤ n.size →
    (∀ h ∈ s.table.holdings, h.meets ns start length = false) →
    (∀ e ∈ s.flight.entries, e.writeOf p.partner = true → e.meets ns start length = false) →
    s.table.holdings.length < 1024 → s.table.gen = some g →
    ∃ id, id < 1024 ∧ (∀ h ∈ s.table.holdings, h.id ≠ id) ∧ (∀ j < id, ∃ h ∈ s.table.holdings, h.id = j)
      ∧ let h : Holding := { id := id, ns := ns, start := start, length := length, access := acc, heir := hr, rank := rank, gen := g,
                             tenure := .held p }
        let s0 := s.atGrant (.port p)
        exec (.acquire p) s = .next (({ s0 with table := { s0.table with
          holdings := insertHolding h s.table.holdings
          gen := if g + 1 < 2 ^ 48 then some (g + 1) else none } }).answer p tag 1 .good (holdingBytes h (s.unresolved h)))

/-- ACQUIRE refused by the first failing check of R30: OVERLAP and CONFLICT carry the first holding in the way (R31), and CONFLICT raises
CONTENTION for a member partner that owns one (R32). A refusal changes no holding. What overlaps what (R7): records and entries of
one namespace that share a block, a FLUSH every block of its own. -/
def Obligations.AcquireRefusals : Prop :=
  (∀ (p : Port) (tag : Byte) (ns start length access heir rank : Nat) (s : State),
      s.grants (.port p) tag (.acquire ns start length access heir rank) →
      let s0 := s.atGrant (.port p)
      let inWay := s.table.holdings.filter fun h => h.meets ns start length
      let mine := inWay.find? fun h => h.tenure.owner = some p
      let theirs := inWay.find? fun h => h.tenure.owner = some p.partner
      let told := match theirs with
        | some h => if s.isMember p.partner then s0.raise .contention { port := none, value := h.id } [p.partner] else s0
        | none => s0
      if accessOf access = none ∨ heirOf heir = none ∨ rank < 1 ∨ 15 < rank then
        exec (.acquire p) s = .next (s0.answer p tag 1 .malformed [])
      else match s.namespaceById ns with
        | none => exec (.acquire p) s = .next (s0.answer p tag 1 .badNamespace [])
        | some n =>
          if length = 0 ∨ n.size < start + length then exec (.acquire p) s = .next (s0.answer p tag 1 .outOfRange [])
          else match mine, inWay with
            | some h, _ => exec (.acquire p) s = .next (s0.answer p tag 1 .overlap (holdingBytes h (s.unresolved h)))
            | none, h :: _ => exec (.acquire p) s = .next (told.answer p tag 1 .conflict (holdingBytes h (s.unresolved h)))
            | none, [] =>
              if s.flight.entries.any fun e => e.writeOf p.partner && e.meets ns start length then
                exec (.acquire p) s = .next (s0.answer p tag 1 .busyRange [])
              else if 1024 ≤ s.table.holdings.length then exec (.acquire p) s = .next (s0.answer p tag 1 .tableFull [])
              else s.table.gen = none → exec (.acquire p) s = .next (s0.answer p tag 1 .generationSpent []))
    ∧ (∀ (h : Holding) (ns start length : Nat), h.meets ns start length = true ↔
        h.ns = ns ∧ ∃ b, h.start ≤ b ∧ b < h.start + h.length ∧ start ≤ b ∧ b < start + length)
    ∧ ∀ (e : Entry) (ns start length : Nat), e.meets ns start length = true ↔
        e.ns = ns ∧ (e.range = none
          ∨ ∃ r b, e.range = some r ∧ r.start ≤ b ∧ b < r.start + r.count ∧ start ≤ b ∧ b < start + length)

/-- RELEASE, HAND_OVER, SPLIT and SET_HEIR refused by the id checks of R29: steps 1, 2 and 3, step 4 where the request carries a
generation, and step 5 with HELD needed. -/
def Obligations.IdChecks : Prop :=
  ∀ (p : Port) (tag : Byte) (id : Nat) (r : Request) (s : State) (i : Instr), s.grants (.port p) tag r → commandFor (.port p) r = some i →
    let carried : Option (Option Nat) := match r with
      | .release x g => if x = id then some (some g) else none
      | .handOver x g => if x = id then some (some g) else none
      | .split x _ => if x = id then some none else none
      | .setHeir x heir rank => if x = id ∧ heirOf heir ≠ none ∧ rankOf rank ≠ none then some none else none
      | _ => none
    ∀ gen, carried = some gen →
      let answered := fun code : AnswerCode => exec i s = .next ((s.atGrant (.port p)).answer p tag r.code code [])
      match s.holdingById id with
      | none => answered .noHolding
      | some h =>
        ((∃ q, h.tenure = .pending q) → answered .transferPending)
          ∧ ((∀ q, h.tenure ≠ .pending q) → h.tenure.owner ≠ some p → answered .noHolding)
          ∧ ((∀ q, h.tenure ≠ .pending q) → h.tenure.owner = some p → (∃ g, gen = some g ∧ g ≠ h.gen) → answered .stale)
          ∧ ((∀ q, h.tenure ≠ .pending q) → h.tenure.owner = some p → (∀ g, gen = some g → g = h.gen) → h.tenure ≠ .held p →
              answered .wrongState)

/-- RELEASE of a HELD holding of the requester (R18, R28, R35): retired and answered at once when no write-class entry of the owner
overlaps it, else RELEASING with its answer parked. An entry overlaps a holding that shares a block with it, and a FLUSH every holding of its
namespace (R7). -/
def Obligations.Releases : Prop :=
  (∀ (p : Port) (tag : Byte) (id gen : Nat) (h : Holding) (s : State), s.grants (.port p) tag (.release id gen) →
      s.holdingById id = some h → h.tenure = .held p → h.gen = gen →
      let s0 := s.atGrant (.port p)
      ((∀ e ∈ s.flight.entries, e.writeOf p = true → e.overlaps h = false) →
          exec (.release p) s = .next (({ s0 with table := { s0.table with
            holdings := s.table.holdings.filter fun x : Holding => x.id ≠ id } }).answer p tag 2 .good []))
        ∧ ((∃ e ∈ s.flight.entries, e.writeOf p = true ∧ e.overlaps h = true) →
          exec (.release p) s = .next { s0 with table := { s0.table with
            holdings := s.table.holdings.map fun x : Holding => if x.id = id then { x with tenure := .releasing p tag } else x } }))
    ∧ ∀ (e : Entry) (h : Holding), e.overlaps h = true ↔
        e.ns = h.ns ∧ (e.range = none
          ∨ ∃ r b, e.range = some r ∧ r.start ≤ b ∧ b < r.start + r.count ∧ h.start ≤ b ∧ b < h.start + h.length)

/-- RELEASE_COMPLETION (R25, R37, R128): the oldest due completion is taken off and the pointer moves on; its RELEASING holding is retired
and the parked GOOD comes due, and one that finds no RELEASING holding does nothing more. The walk's end is then tested. That a completion
names its holding by id and generation is the model's choice: log entry 17. -/
def Obligations.ReleaseCompletions : Prop :=
  ∀ (d : Due) (rest : List Due) (s : State), s.table.due = d :: rest → d.kind = .release → s.grantee = some .internal →
    let s0 := { s with table := { s.table with due := rest, pointer := .portA } }
    (∀ (h : Holding) (o : Port) (tag : Byte), s.table.holdings.find? (fun h => h.id = d.id && h.gen = d.gen) = some h → h.tenure = .releasing o tag →
        exec .releaseCompletion s = .next (({ s0 with table := { s0.table with
          holdings := s.table.holdings.filter fun x : Holding => x.id ≠ h.id } }).answer o tag 2 .good []).walkTest)
      ∧ ((∀ h ∈ s.table.holdings, h.id = d.id → h.gen = d.gen → ∀ o tag, h.tenure ≠ .releasing o tag) →
        exec .releaseCompletion s = .next s0.walkTest)

/-- HAND_OVER of a HELD holding of the requester (R28, R39, R40, R41): PARTNER-ABSENT without a member partner; HANDING with its answer
parked when a write-class entry of the owner overlaps it; else completed at once: UNRESOLVED or GENERATION-SPENT and still HELD, or HELD
by the partner under a new generation, with RECEIVED for the partner and the record in the answer. -/
def Obligations.HandOvers : Prop :=
  ∀ (p : Port) (tag : Byte) (id gen : Nat) (h : Holding) (s : State), s.grants (.port p) tag (.handOver id gen) →
    s.holdingById id = some h → h.tenure = .held p → h.gen = gen →
    let s0 := s.atGrant (.port p)
    let waits := ∃ e ∈ s.flight.entries, e.writeOf p = true ∧ e.overlaps h = true
    (s.isMember p.partner = false → exec (.handOver p) s = .next (s0.answer p tag 3 .partnerAbsent []))
      ∧ (s.isMember p.partner = true → waits →
        exec (.handOver p) s = .next { s0 with table := { s0.table with
          holdings := s.table.holdings.map fun x : Holding => if x.id = id then { x with tenure := .handing p tag } else x } })
      ∧ (s.isMember p.partner = true → ¬ waits → s.unresolved h = true →
          exec (.handOver p) s = .next (({ s0 with table := { s0.table with
              holdings := s.table.holdings.map fun x : Holding => if x.id = id then { x with tenure := .held p } else x } }).answer p tag 3
                .unresolved []))
      ∧ (s.isMember p.partner = true → ¬ waits → s.unresolved h = false → s.table.gen = none →
          exec (.handOver p) s = .next (({ s0 with table := { s0.table with
              holdings := s.table.holdings.map fun x : Holding => if x.id = id then { x with tenure := .held p } else x } }).answer p tag 3
                .generationSpent []))
      ∧ ∀ g, s.isMember p.partner = true → ¬ waits → s.unresolved h = false → s.table.gen = some g →
          exec (.handOver p) s = .next ((({ s0 with table := { s0.table with
              holdings := s.table.holdings.map fun x : Holding => if x.id = id then { x with tenure := .held p.partner, gen := g } else x
              gen := genAfter g } }).raise .received { port := none, value := id } [p.partner]).answer p tag 3 .good
                (holdingBytes { h with tenure := .held p.partner, gen := g } false))

/-- HAND_OVER_COMPLETION (R25, R28, R40, R41, R127, R128): the oldest due completion is taken off; its HANDING holding returns to the
giver under the code of the first condition of R40, PENDING while the giver is DRAINING or SHEDDING and else HELD, or passes to the
receiver, which a takeover of the giver counts; one that finds no HANDING holding does nothing more. The walk's end is then tested. A
completion names its holding by id and generation, and the other completions of the wait that is over lose their generation: the model's
choice, log entry 17. -/
def Obligations.HandOverCompletions : Prop :=
  ∀ (d : Due) (rest : List Due) (s : State), s.table.due = d :: rest → d.kind = .handOver → s.grantee = some .internal →
    let s0 := { s with table := { s.table with due := rest, pointer := .portA } }
    ((∀ h ∈ s.table.holdings, h.id = d.id → h.gen = d.gen → ∀ o tag, h.tenure ≠ .handing o tag) →
        exec .handOverCompletion s = .next s0.walkTest)
      ∧ ∀ (h : Holding) (o : Port) (tag : Byte), s.table.holdings.find? (fun h => h.id = d.id && h.gen = d.gen) = some h → h.tenure = .handing o tag →
        let spent := rest.map fun x : Due => if x.id = d.id ∧ x.gen = d.gen then { x with gen := 0 } else x
        let leaving := (s.path o).state = .draining ∨ (s.path o).state = .shedding
        let back := { s0 with table := { s0.table with due := spent, holdings := s.table.holdings.map fun x : Holding =>
          if x.id = h.id then { x with tenure := if leaving then .pending o else .held o } else x } }
        if s.unresolved h then exec .handOverCompletion s = .next (back.answer o tag 3 .unresolved []).walkTest
        else if s.isMember o.partner = false then exec .handOverCompletion s = .next (back.answer o tag 3 .partnerAbsent []).walkTest
        else match s.table.gen with
          | none => exec .handOverCompletion s = .next (back.answer o tag 3 .generationSpent []).walkTest
          | some g =>
            let passed := { s0 with
              table := { s0.table with
                due := spent
                holdings := s.table.holdings.map fun x : Holding =>
                  if x.id = h.id then { x with tenure := .held o.partner, gen := g } else x
                gen := genAfter g }
              paths := if leaving then
                  s.paths.set o { s.path o with
                    takeover := (s.path o).takeover.map fun t : Takeover => { t with transferred := t.transferred + 1 } }
                else s.paths }
            exec .handOverCompletion s = .next ((passed.raise .received { port := none, value := h.id } [o.partner]).answer o tag 3 .good
              (holdingBytes { h with tenure := .held o.partner, gen := g } false)).walkTest

/-- SPLIT of a HELD holding of the requester (R17, R19, R43): OUT-OF-RANGE, TABLE-FULL or GENERATION-SPENT, in that order; else the old
record keeps its id, generation and start, and a new one with the upper blocks takes the lowest free id and the counter's value. -/
def Obligations.Splits : Prop :=
  ∀ (p : Port) (tag : Byte) (id offset : Nat) (h : Holding) (s : State), s.grants (.port p) tag (.split id offset) →
    s.holdingById id = some h → h.tenure = .held p →
    let s0 := s.atGrant (.port p)
    (offset = 0 ∨ h.length ≤ offset → exec (.split p) s = .next (s0.answer p tag 4 .outOfRange []))
      ∧ (0 < offset → offset < h.length →
        (1024 ≤ s.table.holdings.length → exec (.split p) s = .next (s0.answer p tag 4 .tableFull []))
          ∧ (s.table.holdings.length < 1024 → s.table.gen = none →
              exec (.split p) s = .next (s0.answer p tag 4 .generationSpent []))
          ∧ ∀ g, s.table.holdings.length < 1024 → s.table.gen = some g →
              ∃ new, new < 1024 ∧ (∀ x ∈ s.table.holdings, x.id ≠ new) ∧ (∀ j < new, ∃ x ∈ s.table.holdings, x.id = j)
                ∧ let old : Holding := { h with length := offset }
                  let upper : Holding := { h with id := new, start := h.start + offset, length := h.length - offset, gen := g }
                  let t := { s0 with table := { s0.table with
                    holdings := insertHolding upper
                      (s.table.holdings.map fun x : Holding => if x.id = id then { x with length := offset } else x)
                    gen := genAfter g } }
                  exec (.split p) s = .next (t.answer p tag 4 .good
                    (holdingBytes old (s.unresolved old) ++ holdingBytes upper (s.unresolved upper))))

/-- SET_HEIR (R27, R29, R44): MALFORMED for an heir or a rank with no defined value; on a HELD holding of the requester it changes heir
and rank alone, and the answer carries the record. -/
def Obligations.SetsHeir : Prop :=
  ∀ (p : Port) (tag : Byte) (id heir rank : Nat) (s : State), s.grants (.port p) tag (.setHeir id heir rank) →
    let s0 := s.atGrant (.port p)
    ((heirOf heir = none ∨ rank < 1 ∨ 15 < rank) → exec (.setHeir p) s = .next (s0.answer p tag 5 .malformed []))
      ∧ ∀ (h : Holding) (hr : Heir), s.holdingById id = some h → h.tenure = .held p → heirOf heir = some hr → 1 ≤ rank → rank ≤ 15 →
        exec (.setHeir p) s = .next (({ s0 with table := { s0.table with
          holdings := s.table.holdings.map fun x : Holding => if x.id = id then { x with heir := hr, rank := rank } else x } }).answer
            p tag 5 .good (holdingBytes { h with heir := hr, rank := rank } (s.unresolved h)))

/-- ADOPT and ADOPT_FOR (R19, R27, R29, R45, R46): ADOPT_FOR first checks its port's name and membership; then the orphan checks in
order, and HELD by the adopter under the counter's value, with heir NONE and rank 1. ADOPT_FOR's answer goes to the mailbox. -/
def Obligations.Adoptions : Prop :=
  (∀ (c : Client) (tag : Byte) (echo id : Nat) (p : Port) (i : Instr) (s : State),
    (c = .port p ∧ i = .adopt p ∧ echo = 6 ∧ s.grants c tag (.adopt id))
      ∨ (c = .mgmt ∧ i = .adoptFor ∧ echo = 18 ∧ s.isMember p = true ∧ s.grants c tag (.adoptFor (portNum p) id)) →
    let s0 := s.atGrant c
    let refused := fun code : AnswerCode => exec i s = .next (s0.respond c tag echo code [])
    match s.holdingById id with
    | none => refused .noHolding
    | some h =>
      match h.tenure with
      | .pending _ => refused .transferPending
      | .orphaned _ =>
        if s.unresolved h then refused .unresolved
        else match s.table.gen with
          | none => refused .generationSpent
          | some g =>
            let f := fun x : Holding => { x with tenure := .held p, gen := g, heir := .none, rank := 1 }
            exec i s = .next (({ s0 with table := { s0.table with
                holdings := s.table.holdings.map fun x : Holding => if x.id = id then f x else x
                gen := genAfter g } }).respond c tag echo .good (holdingBytes (f h) false))
      | _ => refused .wrongState)
    ∧ ∀ (tag : Byte) (port id : Nat) (s : State), s.grants .mgmt tag (.adoptFor port id) →
      ((port ≠ 1 ∧ port ≠ 2) → exec .adoptFor s = .next ((s.atGrant .mgmt).placeAnswer 18 .malformed []))
        ∧ ∀ p, port = portNum p → s.isMember p = false →
          exec .adoptFor s = .next ((s.atGrant .mgmt).placeAnswer 18 .notMember [])

/-- DISSOLVE (R18, R29, R47): only an ORPHANED holding that is not unresolved is dissolved, and its record is retired; the generation
counter is not used. A holding is unresolved while an ABANDONED write-class entry of either port overlaps it (R8). -/
def Obligations.Dissolves : Prop :=
  (∀ (tag : Byte) (id : Nat) (s : State), s.grants .mgmt tag (.dissolve id) →
      let s0 := s.atGrant .mgmt
      match s.holdingById id with
      | none => exec .dissolve s = .next (s0.placeAnswer 19 .noHolding [])
      | some h =>
        if h.tenure.lastOwner = none then exec .dissolve s = .next (s0.placeAnswer 19 .wrongState [])
        else if s.unresolved h then exec .dissolve s = .next (s0.placeAnswer 19 .unresolved [])
        else exec .dissolve s = .next (({ s0 with table := { s0.table with
          holdings := s.table.holdings.filter fun x : Holding => x.id ≠ id } }).placeAnswer 19 .good []))
    ∧ ∀ (s : State) (h : Holding), s.unresolved h = true ↔
        ∃ e ∈ s.flight.entries, (∃ k, e.stage = .abandoned k) ∧ e.kind ≠ .read ∧ e.overlaps h = true

/-- QUERY (R21, R49): BAD-NAMESPACE, OUT-OF-RANGE, the record that covers the block with its unresolved value of this moment, or UNCOVERED
with the namespace's policy; nothing changes. In a sound table the covering record is the only one. -/
def Obligations.Queries : Prop :=
  ∀ (c : Client) (tag : Byte) (ns block : Nat) (s : State), s.grants c tag (.query ns block) →
    let s0 := s.atGrant c
    let covers := fun h : Holding => h.ns = ns ∧ h.start ≤ block ∧ block < h.start + h.length
    (s.namespaceById ns = none → exec (.query c) s = .next (s0.respond c tag 7 .badNamespace []))
      ∧ ∀ n, s.namespaceById ns = some n →
        (n.size ≤ block → exec (.query c) s = .next (s0.respond c tag 7 .outOfRange []))
          ∧ (block < n.size → s.tableSound →
            (∀ h ∈ s.table.holdings, covers h → exec (.query c) s = .next (s0.respond c tag 7 .good
              (be 1 1 ++ holdingBytes h (s.unresolved h))))
            ∧ ((∀ h ∈ s.table.holdings, ¬ covers h) → exec (.query c) s = .next (s0.respond c tag 7 .good
              (be 1 2 ++ be 1 (s.policy ns).num))))

/-- LIST (R27, R50, R185): MALFORMED for a max outside its link's range, BAD-NAMESPACE, OUT-OF-RANGE; else the records from the block on,
up to max, with the more flag and the next from-block. Nothing changes. -/
def Obligations.Lists : Prop :=
  ∀ (c : Client) (tag : Byte) (ns fromBlock max : Nat) (s : State), s.grants c tag (.list ns fromBlock max) →
    let s0 := s.atGrant c
    let top := if c = .mgmt then 2 else 16
    let found := s.table.holdings.filter fun h => h.ns = ns && fromBlock ≤ h.start + h.length - 1
    let records := (found.take max).flatMap fun h => holdingBytes h (s.unresolved h)
    if max < 1 ∨ top < max then exec (.list c) s = .next (s0.respond c tag 8 .malformed [])
    else match s.namespaceById ns with
      | none => exec (.list c) s = .next (s0.respond c tag 8 .badNamespace [])
      | some n =>
        if n.size ≤ fromBlock then exec (.list c) s = .next (s0.respond c tag 8 .outOfRange [])
        else
          (found.length ≤ max → exec (.list c) s = .next (s0.respond c tag 8 .good
            (be 1 found.length ++ be 1 0 ++ be 6 n.size ++ records)))
            ∧ ∀ h, found[max]? = some h → exec (.list c) s = .next (s0.respond c tag 8 .good
              (be 1 max ++ be 1 1 ++ be 6 h.start ++ records))

/-- WALK_STEP (R6, R25, R128, R129): of the served port's PENDING holdings the one with the highest rank, and among equals the lowest id,
is transferred to the partner under a new generation, or orphaned when it is unresolved, its heir is NONE, the partner is no member or
the counter is spent; the takeover record counts it, and the walk's end is tested. -/
def Obligations.WalkSteps : Prop :=
  ∀ (p : Port) (ports : List Port) (h : Holding) (s : State), s.tableSound → s.table.due = [] → s.walk = p :: ports →
    s.grantee = some .internal → h ∈ s.table.holdings → h.tenure = .pending p →
    (∀ x ∈ s.table.holdings, x.tenure = .pending p → x.rank < h.rank ∨ (x.rank = h.rank ∧ h.id ≤ x.id)) →
    let walked := fun (f : Holding → Holding) (gen : Option Nat) (count : Takeover → Takeover) =>
      { s with
        table := { s.table with
          holdings := s.table.holdings.map fun x : Holding => if x.id = h.id then f x else x
          gen := gen
          pointer := .portA }
        paths := s.paths.set p { s.path p with takeover := (s.path p).takeover.map count } }
    (s.unresolved h = true ∨ h.heir = .none ∨ s.isMember p.partner = false ∨ s.table.gen = none →
        exec .walkStep s = .next (walked (fun x => { x with tenure := .orphaned p }) s.table.gen
          fun t => { t with orphaned := t.orphaned + 1 }).walkTest)
      ∧ ∀ g, s.unresolved h = false → h.heir = .partner → s.isMember p.partner = true → s.table.gen = some g →
        exec .walkStep s = .next (walked (fun x => { x with tenure := .held p.partner, gen := g }) (genAfter g)
          fun t => { t with transferred := t.transferred + 1 }).walkTest

/-- The end of the walk (R128, R130): while the served port has a PENDING holding or a completion due, nothing happens; else it enters
FENCED: the stamp, the keys, the queue, TAKEOVER-DONE, ORPHANS if the count is above 0, and a parked RESIGN's GOOD; and the next port is
served. A completion due for another generation of a record, or for a wait that is over, does not hold the walk back (log entry 17). -/
def Obligations.WalkEnds : Prop :=
  ∀ s : State,
    (s.walk = [] → s.walkTest = s)
      ∧ ∀ p ports, s.walk = p :: ports → ports.all (fun q => q != p) = true →
        let owed := (∃ h ∈ s.table.holdings, h.tenure = .pending p)
          ∨ ∃ d ∈ s.table.due, ∃ h ∈ s.table.holdings, h.id = d.id ∧ h.gen = d.gen ∧
              ((∃ tag, h.tenure = .releasing p tag) ∨ ∃ tag, h.tenure = .handing p tag)
        (owed → s.walkTest = s)
          ∧ (¬ owed →
            let x := s.path p
            let count := fun f : Takeover → Nat => (x.takeover.map f).getD 0
            let s1 := { s with
              walk := ports
              paths := s.paths.set p { x with
                state := .fenced
                rejoinKey := false
                readmitKey := none
                takeover := x.takeover.map fun t : Takeover => { t with fencedAt := some s.clock.ms } } }
            let s2 := s1.raise .takeoverDone { port := some p, value := count (·.transferred) } [p.partner]
            let s3 := if 0 < count (·.orphaned) then s2.raise .orphans { port := some p, value := count (·.orphaned) } [p.partner] else s2
            let s4 := match x.parkedResign with
              | some tag => ({ s3 with paths := s3.paths.set p { s3.path p with parkedResign := none } }).answer p tag 13 .good []
              | none => s3
            s.walkTest = s4.walkTest)

/-! ## Notices (chapter 8) -/

/-- A raised notice (R153 to R158): recorded for a named port that is a member, and for MGMT by the copy flag or, for two kinds, always, but
never at priority 0; a new entry, or one more occurrence up to 255 with the new detail; a recording that qualifies sends one alert frame
at a port, and at MGMT the alert line, bit 3 of the status byte, is asserted exactly while a pending kind qualifies. -/
def Obligations.NoticesRecorded : Prop :=
  ∀ (s : State) (k : NoticeKind) (d : Detail),
    let high := fun t : Target => max t.threshold t.level < s.priority k ∨ s.priority k = 15
    let recorded := fun t : Target => match t.pending.find? fun n => n.kind = k with
      | none => { t with pending := t.pending ++ [{ kind := k, occurrences := 1, detail := d }] }
      | some _ => { t with pending := t.pending.map fun n : Notice =>
          if n.kind = k then { n with occurrences := min 255 (n.occurrences + 1), detail := d } else n }
    (∀ p, s.isMember p = false ∨ s.priority k = 0 → s.recordAtPort k d p = s)
      ∧ (∀ p, s.isMember p = true → s.priority k ≠ 0 →
          let t := s.notices.ports.get p
          let s1 := { s with notices := { s.notices with ports := s.notices.ports.set p (recorded t) } }
          ∃ n, (recorded t).pending.find? (fun n => n.kind = k) = some n ∧ n.detail = d
            ∧ n.occurrences = (match t.pending.find? fun n => n.kind = k with
                | none => 1
                | some m => min 255 (m.occurrences + 1))
            ∧ (high t → s.recordAtPort k d p = s1.sendFrame p 6 0
                (be 1 k.num ++ be 1 (s.priority k) ++ be 1 n.occurrences ++ detailBytes d))
            ∧ (¬ high t → s.recordAtPort k d p = s1))
      ∧ s.recordAtMgmt k d =
          (if s.priority k ≠ 0 ∧ (s.copyFlag k = true ∨ k = .unresolvedCleared ∨ k = .driveSilent) then
            { s with notices := { s.notices with mgmt := recorded s.notices.mgmt } }
          else s)
      ∧ (∀ p, s.raise k d [p] = (s.recordAtPort k d p).recordAtMgmt k d) ∧ s.raise k d [] = s.recordAtMgmt k d
      ∧ s.raise k d [.A, .B] = ((s.recordAtPort k d .A).recordAtPort k d .B).recordAtMgmt k d
      ∧ (s.statusByte.getLsbD 3 = true ↔ ∃ n ∈ s.notices.mgmt.pending,
          max s.notices.mgmt.threshold s.notices.mgmt.level < s.priority n.kind ∨ s.priority n.kind = 15)

/-- TAKE_NOTICE (R159): the pending notice of the highest priority, and among equals the lowest kind number, whatever the threshold and
level, goes into service and is answered with the number still pending; without one NO-NOTICE. -/
def Obligations.TakesNotice : Prop :=
  ∀ (c : Client) (tag : Byte) (s : State), s.takes c tag .takeNotice →
    let t := s.target c
    (t.pending = [] → exec (.takeNotice c) s = .next ((s.takeFront c).respond c tag 9 .noNotice []))
      ∧ ∀ n ∈ t.pending,
        (∀ m ∈ t.pending, m = n ∨ s.priority m.kind < s.priority n.kind
          ∨ (s.priority m.kind = s.priority n.kind ∧ n.kind.num < m.kind.num)) →
        exec (.takeNotice c) s = .next (((s.takeFront c).withTarget c
            { t with inService := some n.kind, level := s.priority n.kind }).respond c tag 9 .good
          (be 1 n.kind.num ++ be 1 (s.priority n.kind) ++ be 1 n.occurrences ++ detailBytes n.detail ++ be 1 t.pending.length))

/-- ACK_NOTICE and SET_THRESHOLD (R160 to R162): MALFORMED and NO-NOTICE; a pending kind's entry is removed, a level it set goes back to
0, and the answer says what is still pending, PARTNER-LOST at a port being passed on afterwards; a threshold of 0..15 is stored. -/
def Obligations.AcknowledgesNotice : Prop :=
  ∀ (c : Client) (tag : Byte) (s : State),
    let t := s.target c
    (∀ v, s.takes c tag (.setThreshold v) →
      (v ≤ 15 → exec (.setThreshold c) s = .next (((s.takeFront c).withTarget c { t with threshold := v }).respond c tag 11 .good (be 1 v)))
        ∧ (15 < v → exec (.setThreshold c) s = .next ((s.takeFront c).respond c tag 11 .malformed [])))
      ∧ (∀ v, s.takes c tag (.ackNotice v) → v < 1 ∨ 10 < v →
          exec (.ackNotice c) s = .next ((s.takeFront c).respond c tag 10 .malformed []))
      ∧ ∀ k : NoticeKind, s.takes c tag (.ackNotice k.num) →
        let rest := t.pending.filter fun n => n.kind ≠ k
        let t1 : Target := if t.inService = some k then { t with pending := rest, inService := none, level := 0 }
          else { t with pending := rest }
        let high := rest.any fun n => max t1.threshold t1.level < s.priority n.kind || s.priority n.kind = 15
        let answered := ((s.takeFront c).withTarget c t1).respond c tag 10 .good (be 1 rest.length ++ be 1 (if high then 1 else 0))
        ((∀ n ∈ t.pending, n.kind ≠ k) → exec (.ackNotice c) s = .next ((s.takeFront c).respond c tag 10 .noNotice []))
          ∧ ((∃ n ∈ t.pending, n.kind = k) →
            (c = .mgmt ∨ k ≠ .partnerLost → exec (.ackNotice c) s = .next answered)
            ∧ ∀ y, c = .port y → k = .partnerLost → exec (.ackNotice c) s = .next (answered.acknowledgeLoss y))

/-! ## Path states (chapters 5 to 7) -/

/-- JOIN, and REJOIN of a member (R98, R101, R142): a port in OUTSIDE becomes MEMBER with its first window at the stamp of this event; a
member is answered GOOD with the window in progress, and nothing changes for it or in the other states. -/
def Obligations.Joins : Prop :=
  ∀ (p : Port) (tag : Byte) (s : State),
    let s0 := s.takeHead p
    let x := s.path p
    let good := fun (t : State) (echo : Nat) => t.answer p tag echo .good (be 2 x.w ++ be 1 x.m ++ (match (t.path p).window with
      | some w => be 4 w.start.toNat
      | none => [0, 0, 0, 0]))
    (s.takes (.port p) tag .join →
      (x.state = .outside → exec (.join p) s = .next (good { s0 with paths := s0.paths.set p { x with
          state := .member, window := some { start := s.clock.ms, width := x.w }, miss := 0, seen := .clear } } 12))
        ∧ (x.state.isMember = true → exec (.join p) s = .next (good s0 12))
        ∧ (x.state = .fenced → exec (.join p) s = .next (s0.answer p tag 12 .fenced []))
        ∧ (x.state = .lost ∨ x.state = .draining ∨ x.state = .shedding → exec (.join p) s = .next (s0.answer p tag 12 .wrongState [])))
      ∧ (s.takes (.port p) tag .rejoin → x.state.isMember = true → exec (.rejoin p) s = .next (good s0 16))

/-- The starts of a takeover (R22, R71, R110, R111, R116, R118 to R123, R126): RESIGN of a member, its answer parked and PARTNER-LOST
raised; FENCE_PARTNER and FORCE_FENCE of a member or a LOST port, answered at once, FORCE_FENCE raising PARTNER-LOST about a member; and a
member's ACK_NOTICE of PARTNER-LOST whose LOST partner's cause has its act enable set. A LOST port keeps its cause and its takeover
record. `State.drainedTo` is the whole of the entry to DRAINING from the state with the answer and the notice in it: path, holdings and
notice target; the withdrawals, their FENCED replies and the completions they make due; the waiting head commands judged again; the drain
that ends at once; a waiting table request of a port that another agent fences; and nothing else. The order within the event is log entry
18's, and that of the withdrawals and their FENCED replies log entry 15's; the order of the frames of this one event is log entry 13's,
and at each departure the waits are tested before the heads are judged (log entry 38). -/
def Obligations.EntersDraining : Prop :=
  ∀ (p : Port) (tag : Byte) (s : State), s.flightSound →
    let told := fun (u : State) (cause : Cause) => u.raise .partnerLost { port := none, value := cause.num } [p.partner]
    let direct := fun cause : Cause => Takeover.begin cause none 0
    let partner := Client.port p.partner
    (s.takes (.port p) tag .resign → ∃ t, exec (.resign p) s = .next t
        ∧ (told ((s.takeHead p).withPath p { s.path p with parkedResign := some tag }) .resigned).drainedTo t p
          (some .resigned) (direct .resigned) false)
      ∧ (s.isMember p = true → s.takes partner tag .fencePartner → ∃ t, exec (.fencePartner p.partner) s = .next t
        ∧ ((s.takeHead p.partner).answer p.partner tag 14 .good []).drainedTo t p (some .partnerFence) (direct .partnerFence) true)
      ∧ (s.isMember p = true → s.takes .mgmt tag (.forceFence (portNum p)) → ∃ t, exec .forceFence s = .next t
        ∧ (told (s.placeAnswer 20 .good []) .mgmtFence).drainedTo t p (some .mgmtFence) (direct .mgmtFence) true)
      ∧ ∀ record, (s.path p).state = .lost → (s.path p).takeover = some record →
        (s.takes partner tag .fencePartner → ∃ t, exec (.fencePartner p.partner) s = .next t
          ∧ ((s.takeHead p.partner).answer p.partner tag 14 .good []).drainedTo t p (s.path p).cause record true)
        ∧ (s.takes .mgmt tag (.forceFence (portNum p)) → ∃ t, exec .forceFence s = .next t
          ∧ (s.placeAnswer 20 .good []).drainedTo t p (s.path p).cause record true)
        ∧ (s.takes partner tag (.ackNotice 1) → (∃ n ∈ (s.target partner).pending, n.kind = .partnerLost) →
            s.isMember p.partner = true →
            ((s.path p).cause = some .beacon ∧ s.settings.actOnBeacon = true)
              ∨ ((s.path p).cause = some .link ∧ s.settings.actOnLink = true) →
            ∃ t, exec (.ackNotice partner) s = .next t
              ∧ ((s.takeHead p.partner).acknowledge partner tag .partnerLost).drainedTo t p (s.path p).cause record true)

/-- FENCE_PARTNER and FORCE_FENCE that start no takeover (R111, R118), and an ACK_NOTICE of PARTNER-LOST that starts none (R116): only
the answer goes out. -/
def Obligations.FencesWithoutEffect : Prop :=
  ∀ (p : Port) (tag : Byte) (s : State),
    let code : Option AnswerCode := match (s.path p).state with
      | .outside => some .notMember
      | .draining => some .good
      | .shedding => some .good
      | .fenced => some .good
      | _ => none
    (∀ c, code = some c → s.takes (.port p.partner) tag .fencePartner →
        exec (.fencePartner p.partner) s = .next ((s.takeHead p.partner).answer p.partner tag 14 c []))
      ∧ (∀ c, code = some c → s.takes .mgmt tag (.forceFence (portNum p)) → exec .forceFence s = .next (s.placeAnswer 20 c []))
      ∧ (∀ v, v ≠ 1 → v ≠ 2 → s.takes .mgmt tag (.forceFence v) → exec .forceFence s = .next (s.placeAnswer 20 .malformed []))
      ∧ ∀ t : State, (t.path p).state ≠ .lost ∨ t.isMember p.partner = false
          ∨ ((t.path p).cause = some .beacon ∧ t.settings.actOnBeacon = false)
          ∨ ((t.path p).cause = some .link ∧ t.settings.actOnLink = false) → t.acknowledgeLoss p.partner = t

/-- READMIT from a member or from management, and REJOIN of a FENCED port (R141, R143 to R147): each sets its key, and the second of the
two returns the path to MEMBER in the same event, with a new window train, no loss cause, and a parked REJOIN answered. A repeated REJOIN
is answered GOOD, with a free value for the window start (log entry 9). -/
def Obligations.ReturnsToMember : Prop :=
  ∀ (p : Port) (tag : Byte) (s : State),
    let x := s.path p
    let window : Window := { start := s.clock.ms, width := x.w }
    let member := be 2 x.w ++ be 1 x.m ++ be 4 s.clock.ms.toNat
    let back := fun (t : State) (y : Machine.Path) =>
      let u := t.withPath p { y with
        state := .member, cause := none, window := some window, miss := 0, seen := .clear, parkedRejoin := none }
      match x.parkedRejoin with
      | some parked => u.answer p parked 16 .good member
      | none => u
    (∀ c port, s.takes c tag (.readmit port) → (c = .port p.partner ∨ (c = .mgmt ∧ port = some (portNum p))) →
      let s0 := s.takeFront c
      (x.state ≠ .fenced → exec (.readmit c) s = .next (s0.respond c tag 15 .notFenced []))
        ∧ (x.state = .fenced → x.readmitKey ≠ none → exec (.readmit c) s = .next (s0.respond c tag 15 .good [7]))
        ∧ (x.state = .fenced → x.readmitKey = none → x.rejoinKey = false →
            exec (.readmit c) s = .next ((s0.withPath p { x with readmitKey := some c }).respond c tag 15 .good [7]))
        ∧ (x.state = .fenced → x.readmitKey = none → x.rejoinKey = true →
            exec (.readmit c) s = .next ((back s0 { x with readmitKey := some c }).respond c tag 15 .good [2])))
      ∧ (∀ v, s.takes .mgmt tag (.readmit (some v)) → v ≠ 1 → v ≠ 2 → exec (.readmit .mgmt) s = .next (s.placeAnswer 15 .malformed []))
      ∧ (s.takes (.port p) tag .rejoin → x.state = .fenced →
        let s0 := s.takeHead p
        (x.rejoinKey = false → x.readmitKey = none → exec (.rejoin p) s = .next
            ((s0.withPath p { x with rejoinKey := true, parkedRejoin := some tag }).raise .rejoinWaiting
              { port := some p, value := 0 } [p.partner]))
          ∧ (x.rejoinKey = false → x.readmitKey ≠ none →
              exec (.rejoin p) s = .next ((back s0 { x with rejoinKey := true }).answer p tag 16 .good member))
          ∧ (x.rejoinKey = true → ∃ b0 b1 b2 b3, exec (.rejoin p) s = .next
              ({ s0 with free := s.free + 4 }.answer p tag 16 .good (be 2 x.w ++ be 1 x.m ++ [b0, b1, b2, b3]))))

/-- WINDOW_END of a member that stays one (R94, R101 to R103): a seen window sets the miss count to 0 and MEMBER, with PARTNER-BACK from
SUSPECT; a missed one below M counts up and gives SUSPECT, with PARTNER-SUSPECT from MEMBER; the next window begins at the end with the
configured W. Before the end is reached, and for a port that is no member, the command changes nothing: the model's choice, log entry 1. -/
def Obligations.WindowEnds : Prop :=
  ∀ (p : Port) (w : Window) (s : State), (s.path p).window = some w →
    let x := s.path p
    let next : Window := { start := w.start + BitVec.ofNat 32 w.width, width := x.w }
    let told := fun (t : State) (k : NoticeKind) (v : Nat) => (t.rejudge p).raise k { port := none, value := v } [p.partner]
    let seen := { s with paths := s.paths.set p { x with state := .member, miss := 0, seen := .clear, window := some next } }
    let missed := { s with paths := s.paths.set p { x with
      state := .suspect, miss := x.miss + 1, seen := if x.seen = .setForNext then .set else .clear, window := some next } }
    (s.isMember p = false ∨ (s.clock.ms - w.start).toNat < w.width → exec (.windowEnd p) s = .next s)
      ∧ (s.isMember p = true → w.width ≤ (s.clock.ms - w.start).toNat →
        (x.seen = .set → exec (.windowEnd p) s = .next (if x.state = .suspect then told seen .partnerBack x.miss else seen))
          ∧ (x.seen ≠ .set → x.miss + 1 < x.m →
            exec (.windowEnd p) s = .next (if x.state = .member then told missed .partnerSuspect x.m else missed)))

/-- DRAIN_TIMER_EXPIRY and ABORT_TIMER_EXPIRY of a DRAINING port (R81, R123, R124, R126): ABORT is requested for its SUBMITTED write-class
entries and the abort timer set; its ABORTING ones become ABANDONED and are counted, and the drain ends: SHEDDING, the timers stopped, a
completion due for each RELEASING and HANDING holding of the port in table order, and the tail of the walk queue. -/
def Obligations.DrainTimers : Prop :=
  ∀ (p : Port) (s : State), (s.path p).state = .draining →
    let x := s.path p
    ((x.drainTimer = some 0 → exec (.drainTimerExpiry p) s = .next { s with
        paths := s.paths.set p { x with drainTimer := none, abortTimer := some (2 ^ s.settings.abortExp) }
        flight := { s.flight with entries := s.flight.entries.map fun e : Entry => match e.stage with
          | .submitted k => if e.port = p ∧ e.kind ≠ .read then { e with stage := .aborting k } else e
          | _ => e }
        media := { s.media with abortList := s.media.abortList ++ s.flight.entries.filterMap fun e : Entry => match e.stage with
          | .submitted k => if e.port = p ∧ e.kind ≠ .read then some k else none
          | _ => none } })
      ∧ (x.abortTimer = some 0 → exec (.abortTimerExpiry p) s = .next (State.walkTest { s with
        paths := s.paths.set p { x with
          state := .shedding
          drainTimer := none
          abortTimer := none
          takeover := x.takeover.map fun t : Takeover => { t with abandoned := t.abandoned
            + (s.flight.entries.filter fun e => e.port = p && e.kind ≠ .read && e.stage.isAborting).length } }
        flight := { s.flight with entries := s.flight.entries.map fun e : Entry => match e.stage with
          | .aborting k => if e.port = p ∧ e.kind ≠ .read then { e with stage := .abandoned k } else e
          | _ => e }
        table := { s.table with due := s.table.due ++ s.table.holdings.filterMap fun h : Holding => match h.tenure with
          | .releasing o _ => if o = p then some { id := h.id, gen := h.gen, port := p, kind := .release } else none
          | .handing o _ => if o = p then some { id := h.id, gen := h.gen, port := p, kind := .handOver } else none
          | _ => none }
        walk := s.walk ++ [p] })))

/-! ## The media port (chapter 4) -/

/-- SUBMIT_COMMAND (R78, R79): with nothing of case 1 or 2 to send, the oldest WAITING entry of the submission turn's port, or else of the
other port, goes into the lowest free slot, and the turn names the port not served. The media link is free at every such command: the
model's choice, log entry 5. -/
def Obligations.SubmitsOldest : Prop :=
  ∀ (before after : List Entry) (e : Entry) (k : Fin 32) (s : State), s.flightSound →
    s.media.failureList = [] → s.media.abortList = [] → s.media.clear ≠ .requested → s.media.identify = 0 →
    s.flight.entries = before ++ e :: after → e.stage = .waiting → (∀ x ∈ before, x.port = e.port → x.stage ≠ .waiting) →
    (e.port = s.media.turn ∨ ∀ x ∈ s.flight.entries, x.port = s.media.turn → x.stage ≠ .waiting) →
    (∀ x ∈ s.flight.entries, x.stage.slot ≠ some k) → (∀ j < k, ∃ x ∈ s.flight.entries, x.stage.slot = some j) →
    exec .submitCommand s = .next { s with
      flight := { s.flight with entries := before ++ { e with stage := .submitted k, xfer := .none } :: after }
      media := { s.media with turn := e.port.partner }
      out := { s.out with drive := s.out.drive ++ [.command k e.kind e.ns e.range] } }

/-- The other messages of the submission arbiter (R78, R81, R88, R90, R194): a transfer failure first, then an ABORT, then QUEUE-CLEAR with
its timer of 2^a microseconds, then IDENTIFY; none is sent before one that comes first. The model's choices: the link is free at every
such command (log entry 5), a command whose message is not due changes nothing (log entry 1), and QUEUE-CLEAR goes before IDENTIFY, of
which R78 says that they do not compete (log entry 41). -/
def Obligations.SendsInOrder : Prop :=
  ∀ s : State,
    let sent := fun (t : State) (m : MediaOut) => { t with out := { t.out with drive := t.out.drive ++ [m] } }
    (∀ k rest, s.media.failureList = k :: rest → exec .sendTransferFailure s =
        .next (sent { s with media := { s.media with failureList := rest } } (.transferFailed k)))
      ∧ (∀ k rest, s.media.failureList = [] → s.media.abortList = k :: rest → exec .sendAbort s =
        .next (sent { s with media := { s.media with abortList := rest } } (.abort k)))
      ∧ (s.media.failureList = [] → s.media.abortList = [] →
        (s.media.clear = .requested → exec .sendQueueClear s = .next (sent { s with
            media := { s.media with clear := .awaiting }
            part := { s.part with clearedTimer := some (2 ^ s.settings.abortExp) } } .queueClear))
          ∧ (s.media.clear ≠ .requested → 0 < s.media.identify → exec .sendIdentify s =
            .next (sent { s with media := { s.media with identify := s.media.identify - 1 } } .identify)))
      ∧ (s.media.failureList ≠ [] → exec .sendAbort s = .next s)
      ∧ (s.media.failureList ≠ [] ∨ s.media.abortList ≠ [] →
        exec .sendQueueClear s = .next s ∧ exec .sendIdentify s = .next s ∧ exec .submitCommand s = .next s)
      ∧ (s.media.clear = .requested ∨ s.media.identify = 0 → exec .sendIdentify s = .next s)
      ∧ (s.media.clear ≠ .requested → exec .sendQueueClear s = .next s)
      ∧ (s.media.clear = .requested ∨ 0 < s.media.identify → exec .submitCommand s = .next s)

/-- DRIVE_ANSWER (R36, R65, R66, R72 to R74, R83, R84, R122, R126, R127, R133, R194): an answer for a free slot is discarded. An occupied
slot's entry is removed with its slot and its ABORT, under the value that R83's table resolves. It is replied to unless ABANDONED, and
counted in the takeover record (log entry 28: an ABANDONED entry as answered late alone); the completions that its departure ends the wait
for come due, and the waiting head commands are judged again; the drain it leaves empty ends; each ORPHANED holding that an ABANDONED
write-class entry leaves no longer unresolved raises UNRESOLVED-CLEARED, in table order; and in RESETTING the last entry's end requests
QUEUE-CLEAR. Nothing else changes. The model's choices: the order of the frames of this one event, of which R74 gives none (the reply, the
refused heads' replies, the notices of the ended drain and walk, then UNRESOLVED-CLEARED: log entry 13), and the waits tested before the
heads are judged (log entry 38). -/
def Obligations.DriveAnswers : Prop :=
  (∀ (k : Fin 32) (value : DriveValue) (s : State), s.slotEntry k = none → exec (.driveAnswer k value) s = .next s)
    ∧ ∀ (k : Fin 32) (value : DriveValue) (e : Entry) (s : State), s.flightSound → s.slotEntry k = some e →
      let code : AnswerCode := match value, e.kind with
        | .good, _ => .good
        | .mediaError, _ => .mediaError
        | .dataLost, .write => .dataLost
        | .dataLost, _ => .mediaError
        | .aborted, _ => .aborted
        | .other _, _ => .mediaError
      let p := e.port
      let write : Bool := e.kind ≠ .read
      let abandoned : Bool := e.stage.isAbandoned
      let draining : Bool := (s.path p).state = .draining
      let gone := fun x : Entry => decide (x.index = e.index)
      let counted := fun r : Takeover => { r with
        aborted := r.aborted + (if draining && write && !abandoned && decide (code = .aborted) then 1 else 0)
        completed := r.completed + (if draining && write && !abandoned && decide (code ≠ .aborted) then 1 else 0)
        answeredLate := r.answeredLate + (if write && abandoned then 1 else 0) }
      let replied := if abandoned then s else s.reply p e.tag code
      let v : State := { replied with
        paths := s.paths.set p { s.path p with takeover := (s.path p).takeover.map counted }
        media := { s.media with abortList := s.media.abortList.filter fun x => x ≠ k } }
      ∃ w : State, v.leaveTo w p gone (fun _ => true) [] (v.waitsEnded p gone) ∧ w.slotEntry k = none
        ∧ let x := if draining && write
              && !(w.flight.entries.any fun y => y.writeOf p && (y.stage.isSubmitted || y.stage.isAborting)) then w.shed p
            else w
          let cleared := if abandoned && write then
              w.table.holdings.filter fun h => h.tenure.lastOwner.isSome && e.overlaps h && !w.unresolved h
            else []
          let y := cleared.foldl (fun u h => u.raise .unresolvedCleared { port := none, value := h.id } [.A, .B]) x
          exec (.driveAnswer k value) s = .next (
            if s.part.state = .resetting ∧ w.flight.entries = [] then { y with
              part := { y.part with resetAbortTimer := none }
              media := if s.media.clear = .idle then { v.media with abortList := [], clear := .requested } else v.media }
            else y)

/-- PULL_REQUEST, PULL_END, DELIVERY_START, DELIVERY_END and SERVER_DATA (R77, R85 to R87): a transfer marks its slot and goes out under
the entry's tag, a pull with its byte count; it fails for a free slot or a link that is down, which the drive is to be told; its end marks
the slot NONE; and data from a server reaches the drive only for a pull in progress under its tag. That a PULL_END or DELIVERY_END with no
such transfer in progress changes nothing is the model's choice: log entry 1. -/
def Obligations.Transfers : Prop :=
  ∀ (k : Fin 32) (s : State),
    let marked := fun (x : Transfer) => { s with flight := { s.flight with
      entries := s.flight.entries.map fun e : Entry => if e.stage.slot = some k then { e with xfer := x } else e } }
    let failed := { marked .none with media := { s.media with failureList := s.media.failureList ++ [k] } }
    let sent := fun (t : State) (p : Port) (o : LinkOut) =>
      { t with out := { t.out with links := t.out.links.set p (t.out.links.get p ++ [o]) } }
    (s.slotEntry k = none → exec (.pullRequest k) s = .next failed ∧ exec (.pullEnd k) s = .next s
        ∧ exec (.deliveryEnd k) s = .next s ∧ ∀ data, exec (.deliveryStart k data) s = .next failed)
      ∧ (∀ e, s.slotEntry k = some e →
        ((s.path e.port).linkUp = false →
            exec (.pullRequest k) s = .next failed ∧ ∀ data, exec (.deliveryStart k data) s = .next failed)
          ∧ ((s.path e.port).linkUp = true → e.kind = .write → ∀ r n, e.range = some r → s.namespaceById e.ns = some n →
            exec (.pullRequest k) s = .next (sent (marked .pulling) e.port (.pull e.tag (r.count * n.blockSize))))
          ∧ ((s.path e.port).linkUp = true → e.kind = .read → ∀ data,
            exec (.deliveryStart k data) s = .next (sent (marked .delivering) e.port (.readData e.tag data)))
          ∧ exec (.pullEnd k) s = .next (if e.xfer = .pulling then marked .none else s)
          ∧ exec (.deliveryEnd k) s = .next (if e.xfer = .delivering then marked .none else s))
      ∧ ∀ (p : Port) (tag : Byte) (data : List Byte),
        ((∀ e ∈ s.flight.entries, e.port = p → e.tag = tag → e.xfer ≠ .pulling) → exec (.serverData p tag data) s = .next s)
          ∧ ∀ before after e, (s.path p).linkUp = true → s.flight.entries = before ++ e :: after →
            (∀ x ∈ before, x.port = p → x.tag = tag → x.xfer ≠ .pulling) →
            e.port = p → e.tag = tag → e.xfer = .pulling → e.stage.slot = some k →
            exec (.serverData p tag data) s = .next { s with out := { s.out with drive := s.out.drive ++ [.data k data] } }

/-! ## The mailbox and the configuration (chapter 11) -/

/-- The I2C link (R186, R188, R189, R194): a written request is buffered, or sets OVERRUN over a full buffer; too short or without a stop
it places nothing; CLEAR_OVERRUN; a read of the answer buffer returns the envelope and zeros, and at its stop clears ANSWER-READY and lets a
waiting reset answer in; other writes change no flag, but for one of two or more bytes to selector 1, whose first byte clears OVERRUN (the
model's choice, log entry 42); and a buffered request that no link takes is answered MALFORMED. What a read of n
bytes returns goes by the last selector: the status byte first under 0 (what follows it is a free value: log entry 9), the envelope under
3, zeros under 1 and 2. -/
def Obligations.MailboxAccess : Prop :=
  ∀ s : State,
    let m := s.mailbox
    (∀ bytes stop, stop = false ∨ bytes.length < 2 →
        exec (.requestBufferWrite bytes stop) s = .next { s with mailbox := { m with selector := 2 } })
      ∧ (∀ bytes, 2 ≤ bytes.length → exec (.requestBufferWrite bytes true) s = .next { s with mailbox :=
          match m.request with
          | none => { m with selector := 2, request := some (bytes.take 64) }
          | some _ => { m with selector := 2, overrun := true } })
      ∧ (∀ value stop, exec (.clearOverrun value stop) s =
          .next { s with mailbox := { m with selector := 1, overrun := if stop then false else m.overrun } })
      ∧ (∀ n stop,
          let out := { s.out with i2c := m.answer.take n ++ List.replicate (n - m.answer.length) 0 }
          exec (.answerBufferRead n stop) s = .next { s with
            out := out
            mailbox :=
              if stop = false then { m with selector := 3 }
              else if m.resetAnswer = true ∧ s.part.state ≠ .resetting then
                { m with selector := 3, answerReady := true, answer := [0, 24, 0], resetAnswer := false }
              else { m with selector := 3, answerReady := false } })
      ∧ (∀ selector bytes, exec (.i2cWriteOther selector bytes) s = .next (
          if selector = 0 ∨ selector = 3 ∨ (selector = 1 ∧ bytes = []) then { s with mailbox := { m with selector := selector.toNat } }
          else if selector = 1 then { s with mailbox := { m with selector := 1, overrun := false } } else s))
      ∧ (∀ n,
          (m.selector = 0 → (s.readBytes n).length = n ∧ (s.readBytes (n + 1)).head? = some s.statusByte)
            ∧ (m.selector = 3 → s.readBytes n = m.answer.take n ++ List.replicate (n - m.answer.length) 0)
            ∧ (m.selector = 1 ∨ m.selector = 2 → s.readBytes n = List.replicate n 0))
      ∧ s.statusByte.getLsbD 0 = m.request.isSome ∧ s.statusByte.getLsbD 1 = m.answerReady ∧ s.statusByte.getLsbD 2 = m.overrun
      ∧ s.statusByte.toNat / 16 = (match s.part.state with
          | .starting => 1
          | .ready => 2
          | .resetting => 3)
      ∧ (∀ code rest, m.request = some (code :: rest) → m.answerReady = false →
          (s.part.state = .resetting ∨ m.resetAnswer = false) → envelopeRequest (code :: rest) = none →
          exec .managementRequestMalformed s = .next { s with mailbox := { m with
            request := none, answerReady := true, answer := [9, code, 0] } })

/-- READ_TAKEOVER, CONFIGURE and READ_CONFIG (R190, R191): the port's takeover record or its absent form; and R191's table, by parameter
number and index: the range, the value in force, and what storing a value changes and nothing else. A value is clamped to its range, or for
parameters 6, 7 and 9 made 1 unless it is 0, stored and answered; a number or an index outside the table is MALFORMED. A quota that changes
lets a waiting command be judged again (R65, R67; one set to its old value judges nothing: log entry 35). READ_CONFIG answers the value in
force. -/
def Obligations.Configuration : Prop :=
  ∀ (tag : Byte) (s : State),
    let g := s.settings
    let set := fun x : Settings => { s with settings := x }
    let num := fun b : Bool => if b then 1 else 0
    let quota := fun (p : Port) (v : Nat) =>
      if g.quotas.get p = v then s else (set { g with quotas := g.quotas.set p v }).rejudge p
    let target := fun (c : Client) (v : Nat) => s.withTarget c { s.target c with threshold := v }
    let path := fun (p : Port) (x : Machine.Path) => { s with paths := s.paths.set p x }
    let row : Nat → Nat → Option (Nat × Nat × Nat × (Nat → State)) := fun number index =>
      match number, index with
      | 1, 1 => some (10, 10000, (s.path .A).w, fun v => path .A { s.path .A with w := v })
      | 1, 2 => some (10, 10000, (s.path .B).w, fun v => path .B { s.path .B with w := v })
      | 2, 1 => some (1, 16, (s.path .A).m, fun v => path .A { s.path .A with m := v })
      | 2, 2 => some (1, 16, (s.path .B).m, fun v => path .B { s.path .B with m := v })
      | 3, 0 => some (10, 24, g.drainExp, fun v => set { g with drainExp := v })
      | 4, 0 => some (10, 24, g.abortExp, fun v => set { g with abortExp := v })
      | 5, 1 => some (8, 56, g.quotas.a, quota .A)
      | 5, 2 => some (8, 56, g.quotas.b, quota .B)
      | 6, 0 => some (0, 1, num g.actOnBeacon, fun v => set { g with actOnBeacon := v != 0 })
      | 7, 0 => some (0, 1, num g.actOnLink, fun v => set { g with actOnLink := v != 0 })
      | 8, k + 1 =>
        if k < 10 then some (0, 15, g.priorities.getD k 0, fun v => set { g with priorities := g.priorities.set k v }) else none
      | 9, k + 1 =>
        if k < 10 then
          some (0, 1, num (g.copyFlags.getD k false), fun v => set { g with copyFlags := g.copyFlags.set k (v != 0) })
        else none
      | 10, 1 => some (0, 15, (s.target (.port .A)).threshold, target (.port .A))
      | 10, 2 => some (0, 15, (s.target (.port .B)).threshold, target (.port .B))
      | 10, 3 => some (0, 15, (s.target .mgmt).threshold, target .mgmt)
      | 11, id =>
        if id < 8 then
          some (1, 3, (match g.policies.getD id .readOnly with
              | .openArea => 1
              | .readOnly => 2
              | .closed => 3),
            fun v => set { g with policies := g.policies.set id (if v = 1 then .openArea else if v = 2 then .readOnly else .closed) })
        else none
      | _, _ => none
    (∀ port, s.takes .mgmt tag (.readTakeover port) →
      (∀ p, port = portNum p → exec .readTakeover s = .next (s.placeAnswer 21 .good (takeoverBytes (s.path p).takeover)))
        ∧ (port ≠ 1 → port ≠ 2 → exec .readTakeover s = .next (s.placeAnswer 21 .malformed [])))
      ∧ (∀ number index value, s.takes .mgmt tag (.configure number index value) → exec .configure s = .next (
          match row number index with
          | none => s.placeAnswer 22 .malformed []
          | some (lo, hi, _, store) =>
            let v := if value < lo then lo else if hi < value then hi else value
            (store v).placeAnswer 22 .good (be 1 number ++ be 1 index ++ be 2 v)))
      ∧ ∀ number index, s.takes .mgmt tag (.readConfig number index) → exec .readConfig s = .next (
          match row number index with
          | none => s.placeAnswer 23 .malformed []
          | some (_, _, value, _) => s.placeAnswer 23 .good (be 1 number ++ be 1 index ++ be 2 value))

/-! ## Laws that every step keeps -/

/-- Right after power-on reset every law holds. -/
def Obligations.ResetIsSound : Prop := State.reset.sound

/-- Every step keeps the settings in their ranges (R191). -/
def Obligations.StepKeepsSettings : Prop :=
  ∀ s t : State, s.settingsSound → step s = .next t → t.settingsSound

/-- Every step keeps the holding table in order, disjoint, inside its namespaces and within its capacity, with unique ids and unique
generations already given (R15 to R19, R26). -/
def Obligations.StepKeepsTable : Prop :=
  ∀ s t : State, s.tableSound → step s = .next t → t.tableSound

/-- Every step keeps the flight table within its capacity, with unique indices and slots (R64, R68, R77). -/
def Obligations.StepKeepsFlight : Prop :=
  ∀ s t : State, s.flightSound → step s = .next t → t.flightSound

/-- Every step keeps all the laws together: the intakes (R180, R181), the owners of R14, the drains and walks of R71, R122, R126 and R128,
and the law of the flight table, that no WRITE or TRIM of one port overlaps a holding owned by the other (R62). -/
def Obligations.StepKeepsSound : Prop :=
  ∀ s t : State, s.sound → step s = .next t → t.sound
end

