-- ==== Sys2Proof/Laws/State.lean ====
section
/-! SUPPORT. One lemma per field per replacement of a block, and the lemmas of `Pair`, so that no proof unfolds a record update. -/

namespace Sys2Proof.Machine

/-! ## Pairs -/

@[simp] theorem Pair.get_set_self {α : Type} (x : Pair α) (p : Port) (v : α) : (x.set p v).get p = v := by cases p <;> rfl

theorem Pair.get_set {α : Type} (x : Pair α) (p q : Port) (v : α) : (x.set p v).get q = if q = p then v else x.get q := by
  cases p <;> cases q <;> rfl

@[simp] theorem Pair.get_set_partner {α : Type} (x : Pair α) (p : Port) (v : α) : (x.set p v).get p.partner = x.get p.partner := by
  cases p <;> rfl

@[simp] theorem Pair.get_set_of_partner {α : Type} (x : Pair α) (p : Port) (v : α) : (x.set p.partner v).get p = x.get p := by
  cases p <;> rfl

@[simp] theorem Pair.set_get {α : Type} (x : Pair α) (p : Port) : x.set p (x.get p) = x := by cases p <;> rfl

@[simp] theorem Pair.set_set {α : Type} (x : Pair α) (p : Port) (v w : α) : (x.set p v).set p w = x.set p w := by cases p <;> rfl

@[simp] theorem Port.partner_partner (p : Port) : p.partner.partner = p := by cases p <;> rfl

theorem Port.partner_ne (p : Port) : p.partner ≠ p := by cases p <;> decide

theorem Port.eq_partner_of_ne {p q : Port} (h : q ≠ p) : q = p.partner := by cases p <;> cases q <;> first | rfl | exact absurd rfl h

/-! ## Replacing a block -/

@[simp] theorem State.withPart_part (s : State) (x : PartBlock) : (s.withPart x).part = x := rfl
@[simp] theorem State.withPart_clock (s : State) (x : PartBlock) : (s.withPart x).clock = s.clock := rfl
@[simp] theorem State.withPart_settings (s : State) (x : PartBlock) : (s.withPart x).settings = s.settings := rfl
@[simp] theorem State.withPart_table (s : State) (x : PartBlock) : (s.withPart x).table = s.table := rfl
@[simp] theorem State.withPart_flight (s : State) (x : PartBlock) : (s.withPart x).flight = s.flight := rfl
@[simp] theorem State.withPart_media (s : State) (x : PartBlock) : (s.withPart x).media = s.media := rfl
@[simp] theorem State.withPart_ports (s : State) (x : PartBlock) : (s.withPart x).ports = s.ports := rfl
@[simp] theorem State.withPart_paths (s : State) (x : PartBlock) : (s.withPart x).paths = s.paths := rfl
@[simp] theorem State.withPart_walk (s : State) (x : PartBlock) : (s.withPart x).walk = s.walk := rfl
@[simp] theorem State.withPart_notices (s : State) (x : PartBlock) : (s.withPart x).notices = s.notices := rfl
@[simp] theorem State.withPart_mailbox (s : State) (x : PartBlock) : (s.withPart x).mailbox = s.mailbox := rfl
@[simp] theorem State.withPart_out (s : State) (x : PartBlock) : (s.withPart x).out = s.out := rfl
@[simp] theorem State.withPart_free (s : State) (x : PartBlock) : (s.withPart x).free = s.free := rfl
@[simp] theorem State.withPart_pending (s : State) (x : PartBlock) : (s.withPart x).pending = s.pending := rfl

@[simp] theorem State.withClock_part (s : State) (x : Clock) : (s.withClock x).part = s.part := rfl
@[simp] theorem State.withClock_clock (s : State) (x : Clock) : (s.withClock x).clock = x := rfl
@[simp] theorem State.withClock_settings (s : State) (x : Clock) : (s.withClock x).settings = s.settings := rfl
@[simp] theorem State.withClock_table (s : State) (x : Clock) : (s.withClock x).table = s.table := rfl
@[simp] theorem State.withClock_flight (s : State) (x : Clock) : (s.withClock x).flight = s.flight := rfl
@[simp] theorem State.withClock_media (s : State) (x : Clock) : (s.withClock x).media = s.media := rfl
@[simp] theorem State.withClock_ports (s : State) (x : Clock) : (s.withClock x).ports = s.ports := rfl
@[simp] theorem State.withClock_paths (s : State) (x : Clock) : (s.withClock x).paths = s.paths := rfl
@[simp] theorem State.withClock_walk (s : State) (x : Clock) : (s.withClock x).walk = s.walk := rfl
@[simp] theorem State.withClock_notices (s : State) (x : Clock) : (s.withClock x).notices = s.notices := rfl
@[simp] theorem State.withClock_mailbox (s : State) (x : Clock) : (s.withClock x).mailbox = s.mailbox := rfl
@[simp] theorem State.withClock_out (s : State) (x : Clock) : (s.withClock x).out = s.out := rfl
@[simp] theorem State.withClock_free (s : State) (x : Clock) : (s.withClock x).free = s.free := rfl
@[simp] theorem State.withClock_pending (s : State) (x : Clock) : (s.withClock x).pending = s.pending := rfl

@[simp] theorem State.withSettings_part (s : State) (x : Settings) : (s.withSettings x).part = s.part := rfl
@[simp] theorem State.withSettings_clock (s : State) (x : Settings) : (s.withSettings x).clock = s.clock := rfl
@[simp] theorem State.withSettings_settings (s : State) (x : Settings) : (s.withSettings x).settings = x := rfl
@[simp] theorem State.withSettings_table (s : State) (x : Settings) : (s.withSettings x).table = s.table := rfl
@[simp] theorem State.withSettings_flight (s : State) (x : Settings) : (s.withSettings x).flight = s.flight := rfl
@[simp] theorem State.withSettings_media (s : State) (x : Settings) : (s.withSettings x).media = s.media := rfl
@[simp] theorem State.withSettings_ports (s : State) (x : Settings) : (s.withSettings x).ports = s.ports := rfl
@[simp] theorem State.withSettings_paths (s : State) (x : Settings) : (s.withSettings x).paths = s.paths := rfl
@[simp] theorem State.withSettings_walk (s : State) (x : Settings) : (s.withSettings x).walk = s.walk := rfl
@[simp] theorem State.withSettings_notices (s : State) (x : Settings) : (s.withSettings x).notices = s.notices := rfl
@[simp] theorem State.withSettings_mailbox (s : State) (x : Settings) : (s.withSettings x).mailbox = s.mailbox := rfl
@[simp] theorem State.withSettings_out (s : State) (x : Settings) : (s.withSettings x).out = s.out := rfl
@[simp] theorem State.withSettings_free (s : State) (x : Settings) : (s.withSettings x).free = s.free := rfl
@[simp] theorem State.withSettings_pending (s : State) (x : Settings) : (s.withSettings x).pending = s.pending := rfl

@[simp] theorem State.withTable_part (s : State) (x : TableBlock) : (s.withTable x).part = s.part := rfl
@[simp] theorem State.withTable_clock (s : State) (x : TableBlock) : (s.withTable x).clock = s.clock := rfl
@[simp] theorem State.withTable_settings (s : State) (x : TableBlock) : (s.withTable x).settings = s.settings := rfl
@[simp] theorem State.withTable_table (s : State) (x : TableBlock) : (s.withTable x).table = x := rfl
@[simp] theorem State.withTable_flight (s : State) (x : TableBlock) : (s.withTable x).flight = s.flight := rfl
@[simp] theorem State.withTable_media (s : State) (x : TableBlock) : (s.withTable x).media = s.media := rfl
@[simp] theorem State.withTable_ports (s : State) (x : TableBlock) : (s.withTable x).ports = s.ports := rfl
@[simp] theorem State.withTable_paths (s : State) (x : TableBlock) : (s.withTable x).paths = s.paths := rfl
@[simp] theorem State.withTable_walk (s : State) (x : TableBlock) : (s.withTable x).walk = s.walk := rfl
@[simp] theorem State.withTable_notices (s : State) (x : TableBlock) : (s.withTable x).notices = s.notices := rfl
@[simp] theorem State.withTable_mailbox (s : State) (x : TableBlock) : (s.withTable x).mailbox = s.mailbox := rfl
@[simp] theorem State.withTable_out (s : State) (x : TableBlock) : (s.withTable x).out = s.out := rfl
@[simp] theorem State.withTable_free (s : State) (x : TableBlock) : (s.withTable x).free = s.free := rfl
@[simp] theorem State.withTable_pending (s : State) (x : TableBlock) : (s.withTable x).pending = s.pending := rfl

@[simp] theorem State.withFlight_part (s : State) (x : FlightBlock) : (s.withFlight x).part = s.part := rfl
@[simp] theorem State.withFlight_clock (s : State) (x : FlightBlock) : (s.withFlight x).clock = s.clock := rfl
@[simp] theorem State.withFlight_settings (s : State) (x : FlightBlock) : (s.withFlight x).settings = s.settings := rfl
@[simp] theorem State.withFlight_table (s : State) (x : FlightBlock) : (s.withFlight x).table = s.table := rfl
@[simp] theorem State.withFlight_flight (s : State) (x : FlightBlock) : (s.withFlight x).flight = x := rfl
@[simp] theorem State.withFlight_media (s : State) (x : FlightBlock) : (s.withFlight x).media = s.media := rfl
@[simp] theorem State.withFlight_ports (s : State) (x : FlightBlock) : (s.withFlight x).ports = s.ports := rfl
@[simp] theorem State.withFlight_paths (s : State) (x : FlightBlock) : (s.withFlight x).paths = s.paths := rfl
@[simp] theorem State.withFlight_walk (s : State) (x : FlightBlock) : (s.withFlight x).walk = s.walk := rfl
@[simp] theorem State.withFlight_notices (s : State) (x : FlightBlock) : (s.withFlight x).notices = s.notices := rfl
@[simp] theorem State.withFlight_mailbox (s : State) (x : FlightBlock) : (s.withFlight x).mailbox = s.mailbox := rfl
@[simp] theorem State.withFlight_out (s : State) (x : FlightBlock) : (s.withFlight x).out = s.out := rfl
@[simp] theorem State.withFlight_free (s : State) (x : FlightBlock) : (s.withFlight x).free = s.free := rfl
@[simp] theorem State.withFlight_pending (s : State) (x : FlightBlock) : (s.withFlight x).pending = s.pending := rfl

@[simp] theorem State.withMedia_part (s : State) (x : MediaBlock) : (s.withMedia x).part = s.part := rfl
@[simp] theorem State.withMedia_clock (s : State) (x : MediaBlock) : (s.withMedia x).clock = s.clock := rfl
@[simp] theorem State.withMedia_settings (s : State) (x : MediaBlock) : (s.withMedia x).settings = s.settings := rfl
@[simp] theorem State.withMedia_table (s : State) (x : MediaBlock) : (s.withMedia x).table = s.table := rfl
@[simp] theorem State.withMedia_flight (s : State) (x : MediaBlock) : (s.withMedia x).flight = s.flight := rfl
@[simp] theorem State.withMedia_media (s : State) (x : MediaBlock) : (s.withMedia x).media = x := rfl
@[simp] theorem State.withMedia_ports (s : State) (x : MediaBlock) : (s.withMedia x).ports = s.ports := rfl
@[simp] theorem State.withMedia_paths (s : State) (x : MediaBlock) : (s.withMedia x).paths = s.paths := rfl
@[simp] theorem State.withMedia_walk (s : State) (x : MediaBlock) : (s.withMedia x).walk = s.walk := rfl
@[simp] theorem State.withMedia_notices (s : State) (x : MediaBlock) : (s.withMedia x).notices = s.notices := rfl
@[simp] theorem State.withMedia_mailbox (s : State) (x : MediaBlock) : (s.withMedia x).mailbox = s.mailbox := rfl
@[simp] theorem State.withMedia_out (s : State) (x : MediaBlock) : (s.withMedia x).out = s.out := rfl
@[simp] theorem State.withMedia_free (s : State) (x : MediaBlock) : (s.withMedia x).free = s.free := rfl
@[simp] theorem State.withMedia_pending (s : State) (x : MediaBlock) : (s.withMedia x).pending = s.pending := rfl

@[simp] theorem State.withWalk_part (s : State) (x : List Port) : (s.withWalk x).part = s.part := rfl
@[simp] theorem State.withWalk_clock (s : State) (x : List Port) : (s.withWalk x).clock = s.clock := rfl
@[simp] theorem State.withWalk_settings (s : State) (x : List Port) : (s.withWalk x).settings = s.settings := rfl
@[simp] theorem State.withWalk_table (s : State) (x : List Port) : (s.withWalk x).table = s.table := rfl
@[simp] theorem State.withWalk_flight (s : State) (x : List Port) : (s.withWalk x).flight = s.flight := rfl
@[simp] theorem State.withWalk_media (s : State) (x : List Port) : (s.withWalk x).media = s.media := rfl
@[simp] theorem State.withWalk_ports (s : State) (x : List Port) : (s.withWalk x).ports = s.ports := rfl
@[simp] theorem State.withWalk_paths (s : State) (x : List Port) : (s.withWalk x).paths = s.paths := rfl
@[simp] theorem State.withWalk_walk (s : State) (x : List Port) : (s.withWalk x).walk = x := rfl
@[simp] theorem State.withWalk_notices (s : State) (x : List Port) : (s.withWalk x).notices = s.notices := rfl
@[simp] theorem State.withWalk_mailbox (s : State) (x : List Port) : (s.withWalk x).mailbox = s.mailbox := rfl
@[simp] theorem State.withWalk_out (s : State) (x : List Port) : (s.withWalk x).out = s.out := rfl
@[simp] theorem State.withWalk_free (s : State) (x : List Port) : (s.withWalk x).free = s.free := rfl
@[simp] theorem State.withWalk_pending (s : State) (x : List Port) : (s.withWalk x).pending = s.pending := rfl

@[simp] theorem State.withNotices_part (s : State) (x : NoticeBlock) : (s.withNotices x).part = s.part := rfl
@[simp] theorem State.withNotices_clock (s : State) (x : NoticeBlock) : (s.withNotices x).clock = s.clock := rfl
@[simp] theorem State.withNotices_settings (s : State) (x : NoticeBlock) : (s.withNotices x).settings = s.settings := rfl
@[simp] theorem State.withNotices_table (s : State) (x : NoticeBlock) : (s.withNotices x).table = s.table := rfl
@[simp] theorem State.withNotices_flight (s : State) (x : NoticeBlock) : (s.withNotices x).flight = s.flight := rfl
@[simp] theorem State.withNotices_media (s : State) (x : NoticeBlock) : (s.withNotices x).media = s.media := rfl
@[simp] theorem State.withNotices_ports (s : State) (x : NoticeBlock) : (s.withNotices x).ports = s.ports := rfl
@[simp] theorem State.withNotices_paths (s : State) (x : NoticeBlock) : (s.withNotices x).paths = s.paths := rfl
@[simp] theorem State.withNotices_walk (s : State) (x : NoticeBlock) : (s.withNotices x).walk = s.walk := rfl
@[simp] theorem State.withNotices_notices (s : State) (x : NoticeBlock) : (s.withNotices x).notices = x := rfl
@[simp] theorem State.withNotices_mailbox (s : State) (x : NoticeBlock) : (s.withNotices x).mailbox = s.mailbox := rfl
@[simp] theorem State.withNotices_out (s : State) (x : NoticeBlock) : (s.withNotices x).out = s.out := rfl
@[simp] theorem State.withNotices_free (s : State) (x : NoticeBlock) : (s.withNotices x).free = s.free := rfl
@[simp] theorem State.withNotices_pending (s : State) (x : NoticeBlock) : (s.withNotices x).pending = s.pending := rfl

@[simp] theorem State.withMailbox_part (s : State) (x : Mailbox) : (s.withMailbox x).part = s.part := rfl
@[simp] theorem State.withMailbox_clock (s : State) (x : Mailbox) : (s.withMailbox x).clock = s.clock := rfl
@[simp] theorem State.withMailbox_settings (s : State) (x : Mailbox) : (s.withMailbox x).settings = s.settings := rfl
@[simp] theorem State.withMailbox_table (s : State) (x : Mailbox) : (s.withMailbox x).table = s.table := rfl
@[simp] theorem State.withMailbox_flight (s : State) (x : Mailbox) : (s.withMailbox x).flight = s.flight := rfl
@[simp] theorem State.withMailbox_media (s : State) (x : Mailbox) : (s.withMailbox x).media = s.media := rfl
@[simp] theorem State.withMailbox_ports (s : State) (x : Mailbox) : (s.withMailbox x).ports = s.ports := rfl
@[simp] theorem State.withMailbox_paths (s : State) (x : Mailbox) : (s.withMailbox x).paths = s.paths := rfl
@[simp] theorem State.withMailbox_walk (s : State) (x : Mailbox) : (s.withMailbox x).walk = s.walk := rfl
@[simp] theorem State.withMailbox_notices (s : State) (x : Mailbox) : (s.withMailbox x).notices = s.notices := rfl
@[simp] theorem State.withMailbox_mailbox (s : State) (x : Mailbox) : (s.withMailbox x).mailbox = x := rfl
@[simp] theorem State.withMailbox_out (s : State) (x : Mailbox) : (s.withMailbox x).out = s.out := rfl
@[simp] theorem State.withMailbox_free (s : State) (x : Mailbox) : (s.withMailbox x).free = s.free := rfl
@[simp] theorem State.withMailbox_pending (s : State) (x : Mailbox) : (s.withMailbox x).pending = s.pending := rfl

@[simp] theorem State.withOut_part (s : State) (x : Output) : (s.withOut x).part = s.part := rfl
@[simp] theorem State.withOut_clock (s : State) (x : Output) : (s.withOut x).clock = s.clock := rfl
@[simp] theorem State.withOut_settings (s : State) (x : Output) : (s.withOut x).settings = s.settings := rfl
@[simp] theorem State.withOut_table (s : State) (x : Output) : (s.withOut x).table = s.table := rfl
@[simp] theorem State.withOut_flight (s : State) (x : Output) : (s.withOut x).flight = s.flight := rfl
@[simp] theorem State.withOut_media (s : State) (x : Output) : (s.withOut x).media = s.media := rfl
@[simp] theorem State.withOut_ports (s : State) (x : Output) : (s.withOut x).ports = s.ports := rfl
@[simp] theorem State.withOut_paths (s : State) (x : Output) : (s.withOut x).paths = s.paths := rfl
@[simp] theorem State.withOut_walk (s : State) (x : Output) : (s.withOut x).walk = s.walk := rfl
@[simp] theorem State.withOut_notices (s : State) (x : Output) : (s.withOut x).notices = s.notices := rfl
@[simp] theorem State.withOut_mailbox (s : State) (x : Output) : (s.withOut x).mailbox = s.mailbox := rfl
@[simp] theorem State.withOut_out (s : State) (x : Output) : (s.withOut x).out = x := rfl
@[simp] theorem State.withOut_free (s : State) (x : Output) : (s.withOut x).free = s.free := rfl
@[simp] theorem State.withOut_pending (s : State) (x : Output) : (s.withOut x).pending = s.pending := rfl

@[simp] theorem State.withFree_part (s : State) (x : Nat) : (s.withFree x).part = s.part := rfl
@[simp] theorem State.withFree_clock (s : State) (x : Nat) : (s.withFree x).clock = s.clock := rfl
@[simp] theorem State.withFree_settings (s : State) (x : Nat) : (s.withFree x).settings = s.settings := rfl
@[simp] theorem State.withFree_table (s : State) (x : Nat) : (s.withFree x).table = s.table := rfl
@[simp] theorem State.withFree_flight (s : State) (x : Nat) : (s.withFree x).flight = s.flight := rfl
@[simp] theorem State.withFree_media (s : State) (x : Nat) : (s.withFree x).media = s.media := rfl
@[simp] theorem State.withFree_ports (s : State) (x : Nat) : (s.withFree x).ports = s.ports := rfl
@[simp] theorem State.withFree_paths (s : State) (x : Nat) : (s.withFree x).paths = s.paths := rfl
@[simp] theorem State.withFree_walk (s : State) (x : Nat) : (s.withFree x).walk = s.walk := rfl
@[simp] theorem State.withFree_notices (s : State) (x : Nat) : (s.withFree x).notices = s.notices := rfl
@[simp] theorem State.withFree_mailbox (s : State) (x : Nat) : (s.withFree x).mailbox = s.mailbox := rfl
@[simp] theorem State.withFree_out (s : State) (x : Nat) : (s.withFree x).out = s.out := rfl
@[simp] theorem State.withFree_free (s : State) (x : Nat) : (s.withFree x).free = x := rfl
@[simp] theorem State.withFree_pending (s : State) (x : Nat) : (s.withFree x).pending = s.pending := rfl

@[simp] theorem State.withPort_part (s : State) (p : Port) (x : PortBlock) : (s.withPort p x).part = s.part := rfl
@[simp] theorem State.withPort_clock (s : State) (p : Port) (x : PortBlock) : (s.withPort p x).clock = s.clock := rfl
@[simp] theorem State.withPort_settings (s : State) (p : Port) (x : PortBlock) : (s.withPort p x).settings = s.settings := rfl
@[simp] theorem State.withPort_table (s : State) (p : Port) (x : PortBlock) : (s.withPort p x).table = s.table := rfl
@[simp] theorem State.withPort_flight (s : State) (p : Port) (x : PortBlock) : (s.withPort p x).flight = s.flight := rfl
@[simp] theorem State.withPort_media (s : State) (p : Port) (x : PortBlock) : (s.withPort p x).media = s.media := rfl
@[simp] theorem State.withPort_ports (s : State) (p : Port) (x : PortBlock) : (s.withPort p x).ports = s.ports.set p x := rfl
@[simp] theorem State.withPort_paths (s : State) (p : Port) (x : PortBlock) : (s.withPort p x).paths = s.paths := rfl
@[simp] theorem State.withPort_walk (s : State) (p : Port) (x : PortBlock) : (s.withPort p x).walk = s.walk := rfl
@[simp] theorem State.withPort_notices (s : State) (p : Port) (x : PortBlock) : (s.withPort p x).notices = s.notices := rfl
@[simp] theorem State.withPort_mailbox (s : State) (p : Port) (x : PortBlock) : (s.withPort p x).mailbox = s.mailbox := rfl
@[simp] theorem State.withPort_out (s : State) (p : Port) (x : PortBlock) : (s.withPort p x).out = s.out := rfl
@[simp] theorem State.withPort_free (s : State) (p : Port) (x : PortBlock) : (s.withPort p x).free = s.free := rfl
@[simp] theorem State.withPort_pending (s : State) (p : Port) (x : PortBlock) : (s.withPort p x).pending = s.pending := rfl

@[simp] theorem State.withPath_part (s : State) (p : Port) (x : Path) : (s.withPath p x).part = s.part := rfl
@[simp] theorem State.withPath_clock (s : State) (p : Port) (x : Path) : (s.withPath p x).clock = s.clock := rfl
@[simp] theorem State.withPath_settings (s : State) (p : Port) (x : Path) : (s.withPath p x).settings = s.settings := rfl
@[simp] theorem State.withPath_table (s : State) (p : Port) (x : Path) : (s.withPath p x).table = s.table := rfl
@[simp] theorem State.withPath_flight (s : State) (p : Port) (x : Path) : (s.withPath p x).flight = s.flight := rfl
@[simp] theorem State.withPath_media (s : State) (p : Port) (x : Path) : (s.withPath p x).media = s.media := rfl
@[simp] theorem State.withPath_ports (s : State) (p : Port) (x : Path) : (s.withPath p x).ports = s.ports := rfl
@[simp] theorem State.withPath_paths (s : State) (p : Port) (x : Path) : (s.withPath p x).paths = s.paths.set p x := rfl
@[simp] theorem State.withPath_walk (s : State) (p : Port) (x : Path) : (s.withPath p x).walk = s.walk := rfl
@[simp] theorem State.withPath_notices (s : State) (p : Port) (x : Path) : (s.withPath p x).notices = s.notices := rfl
@[simp] theorem State.withPath_mailbox (s : State) (p : Port) (x : Path) : (s.withPath p x).mailbox = s.mailbox := rfl
@[simp] theorem State.withPath_out (s : State) (p : Port) (x : Path) : (s.withPath p x).out = s.out := rfl
@[simp] theorem State.withPath_free (s : State) (p : Port) (x : Path) : (s.withPath p x).free = s.free := rfl
@[simp] theorem State.withPath_pending (s : State) (p : Port) (x : Path) : (s.withPath p x).pending = s.pending := rfl

end Sys2Proof.Machine
end

