-- ==== Sys2Proof/Laws/Frames.lean ====
section
/-! SUPPORT. The frames of the shared operations: for each, the blocks of the state it leaves as they were. -/

namespace Sys2Proof.Machine

/-- A fold keeps what each of its steps keeps. -/
theorem foldl_keeps {α β : Type} (g : State → α) (f : State → β → State) (h : ∀ s b, g (f s b) = g s) :
    ∀ (l : List β) (s : State), g (l.foldl f s) = g s
  | [], _ => rfl
  | b :: l, s => (foldl_keeps g f h l (f s b)).trans (h s b)

/-! `sendOn` changes no block but out. -/

@[simp] theorem State.sendOn_part (s : State) (p : Port) (o : LinkOut) : (s.sendOn p o).part = s.part := by
  unfold State.sendOn
  repeat' first | split | dsimp only
  all_goals simp
@[simp] theorem State.sendOn_clock (s : State) (p : Port) (o : LinkOut) : (s.sendOn p o).clock = s.clock := by
  unfold State.sendOn
  repeat' first | split | dsimp only
  all_goals simp
@[simp] theorem State.sendOn_settings (s : State) (p : Port) (o : LinkOut) : (s.sendOn p o).settings = s.settings := by
  unfold State.sendOn
  repeat' first | split | dsimp only
  all_goals simp
@[simp] theorem State.sendOn_table (s : State) (p : Port) (o : LinkOut) : (s.sendOn p o).table = s.table := by
  unfold State.sendOn
  repeat' first | split | dsimp only
  all_goals simp
@[simp] theorem State.sendOn_flight (s : State) (p : Port) (o : LinkOut) : (s.sendOn p o).flight = s.flight := by
  unfold State.sendOn
  repeat' first | split | dsimp only
  all_goals simp
@[simp] theorem State.sendOn_media (s : State) (p : Port) (o : LinkOut) : (s.sendOn p o).media = s.media := by
  unfold State.sendOn
  repeat' first | split | dsimp only
  all_goals simp
@[simp] theorem State.sendOn_ports (s : State) (p : Port) (o : LinkOut) : (s.sendOn p o).ports = s.ports := by
  unfold State.sendOn
  repeat' first | split | dsimp only
  all_goals simp
@[simp] theorem State.sendOn_paths (s : State) (p : Port) (o : LinkOut) : (s.sendOn p o).paths = s.paths := by
  unfold State.sendOn
  repeat' first | split | dsimp only
  all_goals simp
@[simp] theorem State.sendOn_walk (s : State) (p : Port) (o : LinkOut) : (s.sendOn p o).walk = s.walk := by
  unfold State.sendOn
  repeat' first | split | dsimp only
  all_goals simp
@[simp] theorem State.sendOn_notices (s : State) (p : Port) (o : LinkOut) : (s.sendOn p o).notices = s.notices := by
  unfold State.sendOn
  repeat' first | split | dsimp only
  all_goals simp
@[simp] theorem State.sendOn_mailbox (s : State) (p : Port) (o : LinkOut) : (s.sendOn p o).mailbox = s.mailbox := by
  unfold State.sendOn
  repeat' first | split | dsimp only
  all_goals simp
@[simp] theorem State.sendOn_free (s : State) (p : Port) (o : LinkOut) : (s.sendOn p o).free = s.free := by
  unfold State.sendOn
  repeat' first | split | dsimp only
  all_goals simp
@[simp] theorem State.sendOn_pending (s : State) (p : Port) (o : LinkOut) : (s.sendOn p o).pending = s.pending := by
  unfold State.sendOn
  repeat' first | split | dsimp only
  all_goals simp

/-! `sendFrame` changes no block but out. -/

@[simp] theorem State.sendFrame_part (s : State) (p : Port) (cls : Nat) (tag : Byte) (body : List Byte) : (s.sendFrame p cls tag body).part = s.part := by simp [State.sendFrame]
@[simp] theorem State.sendFrame_clock (s : State) (p : Port) (cls : Nat) (tag : Byte) (body : List Byte) : (s.sendFrame p cls tag body).clock = s.clock := by simp [State.sendFrame]
@[simp] theorem State.sendFrame_settings (s : State) (p : Port) (cls : Nat) (tag : Byte) (body : List Byte) : (s.sendFrame p cls tag body).settings = s.settings := by simp [State.sendFrame]
@[simp] theorem State.sendFrame_table (s : State) (p : Port) (cls : Nat) (tag : Byte) (body : List Byte) : (s.sendFrame p cls tag body).table = s.table := by simp [State.sendFrame]
@[simp] theorem State.sendFrame_flight (s : State) (p : Port) (cls : Nat) (tag : Byte) (body : List Byte) : (s.sendFrame p cls tag body).flight = s.flight := by simp [State.sendFrame]
@[simp] theorem State.sendFrame_media (s : State) (p : Port) (cls : Nat) (tag : Byte) (body : List Byte) : (s.sendFrame p cls tag body).media = s.media := by simp [State.sendFrame]
@[simp] theorem State.sendFrame_ports (s : State) (p : Port) (cls : Nat) (tag : Byte) (body : List Byte) : (s.sendFrame p cls tag body).ports = s.ports := by simp [State.sendFrame]
@[simp] theorem State.sendFrame_paths (s : State) (p : Port) (cls : Nat) (tag : Byte) (body : List Byte) : (s.sendFrame p cls tag body).paths = s.paths := by simp [State.sendFrame]
@[simp] theorem State.sendFrame_walk (s : State) (p : Port) (cls : Nat) (tag : Byte) (body : List Byte) : (s.sendFrame p cls tag body).walk = s.walk := by simp [State.sendFrame]
@[simp] theorem State.sendFrame_notices (s : State) (p : Port) (cls : Nat) (tag : Byte) (body : List Byte) : (s.sendFrame p cls tag body).notices = s.notices := by simp [State.sendFrame]
@[simp] theorem State.sendFrame_mailbox (s : State) (p : Port) (cls : Nat) (tag : Byte) (body : List Byte) : (s.sendFrame p cls tag body).mailbox = s.mailbox := by simp [State.sendFrame]
@[simp] theorem State.sendFrame_free (s : State) (p : Port) (cls : Nat) (tag : Byte) (body : List Byte) : (s.sendFrame p cls tag body).free = s.free := by simp [State.sendFrame]
@[simp] theorem State.sendFrame_pending (s : State) (p : Port) (cls : Nat) (tag : Byte) (body : List Byte) : (s.sendFrame p cls tag body).pending = s.pending := by simp [State.sendFrame]

/-! `reply` changes no block but out. -/

@[simp] theorem State.reply_part (s : State) (p : Port) (tag : Byte) (code : AnswerCode) : (s.reply p tag code).part = s.part := by simp [State.reply]
@[simp] theorem State.reply_clock (s : State) (p : Port) (tag : Byte) (code : AnswerCode) : (s.reply p tag code).clock = s.clock := by simp [State.reply]
@[simp] theorem State.reply_settings (s : State) (p : Port) (tag : Byte) (code : AnswerCode) : (s.reply p tag code).settings = s.settings := by simp [State.reply]
@[simp] theorem State.reply_table (s : State) (p : Port) (tag : Byte) (code : AnswerCode) : (s.reply p tag code).table = s.table := by simp [State.reply]
@[simp] theorem State.reply_flight (s : State) (p : Port) (tag : Byte) (code : AnswerCode) : (s.reply p tag code).flight = s.flight := by simp [State.reply]
@[simp] theorem State.reply_media (s : State) (p : Port) (tag : Byte) (code : AnswerCode) : (s.reply p tag code).media = s.media := by simp [State.reply]
@[simp] theorem State.reply_ports (s : State) (p : Port) (tag : Byte) (code : AnswerCode) : (s.reply p tag code).ports = s.ports := by simp [State.reply]
@[simp] theorem State.reply_paths (s : State) (p : Port) (tag : Byte) (code : AnswerCode) : (s.reply p tag code).paths = s.paths := by simp [State.reply]
@[simp] theorem State.reply_walk (s : State) (p : Port) (tag : Byte) (code : AnswerCode) : (s.reply p tag code).walk = s.walk := by simp [State.reply]
@[simp] theorem State.reply_notices (s : State) (p : Port) (tag : Byte) (code : AnswerCode) : (s.reply p tag code).notices = s.notices := by simp [State.reply]
@[simp] theorem State.reply_mailbox (s : State) (p : Port) (tag : Byte) (code : AnswerCode) : (s.reply p tag code).mailbox = s.mailbox := by simp [State.reply]
@[simp] theorem State.reply_free (s : State) (p : Port) (tag : Byte) (code : AnswerCode) : (s.reply p tag code).free = s.free := by simp [State.reply]
@[simp] theorem State.reply_pending (s : State) (p : Port) (tag : Byte) (code : AnswerCode) : (s.reply p tag code).pending = s.pending := by simp [State.reply]

/-! `answer` changes no block but out. -/

@[simp] theorem State.answer_part (s : State) (p : Port) (tag : Byte) (echo : Nat) (code : AnswerCode) (result : List Byte) : (s.answer p tag echo code result).part = s.part := by simp [State.answer]
@[simp] theorem State.answer_clock (s : State) (p : Port) (tag : Byte) (echo : Nat) (code : AnswerCode) (result : List Byte) : (s.answer p tag echo code result).clock = s.clock := by simp [State.answer]
@[simp] theorem State.answer_settings (s : State) (p : Port) (tag : Byte) (echo : Nat) (code : AnswerCode) (result : List Byte) : (s.answer p tag echo code result).settings = s.settings := by simp [State.answer]
@[simp] theorem State.answer_table (s : State) (p : Port) (tag : Byte) (echo : Nat) (code : AnswerCode) (result : List Byte) : (s.answer p tag echo code result).table = s.table := by simp [State.answer]
@[simp] theorem State.answer_flight (s : State) (p : Port) (tag : Byte) (echo : Nat) (code : AnswerCode) (result : List Byte) : (s.answer p tag echo code result).flight = s.flight := by simp [State.answer]
@[simp] theorem State.answer_media (s : State) (p : Port) (tag : Byte) (echo : Nat) (code : AnswerCode) (result : List Byte) : (s.answer p tag echo code result).media = s.media := by simp [State.answer]
@[simp] theorem State.answer_ports (s : State) (p : Port) (tag : Byte) (echo : Nat) (code : AnswerCode) (result : List Byte) : (s.answer p tag echo code result).ports = s.ports := by simp [State.answer]
@[simp] theorem State.answer_paths (s : State) (p : Port) (tag : Byte) (echo : Nat) (code : AnswerCode) (result : List Byte) : (s.answer p tag echo code result).paths = s.paths := by simp [State.answer]
@[simp] theorem State.answer_walk (s : State) (p : Port) (tag : Byte) (echo : Nat) (code : AnswerCode) (result : List Byte) : (s.answer p tag echo code result).walk = s.walk := by simp [State.answer]
@[simp] theorem State.answer_notices (s : State) (p : Port) (tag : Byte) (echo : Nat) (code : AnswerCode) (result : List Byte) : (s.answer p tag echo code result).notices = s.notices := by simp [State.answer]
@[simp] theorem State.answer_mailbox (s : State) (p : Port) (tag : Byte) (echo : Nat) (code : AnswerCode) (result : List Byte) : (s.answer p tag echo code result).mailbox = s.mailbox := by simp [State.answer]
@[simp] theorem State.answer_free (s : State) (p : Port) (tag : Byte) (echo : Nat) (code : AnswerCode) (result : List Byte) : (s.answer p tag echo code result).free = s.free := by simp [State.answer]
@[simp] theorem State.answer_pending (s : State) (p : Port) (tag : Byte) (echo : Nat) (code : AnswerCode) (result : List Byte) : (s.answer p tag echo code result).pending = s.pending := by simp [State.answer]

/-! `sendDrive` changes no block but out. -/

@[simp] theorem State.sendDrive_part (s : State) (m : MediaOut) : (s.sendDrive m).part = s.part := by simp [State.sendDrive]
@[simp] theorem State.sendDrive_clock (s : State) (m : MediaOut) : (s.sendDrive m).clock = s.clock := by simp [State.sendDrive]
@[simp] theorem State.sendDrive_settings (s : State) (m : MediaOut) : (s.sendDrive m).settings = s.settings := by simp [State.sendDrive]
@[simp] theorem State.sendDrive_table (s : State) (m : MediaOut) : (s.sendDrive m).table = s.table := by simp [State.sendDrive]
@[simp] theorem State.sendDrive_flight (s : State) (m : MediaOut) : (s.sendDrive m).flight = s.flight := by simp [State.sendDrive]
@[simp] theorem State.sendDrive_media (s : State) (m : MediaOut) : (s.sendDrive m).media = s.media := by simp [State.sendDrive]
@[simp] theorem State.sendDrive_ports (s : State) (m : MediaOut) : (s.sendDrive m).ports = s.ports := by simp [State.sendDrive]
@[simp] theorem State.sendDrive_paths (s : State) (m : MediaOut) : (s.sendDrive m).paths = s.paths := by simp [State.sendDrive]
@[simp] theorem State.sendDrive_walk (s : State) (m : MediaOut) : (s.sendDrive m).walk = s.walk := by simp [State.sendDrive]
@[simp] theorem State.sendDrive_notices (s : State) (m : MediaOut) : (s.sendDrive m).notices = s.notices := by simp [State.sendDrive]
@[simp] theorem State.sendDrive_mailbox (s : State) (m : MediaOut) : (s.sendDrive m).mailbox = s.mailbox := by simp [State.sendDrive]
@[simp] theorem State.sendDrive_free (s : State) (m : MediaOut) : (s.sendDrive m).free = s.free := by simp [State.sendDrive]
@[simp] theorem State.sendDrive_pending (s : State) (m : MediaOut) : (s.sendDrive m).pending = s.pending := by simp [State.sendDrive]

/-! `setIntake` changes no block but ports, out. -/

@[simp] theorem State.setIntake_part (s : State) (p : Port) (frames : List IntakeFrame) : (s.setIntake p frames).part = s.part := by
  unfold State.setIntake
  repeat' first | split | dsimp only
  all_goals simp
@[simp] theorem State.setIntake_clock (s : State) (p : Port) (frames : List IntakeFrame) : (s.setIntake p frames).clock = s.clock := by
  unfold State.setIntake
  repeat' first | split | dsimp only
  all_goals simp
@[simp] theorem State.setIntake_settings (s : State) (p : Port) (frames : List IntakeFrame) : (s.setIntake p frames).settings = s.settings := by
  unfold State.setIntake
  repeat' first | split | dsimp only
  all_goals simp
@[simp] theorem State.setIntake_table (s : State) (p : Port) (frames : List IntakeFrame) : (s.setIntake p frames).table = s.table := by
  unfold State.setIntake
  repeat' first | split | dsimp only
  all_goals simp
@[simp] theorem State.setIntake_flight (s : State) (p : Port) (frames : List IntakeFrame) : (s.setIntake p frames).flight = s.flight := by
  unfold State.setIntake
  repeat' first | split | dsimp only
  all_goals simp
@[simp] theorem State.setIntake_media (s : State) (p : Port) (frames : List IntakeFrame) : (s.setIntake p frames).media = s.media := by
  unfold State.setIntake
  repeat' first | split | dsimp only
  all_goals simp
@[simp] theorem State.setIntake_paths (s : State) (p : Port) (frames : List IntakeFrame) : (s.setIntake p frames).paths = s.paths := by
  unfold State.setIntake
  repeat' first | split | dsimp only
  all_goals simp
@[simp] theorem State.setIntake_walk (s : State) (p : Port) (frames : List IntakeFrame) : (s.setIntake p frames).walk = s.walk := by
  unfold State.setIntake
  repeat' first | split | dsimp only
  all_goals simp
@[simp] theorem State.setIntake_notices (s : State) (p : Port) (frames : List IntakeFrame) : (s.setIntake p frames).notices = s.notices := by
  unfold State.setIntake
  repeat' first | split | dsimp only
  all_goals simp
@[simp] theorem State.setIntake_mailbox (s : State) (p : Port) (frames : List IntakeFrame) : (s.setIntake p frames).mailbox = s.mailbox := by
  unfold State.setIntake
  repeat' first | split | dsimp only
  all_goals simp
@[simp] theorem State.setIntake_free (s : State) (p : Port) (frames : List IntakeFrame) : (s.setIntake p frames).free = s.free := by
  unfold State.setIntake
  repeat' first | split | dsimp only
  all_goals simp
@[simp] theorem State.setIntake_pending (s : State) (p : Port) (frames : List IntakeFrame) : (s.setIntake p frames).pending = s.pending := by
  unfold State.setIntake
  repeat' first | split | dsimp only
  all_goals simp

/-! `takeHead` changes no block but ports, out. -/

@[simp] theorem State.takeHead_part (s : State) (p : Port) : (s.takeHead p).part = s.part := by simp [State.takeHead]
@[simp] theorem State.takeHead_clock (s : State) (p : Port) : (s.takeHead p).clock = s.clock := by simp [State.takeHead]
@[simp] theorem State.takeHead_settings (s : State) (p : Port) : (s.takeHead p).settings = s.settings := by simp [State.takeHead]
@[simp] theorem State.takeHead_table (s : State) (p : Port) : (s.takeHead p).table = s.table := by simp [State.takeHead]
@[simp] theorem State.takeHead_flight (s : State) (p : Port) : (s.takeHead p).flight = s.flight := by simp [State.takeHead]
@[simp] theorem State.takeHead_media (s : State) (p : Port) : (s.takeHead p).media = s.media := by simp [State.takeHead]
@[simp] theorem State.takeHead_paths (s : State) (p : Port) : (s.takeHead p).paths = s.paths := by simp [State.takeHead]
@[simp] theorem State.takeHead_walk (s : State) (p : Port) : (s.takeHead p).walk = s.walk := by simp [State.takeHead]
@[simp] theorem State.takeHead_notices (s : State) (p : Port) : (s.takeHead p).notices = s.notices := by simp [State.takeHead]
@[simp] theorem State.takeHead_mailbox (s : State) (p : Port) : (s.takeHead p).mailbox = s.mailbox := by simp [State.takeHead]
@[simp] theorem State.takeHead_free (s : State) (p : Port) : (s.takeHead p).free = s.free := by simp [State.takeHead]
@[simp] theorem State.takeHead_pending (s : State) (p : Port) : (s.takeHead p).pending = s.pending := by simp [State.takeHead]

/-! `takeFront` changes no block but ports, out. -/

@[simp] theorem State.takeFront_part (s : State) (c : Client) : (s.takeFront c).part = s.part := by cases c <;> simp [State.takeFront]
@[simp] theorem State.takeFront_clock (s : State) (c : Client) : (s.takeFront c).clock = s.clock := by cases c <;> simp [State.takeFront]
@[simp] theorem State.takeFront_settings (s : State) (c : Client) : (s.takeFront c).settings = s.settings := by cases c <;> simp [State.takeFront]
@[simp] theorem State.takeFront_table (s : State) (c : Client) : (s.takeFront c).table = s.table := by cases c <;> simp [State.takeFront]
@[simp] theorem State.takeFront_flight (s : State) (c : Client) : (s.takeFront c).flight = s.flight := by cases c <;> simp [State.takeFront]
@[simp] theorem State.takeFront_media (s : State) (c : Client) : (s.takeFront c).media = s.media := by cases c <;> simp [State.takeFront]
@[simp] theorem State.takeFront_paths (s : State) (c : Client) : (s.takeFront c).paths = s.paths := by cases c <;> simp [State.takeFront]
@[simp] theorem State.takeFront_walk (s : State) (c : Client) : (s.takeFront c).walk = s.walk := by cases c <;> simp [State.takeFront]
@[simp] theorem State.takeFront_notices (s : State) (c : Client) : (s.takeFront c).notices = s.notices := by cases c <;> simp [State.takeFront]
@[simp] theorem State.takeFront_mailbox (s : State) (c : Client) : (s.takeFront c).mailbox = s.mailbox := by cases c <;> simp [State.takeFront]
@[simp] theorem State.takeFront_free (s : State) (c : Client) : (s.takeFront c).free = s.free := by cases c <;> simp [State.takeFront]
@[simp] theorem State.takeFront_pending (s : State) (c : Client) : (s.takeFront c).pending = s.pending := by cases c <;> simp [State.takeFront]

/-! `placeAnswer` changes no block but mailbox. -/

@[simp] theorem State.placeAnswer_part (s : State) (echo : Nat) (code : AnswerCode) (result : List Byte) : (s.placeAnswer echo code result).part = s.part := by simp [State.placeAnswer]
@[simp] theorem State.placeAnswer_clock (s : State) (echo : Nat) (code : AnswerCode) (result : List Byte) : (s.placeAnswer echo code result).clock = s.clock := by simp [State.placeAnswer]
@[simp] theorem State.placeAnswer_settings (s : State) (echo : Nat) (code : AnswerCode) (result : List Byte) : (s.placeAnswer echo code result).settings = s.settings := by simp [State.placeAnswer]
@[simp] theorem State.placeAnswer_table (s : State) (echo : Nat) (code : AnswerCode) (result : List Byte) : (s.placeAnswer echo code result).table = s.table := by simp [State.placeAnswer]
@[simp] theorem State.placeAnswer_flight (s : State) (echo : Nat) (code : AnswerCode) (result : List Byte) : (s.placeAnswer echo code result).flight = s.flight := by simp [State.placeAnswer]
@[simp] theorem State.placeAnswer_media (s : State) (echo : Nat) (code : AnswerCode) (result : List Byte) : (s.placeAnswer echo code result).media = s.media := by simp [State.placeAnswer]
@[simp] theorem State.placeAnswer_ports (s : State) (echo : Nat) (code : AnswerCode) (result : List Byte) : (s.placeAnswer echo code result).ports = s.ports := by simp [State.placeAnswer]
@[simp] theorem State.placeAnswer_paths (s : State) (echo : Nat) (code : AnswerCode) (result : List Byte) : (s.placeAnswer echo code result).paths = s.paths := by simp [State.placeAnswer]
@[simp] theorem State.placeAnswer_walk (s : State) (echo : Nat) (code : AnswerCode) (result : List Byte) : (s.placeAnswer echo code result).walk = s.walk := by simp [State.placeAnswer]
@[simp] theorem State.placeAnswer_notices (s : State) (echo : Nat) (code : AnswerCode) (result : List Byte) : (s.placeAnswer echo code result).notices = s.notices := by simp [State.placeAnswer]
@[simp] theorem State.placeAnswer_out (s : State) (echo : Nat) (code : AnswerCode) (result : List Byte) : (s.placeAnswer echo code result).out = s.out := by simp [State.placeAnswer]
@[simp] theorem State.placeAnswer_free (s : State) (echo : Nat) (code : AnswerCode) (result : List Byte) : (s.placeAnswer echo code result).free = s.free := by simp [State.placeAnswer]
@[simp] theorem State.placeAnswer_pending (s : State) (echo : Nat) (code : AnswerCode) (result : List Byte) : (s.placeAnswer echo code result).pending = s.pending := by simp [State.placeAnswer]

/-! `respond` changes no block but out, mailbox. -/

@[simp] theorem State.respond_part (s : State) (c : Client) (tag : Byte) (echo : Nat) (code : AnswerCode) (result : List Byte) : (s.respond c tag echo code result).part = s.part := by cases c <;> simp [State.respond]
@[simp] theorem State.respond_clock (s : State) (c : Client) (tag : Byte) (echo : Nat) (code : AnswerCode) (result : List Byte) : (s.respond c tag echo code result).clock = s.clock := by cases c <;> simp [State.respond]
@[simp] theorem State.respond_settings (s : State) (c : Client) (tag : Byte) (echo : Nat) (code : AnswerCode) (result : List Byte) : (s.respond c tag echo code result).settings = s.settings := by cases c <;> simp [State.respond]
@[simp] theorem State.respond_table (s : State) (c : Client) (tag : Byte) (echo : Nat) (code : AnswerCode) (result : List Byte) : (s.respond c tag echo code result).table = s.table := by cases c <;> simp [State.respond]
@[simp] theorem State.respond_flight (s : State) (c : Client) (tag : Byte) (echo : Nat) (code : AnswerCode) (result : List Byte) : (s.respond c tag echo code result).flight = s.flight := by cases c <;> simp [State.respond]
@[simp] theorem State.respond_media (s : State) (c : Client) (tag : Byte) (echo : Nat) (code : AnswerCode) (result : List Byte) : (s.respond c tag echo code result).media = s.media := by cases c <;> simp [State.respond]
@[simp] theorem State.respond_ports (s : State) (c : Client) (tag : Byte) (echo : Nat) (code : AnswerCode) (result : List Byte) : (s.respond c tag echo code result).ports = s.ports := by cases c <;> simp [State.respond]
@[simp] theorem State.respond_paths (s : State) (c : Client) (tag : Byte) (echo : Nat) (code : AnswerCode) (result : List Byte) : (s.respond c tag echo code result).paths = s.paths := by cases c <;> simp [State.respond]
@[simp] theorem State.respond_walk (s : State) (c : Client) (tag : Byte) (echo : Nat) (code : AnswerCode) (result : List Byte) : (s.respond c tag echo code result).walk = s.walk := by cases c <;> simp [State.respond]
@[simp] theorem State.respond_notices (s : State) (c : Client) (tag : Byte) (echo : Nat) (code : AnswerCode) (result : List Byte) : (s.respond c tag echo code result).notices = s.notices := by cases c <;> simp [State.respond]
@[simp] theorem State.respond_free (s : State) (c : Client) (tag : Byte) (echo : Nat) (code : AnswerCode) (result : List Byte) : (s.respond c tag echo code result).free = s.free := by cases c <;> simp [State.respond]
@[simp] theorem State.respond_pending (s : State) (c : Client) (tag : Byte) (echo : Nat) (code : AnswerCode) (result : List Byte) : (s.respond c tag echo code result).pending = s.pending := by cases c <;> simp [State.respond]

/-! `setHolding` changes no block but table. -/

@[simp] theorem State.setHolding_part (s : State) (id : Nat) (f : Holding → Holding) : (s.setHolding id f).part = s.part := by simp [State.setHolding]
@[simp] theorem State.setHolding_clock (s : State) (id : Nat) (f : Holding → Holding) : (s.setHolding id f).clock = s.clock := by simp [State.setHolding]
@[simp] theorem State.setHolding_settings (s : State) (id : Nat) (f : Holding → Holding) : (s.setHolding id f).settings = s.settings := by simp [State.setHolding]
@[simp] theorem State.setHolding_flight (s : State) (id : Nat) (f : Holding → Holding) : (s.setHolding id f).flight = s.flight := by simp [State.setHolding]
@[simp] theorem State.setHolding_media (s : State) (id : Nat) (f : Holding → Holding) : (s.setHolding id f).media = s.media := by simp [State.setHolding]
@[simp] theorem State.setHolding_ports (s : State) (id : Nat) (f : Holding → Holding) : (s.setHolding id f).ports = s.ports := by simp [State.setHolding]
@[simp] theorem State.setHolding_paths (s : State) (id : Nat) (f : Holding → Holding) : (s.setHolding id f).paths = s.paths := by simp [State.setHolding]
@[simp] theorem State.setHolding_walk (s : State) (id : Nat) (f : Holding → Holding) : (s.setHolding id f).walk = s.walk := by simp [State.setHolding]
@[simp] theorem State.setHolding_notices (s : State) (id : Nat) (f : Holding → Holding) : (s.setHolding id f).notices = s.notices := by simp [State.setHolding]
@[simp] theorem State.setHolding_mailbox (s : State) (id : Nat) (f : Holding → Holding) : (s.setHolding id f).mailbox = s.mailbox := by simp [State.setHolding]
@[simp] theorem State.setHolding_out (s : State) (id : Nat) (f : Holding → Holding) : (s.setHolding id f).out = s.out := by simp [State.setHolding]
@[simp] theorem State.setHolding_free (s : State) (id : Nat) (f : Holding → Holding) : (s.setHolding id f).free = s.free := by simp [State.setHolding]
@[simp] theorem State.setHolding_pending (s : State) (id : Nat) (f : Holding → Holding) : (s.setHolding id f).pending = s.pending := by simp [State.setHolding]

/-! `retire` changes no block but table. -/

@[simp] theorem State.retire_part (s : State) (id : Nat) : (s.retire id).part = s.part := by simp [State.retire]
@[simp] theorem State.retire_clock (s : State) (id : Nat) : (s.retire id).clock = s.clock := by simp [State.retire]
@[simp] theorem State.retire_settings (s : State) (id : Nat) : (s.retire id).settings = s.settings := by simp [State.retire]
@[simp] theorem State.retire_flight (s : State) (id : Nat) : (s.retire id).flight = s.flight := by simp [State.retire]
@[simp] theorem State.retire_media (s : State) (id : Nat) : (s.retire id).media = s.media := by simp [State.retire]
@[simp] theorem State.retire_ports (s : State) (id : Nat) : (s.retire id).ports = s.ports := by simp [State.retire]
@[simp] theorem State.retire_paths (s : State) (id : Nat) : (s.retire id).paths = s.paths := by simp [State.retire]
@[simp] theorem State.retire_walk (s : State) (id : Nat) : (s.retire id).walk = s.walk := by simp [State.retire]
@[simp] theorem State.retire_notices (s : State) (id : Nat) : (s.retire id).notices = s.notices := by simp [State.retire]
@[simp] theorem State.retire_mailbox (s : State) (id : Nat) : (s.retire id).mailbox = s.mailbox := by simp [State.retire]
@[simp] theorem State.retire_out (s : State) (id : Nat) : (s.retire id).out = s.out := by simp [State.retire]
@[simp] theorem State.retire_free (s : State) (id : Nat) : (s.retire id).free = s.free := by simp [State.retire]
@[simp] theorem State.retire_pending (s : State) (id : Nat) : (s.retire id).pending = s.pending := by simp [State.retire]

/-! `advanceGen` changes no block but table. -/

@[simp] theorem State.advanceGen_part (s : State) (g : Nat) : (s.advanceGen g).part = s.part := by simp [State.advanceGen]
@[simp] theorem State.advanceGen_clock (s : State) (g : Nat) : (s.advanceGen g).clock = s.clock := by simp [State.advanceGen]
@[simp] theorem State.advanceGen_settings (s : State) (g : Nat) : (s.advanceGen g).settings = s.settings := by simp [State.advanceGen]
@[simp] theorem State.advanceGen_flight (s : State) (g : Nat) : (s.advanceGen g).flight = s.flight := by simp [State.advanceGen]
@[simp] theorem State.advanceGen_media (s : State) (g : Nat) : (s.advanceGen g).media = s.media := by simp [State.advanceGen]
@[simp] theorem State.advanceGen_ports (s : State) (g : Nat) : (s.advanceGen g).ports = s.ports := by simp [State.advanceGen]
@[simp] theorem State.advanceGen_paths (s : State) (g : Nat) : (s.advanceGen g).paths = s.paths := by simp [State.advanceGen]
@[simp] theorem State.advanceGen_walk (s : State) (g : Nat) : (s.advanceGen g).walk = s.walk := by simp [State.advanceGen]
@[simp] theorem State.advanceGen_notices (s : State) (g : Nat) : (s.advanceGen g).notices = s.notices := by simp [State.advanceGen]
@[simp] theorem State.advanceGen_mailbox (s : State) (g : Nat) : (s.advanceGen g).mailbox = s.mailbox := by simp [State.advanceGen]
@[simp] theorem State.advanceGen_out (s : State) (g : Nat) : (s.advanceGen g).out = s.out := by simp [State.advanceGen]
@[simp] theorem State.advanceGen_free (s : State) (g : Nat) : (s.advanceGen g).free = s.free := by simp [State.advanceGen]
@[simp] theorem State.advanceGen_pending (s : State) (g : Nat) : (s.advanceGen g).pending = s.pending := by simp [State.advanceGen]

/-! `granted` changes no block but table. -/

@[simp] theorem State.granted_part (s : State) (x : Source) : (s.granted x).part = s.part := by simp [State.granted]
@[simp] theorem State.granted_clock (s : State) (x : Source) : (s.granted x).clock = s.clock := by simp [State.granted]
@[simp] theorem State.granted_settings (s : State) (x : Source) : (s.granted x).settings = s.settings := by simp [State.granted]
@[simp] theorem State.granted_flight (s : State) (x : Source) : (s.granted x).flight = s.flight := by simp [State.granted]
@[simp] theorem State.granted_media (s : State) (x : Source) : (s.granted x).media = s.media := by simp [State.granted]
@[simp] theorem State.granted_ports (s : State) (x : Source) : (s.granted x).ports = s.ports := by simp [State.granted]
@[simp] theorem State.granted_paths (s : State) (x : Source) : (s.granted x).paths = s.paths := by simp [State.granted]
@[simp] theorem State.granted_walk (s : State) (x : Source) : (s.granted x).walk = s.walk := by simp [State.granted]
@[simp] theorem State.granted_notices (s : State) (x : Source) : (s.granted x).notices = s.notices := by simp [State.granted]
@[simp] theorem State.granted_mailbox (s : State) (x : Source) : (s.granted x).mailbox = s.mailbox := by simp [State.granted]
@[simp] theorem State.granted_out (s : State) (x : Source) : (s.granted x).out = s.out := by simp [State.granted]
@[simp] theorem State.granted_free (s : State) (x : Source) : (s.granted x).free = s.free := by simp [State.granted]
@[simp] theorem State.granted_pending (s : State) (x : Source) : (s.granted x).pending = s.pending := by simp [State.granted]

/-! `onTakeover` changes no block but paths. -/

@[simp] theorem State.onTakeover_part (s : State) (p : Port) (f : Takeover → Takeover) : (s.onTakeover p f).part = s.part := by simp [State.onTakeover]
@[simp] theorem State.onTakeover_clock (s : State) (p : Port) (f : Takeover → Takeover) : (s.onTakeover p f).clock = s.clock := by simp [State.onTakeover]
@[simp] theorem State.onTakeover_settings (s : State) (p : Port) (f : Takeover → Takeover) : (s.onTakeover p f).settings = s.settings := by simp [State.onTakeover]
@[simp] theorem State.onTakeover_table (s : State) (p : Port) (f : Takeover → Takeover) : (s.onTakeover p f).table = s.table := by simp [State.onTakeover]
@[simp] theorem State.onTakeover_flight (s : State) (p : Port) (f : Takeover → Takeover) : (s.onTakeover p f).flight = s.flight := by simp [State.onTakeover]
@[simp] theorem State.onTakeover_media (s : State) (p : Port) (f : Takeover → Takeover) : (s.onTakeover p f).media = s.media := by simp [State.onTakeover]
@[simp] theorem State.onTakeover_ports (s : State) (p : Port) (f : Takeover → Takeover) : (s.onTakeover p f).ports = s.ports := by simp [State.onTakeover]
@[simp] theorem State.onTakeover_walk (s : State) (p : Port) (f : Takeover → Takeover) : (s.onTakeover p f).walk = s.walk := by simp [State.onTakeover]
@[simp] theorem State.onTakeover_notices (s : State) (p : Port) (f : Takeover → Takeover) : (s.onTakeover p f).notices = s.notices := by simp [State.onTakeover]
@[simp] theorem State.onTakeover_mailbox (s : State) (p : Port) (f : Takeover → Takeover) : (s.onTakeover p f).mailbox = s.mailbox := by simp [State.onTakeover]
@[simp] theorem State.onTakeover_out (s : State) (p : Port) (f : Takeover → Takeover) : (s.onTakeover p f).out = s.out := by simp [State.onTakeover]
@[simp] theorem State.onTakeover_free (s : State) (p : Port) (f : Takeover → Takeover) : (s.onTakeover p f).free = s.free := by simp [State.onTakeover]
@[simp] theorem State.onTakeover_pending (s : State) (p : Port) (f : Takeover → Takeover) : (s.onTakeover p f).pending = s.pending := by simp [State.onTakeover]

/-! `withTarget` changes no block but notices. -/

@[simp] theorem State.withTarget_part (s : State) (c : Client) (t : Target) : (s.withTarget c t).part = s.part := by cases c <;> rfl
@[simp] theorem State.withTarget_clock (s : State) (c : Client) (t : Target) : (s.withTarget c t).clock = s.clock := by cases c <;> rfl
@[simp] theorem State.withTarget_settings (s : State) (c : Client) (t : Target) : (s.withTarget c t).settings = s.settings := by cases c <;> rfl
@[simp] theorem State.withTarget_table (s : State) (c : Client) (t : Target) : (s.withTarget c t).table = s.table := by cases c <;> rfl
@[simp] theorem State.withTarget_flight (s : State) (c : Client) (t : Target) : (s.withTarget c t).flight = s.flight := by cases c <;> rfl
@[simp] theorem State.withTarget_media (s : State) (c : Client) (t : Target) : (s.withTarget c t).media = s.media := by cases c <;> rfl
@[simp] theorem State.withTarget_ports (s : State) (c : Client) (t : Target) : (s.withTarget c t).ports = s.ports := by cases c <;> rfl
@[simp] theorem State.withTarget_paths (s : State) (c : Client) (t : Target) : (s.withTarget c t).paths = s.paths := by cases c <;> rfl
@[simp] theorem State.withTarget_walk (s : State) (c : Client) (t : Target) : (s.withTarget c t).walk = s.walk := by cases c <;> rfl
@[simp] theorem State.withTarget_mailbox (s : State) (c : Client) (t : Target) : (s.withTarget c t).mailbox = s.mailbox := by cases c <;> rfl
@[simp] theorem State.withTarget_out (s : State) (c : Client) (t : Target) : (s.withTarget c t).out = s.out := by cases c <;> rfl
@[simp] theorem State.withTarget_free (s : State) (c : Client) (t : Target) : (s.withTarget c t).free = s.free := by cases c <;> rfl
@[simp] theorem State.withTarget_pending (s : State) (c : Client) (t : Target) : (s.withTarget c t).pending = s.pending := by cases c <;> rfl

/-! `alertFrame` changes no block but out. -/

@[simp] theorem State.alertFrame_part (s : State) (p : Port) (k : NoticeKind) (n : Notice) : (s.alertFrame p k n).part = s.part := by simp [State.alertFrame]
@[simp] theorem State.alertFrame_clock (s : State) (p : Port) (k : NoticeKind) (n : Notice) : (s.alertFrame p k n).clock = s.clock := by simp [State.alertFrame]
@[simp] theorem State.alertFrame_settings (s : State) (p : Port) (k : NoticeKind) (n : Notice) : (s.alertFrame p k n).settings = s.settings := by simp [State.alertFrame]
@[simp] theorem State.alertFrame_table (s : State) (p : Port) (k : NoticeKind) (n : Notice) : (s.alertFrame p k n).table = s.table := by simp [State.alertFrame]
@[simp] theorem State.alertFrame_flight (s : State) (p : Port) (k : NoticeKind) (n : Notice) : (s.alertFrame p k n).flight = s.flight := by simp [State.alertFrame]
@[simp] theorem State.alertFrame_media (s : State) (p : Port) (k : NoticeKind) (n : Notice) : (s.alertFrame p k n).media = s.media := by simp [State.alertFrame]
@[simp] theorem State.alertFrame_ports (s : State) (p : Port) (k : NoticeKind) (n : Notice) : (s.alertFrame p k n).ports = s.ports := by simp [State.alertFrame]
@[simp] theorem State.alertFrame_paths (s : State) (p : Port) (k : NoticeKind) (n : Notice) : (s.alertFrame p k n).paths = s.paths := by simp [State.alertFrame]
@[simp] theorem State.alertFrame_walk (s : State) (p : Port) (k : NoticeKind) (n : Notice) : (s.alertFrame p k n).walk = s.walk := by simp [State.alertFrame]
@[simp] theorem State.alertFrame_notices (s : State) (p : Port) (k : NoticeKind) (n : Notice) : (s.alertFrame p k n).notices = s.notices := by simp [State.alertFrame]
@[simp] theorem State.alertFrame_mailbox (s : State) (p : Port) (k : NoticeKind) (n : Notice) : (s.alertFrame p k n).mailbox = s.mailbox := by simp [State.alertFrame]
@[simp] theorem State.alertFrame_free (s : State) (p : Port) (k : NoticeKind) (n : Notice) : (s.alertFrame p k n).free = s.free := by simp [State.alertFrame]
@[simp] theorem State.alertFrame_pending (s : State) (p : Port) (k : NoticeKind) (n : Notice) : (s.alertFrame p k n).pending = s.pending := by simp [State.alertFrame]

/-! `recordAtPort` changes no block but notices, out. -/

@[simp] theorem State.recordAtPort_part (s : State) (k : NoticeKind) (d : Detail) (p : Port) : (s.recordAtPort k d p).part = s.part := by
  unfold State.recordAtPort
  repeat' first | split | dsimp only
  all_goals simp
@[simp] theorem State.recordAtPort_clock (s : State) (k : NoticeKind) (d : Detail) (p : Port) : (s.recordAtPort k d p).clock = s.clock := by
  unfold State.recordAtPort
  repeat' first | split | dsimp only
  all_goals simp
@[simp] theorem State.recordAtPort_settings (s : State) (k : NoticeKind) (d : Detail) (p : Port) : (s.recordAtPort k d p).settings = s.settings := by
  unfold State.recordAtPort
  repeat' first | split | dsimp only
  all_goals simp
@[simp] theorem State.recordAtPort_table (s : State) (k : NoticeKind) (d : Detail) (p : Port) : (s.recordAtPort k d p).table = s.table := by
  unfold State.recordAtPort
  repeat' first | split | dsimp only
  all_goals simp
@[simp] theorem State.recordAtPort_flight (s : State) (k : NoticeKind) (d : Detail) (p : Port) : (s.recordAtPort k d p).flight = s.flight := by
  unfold State.recordAtPort
  repeat' first | split | dsimp only
  all_goals simp
@[simp] theorem State.recordAtPort_media (s : State) (k : NoticeKind) (d : Detail) (p : Port) : (s.recordAtPort k d p).media = s.media := by
  unfold State.recordAtPort
  repeat' first | split | dsimp only
  all_goals simp
@[simp] theorem State.recordAtPort_ports (s : State) (k : NoticeKind) (d : Detail) (p : Port) : (s.recordAtPort k d p).ports = s.ports := by
  unfold State.recordAtPort
  repeat' first | split | dsimp only
  all_goals simp
@[simp] theorem State.recordAtPort_paths (s : State) (k : NoticeKind) (d : Detail) (p : Port) : (s.recordAtPort k d p).paths = s.paths := by
  unfold State.recordAtPort
  repeat' first | split | dsimp only
  all_goals simp
@[simp] theorem State.recordAtPort_walk (s : State) (k : NoticeKind) (d : Detail) (p : Port) : (s.recordAtPort k d p).walk = s.walk := by
  unfold State.recordAtPort
  repeat' first | split | dsimp only
  all_goals simp
@[simp] theorem State.recordAtPort_mailbox (s : State) (k : NoticeKind) (d : Detail) (p : Port) : (s.recordAtPort k d p).mailbox = s.mailbox := by
  unfold State.recordAtPort
  repeat' first | split | dsimp only
  all_goals simp
@[simp] theorem State.recordAtPort_free (s : State) (k : NoticeKind) (d : Detail) (p : Port) : (s.recordAtPort k d p).free = s.free := by
  unfold State.recordAtPort
  repeat' first | split | dsimp only
  all_goals simp
@[simp] theorem State.recordAtPort_pending (s : State) (k : NoticeKind) (d : Detail) (p : Port) : (s.recordAtPort k d p).pending = s.pending := by
  unfold State.recordAtPort
  repeat' first | split | dsimp only
  all_goals simp

/-! `recordAtMgmt` changes no block but notices. -/

@[simp] theorem State.recordAtMgmt_part (s : State) (k : NoticeKind) (d : Detail) : (s.recordAtMgmt k d).part = s.part := by
  unfold State.recordAtMgmt
  repeat' first | split | dsimp only
  all_goals simp
@[simp] theorem State.recordAtMgmt_clock (s : State) (k : NoticeKind) (d : Detail) : (s.recordAtMgmt k d).clock = s.clock := by
  unfold State.recordAtMgmt
  repeat' first | split | dsimp only
  all_goals simp
@[simp] theorem State.recordAtMgmt_settings (s : State) (k : NoticeKind) (d : Detail) : (s.recordAtMgmt k d).settings = s.settings := by
  unfold State.recordAtMgmt
  repeat' first | split | dsimp only
  all_goals simp
@[simp] theorem State.recordAtMgmt_table (s : State) (k : NoticeKind) (d : Detail) : (s.recordAtMgmt k d).table = s.table := by
  unfold State.recordAtMgmt
  repeat' first | split | dsimp only
  all_goals simp
@[simp] theorem State.recordAtMgmt_flight (s : State) (k : NoticeKind) (d : Detail) : (s.recordAtMgmt k d).flight = s.flight := by
  unfold State.recordAtMgmt
  repeat' first | split | dsimp only
  all_goals simp
@[simp] theorem State.recordAtMgmt_media (s : State) (k : NoticeKind) (d : Detail) : (s.recordAtMgmt k d).media = s.media := by
  unfold State.recordAtMgmt
  repeat' first | split | dsimp only
  all_goals simp
@[simp] theorem State.recordAtMgmt_ports (s : State) (k : NoticeKind) (d : Detail) : (s.recordAtMgmt k d).ports = s.ports := by
  unfold State.recordAtMgmt
  repeat' first | split | dsimp only
  all_goals simp
@[simp] theorem State.recordAtMgmt_paths (s : State) (k : NoticeKind) (d : Detail) : (s.recordAtMgmt k d).paths = s.paths := by
  unfold State.recordAtMgmt
  repeat' first | split | dsimp only
  all_goals simp
@[simp] theorem State.recordAtMgmt_walk (s : State) (k : NoticeKind) (d : Detail) : (s.recordAtMgmt k d).walk = s.walk := by
  unfold State.recordAtMgmt
  repeat' first | split | dsimp only
  all_goals simp
@[simp] theorem State.recordAtMgmt_mailbox (s : State) (k : NoticeKind) (d : Detail) : (s.recordAtMgmt k d).mailbox = s.mailbox := by
  unfold State.recordAtMgmt
  repeat' first | split | dsimp only
  all_goals simp
@[simp] theorem State.recordAtMgmt_out (s : State) (k : NoticeKind) (d : Detail) : (s.recordAtMgmt k d).out = s.out := by
  unfold State.recordAtMgmt
  repeat' first | split | dsimp only
  all_goals simp
@[simp] theorem State.recordAtMgmt_free (s : State) (k : NoticeKind) (d : Detail) : (s.recordAtMgmt k d).free = s.free := by
  unfold State.recordAtMgmt
  repeat' first | split | dsimp only
  all_goals simp
@[simp] theorem State.recordAtMgmt_pending (s : State) (k : NoticeKind) (d : Detail) : (s.recordAtMgmt k d).pending = s.pending := by
  unfold State.recordAtMgmt
  repeat' first | split | dsimp only
  all_goals simp

/-! `raise` changes no block but notices, out. -/

@[simp] theorem State.raise_part (s : State) (k : NoticeKind) (d : Detail) (ts : List Port) : (s.raise k d ts).part = s.part := by
  unfold State.raise; rw [State.recordAtMgmt_part]; exact foldl_keeps State.part _ (by simp) _ _
@[simp] theorem State.raise_clock (s : State) (k : NoticeKind) (d : Detail) (ts : List Port) : (s.raise k d ts).clock = s.clock := by
  unfold State.raise; rw [State.recordAtMgmt_clock]; exact foldl_keeps State.clock _ (by simp) _ _
@[simp] theorem State.raise_settings (s : State) (k : NoticeKind) (d : Detail) (ts : List Port) : (s.raise k d ts).settings = s.settings := by
  unfold State.raise; rw [State.recordAtMgmt_settings]; exact foldl_keeps State.settings _ (by simp) _ _
@[simp] theorem State.raise_table (s : State) (k : NoticeKind) (d : Detail) (ts : List Port) : (s.raise k d ts).table = s.table := by
  unfold State.raise; rw [State.recordAtMgmt_table]; exact foldl_keeps State.table _ (by simp) _ _
@[simp] theorem State.raise_flight (s : State) (k : NoticeKind) (d : Detail) (ts : List Port) : (s.raise k d ts).flight = s.flight := by
  unfold State.raise; rw [State.recordAtMgmt_flight]; exact foldl_keeps State.flight _ (by simp) _ _
@[simp] theorem State.raise_media (s : State) (k : NoticeKind) (d : Detail) (ts : List Port) : (s.raise k d ts).media = s.media := by
  unfold State.raise; rw [State.recordAtMgmt_media]; exact foldl_keeps State.media _ (by simp) _ _
@[simp] theorem State.raise_ports (s : State) (k : NoticeKind) (d : Detail) (ts : List Port) : (s.raise k d ts).ports = s.ports := by
  unfold State.raise; rw [State.recordAtMgmt_ports]; exact foldl_keeps State.ports _ (by simp) _ _
@[simp] theorem State.raise_paths (s : State) (k : NoticeKind) (d : Detail) (ts : List Port) : (s.raise k d ts).paths = s.paths := by
  unfold State.raise; rw [State.recordAtMgmt_paths]; exact foldl_keeps State.paths _ (by simp) _ _
@[simp] theorem State.raise_walk (s : State) (k : NoticeKind) (d : Detail) (ts : List Port) : (s.raise k d ts).walk = s.walk := by
  unfold State.raise; rw [State.recordAtMgmt_walk]; exact foldl_keeps State.walk _ (by simp) _ _
@[simp] theorem State.raise_mailbox (s : State) (k : NoticeKind) (d : Detail) (ts : List Port) : (s.raise k d ts).mailbox = s.mailbox := by
  unfold State.raise; rw [State.recordAtMgmt_mailbox]; exact foldl_keeps State.mailbox _ (by simp) _ _
@[simp] theorem State.raise_free (s : State) (k : NoticeKind) (d : Detail) (ts : List Port) : (s.raise k d ts).free = s.free := by
  unfold State.raise; rw [State.recordAtMgmt_free]; exact foldl_keeps State.free _ (by simp) _ _
@[simp] theorem State.raise_pending (s : State) (k : NoticeKind) (d : Detail) (ts : List Port) : (s.raise k d ts).pending = s.pending := by
  unfold State.raise; rw [State.recordAtMgmt_pending]; exact foldl_keeps State.pending _ (by simp) _ _

/-! `admitted` changes no block but flight. -/

@[simp] theorem State.admitted_part (s : State) (p : Port) (tag : Byte) (c : IoCommand) : (s.admitted p tag c).part = s.part := by simp [State.admitted]
@[simp] theorem State.admitted_clock (s : State) (p : Port) (tag : Byte) (c : IoCommand) : (s.admitted p tag c).clock = s.clock := by simp [State.admitted]
@[simp] theorem State.admitted_settings (s : State) (p : Port) (tag : Byte) (c : IoCommand) : (s.admitted p tag c).settings = s.settings := by simp [State.admitted]
@[simp] theorem State.admitted_table (s : State) (p : Port) (tag : Byte) (c : IoCommand) : (s.admitted p tag c).table = s.table := by simp [State.admitted]
@[simp] theorem State.admitted_media (s : State) (p : Port) (tag : Byte) (c : IoCommand) : (s.admitted p tag c).media = s.media := by simp [State.admitted]
@[simp] theorem State.admitted_ports (s : State) (p : Port) (tag : Byte) (c : IoCommand) : (s.admitted p tag c).ports = s.ports := by simp [State.admitted]
@[simp] theorem State.admitted_paths (s : State) (p : Port) (tag : Byte) (c : IoCommand) : (s.admitted p tag c).paths = s.paths := by simp [State.admitted]
@[simp] theorem State.admitted_walk (s : State) (p : Port) (tag : Byte) (c : IoCommand) : (s.admitted p tag c).walk = s.walk := by simp [State.admitted]
@[simp] theorem State.admitted_notices (s : State) (p : Port) (tag : Byte) (c : IoCommand) : (s.admitted p tag c).notices = s.notices := by simp [State.admitted]
@[simp] theorem State.admitted_mailbox (s : State) (p : Port) (tag : Byte) (c : IoCommand) : (s.admitted p tag c).mailbox = s.mailbox := by simp [State.admitted]
@[simp] theorem State.admitted_out (s : State) (p : Port) (tag : Byte) (c : IoCommand) : (s.admitted p tag c).out = s.out := by simp [State.admitted]
@[simp] theorem State.admitted_free (s : State) (p : Port) (tag : Byte) (c : IoCommand) : (s.admitted p tag c).free = s.free := by simp [State.admitted]
@[simp] theorem State.admitted_pending (s : State) (p : Port) (tag : Byte) (c : IoCommand) : (s.admitted p tag c).pending = s.pending := by simp [State.admitted]

/-! `judgeHead` changes no block but flight, ports, out. -/

@[simp] theorem State.judgeHead_part (s : State) (p : Port) (tag : Byte) (c : IoCommand) : (s.judgeHead p tag c).part = s.part := by
  unfold State.judgeHead
  repeat' first | split | dsimp only
  all_goals simp
@[simp] theorem State.judgeHead_clock (s : State) (p : Port) (tag : Byte) (c : IoCommand) : (s.judgeHead p tag c).clock = s.clock := by
  unfold State.judgeHead
  repeat' first | split | dsimp only
  all_goals simp
@[simp] theorem State.judgeHead_settings (s : State) (p : Port) (tag : Byte) (c : IoCommand) : (s.judgeHead p tag c).settings = s.settings := by
  unfold State.judgeHead
  repeat' first | split | dsimp only
  all_goals simp
@[simp] theorem State.judgeHead_table (s : State) (p : Port) (tag : Byte) (c : IoCommand) : (s.judgeHead p tag c).table = s.table := by
  unfold State.judgeHead
  repeat' first | split | dsimp only
  all_goals simp
@[simp] theorem State.judgeHead_media (s : State) (p : Port) (tag : Byte) (c : IoCommand) : (s.judgeHead p tag c).media = s.media := by
  unfold State.judgeHead
  repeat' first | split | dsimp only
  all_goals simp
@[simp] theorem State.judgeHead_paths (s : State) (p : Port) (tag : Byte) (c : IoCommand) : (s.judgeHead p tag c).paths = s.paths := by
  unfold State.judgeHead
  repeat' first | split | dsimp only
  all_goals simp
@[simp] theorem State.judgeHead_walk (s : State) (p : Port) (tag : Byte) (c : IoCommand) : (s.judgeHead p tag c).walk = s.walk := by
  unfold State.judgeHead
  repeat' first | split | dsimp only
  all_goals simp
@[simp] theorem State.judgeHead_notices (s : State) (p : Port) (tag : Byte) (c : IoCommand) : (s.judgeHead p tag c).notices = s.notices := by
  unfold State.judgeHead
  repeat' first | split | dsimp only
  all_goals simp
@[simp] theorem State.judgeHead_mailbox (s : State) (p : Port) (tag : Byte) (c : IoCommand) : (s.judgeHead p tag c).mailbox = s.mailbox := by
  unfold State.judgeHead
  repeat' first | split | dsimp only
  all_goals simp
@[simp] theorem State.judgeHead_free (s : State) (p : Port) (tag : Byte) (c : IoCommand) : (s.judgeHead p tag c).free = s.free := by
  unfold State.judgeHead
  repeat' first | split | dsimp only
  all_goals simp
@[simp] theorem State.judgeHead_pending (s : State) (p : Port) (tag : Byte) (c : IoCommand) : (s.judgeHead p tag c).pending = s.pending := by
  unfold State.judgeHead
  repeat' first | split | dsimp only
  all_goals simp

/-! `rejudge` changes no block but flight, ports, out. -/

@[simp] theorem State.rejudge_part (s : State) (p : Port) : (s.rejudge p).part = s.part := by
  unfold State.rejudge
  repeat' first | split | dsimp only
  all_goals simp
@[simp] theorem State.rejudge_clock (s : State) (p : Port) : (s.rejudge p).clock = s.clock := by
  unfold State.rejudge
  repeat' first | split | dsimp only
  all_goals simp
@[simp] theorem State.rejudge_settings (s : State) (p : Port) : (s.rejudge p).settings = s.settings := by
  unfold State.rejudge
  repeat' first | split | dsimp only
  all_goals simp
@[simp] theorem State.rejudge_table (s : State) (p : Port) : (s.rejudge p).table = s.table := by
  unfold State.rejudge
  repeat' first | split | dsimp only
  all_goals simp
@[simp] theorem State.rejudge_media (s : State) (p : Port) : (s.rejudge p).media = s.media := by
  unfold State.rejudge
  repeat' first | split | dsimp only
  all_goals simp
@[simp] theorem State.rejudge_paths (s : State) (p : Port) : (s.rejudge p).paths = s.paths := by
  unfold State.rejudge
  repeat' first | split | dsimp only
  all_goals simp
@[simp] theorem State.rejudge_walk (s : State) (p : Port) : (s.rejudge p).walk = s.walk := by
  unfold State.rejudge
  repeat' first | split | dsimp only
  all_goals simp
@[simp] theorem State.rejudge_notices (s : State) (p : Port) : (s.rejudge p).notices = s.notices := by
  unfold State.rejudge
  repeat' first | split | dsimp only
  all_goals simp
@[simp] theorem State.rejudge_mailbox (s : State) (p : Port) : (s.rejudge p).mailbox = s.mailbox := by
  unfold State.rejudge
  repeat' first | split | dsimp only
  all_goals simp
@[simp] theorem State.rejudge_free (s : State) (p : Port) : (s.rejudge p).free = s.free := by
  unfold State.rejudge
  repeat' first | split | dsimp only
  all_goals simp
@[simp] theorem State.rejudge_pending (s : State) (p : Port) : (s.rejudge p).pending = s.pending := by
  unfold State.rejudge
  repeat' first | split | dsimp only
  all_goals simp

/-! `rejudgeBoth` changes no block but flight, ports, out. -/

@[simp] theorem State.rejudgeBoth_part (s : State) (full : Bool) : (s.rejudgeBoth full).part = s.part := by
  unfold State.rejudgeBoth
  repeat' first | split | dsimp only
  all_goals simp
@[simp] theorem State.rejudgeBoth_clock (s : State) (full : Bool) : (s.rejudgeBoth full).clock = s.clock := by
  unfold State.rejudgeBoth
  repeat' first | split | dsimp only
  all_goals simp
@[simp] theorem State.rejudgeBoth_settings (s : State) (full : Bool) : (s.rejudgeBoth full).settings = s.settings := by
  unfold State.rejudgeBoth
  repeat' first | split | dsimp only
  all_goals simp
@[simp] theorem State.rejudgeBoth_table (s : State) (full : Bool) : (s.rejudgeBoth full).table = s.table := by
  unfold State.rejudgeBoth
  repeat' first | split | dsimp only
  all_goals simp
@[simp] theorem State.rejudgeBoth_media (s : State) (full : Bool) : (s.rejudgeBoth full).media = s.media := by
  unfold State.rejudgeBoth
  repeat' first | split | dsimp only
  all_goals simp
@[simp] theorem State.rejudgeBoth_paths (s : State) (full : Bool) : (s.rejudgeBoth full).paths = s.paths := by
  unfold State.rejudgeBoth
  repeat' first | split | dsimp only
  all_goals simp
@[simp] theorem State.rejudgeBoth_walk (s : State) (full : Bool) : (s.rejudgeBoth full).walk = s.walk := by
  unfold State.rejudgeBoth
  repeat' first | split | dsimp only
  all_goals simp
@[simp] theorem State.rejudgeBoth_notices (s : State) (full : Bool) : (s.rejudgeBoth full).notices = s.notices := by
  unfold State.rejudgeBoth
  repeat' first | split | dsimp only
  all_goals simp
@[simp] theorem State.rejudgeBoth_mailbox (s : State) (full : Bool) : (s.rejudgeBoth full).mailbox = s.mailbox := by
  unfold State.rejudgeBoth
  repeat' first | split | dsimp only
  all_goals simp
@[simp] theorem State.rejudgeBoth_free (s : State) (full : Bool) : (s.rejudgeBoth full).free = s.free := by
  unfold State.rejudgeBoth
  repeat' first | split | dsimp only
  all_goals simp
@[simp] theorem State.rejudgeBoth_pending (s : State) (full : Bool) : (s.rejudgeBoth full).pending = s.pending := by
  unfold State.rejudgeBoth
  repeat' first | split | dsimp only
  all_goals simp

/-! `depart` changes no block but flight, table, ports, out. -/

@[simp] theorem State.depart_part (s : State) (e : Entry) : (s.depart e).part = s.part := by simp [State.depart]
@[simp] theorem State.depart_clock (s : State) (e : Entry) : (s.depart e).clock = s.clock := by simp [State.depart]
@[simp] theorem State.depart_settings (s : State) (e : Entry) : (s.depart e).settings = s.settings := by simp [State.depart]
@[simp] theorem State.depart_media (s : State) (e : Entry) : (s.depart e).media = s.media := by simp [State.depart]
@[simp] theorem State.depart_paths (s : State) (e : Entry) : (s.depart e).paths = s.paths := by simp [State.depart]
@[simp] theorem State.depart_walk (s : State) (e : Entry) : (s.depart e).walk = s.walk := by simp [State.depart]
@[simp] theorem State.depart_notices (s : State) (e : Entry) : (s.depart e).notices = s.notices := by simp [State.depart]
@[simp] theorem State.depart_mailbox (s : State) (e : Entry) : (s.depart e).mailbox = s.mailbox := by simp [State.depart]
@[simp] theorem State.depart_free (s : State) (e : Entry) : (s.depart e).free = s.free := by simp [State.depart]
@[simp] theorem State.depart_pending (s : State) (e : Entry) : (s.depart e).pending = s.pending := by simp [State.depart]

/-! `withdraw` changes no block but flight, table, ports, out. -/

@[simp] theorem State.withdraw_part (s : State) (e : Entry) : (s.withdraw e).part = s.part := by simp [State.withdraw]
@[simp] theorem State.withdraw_clock (s : State) (e : Entry) : (s.withdraw e).clock = s.clock := by simp [State.withdraw]
@[simp] theorem State.withdraw_settings (s : State) (e : Entry) : (s.withdraw e).settings = s.settings := by simp [State.withdraw]
@[simp] theorem State.withdraw_media (s : State) (e : Entry) : (s.withdraw e).media = s.media := by simp [State.withdraw]
@[simp] theorem State.withdraw_paths (s : State) (e : Entry) : (s.withdraw e).paths = s.paths := by simp [State.withdraw]
@[simp] theorem State.withdraw_walk (s : State) (e : Entry) : (s.withdraw e).walk = s.walk := by simp [State.withdraw]
@[simp] theorem State.withdraw_notices (s : State) (e : Entry) : (s.withdraw e).notices = s.notices := by simp [State.withdraw]
@[simp] theorem State.withdraw_mailbox (s : State) (e : Entry) : (s.withdraw e).mailbox = s.mailbox := by simp [State.withdraw]
@[simp] theorem State.withdraw_free (s : State) (e : Entry) : (s.withdraw e).free = s.free := by simp [State.withdraw]
@[simp] theorem State.withdraw_pending (s : State) (e : Entry) : (s.withdraw e).pending = s.pending := by simp [State.withdraw]

/-! `withdrawAll` changes no block but flight, table, ports, out. -/

@[simp] theorem State.withdrawAll_part (s : State) (es : List Entry) : (s.withdrawAll es).part = s.part := by
  unfold State.withdrawAll; exact foldl_keeps State.part _ (by simp) _ _
@[simp] theorem State.withdrawAll_clock (s : State) (es : List Entry) : (s.withdrawAll es).clock = s.clock := by
  unfold State.withdrawAll; exact foldl_keeps State.clock _ (by simp) _ _
@[simp] theorem State.withdrawAll_settings (s : State) (es : List Entry) : (s.withdrawAll es).settings = s.settings := by
  unfold State.withdrawAll; exact foldl_keeps State.settings _ (by simp) _ _
@[simp] theorem State.withdrawAll_media (s : State) (es : List Entry) : (s.withdrawAll es).media = s.media := by
  unfold State.withdrawAll; exact foldl_keeps State.media _ (by simp) _ _
@[simp] theorem State.withdrawAll_paths (s : State) (es : List Entry) : (s.withdrawAll es).paths = s.paths := by
  unfold State.withdrawAll; exact foldl_keeps State.paths _ (by simp) _ _
@[simp] theorem State.withdrawAll_walk (s : State) (es : List Entry) : (s.withdrawAll es).walk = s.walk := by
  unfold State.withdrawAll; exact foldl_keeps State.walk _ (by simp) _ _
@[simp] theorem State.withdrawAll_notices (s : State) (es : List Entry) : (s.withdrawAll es).notices = s.notices := by
  unfold State.withdrawAll; exact foldl_keeps State.notices _ (by simp) _ _
@[simp] theorem State.withdrawAll_mailbox (s : State) (es : List Entry) : (s.withdrawAll es).mailbox = s.mailbox := by
  unfold State.withdrawAll; exact foldl_keeps State.mailbox _ (by simp) _ _
@[simp] theorem State.withdrawAll_free (s : State) (es : List Entry) : (s.withdrawAll es).free = s.free := by
  unfold State.withdrawAll; exact foldl_keeps State.free _ (by simp) _ _
@[simp] theorem State.withdrawAll_pending (s : State) (es : List Entry) : (s.withdrawAll es).pending = s.pending := by
  unfold State.withdrawAll; exact foldl_keeps State.pending _ (by simp) _ _

/-! `takeCommand` changes no block but flight, ports, out. -/

@[simp] theorem State.takeCommand_part (s : State) (p : Port) (kind : IoKind) : (s.takeCommand p kind).part = s.part := by
  unfold State.takeCommand
  repeat' first | split | dsimp only
  all_goals simp
@[simp] theorem State.takeCommand_clock (s : State) (p : Port) (kind : IoKind) : (s.takeCommand p kind).clock = s.clock := by
  unfold State.takeCommand
  repeat' first | split | dsimp only
  all_goals simp
@[simp] theorem State.takeCommand_settings (s : State) (p : Port) (kind : IoKind) : (s.takeCommand p kind).settings = s.settings := by
  unfold State.takeCommand
  repeat' first | split | dsimp only
  all_goals simp
@[simp] theorem State.takeCommand_table (s : State) (p : Port) (kind : IoKind) : (s.takeCommand p kind).table = s.table := by
  unfold State.takeCommand
  repeat' first | split | dsimp only
  all_goals simp
@[simp] theorem State.takeCommand_media (s : State) (p : Port) (kind : IoKind) : (s.takeCommand p kind).media = s.media := by
  unfold State.takeCommand
  repeat' first | split | dsimp only
  all_goals simp
@[simp] theorem State.takeCommand_paths (s : State) (p : Port) (kind : IoKind) : (s.takeCommand p kind).paths = s.paths := by
  unfold State.takeCommand
  repeat' first | split | dsimp only
  all_goals simp
@[simp] theorem State.takeCommand_walk (s : State) (p : Port) (kind : IoKind) : (s.takeCommand p kind).walk = s.walk := by
  unfold State.takeCommand
  repeat' first | split | dsimp only
  all_goals simp
@[simp] theorem State.takeCommand_notices (s : State) (p : Port) (kind : IoKind) : (s.takeCommand p kind).notices = s.notices := by
  unfold State.takeCommand
  repeat' first | split | dsimp only
  all_goals simp
@[simp] theorem State.takeCommand_mailbox (s : State) (p : Port) (kind : IoKind) : (s.takeCommand p kind).mailbox = s.mailbox := by
  unfold State.takeCommand
  repeat' first | split | dsimp only
  all_goals simp
@[simp] theorem State.takeCommand_free (s : State) (p : Port) (kind : IoKind) : (s.takeCommand p kind).free = s.free := by
  unfold State.takeCommand
  repeat' first | split | dsimp only
  all_goals simp
@[simp] theorem State.takeCommand_pending (s : State) (p : Port) (kind : IoKind) : (s.takeCommand p kind).pending = s.pending := by
  unfold State.takeCommand
  repeat' first | split | dsimp only
  all_goals simp

/-! `settleResign` changes no block but paths, out. -/

@[simp] theorem State.settleResign_part (s : State) (p : Port) (code : AnswerCode) : (s.settleResign p code).part = s.part := by
  unfold State.settleResign
  repeat' first | split | dsimp only
  all_goals simp
@[simp] theorem State.settleResign_clock (s : State) (p : Port) (code : AnswerCode) : (s.settleResign p code).clock = s.clock := by
  unfold State.settleResign
  repeat' first | split | dsimp only
  all_goals simp
@[simp] theorem State.settleResign_settings (s : State) (p : Port) (code : AnswerCode) : (s.settleResign p code).settings = s.settings := by
  unfold State.settleResign
  repeat' first | split | dsimp only
  all_goals simp
@[simp] theorem State.settleResign_table (s : State) (p : Port) (code : AnswerCode) : (s.settleResign p code).table = s.table := by
  unfold State.settleResign
  repeat' first | split | dsimp only
  all_goals simp
@[simp] theorem State.settleResign_flight (s : State) (p : Port) (code : AnswerCode) : (s.settleResign p code).flight = s.flight := by
  unfold State.settleResign
  repeat' first | split | dsimp only
  all_goals simp
@[simp] theorem State.settleResign_media (s : State) (p : Port) (code : AnswerCode) : (s.settleResign p code).media = s.media := by
  unfold State.settleResign
  repeat' first | split | dsimp only
  all_goals simp
@[simp] theorem State.settleResign_ports (s : State) (p : Port) (code : AnswerCode) : (s.settleResign p code).ports = s.ports := by
  unfold State.settleResign
  repeat' first | split | dsimp only
  all_goals simp
@[simp] theorem State.settleResign_walk (s : State) (p : Port) (code : AnswerCode) : (s.settleResign p code).walk = s.walk := by
  unfold State.settleResign
  repeat' first | split | dsimp only
  all_goals simp
@[simp] theorem State.settleResign_notices (s : State) (p : Port) (code : AnswerCode) : (s.settleResign p code).notices = s.notices := by
  unfold State.settleResign
  repeat' first | split | dsimp only
  all_goals simp
@[simp] theorem State.settleResign_mailbox (s : State) (p : Port) (code : AnswerCode) : (s.settleResign p code).mailbox = s.mailbox := by
  unfold State.settleResign
  repeat' first | split | dsimp only
  all_goals simp
@[simp] theorem State.settleResign_free (s : State) (p : Port) (code : AnswerCode) : (s.settleResign p code).free = s.free := by
  unfold State.settleResign
  repeat' first | split | dsimp only
  all_goals simp
@[simp] theorem State.settleResign_pending (s : State) (p : Port) (code : AnswerCode) : (s.settleResign p code).pending = s.pending := by
  unfold State.settleResign
  repeat' first | split | dsimp only
  all_goals simp

/-! `settleRejoin` changes no block but paths, out. -/

@[simp] theorem State.settleRejoin_part (s : State) (p : Port) (code : AnswerCode) (result : List Byte) : (s.settleRejoin p code result).part = s.part := by
  unfold State.settleRejoin
  repeat' first | split | dsimp only
  all_goals simp
@[simp] theorem State.settleRejoin_clock (s : State) (p : Port) (code : AnswerCode) (result : List Byte) : (s.settleRejoin p code result).clock = s.clock := by
  unfold State.settleRejoin
  repeat' first | split | dsimp only
  all_goals simp
@[simp] theorem State.settleRejoin_settings (s : State) (p : Port) (code : AnswerCode) (result : List Byte) : (s.settleRejoin p code result).settings = s.settings := by
  unfold State.settleRejoin
  repeat' first | split | dsimp only
  all_goals simp
@[simp] theorem State.settleRejoin_table (s : State) (p : Port) (code : AnswerCode) (result : List Byte) : (s.settleRejoin p code result).table = s.table := by
  unfold State.settleRejoin
  repeat' first | split | dsimp only
  all_goals simp
@[simp] theorem State.settleRejoin_flight (s : State) (p : Port) (code : AnswerCode) (result : List Byte) : (s.settleRejoin p code result).flight = s.flight := by
  unfold State.settleRejoin
  repeat' first | split | dsimp only
  all_goals simp
@[simp] theorem State.settleRejoin_media (s : State) (p : Port) (code : AnswerCode) (result : List Byte) : (s.settleRejoin p code result).media = s.media := by
  unfold State.settleRejoin
  repeat' first | split | dsimp only
  all_goals simp
@[simp] theorem State.settleRejoin_ports (s : State) (p : Port) (code : AnswerCode) (result : List Byte) : (s.settleRejoin p code result).ports = s.ports := by
  unfold State.settleRejoin
  repeat' first | split | dsimp only
  all_goals simp
@[simp] theorem State.settleRejoin_walk (s : State) (p : Port) (code : AnswerCode) (result : List Byte) : (s.settleRejoin p code result).walk = s.walk := by
  unfold State.settleRejoin
  repeat' first | split | dsimp only
  all_goals simp
@[simp] theorem State.settleRejoin_notices (s : State) (p : Port) (code : AnswerCode) (result : List Byte) : (s.settleRejoin p code result).notices = s.notices := by
  unfold State.settleRejoin
  repeat' first | split | dsimp only
  all_goals simp
@[simp] theorem State.settleRejoin_mailbox (s : State) (p : Port) (code : AnswerCode) (result : List Byte) : (s.settleRejoin p code result).mailbox = s.mailbox := by
  unfold State.settleRejoin
  repeat' first | split | dsimp only
  all_goals simp
@[simp] theorem State.settleRejoin_free (s : State) (p : Port) (code : AnswerCode) (result : List Byte) : (s.settleRejoin p code result).free = s.free := by
  unfold State.settleRejoin
  repeat' first | split | dsimp only
  all_goals simp
@[simp] theorem State.settleRejoin_pending (s : State) (p : Port) (code : AnswerCode) (result : List Byte) : (s.settleRejoin p code result).pending = s.pending := by
  unfold State.settleRejoin
  repeat' first | split | dsimp only
  all_goals simp

/-! `enterFenced` changes no block but paths, walk, notices, out. -/

@[simp] theorem State.enterFenced_part (s : State) (p : Port) : (s.enterFenced p).part = s.part := by
  unfold State.enterFenced
  repeat' first | split | dsimp only
  all_goals simp
@[simp] theorem State.enterFenced_clock (s : State) (p : Port) : (s.enterFenced p).clock = s.clock := by
  unfold State.enterFenced
  repeat' first | split | dsimp only
  all_goals simp
@[simp] theorem State.enterFenced_settings (s : State) (p : Port) : (s.enterFenced p).settings = s.settings := by
  unfold State.enterFenced
  repeat' first | split | dsimp only
  all_goals simp
@[simp] theorem State.enterFenced_table (s : State) (p : Port) : (s.enterFenced p).table = s.table := by
  unfold State.enterFenced
  repeat' first | split | dsimp only
  all_goals simp
@[simp] theorem State.enterFenced_flight (s : State) (p : Port) : (s.enterFenced p).flight = s.flight := by
  unfold State.enterFenced
  repeat' first | split | dsimp only
  all_goals simp
@[simp] theorem State.enterFenced_media (s : State) (p : Port) : (s.enterFenced p).media = s.media := by
  unfold State.enterFenced
  repeat' first | split | dsimp only
  all_goals simp
@[simp] theorem State.enterFenced_ports (s : State) (p : Port) : (s.enterFenced p).ports = s.ports := by
  unfold State.enterFenced
  repeat' first | split | dsimp only
  all_goals simp
@[simp] theorem State.enterFenced_mailbox (s : State) (p : Port) : (s.enterFenced p).mailbox = s.mailbox := by
  unfold State.enterFenced
  repeat' first | split | dsimp only
  all_goals simp
@[simp] theorem State.enterFenced_free (s : State) (p : Port) : (s.enterFenced p).free = s.free := by
  unfold State.enterFenced
  repeat' first | split | dsimp only
  all_goals simp
@[simp] theorem State.enterFenced_pending (s : State) (p : Port) : (s.enterFenced p).pending = s.pending := by
  unfold State.enterFenced
  repeat' first | split | dsimp only
  all_goals simp

/-! `settleWalk` changes no block but paths, walk, notices, out. -/

@[simp] theorem settleWalk_part : ∀ (l : List Port) (s : State), (settleWalk l s).part = s.part
  | [], _ => rfl
  | p :: l, s => by
    unfold settleWalk; split
    · rw [settleWalk_part l]; simp
    · rfl
@[simp] theorem settleWalk_clock : ∀ (l : List Port) (s : State), (settleWalk l s).clock = s.clock
  | [], _ => rfl
  | p :: l, s => by
    unfold settleWalk; split
    · rw [settleWalk_clock l]; simp
    · rfl
@[simp] theorem settleWalk_settings : ∀ (l : List Port) (s : State), (settleWalk l s).settings = s.settings
  | [], _ => rfl
  | p :: l, s => by
    unfold settleWalk; split
    · rw [settleWalk_settings l]; simp
    · rfl
@[simp] theorem settleWalk_table : ∀ (l : List Port) (s : State), (settleWalk l s).table = s.table
  | [], _ => rfl
  | p :: l, s => by
    unfold settleWalk; split
    · rw [settleWalk_table l]; simp
    · rfl
@[simp] theorem settleWalk_flight : ∀ (l : List Port) (s : State), (settleWalk l s).flight = s.flight
  | [], _ => rfl
  | p :: l, s => by
    unfold settleWalk; split
    · rw [settleWalk_flight l]; simp
    · rfl
@[simp] theorem settleWalk_media : ∀ (l : List Port) (s : State), (settleWalk l s).media = s.media
  | [], _ => rfl
  | p :: l, s => by
    unfold settleWalk; split
    · rw [settleWalk_media l]; simp
    · rfl
@[simp] theorem settleWalk_ports : ∀ (l : List Port) (s : State), (settleWalk l s).ports = s.ports
  | [], _ => rfl
  | p :: l, s => by
    unfold settleWalk; split
    · rw [settleWalk_ports l]; simp
    · rfl
@[simp] theorem settleWalk_mailbox : ∀ (l : List Port) (s : State), (settleWalk l s).mailbox = s.mailbox
  | [], _ => rfl
  | p :: l, s => by
    unfold settleWalk; split
    · rw [settleWalk_mailbox l]; simp
    · rfl
@[simp] theorem settleWalk_free : ∀ (l : List Port) (s : State), (settleWalk l s).free = s.free
  | [], _ => rfl
  | p :: l, s => by
    unfold settleWalk; split
    · rw [settleWalk_free l]; simp
    · rfl
@[simp] theorem settleWalk_pending : ∀ (l : List Port) (s : State), (settleWalk l s).pending = s.pending
  | [], _ => rfl
  | p :: l, s => by
    unfold settleWalk; split
    · rw [settleWalk_pending l]; simp
    · rfl

/-! `walkTest` changes no block but paths, walk, notices, out. -/

@[simp] theorem State.walkTest_part (s : State) : (s.walkTest).part = s.part := by simp [State.walkTest]
@[simp] theorem State.walkTest_clock (s : State) : (s.walkTest).clock = s.clock := by simp [State.walkTest]
@[simp] theorem State.walkTest_settings (s : State) : (s.walkTest).settings = s.settings := by simp [State.walkTest]
@[simp] theorem State.walkTest_table (s : State) : (s.walkTest).table = s.table := by simp [State.walkTest]
@[simp] theorem State.walkTest_flight (s : State) : (s.walkTest).flight = s.flight := by simp [State.walkTest]
@[simp] theorem State.walkTest_media (s : State) : (s.walkTest).media = s.media := by simp [State.walkTest]
@[simp] theorem State.walkTest_ports (s : State) : (s.walkTest).ports = s.ports := by simp [State.walkTest]
@[simp] theorem State.walkTest_mailbox (s : State) : (s.walkTest).mailbox = s.mailbox := by simp [State.walkTest]
@[simp] theorem State.walkTest_free (s : State) : (s.walkTest).free = s.free := by simp [State.walkTest]
@[simp] theorem State.walkTest_pending (s : State) : (s.walkTest).pending = s.pending := by simp [State.walkTest]

/-! `endDrain` changes no block but paths, table, walk, notices, out. -/

@[simp] theorem State.endDrain_part (s : State) (p : Port) : (s.endDrain p).part = s.part := by simp [State.endDrain]
@[simp] theorem State.endDrain_clock (s : State) (p : Port) : (s.endDrain p).clock = s.clock := by simp [State.endDrain]
@[simp] theorem State.endDrain_settings (s : State) (p : Port) : (s.endDrain p).settings = s.settings := by simp [State.endDrain]
@[simp] theorem State.endDrain_flight (s : State) (p : Port) : (s.endDrain p).flight = s.flight := by simp [State.endDrain]
@[simp] theorem State.endDrain_media (s : State) (p : Port) : (s.endDrain p).media = s.media := by simp [State.endDrain]
@[simp] theorem State.endDrain_ports (s : State) (p : Port) : (s.endDrain p).ports = s.ports := by simp [State.endDrain]
@[simp] theorem State.endDrain_mailbox (s : State) (p : Port) : (s.endDrain p).mailbox = s.mailbox := by simp [State.endDrain]
@[simp] theorem State.endDrain_free (s : State) (p : Port) : (s.endDrain p).free = s.free := by simp [State.endDrain]
@[simp] theorem State.endDrain_pending (s : State) (p : Port) : (s.endDrain p).pending = s.pending := by simp [State.endDrain]

/-! `drainTest` changes no block but paths, table, walk, notices, out. -/

@[simp] theorem State.drainTest_part (s : State) (p : Port) : (s.drainTest p).part = s.part := by
  unfold State.drainTest
  repeat' first | split | dsimp only
  all_goals simp
@[simp] theorem State.drainTest_clock (s : State) (p : Port) : (s.drainTest p).clock = s.clock := by
  unfold State.drainTest
  repeat' first | split | dsimp only
  all_goals simp
@[simp] theorem State.drainTest_settings (s : State) (p : Port) : (s.drainTest p).settings = s.settings := by
  unfold State.drainTest
  repeat' first | split | dsimp only
  all_goals simp
@[simp] theorem State.drainTest_flight (s : State) (p : Port) : (s.drainTest p).flight = s.flight := by
  unfold State.drainTest
  repeat' first | split | dsimp only
  all_goals simp
@[simp] theorem State.drainTest_media (s : State) (p : Port) : (s.drainTest p).media = s.media := by
  unfold State.drainTest
  repeat' first | split | dsimp only
  all_goals simp
@[simp] theorem State.drainTest_ports (s : State) (p : Port) : (s.drainTest p).ports = s.ports := by
  unfold State.drainTest
  repeat' first | split | dsimp only
  all_goals simp
@[simp] theorem State.drainTest_mailbox (s : State) (p : Port) : (s.drainTest p).mailbox = s.mailbox := by
  unfold State.drainTest
  repeat' first | split | dsimp only
  all_goals simp
@[simp] theorem State.drainTest_free (s : State) (p : Port) : (s.drainTest p).free = s.free := by
  unfold State.drainTest
  repeat' first | split | dsimp only
  all_goals simp
@[simp] theorem State.drainTest_pending (s : State) (p : Port) : (s.drainTest p).pending = s.pending := by
  unfold State.drainTest
  repeat' first | split | dsimp only
  all_goals simp

/-! `drainBegun` changes no block but paths, table, notices. -/

@[simp] theorem State.drainBegun_part (s : State) (p : Port) (cause : Cause) : (s.drainBegun p cause).part = s.part := by simp [State.drainBegun]
@[simp] theorem State.drainBegun_clock (s : State) (p : Port) (cause : Cause) : (s.drainBegun p cause).clock = s.clock := by simp [State.drainBegun]
@[simp] theorem State.drainBegun_settings (s : State) (p : Port) (cause : Cause) : (s.drainBegun p cause).settings = s.settings := by simp [State.drainBegun]
@[simp] theorem State.drainBegun_flight (s : State) (p : Port) (cause : Cause) : (s.drainBegun p cause).flight = s.flight := by simp [State.drainBegun]
@[simp] theorem State.drainBegun_media (s : State) (p : Port) (cause : Cause) : (s.drainBegun p cause).media = s.media := by simp [State.drainBegun]
@[simp] theorem State.drainBegun_ports (s : State) (p : Port) (cause : Cause) : (s.drainBegun p cause).ports = s.ports := by simp [State.drainBegun]
@[simp] theorem State.drainBegun_walk (s : State) (p : Port) (cause : Cause) : (s.drainBegun p cause).walk = s.walk := by simp [State.drainBegun]
@[simp] theorem State.drainBegun_mailbox (s : State) (p : Port) (cause : Cause) : (s.drainBegun p cause).mailbox = s.mailbox := by simp [State.drainBegun]
@[simp] theorem State.drainBegun_out (s : State) (p : Port) (cause : Cause) : (s.drainBegun p cause).out = s.out := by simp [State.drainBegun]
@[simp] theorem State.drainBegun_free (s : State) (p : Port) (cause : Cause) : (s.drainBegun p cause).free = s.free := by simp [State.drainBegun]
@[simp] theorem State.drainBegun_pending (s : State) (p : Port) (cause : Cause) : (s.drainBegun p cause).pending = s.pending := by simp [State.drainBegun]

/-! `enterDraining` changes no block but paths, table, walk, notices, out, ports, flight. -/

@[simp] theorem State.enterDraining_part (s : State) (p : Port) (cause : Cause) : (s.enterDraining p cause).part = s.part := by simp [State.enterDraining]
@[simp] theorem State.enterDraining_clock (s : State) (p : Port) (cause : Cause) : (s.enterDraining p cause).clock = s.clock := by simp [State.enterDraining]
@[simp] theorem State.enterDraining_settings (s : State) (p : Port) (cause : Cause) : (s.enterDraining p cause).settings = s.settings := by simp [State.enterDraining]
@[simp] theorem State.enterDraining_media (s : State) (p : Port) (cause : Cause) : (s.enterDraining p cause).media = s.media := by simp [State.enterDraining]
@[simp] theorem State.enterDraining_mailbox (s : State) (p : Port) (cause : Cause) : (s.enterDraining p cause).mailbox = s.mailbox := by simp [State.enterDraining]
@[simp] theorem State.enterDraining_free (s : State) (p : Port) (cause : Cause) : (s.enterDraining p cause).free = s.free := by simp [State.enterDraining]
@[simp] theorem State.enterDraining_pending (s : State) (p : Port) (cause : Cause) : (s.enterDraining p cause).pending = s.pending := by simp [State.enterDraining]

/-! `dropRefused` changes no block but ports, out. -/

@[simp] theorem State.dropRefused_part (s : State) (p : Port) (was : Bool) : (s.dropRefused p was).part = s.part := by
  unfold State.dropRefused
  repeat' first | split | dsimp only
  all_goals simp
@[simp] theorem State.dropRefused_clock (s : State) (p : Port) (was : Bool) : (s.dropRefused p was).clock = s.clock := by
  unfold State.dropRefused
  repeat' first | split | dsimp only
  all_goals simp
@[simp] theorem State.dropRefused_settings (s : State) (p : Port) (was : Bool) : (s.dropRefused p was).settings = s.settings := by
  unfold State.dropRefused
  repeat' first | split | dsimp only
  all_goals simp
@[simp] theorem State.dropRefused_table (s : State) (p : Port) (was : Bool) : (s.dropRefused p was).table = s.table := by
  unfold State.dropRefused
  repeat' first | split | dsimp only
  all_goals simp
@[simp] theorem State.dropRefused_flight (s : State) (p : Port) (was : Bool) : (s.dropRefused p was).flight = s.flight := by
  unfold State.dropRefused
  repeat' first | split | dsimp only
  all_goals simp
@[simp] theorem State.dropRefused_media (s : State) (p : Port) (was : Bool) : (s.dropRefused p was).media = s.media := by
  unfold State.dropRefused
  repeat' first | split | dsimp only
  all_goals simp
@[simp] theorem State.dropRefused_paths (s : State) (p : Port) (was : Bool) : (s.dropRefused p was).paths = s.paths := by
  unfold State.dropRefused
  repeat' first | split | dsimp only
  all_goals simp
@[simp] theorem State.dropRefused_walk (s : State) (p : Port) (was : Bool) : (s.dropRefused p was).walk = s.walk := by
  unfold State.dropRefused
  repeat' first | split | dsimp only
  all_goals simp
@[simp] theorem State.dropRefused_notices (s : State) (p : Port) (was : Bool) : (s.dropRefused p was).notices = s.notices := by
  unfold State.dropRefused
  repeat' first | split | dsimp only
  all_goals simp
@[simp] theorem State.dropRefused_mailbox (s : State) (p : Port) (was : Bool) : (s.dropRefused p was).mailbox = s.mailbox := by
  unfold State.dropRefused
  repeat' first | split | dsimp only
  all_goals simp
@[simp] theorem State.dropRefused_free (s : State) (p : Port) (was : Bool) : (s.dropRefused p was).free = s.free := by
  unfold State.dropRefused
  repeat' first | split | dsimp only
  all_goals simp
@[simp] theorem State.dropRefused_pending (s : State) (p : Port) (was : Bool) : (s.dropRefused p was).pending = s.pending := by
  unfold State.dropRefused
  repeat' first | split | dsimp only
  all_goals simp

/-! `fence` changes no block but paths, table, walk, notices, out, ports, flight. -/

@[simp] theorem State.fence_part (s : State) (p : Port) (cause : Cause) : (s.fence p cause).part = s.part := by simp [State.fence]
@[simp] theorem State.fence_clock (s : State) (p : Port) (cause : Cause) : (s.fence p cause).clock = s.clock := by simp [State.fence]
@[simp] theorem State.fence_settings (s : State) (p : Port) (cause : Cause) : (s.fence p cause).settings = s.settings := by simp [State.fence]
@[simp] theorem State.fence_media (s : State) (p : Port) (cause : Cause) : (s.fence p cause).media = s.media := by simp [State.fence]
@[simp] theorem State.fence_mailbox (s : State) (p : Port) (cause : Cause) : (s.fence p cause).mailbox = s.mailbox := by simp [State.fence]
@[simp] theorem State.fence_free (s : State) (p : Port) (cause : Cause) : (s.fence p cause).free = s.free := by simp [State.fence]
@[simp] theorem State.fence_pending (s : State) (p : Port) (cause : Cause) : (s.fence p cause).pending = s.pending := by simp [State.fence]

/-! `enterLost` changes no block but paths, table, notices, out, ports, flight. -/

@[simp] theorem State.enterLost_part (s : State) (p : Port) (cause : Cause) : (s.enterLost p cause).part = s.part := by simp [State.enterLost]
@[simp] theorem State.enterLost_clock (s : State) (p : Port) (cause : Cause) : (s.enterLost p cause).clock = s.clock := by simp [State.enterLost]
@[simp] theorem State.enterLost_settings (s : State) (p : Port) (cause : Cause) : (s.enterLost p cause).settings = s.settings := by simp [State.enterLost]
@[simp] theorem State.enterLost_media (s : State) (p : Port) (cause : Cause) : (s.enterLost p cause).media = s.media := by simp [State.enterLost]
@[simp] theorem State.enterLost_walk (s : State) (p : Port) (cause : Cause) : (s.enterLost p cause).walk = s.walk := by simp [State.enterLost]
@[simp] theorem State.enterLost_mailbox (s : State) (p : Port) (cause : Cause) : (s.enterLost p cause).mailbox = s.mailbox := by simp [State.enterLost]
@[simp] theorem State.enterLost_free (s : State) (p : Port) (cause : Cause) : (s.enterLost p cause).free = s.free := by simp [State.enterLost]
@[simp] theorem State.enterLost_pending (s : State) (p : Port) (cause : Cause) : (s.enterLost p cause).pending = s.pending := by simp [State.enterLost]

/-! `requestAborts` changes no block but flight, media. -/

@[simp] theorem State.requestAborts_part (s : State) (f : Entry → Bool) : (s.requestAborts f).part = s.part := by simp [State.requestAborts]
@[simp] theorem State.requestAborts_clock (s : State) (f : Entry → Bool) : (s.requestAborts f).clock = s.clock := by simp [State.requestAborts]
@[simp] theorem State.requestAborts_settings (s : State) (f : Entry → Bool) : (s.requestAborts f).settings = s.settings := by simp [State.requestAborts]
@[simp] theorem State.requestAborts_table (s : State) (f : Entry → Bool) : (s.requestAborts f).table = s.table := by simp [State.requestAborts]
@[simp] theorem State.requestAborts_ports (s : State) (f : Entry → Bool) : (s.requestAborts f).ports = s.ports := by simp [State.requestAborts]
@[simp] theorem State.requestAborts_paths (s : State) (f : Entry → Bool) : (s.requestAborts f).paths = s.paths := by simp [State.requestAborts]
@[simp] theorem State.requestAborts_walk (s : State) (f : Entry → Bool) : (s.requestAborts f).walk = s.walk := by simp [State.requestAborts]
@[simp] theorem State.requestAborts_notices (s : State) (f : Entry → Bool) : (s.requestAborts f).notices = s.notices := by simp [State.requestAborts]
@[simp] theorem State.requestAborts_mailbox (s : State) (f : Entry → Bool) : (s.requestAborts f).mailbox = s.mailbox := by simp [State.requestAborts]
@[simp] theorem State.requestAborts_out (s : State) (f : Entry → Bool) : (s.requestAborts f).out = s.out := by simp [State.requestAborts]
@[simp] theorem State.requestAborts_free (s : State) (f : Entry → Bool) : (s.requestAborts f).free = s.free := by simp [State.requestAborts]
@[simp] theorem State.requestAborts_pending (s : State) (f : Entry → Bool) : (s.requestAborts f).pending = s.pending := by simp [State.requestAborts]

/-! `walkOne` changes no block but table, paths. -/

@[simp] theorem State.walkOne_part (s : State) (p : Port) (h : Holding) : (s.walkOne p h).part = s.part := by
  unfold State.walkOne
  repeat' first | split | dsimp only
  all_goals simp
@[simp] theorem State.walkOne_clock (s : State) (p : Port) (h : Holding) : (s.walkOne p h).clock = s.clock := by
  unfold State.walkOne
  repeat' first | split | dsimp only
  all_goals simp
@[simp] theorem State.walkOne_settings (s : State) (p : Port) (h : Holding) : (s.walkOne p h).settings = s.settings := by
  unfold State.walkOne
  repeat' first | split | dsimp only
  all_goals simp
@[simp] theorem State.walkOne_flight (s : State) (p : Port) (h : Holding) : (s.walkOne p h).flight = s.flight := by
  unfold State.walkOne
  repeat' first | split | dsimp only
  all_goals simp
@[simp] theorem State.walkOne_media (s : State) (p : Port) (h : Holding) : (s.walkOne p h).media = s.media := by
  unfold State.walkOne
  repeat' first | split | dsimp only
  all_goals simp
@[simp] theorem State.walkOne_ports (s : State) (p : Port) (h : Holding) : (s.walkOne p h).ports = s.ports := by
  unfold State.walkOne
  repeat' first | split | dsimp only
  all_goals simp
@[simp] theorem State.walkOne_walk (s : State) (p : Port) (h : Holding) : (s.walkOne p h).walk = s.walk := by
  unfold State.walkOne
  repeat' first | split | dsimp only
  all_goals simp
@[simp] theorem State.walkOne_notices (s : State) (p : Port) (h : Holding) : (s.walkOne p h).notices = s.notices := by
  unfold State.walkOne
  repeat' first | split | dsimp only
  all_goals simp
@[simp] theorem State.walkOne_mailbox (s : State) (p : Port) (h : Holding) : (s.walkOne p h).mailbox = s.mailbox := by
  unfold State.walkOne
  repeat' first | split | dsimp only
  all_goals simp
@[simp] theorem State.walkOne_out (s : State) (p : Port) (h : Holding) : (s.walkOne p h).out = s.out := by
  unfold State.walkOne
  repeat' first | split | dsimp only
  all_goals simp
@[simp] theorem State.walkOne_free (s : State) (p : Port) (h : Holding) : (s.walkOne p h).free = s.free := by
  unfold State.walkOne
  repeat' first | split | dsimp only
  all_goals simp
@[simp] theorem State.walkOne_pending (s : State) (p : Port) (h : Holding) : (s.walkOne p h).pending = s.pending := by
  unfold State.walkOne
  repeat' first | split | dsimp only
  all_goals simp

/-! `contention` changes no block but notices, out. -/

@[simp] theorem State.contention_part (s : State) (p : Port) (ns start length : Nat) : (s.contention p ns start length).part = s.part := by
  unfold State.contention
  repeat' first | split | dsimp only
  all_goals simp
@[simp] theorem State.contention_clock (s : State) (p : Port) (ns start length : Nat) : (s.contention p ns start length).clock = s.clock := by
  unfold State.contention
  repeat' first | split | dsimp only
  all_goals simp
@[simp] theorem State.contention_settings (s : State) (p : Port) (ns start length : Nat) : (s.contention p ns start length).settings = s.settings := by
  unfold State.contention
  repeat' first | split | dsimp only
  all_goals simp
@[simp] theorem State.contention_table (s : State) (p : Port) (ns start length : Nat) : (s.contention p ns start length).table = s.table := by
  unfold State.contention
  repeat' first | split | dsimp only
  all_goals simp
@[simp] theorem State.contention_flight (s : State) (p : Port) (ns start length : Nat) : (s.contention p ns start length).flight = s.flight := by
  unfold State.contention
  repeat' first | split | dsimp only
  all_goals simp
@[simp] theorem State.contention_media (s : State) (p : Port) (ns start length : Nat) : (s.contention p ns start length).media = s.media := by
  unfold State.contention
  repeat' first | split | dsimp only
  all_goals simp
@[simp] theorem State.contention_ports (s : State) (p : Port) (ns start length : Nat) : (s.contention p ns start length).ports = s.ports := by
  unfold State.contention
  repeat' first | split | dsimp only
  all_goals simp
@[simp] theorem State.contention_paths (s : State) (p : Port) (ns start length : Nat) : (s.contention p ns start length).paths = s.paths := by
  unfold State.contention
  repeat' first | split | dsimp only
  all_goals simp
@[simp] theorem State.contention_walk (s : State) (p : Port) (ns start length : Nat) : (s.contention p ns start length).walk = s.walk := by
  unfold State.contention
  repeat' first | split | dsimp only
  all_goals simp
@[simp] theorem State.contention_mailbox (s : State) (p : Port) (ns start length : Nat) : (s.contention p ns start length).mailbox = s.mailbox := by
  unfold State.contention
  repeat' first | split | dsimp only
  all_goals simp
@[simp] theorem State.contention_free (s : State) (p : Port) (ns start length : Nat) : (s.contention p ns start length).free = s.free := by
  unfold State.contention
  repeat' first | split | dsimp only
  all_goals simp
@[simp] theorem State.contention_pending (s : State) (p : Port) (ns start length : Nat) : (s.contention p ns start length).pending = s.pending := by
  unfold State.contention
  repeat' first | split | dsimp only
  all_goals simp

/-! `takeDue` changes no block but table. -/

@[simp] theorem State.takeDue_part (s : State) : (s.takeDue).part = s.part := by simp [State.takeDue]
@[simp] theorem State.takeDue_clock (s : State) : (s.takeDue).clock = s.clock := by simp [State.takeDue]
@[simp] theorem State.takeDue_settings (s : State) : (s.takeDue).settings = s.settings := by simp [State.takeDue]
@[simp] theorem State.takeDue_flight (s : State) : (s.takeDue).flight = s.flight := by simp [State.takeDue]
@[simp] theorem State.takeDue_media (s : State) : (s.takeDue).media = s.media := by simp [State.takeDue]
@[simp] theorem State.takeDue_ports (s : State) : (s.takeDue).ports = s.ports := by simp [State.takeDue]
@[simp] theorem State.takeDue_paths (s : State) : (s.takeDue).paths = s.paths := by simp [State.takeDue]
@[simp] theorem State.takeDue_walk (s : State) : (s.takeDue).walk = s.walk := by simp [State.takeDue]
@[simp] theorem State.takeDue_notices (s : State) : (s.takeDue).notices = s.notices := by simp [State.takeDue]
@[simp] theorem State.takeDue_mailbox (s : State) : (s.takeDue).mailbox = s.mailbox := by simp [State.takeDue]
@[simp] theorem State.takeDue_out (s : State) : (s.takeDue).out = s.out := by simp [State.takeDue]
@[simp] theorem State.takeDue_free (s : State) : (s.takeDue).free = s.free := by simp [State.takeDue]
@[simp] theorem State.takeDue_pending (s : State) : (s.takeDue).pending = s.pending := by simp [State.takeDue]

/-! `spendDue` changes no block but table. -/

@[simp] theorem State.spendDue_part (s : State) (d : Due) : (s.spendDue d).part = s.part := by simp [State.spendDue]
@[simp] theorem State.spendDue_clock (s : State) (d : Due) : (s.spendDue d).clock = s.clock := by simp [State.spendDue]
@[simp] theorem State.spendDue_settings (s : State) (d : Due) : (s.spendDue d).settings = s.settings := by simp [State.spendDue]
@[simp] theorem State.spendDue_flight (s : State) (d : Due) : (s.spendDue d).flight = s.flight := by simp [State.spendDue]
@[simp] theorem State.spendDue_media (s : State) (d : Due) : (s.spendDue d).media = s.media := by simp [State.spendDue]
@[simp] theorem State.spendDue_ports (s : State) (d : Due) : (s.spendDue d).ports = s.ports := by simp [State.spendDue]
@[simp] theorem State.spendDue_paths (s : State) (d : Due) : (s.spendDue d).paths = s.paths := by simp [State.spendDue]
@[simp] theorem State.spendDue_walk (s : State) (d : Due) : (s.spendDue d).walk = s.walk := by simp [State.spendDue]
@[simp] theorem State.spendDue_notices (s : State) (d : Due) : (s.spendDue d).notices = s.notices := by simp [State.spendDue]
@[simp] theorem State.spendDue_mailbox (s : State) (d : Due) : (s.spendDue d).mailbox = s.mailbox := by simp [State.spendDue]
@[simp] theorem State.spendDue_out (s : State) (d : Due) : (s.spendDue d).out = s.out := by simp [State.spendDue]
@[simp] theorem State.spendDue_free (s : State) (d : Due) : (s.spendDue d).free = s.free := by simp [State.spendDue]
@[simp] theorem State.spendDue_pending (s : State) (d : Due) : (s.spendDue d).pending = s.pending := by simp [State.spendDue]

/-! `completeRelease` changes no block but table, out. -/

@[simp] theorem State.completeRelease_part (s : State) (d : Due) : (s.completeRelease d).part = s.part := by
  unfold State.completeRelease
  repeat' first | split | dsimp only
  all_goals simp
@[simp] theorem State.completeRelease_clock (s : State) (d : Due) : (s.completeRelease d).clock = s.clock := by
  unfold State.completeRelease
  repeat' first | split | dsimp only
  all_goals simp
@[simp] theorem State.completeRelease_settings (s : State) (d : Due) : (s.completeRelease d).settings = s.settings := by
  unfold State.completeRelease
  repeat' first | split | dsimp only
  all_goals simp
@[simp] theorem State.completeRelease_flight (s : State) (d : Due) : (s.completeRelease d).flight = s.flight := by
  unfold State.completeRelease
  repeat' first | split | dsimp only
  all_goals simp
@[simp] theorem State.completeRelease_media (s : State) (d : Due) : (s.completeRelease d).media = s.media := by
  unfold State.completeRelease
  repeat' first | split | dsimp only
  all_goals simp
@[simp] theorem State.completeRelease_ports (s : State) (d : Due) : (s.completeRelease d).ports = s.ports := by
  unfold State.completeRelease
  repeat' first | split | dsimp only
  all_goals simp
@[simp] theorem State.completeRelease_paths (s : State) (d : Due) : (s.completeRelease d).paths = s.paths := by
  unfold State.completeRelease
  repeat' first | split | dsimp only
  all_goals simp
@[simp] theorem State.completeRelease_walk (s : State) (d : Due) : (s.completeRelease d).walk = s.walk := by
  unfold State.completeRelease
  repeat' first | split | dsimp only
  all_goals simp
@[simp] theorem State.completeRelease_notices (s : State) (d : Due) : (s.completeRelease d).notices = s.notices := by
  unfold State.completeRelease
  repeat' first | split | dsimp only
  all_goals simp
@[simp] theorem State.completeRelease_mailbox (s : State) (d : Due) : (s.completeRelease d).mailbox = s.mailbox := by
  unfold State.completeRelease
  repeat' first | split | dsimp only
  all_goals simp
@[simp] theorem State.completeRelease_free (s : State) (d : Due) : (s.completeRelease d).free = s.free := by
  unfold State.completeRelease
  repeat' first | split | dsimp only
  all_goals simp
@[simp] theorem State.completeRelease_pending (s : State) (d : Due) : (s.completeRelease d).pending = s.pending := by
  unfold State.completeRelease
  repeat' first | split | dsimp only
  all_goals simp

/-! `finishHandOver` changes no block but table, paths, notices, out. -/

@[simp] theorem State.finishHandOver_part (s : State) (p : Port) (h : Holding) (tag : Byte) : (s.finishHandOver p h tag).part = s.part := by
  unfold State.finishHandOver
  repeat' first | split | dsimp only
  all_goals simp
@[simp] theorem State.finishHandOver_clock (s : State) (p : Port) (h : Holding) (tag : Byte) : (s.finishHandOver p h tag).clock = s.clock := by
  unfold State.finishHandOver
  repeat' first | split | dsimp only
  all_goals simp
@[simp] theorem State.finishHandOver_settings (s : State) (p : Port) (h : Holding) (tag : Byte) : (s.finishHandOver p h tag).settings = s.settings := by
  unfold State.finishHandOver
  repeat' first | split | dsimp only
  all_goals simp
@[simp] theorem State.finishHandOver_flight (s : State) (p : Port) (h : Holding) (tag : Byte) : (s.finishHandOver p h tag).flight = s.flight := by
  unfold State.finishHandOver
  repeat' first | split | dsimp only
  all_goals simp
@[simp] theorem State.finishHandOver_media (s : State) (p : Port) (h : Holding) (tag : Byte) : (s.finishHandOver p h tag).media = s.media := by
  unfold State.finishHandOver
  repeat' first | split | dsimp only
  all_goals simp
@[simp] theorem State.finishHandOver_ports (s : State) (p : Port) (h : Holding) (tag : Byte) : (s.finishHandOver p h tag).ports = s.ports := by
  unfold State.finishHandOver
  repeat' first | split | dsimp only
  all_goals simp
@[simp] theorem State.finishHandOver_walk (s : State) (p : Port) (h : Holding) (tag : Byte) : (s.finishHandOver p h tag).walk = s.walk := by
  unfold State.finishHandOver
  repeat' first | split | dsimp only
  all_goals simp
@[simp] theorem State.finishHandOver_mailbox (s : State) (p : Port) (h : Holding) (tag : Byte) : (s.finishHandOver p h tag).mailbox = s.mailbox := by
  unfold State.finishHandOver
  repeat' first | split | dsimp only
  all_goals simp
@[simp] theorem State.finishHandOver_free (s : State) (p : Port) (h : Holding) (tag : Byte) : (s.finishHandOver p h tag).free = s.free := by
  unfold State.finishHandOver
  repeat' first | split | dsimp only
  all_goals simp
@[simp] theorem State.finishHandOver_pending (s : State) (p : Port) (h : Holding) (tag : Byte) : (s.finishHandOver p h tag).pending = s.pending := by
  unfold State.finishHandOver
  repeat' first | split | dsimp only
  all_goals simp

/-! `completeHandOver` changes no block but table, paths, notices, out. -/

@[simp] theorem State.completeHandOver_part (s : State) (d : Due) : (s.completeHandOver d).part = s.part := by
  unfold State.completeHandOver
  repeat' first | split | dsimp only
  all_goals simp
@[simp] theorem State.completeHandOver_clock (s : State) (d : Due) : (s.completeHandOver d).clock = s.clock := by
  unfold State.completeHandOver
  repeat' first | split | dsimp only
  all_goals simp
@[simp] theorem State.completeHandOver_settings (s : State) (d : Due) : (s.completeHandOver d).settings = s.settings := by
  unfold State.completeHandOver
  repeat' first | split | dsimp only
  all_goals simp
@[simp] theorem State.completeHandOver_flight (s : State) (d : Due) : (s.completeHandOver d).flight = s.flight := by
  unfold State.completeHandOver
  repeat' first | split | dsimp only
  all_goals simp
@[simp] theorem State.completeHandOver_media (s : State) (d : Due) : (s.completeHandOver d).media = s.media := by
  unfold State.completeHandOver
  repeat' first | split | dsimp only
  all_goals simp
@[simp] theorem State.completeHandOver_ports (s : State) (d : Due) : (s.completeHandOver d).ports = s.ports := by
  unfold State.completeHandOver
  repeat' first | split | dsimp only
  all_goals simp
@[simp] theorem State.completeHandOver_walk (s : State) (d : Due) : (s.completeHandOver d).walk = s.walk := by
  unfold State.completeHandOver
  repeat' first | split | dsimp only
  all_goals simp
@[simp] theorem State.completeHandOver_mailbox (s : State) (d : Due) : (s.completeHandOver d).mailbox = s.mailbox := by
  unfold State.completeHandOver
  repeat' first | split | dsimp only
  all_goals simp
@[simp] theorem State.completeHandOver_free (s : State) (d : Due) : (s.completeHandOver d).free = s.free := by
  unfold State.completeHandOver
  repeat' first | split | dsimp only
  all_goals simp
@[simp] theorem State.completeHandOver_pending (s : State) (d : Due) : (s.completeHandOver d).pending = s.pending := by
  unfold State.completeHandOver
  repeat' first | split | dsimp only
  all_goals simp

/-! `takeBeacon` changes no block but paths. -/

@[simp] theorem State.takeBeacon_part (s : State) (p : Port) (seq : BitVec 16) (view : Byte) : (s.takeBeacon p seq view).part = s.part := by
  unfold State.takeBeacon
  repeat' first | split | dsimp only
  all_goals simp
@[simp] theorem State.takeBeacon_clock (s : State) (p : Port) (seq : BitVec 16) (view : Byte) : (s.takeBeacon p seq view).clock = s.clock := by
  unfold State.takeBeacon
  repeat' first | split | dsimp only
  all_goals simp
@[simp] theorem State.takeBeacon_settings (s : State) (p : Port) (seq : BitVec 16) (view : Byte) : (s.takeBeacon p seq view).settings = s.settings := by
  unfold State.takeBeacon
  repeat' first | split | dsimp only
  all_goals simp
@[simp] theorem State.takeBeacon_table (s : State) (p : Port) (seq : BitVec 16) (view : Byte) : (s.takeBeacon p seq view).table = s.table := by
  unfold State.takeBeacon
  repeat' first | split | dsimp only
  all_goals simp
@[simp] theorem State.takeBeacon_flight (s : State) (p : Port) (seq : BitVec 16) (view : Byte) : (s.takeBeacon p seq view).flight = s.flight := by
  unfold State.takeBeacon
  repeat' first | split | dsimp only
  all_goals simp
@[simp] theorem State.takeBeacon_media (s : State) (p : Port) (seq : BitVec 16) (view : Byte) : (s.takeBeacon p seq view).media = s.media := by
  unfold State.takeBeacon
  repeat' first | split | dsimp only
  all_goals simp
@[simp] theorem State.takeBeacon_ports (s : State) (p : Port) (seq : BitVec 16) (view : Byte) : (s.takeBeacon p seq view).ports = s.ports := by
  unfold State.takeBeacon
  repeat' first | split | dsimp only
  all_goals simp
@[simp] theorem State.takeBeacon_walk (s : State) (p : Port) (seq : BitVec 16) (view : Byte) : (s.takeBeacon p seq view).walk = s.walk := by
  unfold State.takeBeacon
  repeat' first | split | dsimp only
  all_goals simp
@[simp] theorem State.takeBeacon_notices (s : State) (p : Port) (seq : BitVec 16) (view : Byte) : (s.takeBeacon p seq view).notices = s.notices := by
  unfold State.takeBeacon
  repeat' first | split | dsimp only
  all_goals simp
@[simp] theorem State.takeBeacon_mailbox (s : State) (p : Port) (seq : BitVec 16) (view : Byte) : (s.takeBeacon p seq view).mailbox = s.mailbox := by
  unfold State.takeBeacon
  repeat' first | split | dsimp only
  all_goals simp
@[simp] theorem State.takeBeacon_out (s : State) (p : Port) (seq : BitVec 16) (view : Byte) : (s.takeBeacon p seq view).out = s.out := by
  unfold State.takeBeacon
  repeat' first | split | dsimp only
  all_goals simp
@[simp] theorem State.takeBeacon_free (s : State) (p : Port) (seq : BitVec 16) (view : Byte) : (s.takeBeacon p seq view).free = s.free := by
  unfold State.takeBeacon
  repeat' first | split | dsimp only
  all_goals simp
@[simp] theorem State.takeBeacon_pending (s : State) (p : Port) (seq : BitVec 16) (view : Byte) : (s.takeBeacon p seq view).pending = s.pending := by
  unfold State.takeBeacon
  repeat' first | split | dsimp only
  all_goals simp

/-! `acknowledgeLoss` changes no block but paths, table, walk, notices, out, ports, flight. -/

@[simp] theorem State.acknowledgeLoss_part (s : State) (y : Port) : (s.acknowledgeLoss y).part = s.part := by
  unfold State.acknowledgeLoss
  repeat' first | split | dsimp only
  all_goals simp
@[simp] theorem State.acknowledgeLoss_clock (s : State) (y : Port) : (s.acknowledgeLoss y).clock = s.clock := by
  unfold State.acknowledgeLoss
  repeat' first | split | dsimp only
  all_goals simp
@[simp] theorem State.acknowledgeLoss_settings (s : State) (y : Port) : (s.acknowledgeLoss y).settings = s.settings := by
  unfold State.acknowledgeLoss
  repeat' first | split | dsimp only
  all_goals simp
@[simp] theorem State.acknowledgeLoss_media (s : State) (y : Port) : (s.acknowledgeLoss y).media = s.media := by
  unfold State.acknowledgeLoss
  repeat' first | split | dsimp only
  all_goals simp
@[simp] theorem State.acknowledgeLoss_mailbox (s : State) (y : Port) : (s.acknowledgeLoss y).mailbox = s.mailbox := by
  unfold State.acknowledgeLoss
  repeat' first | split | dsimp only
  all_goals simp
@[simp] theorem State.acknowledgeLoss_free (s : State) (y : Port) : (s.acknowledgeLoss y).free = s.free := by
  unfold State.acknowledgeLoss
  repeat' first | split | dsimp only
  all_goals simp
@[simp] theorem State.acknowledgeLoss_pending (s : State) (y : Port) : (s.acknowledgeLoss y).pending = s.pending := by
  unfold State.acknowledgeLoss
  repeat' first | split | dsimp only
  all_goals simp

/-! `returnToMember` changes no block but paths, out. -/

@[simp] theorem State.returnToMember_part (s : State) (p : Port) : (s.returnToMember p).part = s.part := by simp [State.returnToMember]
@[simp] theorem State.returnToMember_clock (s : State) (p : Port) : (s.returnToMember p).clock = s.clock := by simp [State.returnToMember]
@[simp] theorem State.returnToMember_settings (s : State) (p : Port) : (s.returnToMember p).settings = s.settings := by simp [State.returnToMember]
@[simp] theorem State.returnToMember_table (s : State) (p : Port) : (s.returnToMember p).table = s.table := by simp [State.returnToMember]
@[simp] theorem State.returnToMember_flight (s : State) (p : Port) : (s.returnToMember p).flight = s.flight := by simp [State.returnToMember]
@[simp] theorem State.returnToMember_media (s : State) (p : Port) : (s.returnToMember p).media = s.media := by simp [State.returnToMember]
@[simp] theorem State.returnToMember_ports (s : State) (p : Port) : (s.returnToMember p).ports = s.ports := by simp [State.returnToMember]
@[simp] theorem State.returnToMember_walk (s : State) (p : Port) : (s.returnToMember p).walk = s.walk := by simp [State.returnToMember]
@[simp] theorem State.returnToMember_notices (s : State) (p : Port) : (s.returnToMember p).notices = s.notices := by simp [State.returnToMember]
@[simp] theorem State.returnToMember_mailbox (s : State) (p : Port) : (s.returnToMember p).mailbox = s.mailbox := by simp [State.returnToMember]
@[simp] theorem State.returnToMember_free (s : State) (p : Port) : (s.returnToMember p).free = s.free := by simp [State.returnToMember]
@[simp] theorem State.returnToMember_pending (s : State) (p : Port) : (s.returnToMember p).pending = s.pending := by simp [State.returnToMember]

/-! `failTransfers` changes no block but flight, media. -/

@[simp] theorem State.failTransfers_part (s : State) (p : Port) : (s.failTransfers p).part = s.part := by simp [State.failTransfers]
@[simp] theorem State.failTransfers_clock (s : State) (p : Port) : (s.failTransfers p).clock = s.clock := by simp [State.failTransfers]
@[simp] theorem State.failTransfers_settings (s : State) (p : Port) : (s.failTransfers p).settings = s.settings := by simp [State.failTransfers]
@[simp] theorem State.failTransfers_table (s : State) (p : Port) : (s.failTransfers p).table = s.table := by simp [State.failTransfers]
@[simp] theorem State.failTransfers_ports (s : State) (p : Port) : (s.failTransfers p).ports = s.ports := by simp [State.failTransfers]
@[simp] theorem State.failTransfers_paths (s : State) (p : Port) : (s.failTransfers p).paths = s.paths := by simp [State.failTransfers]
@[simp] theorem State.failTransfers_walk (s : State) (p : Port) : (s.failTransfers p).walk = s.walk := by simp [State.failTransfers]
@[simp] theorem State.failTransfers_notices (s : State) (p : Port) : (s.failTransfers p).notices = s.notices := by simp [State.failTransfers]
@[simp] theorem State.failTransfers_mailbox (s : State) (p : Port) : (s.failTransfers p).mailbox = s.mailbox := by simp [State.failTransfers]
@[simp] theorem State.failTransfers_out (s : State) (p : Port) : (s.failTransfers p).out = s.out := by simp [State.failTransfers]
@[simp] theorem State.failTransfers_free (s : State) (p : Port) : (s.failTransfers p).free = s.free := by simp [State.failTransfers]
@[simp] theorem State.failTransfers_pending (s : State) (p : Port) : (s.failTransfers p).pending = s.pending := by simp [State.failTransfers]

/-! `answerArrival` changes no block but out, free. -/

@[simp] theorem State.answerArrival_part (s : State) (p : Port) (head tag : Byte) (body : List Byte) (code : AnswerCode) : (s.answerArrival p head tag body code).part = s.part := by
  unfold State.answerArrival
  repeat' first | split | dsimp only
  all_goals simp
@[simp] theorem State.answerArrival_clock (s : State) (p : Port) (head tag : Byte) (body : List Byte) (code : AnswerCode) : (s.answerArrival p head tag body code).clock = s.clock := by
  unfold State.answerArrival
  repeat' first | split | dsimp only
  all_goals simp
@[simp] theorem State.answerArrival_settings (s : State) (p : Port) (head tag : Byte) (body : List Byte) (code : AnswerCode) : (s.answerArrival p head tag body code).settings = s.settings := by
  unfold State.answerArrival
  repeat' first | split | dsimp only
  all_goals simp
@[simp] theorem State.answerArrival_table (s : State) (p : Port) (head tag : Byte) (body : List Byte) (code : AnswerCode) : (s.answerArrival p head tag body code).table = s.table := by
  unfold State.answerArrival
  repeat' first | split | dsimp only
  all_goals simp
@[simp] theorem State.answerArrival_flight (s : State) (p : Port) (head tag : Byte) (body : List Byte) (code : AnswerCode) : (s.answerArrival p head tag body code).flight = s.flight := by
  unfold State.answerArrival
  repeat' first | split | dsimp only
  all_goals simp
@[simp] theorem State.answerArrival_media (s : State) (p : Port) (head tag : Byte) (body : List Byte) (code : AnswerCode) : (s.answerArrival p head tag body code).media = s.media := by
  unfold State.answerArrival
  repeat' first | split | dsimp only
  all_goals simp
@[simp] theorem State.answerArrival_ports (s : State) (p : Port) (head tag : Byte) (body : List Byte) (code : AnswerCode) : (s.answerArrival p head tag body code).ports = s.ports := by
  unfold State.answerArrival
  repeat' first | split | dsimp only
  all_goals simp
@[simp] theorem State.answerArrival_paths (s : State) (p : Port) (head tag : Byte) (body : List Byte) (code : AnswerCode) : (s.answerArrival p head tag body code).paths = s.paths := by
  unfold State.answerArrival
  repeat' first | split | dsimp only
  all_goals simp
@[simp] theorem State.answerArrival_walk (s : State) (p : Port) (head tag : Byte) (body : List Byte) (code : AnswerCode) : (s.answerArrival p head tag body code).walk = s.walk := by
  unfold State.answerArrival
  repeat' first | split | dsimp only
  all_goals simp
@[simp] theorem State.answerArrival_notices (s : State) (p : Port) (head tag : Byte) (body : List Byte) (code : AnswerCode) : (s.answerArrival p head tag body code).notices = s.notices := by
  unfold State.answerArrival
  repeat' first | split | dsimp only
  all_goals simp
@[simp] theorem State.answerArrival_mailbox (s : State) (p : Port) (head tag : Byte) (body : List Byte) (code : AnswerCode) : (s.answerArrival p head tag body code).mailbox = s.mailbox := by
  unfold State.answerArrival
  repeat' first | split | dsimp only
  all_goals simp
@[simp] theorem State.answerArrival_pending (s : State) (p : Port) (head tag : Byte) (body : List Byte) (code : AnswerCode) : (s.answerArrival p head tag body code).pending = s.pending := by
  unfold State.answerArrival
  repeat' first | split | dsimp only
  all_goals simp

/-! `enqueue` changes no block but ports, out. -/

@[simp] theorem State.enqueue_part (s : State) (p : Port) (tag : Byte) (m : Message) : (s.enqueue p tag m).part = s.part := by simp [State.enqueue]
@[simp] theorem State.enqueue_clock (s : State) (p : Port) (tag : Byte) (m : Message) : (s.enqueue p tag m).clock = s.clock := by simp [State.enqueue]
@[simp] theorem State.enqueue_settings (s : State) (p : Port) (tag : Byte) (m : Message) : (s.enqueue p tag m).settings = s.settings := by simp [State.enqueue]
@[simp] theorem State.enqueue_table (s : State) (p : Port) (tag : Byte) (m : Message) : (s.enqueue p tag m).table = s.table := by simp [State.enqueue]
@[simp] theorem State.enqueue_flight (s : State) (p : Port) (tag : Byte) (m : Message) : (s.enqueue p tag m).flight = s.flight := by simp [State.enqueue]
@[simp] theorem State.enqueue_media (s : State) (p : Port) (tag : Byte) (m : Message) : (s.enqueue p tag m).media = s.media := by simp [State.enqueue]
@[simp] theorem State.enqueue_paths (s : State) (p : Port) (tag : Byte) (m : Message) : (s.enqueue p tag m).paths = s.paths := by simp [State.enqueue]
@[simp] theorem State.enqueue_walk (s : State) (p : Port) (tag : Byte) (m : Message) : (s.enqueue p tag m).walk = s.walk := by simp [State.enqueue]
@[simp] theorem State.enqueue_notices (s : State) (p : Port) (tag : Byte) (m : Message) : (s.enqueue p tag m).notices = s.notices := by simp [State.enqueue]
@[simp] theorem State.enqueue_mailbox (s : State) (p : Port) (tag : Byte) (m : Message) : (s.enqueue p tag m).mailbox = s.mailbox := by simp [State.enqueue]
@[simp] theorem State.enqueue_free (s : State) (p : Port) (tag : Byte) (m : Message) : (s.enqueue p tag m).free = s.free := by simp [State.enqueue]
@[simp] theorem State.enqueue_pending (s : State) (p : Port) (tag : Byte) (m : Message) : (s.enqueue p tag m).pending = s.pending := by simp [State.enqueue]

/-! `submit` changes no block but flight, media, out. -/

@[simp] theorem State.submit_part (s : State) (e : Entry) (k : Fin 32) : (s.submit e k).part = s.part := by simp [State.submit]
@[simp] theorem State.submit_clock (s : State) (e : Entry) (k : Fin 32) : (s.submit e k).clock = s.clock := by simp [State.submit]
@[simp] theorem State.submit_settings (s : State) (e : Entry) (k : Fin 32) : (s.submit e k).settings = s.settings := by simp [State.submit]
@[simp] theorem State.submit_table (s : State) (e : Entry) (k : Fin 32) : (s.submit e k).table = s.table := by simp [State.submit]
@[simp] theorem State.submit_ports (s : State) (e : Entry) (k : Fin 32) : (s.submit e k).ports = s.ports := by simp [State.submit]
@[simp] theorem State.submit_paths (s : State) (e : Entry) (k : Fin 32) : (s.submit e k).paths = s.paths := by simp [State.submit]
@[simp] theorem State.submit_walk (s : State) (e : Entry) (k : Fin 32) : (s.submit e k).walk = s.walk := by simp [State.submit]
@[simp] theorem State.submit_notices (s : State) (e : Entry) (k : Fin 32) : (s.submit e k).notices = s.notices := by simp [State.submit]
@[simp] theorem State.submit_mailbox (s : State) (e : Entry) (k : Fin 32) : (s.submit e k).mailbox = s.mailbox := by simp [State.submit]
@[simp] theorem State.submit_free (s : State) (e : Entry) (k : Fin 32) : (s.submit e k).free = s.free := by simp [State.submit]
@[simp] theorem State.submit_pending (s : State) (e : Entry) (k : Fin 32) : (s.submit e k).pending = s.pending := by simp [State.submit]

/-! `requestClear` changes no block but media. -/

@[simp] theorem State.requestClear_part (s : State) : (s.requestClear).part = s.part := by
  unfold State.requestClear
  repeat' first | split | dsimp only
  all_goals simp
@[simp] theorem State.requestClear_clock (s : State) : (s.requestClear).clock = s.clock := by
  unfold State.requestClear
  repeat' first | split | dsimp only
  all_goals simp
@[simp] theorem State.requestClear_settings (s : State) : (s.requestClear).settings = s.settings := by
  unfold State.requestClear
  repeat' first | split | dsimp only
  all_goals simp
@[simp] theorem State.requestClear_table (s : State) : (s.requestClear).table = s.table := by
  unfold State.requestClear
  repeat' first | split | dsimp only
  all_goals simp
@[simp] theorem State.requestClear_flight (s : State) : (s.requestClear).flight = s.flight := by
  unfold State.requestClear
  repeat' first | split | dsimp only
  all_goals simp
@[simp] theorem State.requestClear_ports (s : State) : (s.requestClear).ports = s.ports := by
  unfold State.requestClear
  repeat' first | split | dsimp only
  all_goals simp
@[simp] theorem State.requestClear_paths (s : State) : (s.requestClear).paths = s.paths := by
  unfold State.requestClear
  repeat' first | split | dsimp only
  all_goals simp
@[simp] theorem State.requestClear_walk (s : State) : (s.requestClear).walk = s.walk := by
  unfold State.requestClear
  repeat' first | split | dsimp only
  all_goals simp
@[simp] theorem State.requestClear_notices (s : State) : (s.requestClear).notices = s.notices := by
  unfold State.requestClear
  repeat' first | split | dsimp only
  all_goals simp
@[simp] theorem State.requestClear_mailbox (s : State) : (s.requestClear).mailbox = s.mailbox := by
  unfold State.requestClear
  repeat' first | split | dsimp only
  all_goals simp
@[simp] theorem State.requestClear_out (s : State) : (s.requestClear).out = s.out := by
  unfold State.requestClear
  repeat' first | split | dsimp only
  all_goals simp
@[simp] theorem State.requestClear_free (s : State) : (s.requestClear).free = s.free := by
  unfold State.requestClear
  repeat' first | split | dsimp only
  all_goals simp
@[simp] theorem State.requestClear_pending (s : State) : (s.requestClear).pending = s.pending := by
  unfold State.requestClear
  repeat' first | split | dsimp only
  all_goals simp

/-! `clearWhenEmpty` changes no block but media, part. -/

@[simp] theorem State.clearWhenEmpty_clock (s : State) : (s.clearWhenEmpty).clock = s.clock := by
  unfold State.clearWhenEmpty
  repeat' first | split | dsimp only
  all_goals simp
@[simp] theorem State.clearWhenEmpty_settings (s : State) : (s.clearWhenEmpty).settings = s.settings := by
  unfold State.clearWhenEmpty
  repeat' first | split | dsimp only
  all_goals simp
@[simp] theorem State.clearWhenEmpty_table (s : State) : (s.clearWhenEmpty).table = s.table := by
  unfold State.clearWhenEmpty
  repeat' first | split | dsimp only
  all_goals simp
@[simp] theorem State.clearWhenEmpty_flight (s : State) : (s.clearWhenEmpty).flight = s.flight := by
  unfold State.clearWhenEmpty
  repeat' first | split | dsimp only
  all_goals simp
@[simp] theorem State.clearWhenEmpty_ports (s : State) : (s.clearWhenEmpty).ports = s.ports := by
  unfold State.clearWhenEmpty
  repeat' first | split | dsimp only
  all_goals simp
@[simp] theorem State.clearWhenEmpty_paths (s : State) : (s.clearWhenEmpty).paths = s.paths := by
  unfold State.clearWhenEmpty
  repeat' first | split | dsimp only
  all_goals simp
@[simp] theorem State.clearWhenEmpty_walk (s : State) : (s.clearWhenEmpty).walk = s.walk := by
  unfold State.clearWhenEmpty
  repeat' first | split | dsimp only
  all_goals simp
@[simp] theorem State.clearWhenEmpty_notices (s : State) : (s.clearWhenEmpty).notices = s.notices := by
  unfold State.clearWhenEmpty
  repeat' first | split | dsimp only
  all_goals simp
@[simp] theorem State.clearWhenEmpty_mailbox (s : State) : (s.clearWhenEmpty).mailbox = s.mailbox := by
  unfold State.clearWhenEmpty
  repeat' first | split | dsimp only
  all_goals simp
@[simp] theorem State.clearWhenEmpty_out (s : State) : (s.clearWhenEmpty).out = s.out := by
  unfold State.clearWhenEmpty
  repeat' first | split | dsimp only
  all_goals simp
@[simp] theorem State.clearWhenEmpty_free (s : State) : (s.clearWhenEmpty).free = s.free := by
  unfold State.clearWhenEmpty
  repeat' first | split | dsimp only
  all_goals simp
@[simp] theorem State.clearWhenEmpty_pending (s : State) : (s.clearWhenEmpty).pending = s.pending := by
  unfold State.clearWhenEmpty
  repeat' first | split | dsimp only
  all_goals simp

/-! `replyResolved` changes no block but out. -/

@[simp] theorem State.replyResolved_part (s : State) (e : Entry) (code : AnswerCode) : (s.replyResolved e code).part = s.part := by
  unfold State.replyResolved
  repeat' first | split | dsimp only
  all_goals simp
@[simp] theorem State.replyResolved_clock (s : State) (e : Entry) (code : AnswerCode) : (s.replyResolved e code).clock = s.clock := by
  unfold State.replyResolved
  repeat' first | split | dsimp only
  all_goals simp
@[simp] theorem State.replyResolved_settings (s : State) (e : Entry) (code : AnswerCode) : (s.replyResolved e code).settings = s.settings := by
  unfold State.replyResolved
  repeat' first | split | dsimp only
  all_goals simp
@[simp] theorem State.replyResolved_table (s : State) (e : Entry) (code : AnswerCode) : (s.replyResolved e code).table = s.table := by
  unfold State.replyResolved
  repeat' first | split | dsimp only
  all_goals simp
@[simp] theorem State.replyResolved_flight (s : State) (e : Entry) (code : AnswerCode) : (s.replyResolved e code).flight = s.flight := by
  unfold State.replyResolved
  repeat' first | split | dsimp only
  all_goals simp
@[simp] theorem State.replyResolved_media (s : State) (e : Entry) (code : AnswerCode) : (s.replyResolved e code).media = s.media := by
  unfold State.replyResolved
  repeat' first | split | dsimp only
  all_goals simp
@[simp] theorem State.replyResolved_ports (s : State) (e : Entry) (code : AnswerCode) : (s.replyResolved e code).ports = s.ports := by
  unfold State.replyResolved
  repeat' first | split | dsimp only
  all_goals simp
@[simp] theorem State.replyResolved_paths (s : State) (e : Entry) (code : AnswerCode) : (s.replyResolved e code).paths = s.paths := by
  unfold State.replyResolved
  repeat' first | split | dsimp only
  all_goals simp
@[simp] theorem State.replyResolved_walk (s : State) (e : Entry) (code : AnswerCode) : (s.replyResolved e code).walk = s.walk := by
  unfold State.replyResolved
  repeat' first | split | dsimp only
  all_goals simp
@[simp] theorem State.replyResolved_notices (s : State) (e : Entry) (code : AnswerCode) : (s.replyResolved e code).notices = s.notices := by
  unfold State.replyResolved
  repeat' first | split | dsimp only
  all_goals simp
@[simp] theorem State.replyResolved_mailbox (s : State) (e : Entry) (code : AnswerCode) : (s.replyResolved e code).mailbox = s.mailbox := by
  unfold State.replyResolved
  repeat' first | split | dsimp only
  all_goals simp
@[simp] theorem State.replyResolved_free (s : State) (e : Entry) (code : AnswerCode) : (s.replyResolved e code).free = s.free := by
  unfold State.replyResolved
  repeat' first | split | dsimp only
  all_goals simp
@[simp] theorem State.replyResolved_pending (s : State) (e : Entry) (code : AnswerCode) : (s.replyResolved e code).pending = s.pending := by
  unfold State.replyResolved
  repeat' first | split | dsimp only
  all_goals simp

/-! `countResolution` changes no block but paths. -/

@[simp] theorem State.countResolution_part (s : State) (e : Entry) (code : AnswerCode) : (s.countResolution e code).part = s.part := by
  unfold State.countResolution
  repeat' first | split | dsimp only
  all_goals simp
@[simp] theorem State.countResolution_clock (s : State) (e : Entry) (code : AnswerCode) : (s.countResolution e code).clock = s.clock := by
  unfold State.countResolution
  repeat' first | split | dsimp only
  all_goals simp
@[simp] theorem State.countResolution_settings (s : State) (e : Entry) (code : AnswerCode) : (s.countResolution e code).settings = s.settings := by
  unfold State.countResolution
  repeat' first | split | dsimp only
  all_goals simp
@[simp] theorem State.countResolution_table (s : State) (e : Entry) (code : AnswerCode) : (s.countResolution e code).table = s.table := by
  unfold State.countResolution
  repeat' first | split | dsimp only
  all_goals simp
@[simp] theorem State.countResolution_flight (s : State) (e : Entry) (code : AnswerCode) : (s.countResolution e code).flight = s.flight := by
  unfold State.countResolution
  repeat' first | split | dsimp only
  all_goals simp
@[simp] theorem State.countResolution_media (s : State) (e : Entry) (code : AnswerCode) : (s.countResolution e code).media = s.media := by
  unfold State.countResolution
  repeat' first | split | dsimp only
  all_goals simp
@[simp] theorem State.countResolution_ports (s : State) (e : Entry) (code : AnswerCode) : (s.countResolution e code).ports = s.ports := by
  unfold State.countResolution
  repeat' first | split | dsimp only
  all_goals simp
@[simp] theorem State.countResolution_walk (s : State) (e : Entry) (code : AnswerCode) : (s.countResolution e code).walk = s.walk := by
  unfold State.countResolution
  repeat' first | split | dsimp only
  all_goals simp
@[simp] theorem State.countResolution_notices (s : State) (e : Entry) (code : AnswerCode) : (s.countResolution e code).notices = s.notices := by
  unfold State.countResolution
  repeat' first | split | dsimp only
  all_goals simp
@[simp] theorem State.countResolution_mailbox (s : State) (e : Entry) (code : AnswerCode) : (s.countResolution e code).mailbox = s.mailbox := by
  unfold State.countResolution
  repeat' first | split | dsimp only
  all_goals simp
@[simp] theorem State.countResolution_out (s : State) (e : Entry) (code : AnswerCode) : (s.countResolution e code).out = s.out := by
  unfold State.countResolution
  repeat' first | split | dsimp only
  all_goals simp
@[simp] theorem State.countResolution_free (s : State) (e : Entry) (code : AnswerCode) : (s.countResolution e code).free = s.free := by
  unfold State.countResolution
  repeat' first | split | dsimp only
  all_goals simp
@[simp] theorem State.countResolution_pending (s : State) (e : Entry) (code : AnswerCode) : (s.countResolution e code).pending = s.pending := by
  unfold State.countResolution
  repeat' first | split | dsimp only
  all_goals simp

/-! `raiseCleared` changes no block but notices, out. -/

@[simp] theorem State.raiseCleared_part (s : State) (e : Entry) : (s.raiseCleared e).part = s.part := by
  unfold State.raiseCleared; split
  · exact foldl_keeps State.part _ (by simp) _ _
  · rfl
@[simp] theorem State.raiseCleared_clock (s : State) (e : Entry) : (s.raiseCleared e).clock = s.clock := by
  unfold State.raiseCleared; split
  · exact foldl_keeps State.clock _ (by simp) _ _
  · rfl
@[simp] theorem State.raiseCleared_settings (s : State) (e : Entry) : (s.raiseCleared e).settings = s.settings := by
  unfold State.raiseCleared; split
  · exact foldl_keeps State.settings _ (by simp) _ _
  · rfl
@[simp] theorem State.raiseCleared_table (s : State) (e : Entry) : (s.raiseCleared e).table = s.table := by
  unfold State.raiseCleared; split
  · exact foldl_keeps State.table _ (by simp) _ _
  · rfl
@[simp] theorem State.raiseCleared_flight (s : State) (e : Entry) : (s.raiseCleared e).flight = s.flight := by
  unfold State.raiseCleared; split
  · exact foldl_keeps State.flight _ (by simp) _ _
  · rfl
@[simp] theorem State.raiseCleared_media (s : State) (e : Entry) : (s.raiseCleared e).media = s.media := by
  unfold State.raiseCleared; split
  · exact foldl_keeps State.media _ (by simp) _ _
  · rfl
@[simp] theorem State.raiseCleared_ports (s : State) (e : Entry) : (s.raiseCleared e).ports = s.ports := by
  unfold State.raiseCleared; split
  · exact foldl_keeps State.ports _ (by simp) _ _
  · rfl
@[simp] theorem State.raiseCleared_paths (s : State) (e : Entry) : (s.raiseCleared e).paths = s.paths := by
  unfold State.raiseCleared; split
  · exact foldl_keeps State.paths _ (by simp) _ _
  · rfl
@[simp] theorem State.raiseCleared_walk (s : State) (e : Entry) : (s.raiseCleared e).walk = s.walk := by
  unfold State.raiseCleared; split
  · exact foldl_keeps State.walk _ (by simp) _ _
  · rfl
@[simp] theorem State.raiseCleared_mailbox (s : State) (e : Entry) : (s.raiseCleared e).mailbox = s.mailbox := by
  unfold State.raiseCleared; split
  · exact foldl_keeps State.mailbox _ (by simp) _ _
  · rfl
@[simp] theorem State.raiseCleared_free (s : State) (e : Entry) : (s.raiseCleared e).free = s.free := by
  unfold State.raiseCleared; split
  · exact foldl_keeps State.free _ (by simp) _ _
  · rfl
@[simp] theorem State.raiseCleared_pending (s : State) (e : Entry) : (s.raiseCleared e).pending = s.pending := by
  unfold State.raiseCleared; split
  · exact foldl_keeps State.pending _ (by simp) _ _
  · rfl

/-! `resolve` changes no block but paths, table, walk, notices, out, ports, flight, media, part. -/

@[simp] theorem State.resolve_clock (s : State) (e : Entry) (k : Fin 32) (code : AnswerCode) : (s.resolve e k code).clock = s.clock := by
  unfold State.resolve
  repeat' first | split | dsimp only
  all_goals simp
@[simp] theorem State.resolve_settings (s : State) (e : Entry) (k : Fin 32) (code : AnswerCode) : (s.resolve e k code).settings = s.settings := by
  unfold State.resolve
  repeat' first | split | dsimp only
  all_goals simp
@[simp] theorem State.resolve_mailbox (s : State) (e : Entry) (k : Fin 32) (code : AnswerCode) : (s.resolve e k code).mailbox = s.mailbox := by
  unfold State.resolve
  repeat' first | split | dsimp only
  all_goals simp
@[simp] theorem State.resolve_free (s : State) (e : Entry) (k : Fin 32) (code : AnswerCode) : (s.resolve e k code).free = s.free := by
  unfold State.resolve
  repeat' first | split | dsimp only
  all_goals simp
@[simp] theorem State.resolve_pending (s : State) (e : Entry) (k : Fin 32) (code : AnswerCode) : (s.resolve e k code).pending = s.pending := by
  unfold State.resolve
  repeat' first | split | dsimp only
  all_goals simp

/-! `setTransfer` changes no block but flight. -/

@[simp] theorem State.setTransfer_part (s : State) (k : Fin 32) (x : Transfer) : (s.setTransfer k x).part = s.part := by simp [State.setTransfer]
@[simp] theorem State.setTransfer_clock (s : State) (k : Fin 32) (x : Transfer) : (s.setTransfer k x).clock = s.clock := by simp [State.setTransfer]
@[simp] theorem State.setTransfer_settings (s : State) (k : Fin 32) (x : Transfer) : (s.setTransfer k x).settings = s.settings := by simp [State.setTransfer]
@[simp] theorem State.setTransfer_table (s : State) (k : Fin 32) (x : Transfer) : (s.setTransfer k x).table = s.table := by simp [State.setTransfer]
@[simp] theorem State.setTransfer_media (s : State) (k : Fin 32) (x : Transfer) : (s.setTransfer k x).media = s.media := by simp [State.setTransfer]
@[simp] theorem State.setTransfer_ports (s : State) (k : Fin 32) (x : Transfer) : (s.setTransfer k x).ports = s.ports := by simp [State.setTransfer]
@[simp] theorem State.setTransfer_paths (s : State) (k : Fin 32) (x : Transfer) : (s.setTransfer k x).paths = s.paths := by simp [State.setTransfer]
@[simp] theorem State.setTransfer_walk (s : State) (k : Fin 32) (x : Transfer) : (s.setTransfer k x).walk = s.walk := by simp [State.setTransfer]
@[simp] theorem State.setTransfer_notices (s : State) (k : Fin 32) (x : Transfer) : (s.setTransfer k x).notices = s.notices := by simp [State.setTransfer]
@[simp] theorem State.setTransfer_mailbox (s : State) (k : Fin 32) (x : Transfer) : (s.setTransfer k x).mailbox = s.mailbox := by simp [State.setTransfer]
@[simp] theorem State.setTransfer_out (s : State) (k : Fin 32) (x : Transfer) : (s.setTransfer k x).out = s.out := by simp [State.setTransfer]
@[simp] theorem State.setTransfer_free (s : State) (k : Fin 32) (x : Transfer) : (s.setTransfer k x).free = s.free := by simp [State.setTransfer]
@[simp] theorem State.setTransfer_pending (s : State) (k : Fin 32) (x : Transfer) : (s.setTransfer k x).pending = s.pending := by simp [State.setTransfer]

/-! `failTransfer` changes no block but flight, media. -/

@[simp] theorem State.failTransfer_part (s : State) (k : Fin 32) : (s.failTransfer k).part = s.part := by simp [State.failTransfer]
@[simp] theorem State.failTransfer_clock (s : State) (k : Fin 32) : (s.failTransfer k).clock = s.clock := by simp [State.failTransfer]
@[simp] theorem State.failTransfer_settings (s : State) (k : Fin 32) : (s.failTransfer k).settings = s.settings := by simp [State.failTransfer]
@[simp] theorem State.failTransfer_table (s : State) (k : Fin 32) : (s.failTransfer k).table = s.table := by simp [State.failTransfer]
@[simp] theorem State.failTransfer_ports (s : State) (k : Fin 32) : (s.failTransfer k).ports = s.ports := by simp [State.failTransfer]
@[simp] theorem State.failTransfer_paths (s : State) (k : Fin 32) : (s.failTransfer k).paths = s.paths := by simp [State.failTransfer]
@[simp] theorem State.failTransfer_walk (s : State) (k : Fin 32) : (s.failTransfer k).walk = s.walk := by simp [State.failTransfer]
@[simp] theorem State.failTransfer_notices (s : State) (k : Fin 32) : (s.failTransfer k).notices = s.notices := by simp [State.failTransfer]
@[simp] theorem State.failTransfer_mailbox (s : State) (k : Fin 32) : (s.failTransfer k).mailbox = s.mailbox := by simp [State.failTransfer]
@[simp] theorem State.failTransfer_out (s : State) (k : Fin 32) : (s.failTransfer k).out = s.out := by simp [State.failTransfer]
@[simp] theorem State.failTransfer_free (s : State) (k : Fin 32) : (s.failTransfer k).free = s.free := by simp [State.failTransfer]
@[simp] theorem State.failTransfer_pending (s : State) (k : Fin 32) : (s.failTransfer k).pending = s.pending := by simp [State.failTransfer]

/-! `select` changes no block but mailbox. -/

@[simp] theorem State.select_part (s : State) (n : Nat) : (s.select n).part = s.part := by simp [State.select]
@[simp] theorem State.select_clock (s : State) (n : Nat) : (s.select n).clock = s.clock := by simp [State.select]
@[simp] theorem State.select_settings (s : State) (n : Nat) : (s.select n).settings = s.settings := by simp [State.select]
@[simp] theorem State.select_table (s : State) (n : Nat) : (s.select n).table = s.table := by simp [State.select]
@[simp] theorem State.select_flight (s : State) (n : Nat) : (s.select n).flight = s.flight := by simp [State.select]
@[simp] theorem State.select_media (s : State) (n : Nat) : (s.select n).media = s.media := by simp [State.select]
@[simp] theorem State.select_ports (s : State) (n : Nat) : (s.select n).ports = s.ports := by simp [State.select]
@[simp] theorem State.select_paths (s : State) (n : Nat) : (s.select n).paths = s.paths := by simp [State.select]
@[simp] theorem State.select_walk (s : State) (n : Nat) : (s.select n).walk = s.walk := by simp [State.select]
@[simp] theorem State.select_notices (s : State) (n : Nat) : (s.select n).notices = s.notices := by simp [State.select]
@[simp] theorem State.select_out (s : State) (n : Nat) : (s.select n).out = s.out := by simp [State.select]
@[simp] theorem State.select_free (s : State) (n : Nat) : (s.select n).free = s.free := by simp [State.select]
@[simp] theorem State.select_pending (s : State) (n : Nat) : (s.select n).pending = s.pending := by simp [State.select]

/-! `clearOverrun` changes no block but mailbox. -/

@[simp] theorem State.clearOverrun_part (s : State) : s.clearOverrun.part = s.part := by simp [State.clearOverrun]
@[simp] theorem State.clearOverrun_clock (s : State) : s.clearOverrun.clock = s.clock := by simp [State.clearOverrun]
@[simp] theorem State.clearOverrun_settings (s : State) : s.clearOverrun.settings = s.settings := by simp [State.clearOverrun]
@[simp] theorem State.clearOverrun_table (s : State) : s.clearOverrun.table = s.table := by simp [State.clearOverrun]
@[simp] theorem State.clearOverrun_flight (s : State) : s.clearOverrun.flight = s.flight := by simp [State.clearOverrun]
@[simp] theorem State.clearOverrun_media (s : State) : s.clearOverrun.media = s.media := by simp [State.clearOverrun]
@[simp] theorem State.clearOverrun_ports (s : State) : s.clearOverrun.ports = s.ports := by simp [State.clearOverrun]
@[simp] theorem State.clearOverrun_paths (s : State) : s.clearOverrun.paths = s.paths := by simp [State.clearOverrun]
@[simp] theorem State.clearOverrun_walk (s : State) : s.clearOverrun.walk = s.walk := by simp [State.clearOverrun]
@[simp] theorem State.clearOverrun_notices (s : State) : s.clearOverrun.notices = s.notices := by simp [State.clearOverrun]
@[simp] theorem State.clearOverrun_out (s : State) : s.clearOverrun.out = s.out := by simp [State.clearOverrun]
@[simp] theorem State.clearOverrun_free (s : State) : s.clearOverrun.free = s.free := by simp [State.clearOverrun]
@[simp] theorem State.clearOverrun_pending (s : State) : s.clearOverrun.pending = s.pending := by simp [State.clearOverrun]

/-! `bufferRequest` changes no block but mailbox. -/

@[simp] theorem State.bufferRequest_part (s : State) (bytes : List Byte) : (s.bufferRequest bytes).part = s.part := by
  unfold State.bufferRequest
  repeat' first | split | dsimp only
  all_goals simp
@[simp] theorem State.bufferRequest_clock (s : State) (bytes : List Byte) : (s.bufferRequest bytes).clock = s.clock := by
  unfold State.bufferRequest
  repeat' first | split | dsimp only
  all_goals simp
@[simp] theorem State.bufferRequest_settings (s : State) (bytes : List Byte) : (s.bufferRequest bytes).settings = s.settings := by
  unfold State.bufferRequest
  repeat' first | split | dsimp only
  all_goals simp
@[simp] theorem State.bufferRequest_table (s : State) (bytes : List Byte) : (s.bufferRequest bytes).table = s.table := by
  unfold State.bufferRequest
  repeat' first | split | dsimp only
  all_goals simp
@[simp] theorem State.bufferRequest_flight (s : State) (bytes : List Byte) : (s.bufferRequest bytes).flight = s.flight := by
  unfold State.bufferRequest
  repeat' first | split | dsimp only
  all_goals simp
@[simp] theorem State.bufferRequest_media (s : State) (bytes : List Byte) : (s.bufferRequest bytes).media = s.media := by
  unfold State.bufferRequest
  repeat' first | split | dsimp only
  all_goals simp
@[simp] theorem State.bufferRequest_ports (s : State) (bytes : List Byte) : (s.bufferRequest bytes).ports = s.ports := by
  unfold State.bufferRequest
  repeat' first | split | dsimp only
  all_goals simp
@[simp] theorem State.bufferRequest_paths (s : State) (bytes : List Byte) : (s.bufferRequest bytes).paths = s.paths := by
  unfold State.bufferRequest
  repeat' first | split | dsimp only
  all_goals simp
@[simp] theorem State.bufferRequest_walk (s : State) (bytes : List Byte) : (s.bufferRequest bytes).walk = s.walk := by
  unfold State.bufferRequest
  repeat' first | split | dsimp only
  all_goals simp
@[simp] theorem State.bufferRequest_notices (s : State) (bytes : List Byte) : (s.bufferRequest bytes).notices = s.notices := by
  unfold State.bufferRequest
  repeat' first | split | dsimp only
  all_goals simp
@[simp] theorem State.bufferRequest_out (s : State) (bytes : List Byte) : (s.bufferRequest bytes).out = s.out := by
  unfold State.bufferRequest
  repeat' first | split | dsimp only
  all_goals simp
@[simp] theorem State.bufferRequest_free (s : State) (bytes : List Byte) : (s.bufferRequest bytes).free = s.free := by
  unfold State.bufferRequest
  repeat' first | split | dsimp only
  all_goals simp
@[simp] theorem State.bufferRequest_pending (s : State) (bytes : List Byte) : (s.bufferRequest bytes).pending = s.pending := by
  unfold State.bufferRequest
  repeat' first | split | dsimp only
  all_goals simp

/-! `placeResetAnswer` changes no block but mailbox. -/

@[simp] theorem State.placeResetAnswer_part (s : State) : (s.placeResetAnswer).part = s.part := by
  unfold State.placeResetAnswer
  repeat' first | split | dsimp only
  all_goals simp
@[simp] theorem State.placeResetAnswer_clock (s : State) : (s.placeResetAnswer).clock = s.clock := by
  unfold State.placeResetAnswer
  repeat' first | split | dsimp only
  all_goals simp
@[simp] theorem State.placeResetAnswer_settings (s : State) : (s.placeResetAnswer).settings = s.settings := by
  unfold State.placeResetAnswer
  repeat' first | split | dsimp only
  all_goals simp
@[simp] theorem State.placeResetAnswer_table (s : State) : (s.placeResetAnswer).table = s.table := by
  unfold State.placeResetAnswer
  repeat' first | split | dsimp only
  all_goals simp
@[simp] theorem State.placeResetAnswer_flight (s : State) : (s.placeResetAnswer).flight = s.flight := by
  unfold State.placeResetAnswer
  repeat' first | split | dsimp only
  all_goals simp
@[simp] theorem State.placeResetAnswer_media (s : State) : (s.placeResetAnswer).media = s.media := by
  unfold State.placeResetAnswer
  repeat' first | split | dsimp only
  all_goals simp
@[simp] theorem State.placeResetAnswer_ports (s : State) : (s.placeResetAnswer).ports = s.ports := by
  unfold State.placeResetAnswer
  repeat' first | split | dsimp only
  all_goals simp
@[simp] theorem State.placeResetAnswer_paths (s : State) : (s.placeResetAnswer).paths = s.paths := by
  unfold State.placeResetAnswer
  repeat' first | split | dsimp only
  all_goals simp
@[simp] theorem State.placeResetAnswer_walk (s : State) : (s.placeResetAnswer).walk = s.walk := by
  unfold State.placeResetAnswer
  repeat' first | split | dsimp only
  all_goals simp
@[simp] theorem State.placeResetAnswer_notices (s : State) : (s.placeResetAnswer).notices = s.notices := by
  unfold State.placeResetAnswer
  repeat' first | split | dsimp only
  all_goals simp
@[simp] theorem State.placeResetAnswer_out (s : State) : (s.placeResetAnswer).out = s.out := by
  unfold State.placeResetAnswer
  repeat' first | split | dsimp only
  all_goals simp
@[simp] theorem State.placeResetAnswer_free (s : State) : (s.placeResetAnswer).free = s.free := by
  unfold State.placeResetAnswer
  repeat' first | split | dsimp only
  all_goals simp
@[simp] theorem State.placeResetAnswer_pending (s : State) : (s.placeResetAnswer).pending = s.pending := by
  unfold State.placeResetAnswer
  repeat' first | split | dsimp only
  all_goals simp

/-! `enterStarting` changes no block but part, media. -/

@[simp] theorem State.enterStarting_clock (s : State) : (s.enterStarting).clock = s.clock := by simp [State.enterStarting]
@[simp] theorem State.enterStarting_settings (s : State) : (s.enterStarting).settings = s.settings := by simp [State.enterStarting]
@[simp] theorem State.enterStarting_table (s : State) : (s.enterStarting).table = s.table := by simp [State.enterStarting]
@[simp] theorem State.enterStarting_flight (s : State) : (s.enterStarting).flight = s.flight := by simp [State.enterStarting]
@[simp] theorem State.enterStarting_ports (s : State) : (s.enterStarting).ports = s.ports := by simp [State.enterStarting]
@[simp] theorem State.enterStarting_paths (s : State) : (s.enterStarting).paths = s.paths := by simp [State.enterStarting]
@[simp] theorem State.enterStarting_walk (s : State) : (s.enterStarting).walk = s.walk := by simp [State.enterStarting]
@[simp] theorem State.enterStarting_notices (s : State) : (s.enterStarting).notices = s.notices := by simp [State.enterStarting]
@[simp] theorem State.enterStarting_mailbox (s : State) : (s.enterStarting).mailbox = s.mailbox := by simp [State.enterStarting]
@[simp] theorem State.enterStarting_out (s : State) : (s.enterStarting).out = s.out := by simp [State.enterStarting]
@[simp] theorem State.enterStarting_free (s : State) : (s.enterStarting).free = s.free := by simp [State.enterStarting]
@[simp] theorem State.enterStarting_pending (s : State) : (s.enterStarting).pending = s.pending := by simp [State.enterStarting]

/-! `countAttempt` changes no block but part, notices, out. -/

@[simp] theorem State.countAttempt_clock (s : State) : (s.countAttempt).clock = s.clock := by
  unfold State.countAttempt
  repeat' first | split | dsimp only
  all_goals simp
@[simp] theorem State.countAttempt_settings (s : State) : (s.countAttempt).settings = s.settings := by
  unfold State.countAttempt
  repeat' first | split | dsimp only
  all_goals simp
@[simp] theorem State.countAttempt_table (s : State) : (s.countAttempt).table = s.table := by
  unfold State.countAttempt
  repeat' first | split | dsimp only
  all_goals simp
@[simp] theorem State.countAttempt_flight (s : State) : (s.countAttempt).flight = s.flight := by
  unfold State.countAttempt
  repeat' first | split | dsimp only
  all_goals simp
@[simp] theorem State.countAttempt_media (s : State) : (s.countAttempt).media = s.media := by
  unfold State.countAttempt
  repeat' first | split | dsimp only
  all_goals simp
@[simp] theorem State.countAttempt_ports (s : State) : (s.countAttempt).ports = s.ports := by
  unfold State.countAttempt
  repeat' first | split | dsimp only
  all_goals simp
@[simp] theorem State.countAttempt_paths (s : State) : (s.countAttempt).paths = s.paths := by
  unfold State.countAttempt
  repeat' first | split | dsimp only
  all_goals simp
@[simp] theorem State.countAttempt_walk (s : State) : (s.countAttempt).walk = s.walk := by
  unfold State.countAttempt
  repeat' first | split | dsimp only
  all_goals simp
@[simp] theorem State.countAttempt_mailbox (s : State) : (s.countAttempt).mailbox = s.mailbox := by
  unfold State.countAttempt
  repeat' first | split | dsimp only
  all_goals simp
@[simp] theorem State.countAttempt_free (s : State) : (s.countAttempt).free = s.free := by
  unfold State.countAttempt
  repeat' first | split | dsimp only
  all_goals simp
@[simp] theorem State.countAttempt_pending (s : State) : (s.countAttempt).pending = s.pending := by
  unfold State.countAttempt
  repeat' first | split | dsimp only
  all_goals simp

/-! `freeSlots` changes no block but flight, media. -/

@[simp] theorem State.freeSlots_part (s : State) : (s.freeSlots).part = s.part := by simp [State.freeSlots]
@[simp] theorem State.freeSlots_clock (s : State) : (s.freeSlots).clock = s.clock := by simp [State.freeSlots]
@[simp] theorem State.freeSlots_settings (s : State) : (s.freeSlots).settings = s.settings := by simp [State.freeSlots]
@[simp] theorem State.freeSlots_table (s : State) : (s.freeSlots).table = s.table := by simp [State.freeSlots]
@[simp] theorem State.freeSlots_ports (s : State) : (s.freeSlots).ports = s.ports := by simp [State.freeSlots]
@[simp] theorem State.freeSlots_paths (s : State) : (s.freeSlots).paths = s.paths := by simp [State.freeSlots]
@[simp] theorem State.freeSlots_walk (s : State) : (s.freeSlots).walk = s.walk := by simp [State.freeSlots]
@[simp] theorem State.freeSlots_notices (s : State) : (s.freeSlots).notices = s.notices := by simp [State.freeSlots]
@[simp] theorem State.freeSlots_mailbox (s : State) : (s.freeSlots).mailbox = s.mailbox := by simp [State.freeSlots]
@[simp] theorem State.freeSlots_out (s : State) : (s.freeSlots).out = s.out := by simp [State.freeSlots]
@[simp] theorem State.freeSlots_free (s : State) : (s.freeSlots).free = s.free := by simp [State.freeSlots]
@[simp] theorem State.freeSlots_pending (s : State) : (s.freeSlots).pending = s.pending := by simp [State.freeSlots]

/-! `sweepHoldings` changes no block but out. -/

@[simp] theorem State.sweepHoldings_part (s : State) : (s.sweepHoldings).part = s.part := by
  unfold State.sweepHoldings; exact foldl_keeps State.part _ (fun x h => by split <;> simp) _ _
@[simp] theorem State.sweepHoldings_clock (s : State) : (s.sweepHoldings).clock = s.clock := by
  unfold State.sweepHoldings; exact foldl_keeps State.clock _ (fun x h => by split <;> simp) _ _
@[simp] theorem State.sweepHoldings_settings (s : State) : (s.sweepHoldings).settings = s.settings := by
  unfold State.sweepHoldings; exact foldl_keeps State.settings _ (fun x h => by split <;> simp) _ _
@[simp] theorem State.sweepHoldings_table (s : State) : (s.sweepHoldings).table = s.table := by
  unfold State.sweepHoldings; exact foldl_keeps State.table _ (fun x h => by split <;> simp) _ _
@[simp] theorem State.sweepHoldings_flight (s : State) : (s.sweepHoldings).flight = s.flight := by
  unfold State.sweepHoldings; exact foldl_keeps State.flight _ (fun x h => by split <;> simp) _ _
@[simp] theorem State.sweepHoldings_media (s : State) : (s.sweepHoldings).media = s.media := by
  unfold State.sweepHoldings; exact foldl_keeps State.media _ (fun x h => by split <;> simp) _ _
@[simp] theorem State.sweepHoldings_ports (s : State) : (s.sweepHoldings).ports = s.ports := by
  unfold State.sweepHoldings; exact foldl_keeps State.ports _ (fun x h => by split <;> simp) _ _
@[simp] theorem State.sweepHoldings_paths (s : State) : (s.sweepHoldings).paths = s.paths := by
  unfold State.sweepHoldings; exact foldl_keeps State.paths _ (fun x h => by split <;> simp) _ _
@[simp] theorem State.sweepHoldings_walk (s : State) : (s.sweepHoldings).walk = s.walk := by
  unfold State.sweepHoldings; exact foldl_keeps State.walk _ (fun x h => by split <;> simp) _ _
@[simp] theorem State.sweepHoldings_notices (s : State) : (s.sweepHoldings).notices = s.notices := by
  unfold State.sweepHoldings; exact foldl_keeps State.notices _ (fun x h => by split <;> simp) _ _
@[simp] theorem State.sweepHoldings_mailbox (s : State) : (s.sweepHoldings).mailbox = s.mailbox := by
  unfold State.sweepHoldings; exact foldl_keeps State.mailbox _ (fun x h => by split <;> simp) _ _
@[simp] theorem State.sweepHoldings_free (s : State) : (s.sweepHoldings).free = s.free := by
  unfold State.sweepHoldings; exact foldl_keeps State.free _ (fun x h => by split <;> simp) _ _
@[simp] theorem State.sweepHoldings_pending (s : State) : (s.sweepHoldings).pending = s.pending := by
  unfold State.sweepHoldings; exact foldl_keeps State.pending _ (fun x h => by split <;> simp) _ _

/-! `sweepPath` changes no block but paths, out. -/

@[simp] theorem State.sweepPath_part (s : State) (p : Port) : (s.sweepPath p).part = s.part := by simp [State.sweepPath]
@[simp] theorem State.sweepPath_clock (s : State) (p : Port) : (s.sweepPath p).clock = s.clock := by simp [State.sweepPath]
@[simp] theorem State.sweepPath_settings (s : State) (p : Port) : (s.sweepPath p).settings = s.settings := by simp [State.sweepPath]
@[simp] theorem State.sweepPath_table (s : State) (p : Port) : (s.sweepPath p).table = s.table := by simp [State.sweepPath]
@[simp] theorem State.sweepPath_flight (s : State) (p : Port) : (s.sweepPath p).flight = s.flight := by simp [State.sweepPath]
@[simp] theorem State.sweepPath_media (s : State) (p : Port) : (s.sweepPath p).media = s.media := by simp [State.sweepPath]
@[simp] theorem State.sweepPath_ports (s : State) (p : Port) : (s.sweepPath p).ports = s.ports := by simp [State.sweepPath]
@[simp] theorem State.sweepPath_walk (s : State) (p : Port) : (s.sweepPath p).walk = s.walk := by simp [State.sweepPath]
@[simp] theorem State.sweepPath_notices (s : State) (p : Port) : (s.sweepPath p).notices = s.notices := by simp [State.sweepPath]
@[simp] theorem State.sweepPath_mailbox (s : State) (p : Port) : (s.sweepPath p).mailbox = s.mailbox := by simp [State.sweepPath]
@[simp] theorem State.sweepPath_free (s : State) (p : Port) : (s.sweepPath p).free = s.free := by simp [State.sweepPath]
@[simp] theorem State.sweepPath_pending (s : State) (p : Port) : (s.sweepPath p).pending = s.pending := by simp [State.sweepPath]

/-! `emptyIntake` changes no block but ports, out. -/

@[simp] theorem State.emptyIntake_part (s : State) (p : Port) : (s.emptyIntake p).part = s.part := by simp [State.emptyIntake]
@[simp] theorem State.emptyIntake_clock (s : State) (p : Port) : (s.emptyIntake p).clock = s.clock := by simp [State.emptyIntake]
@[simp] theorem State.emptyIntake_settings (s : State) (p : Port) : (s.emptyIntake p).settings = s.settings := by simp [State.emptyIntake]
@[simp] theorem State.emptyIntake_table (s : State) (p : Port) : (s.emptyIntake p).table = s.table := by simp [State.emptyIntake]
@[simp] theorem State.emptyIntake_flight (s : State) (p : Port) : (s.emptyIntake p).flight = s.flight := by simp [State.emptyIntake]
@[simp] theorem State.emptyIntake_media (s : State) (p : Port) : (s.emptyIntake p).media = s.media := by simp [State.emptyIntake]
@[simp] theorem State.emptyIntake_paths (s : State) (p : Port) : (s.emptyIntake p).paths = s.paths := by simp [State.emptyIntake]
@[simp] theorem State.emptyIntake_walk (s : State) (p : Port) : (s.emptyIntake p).walk = s.walk := by simp [State.emptyIntake]
@[simp] theorem State.emptyIntake_notices (s : State) (p : Port) : (s.emptyIntake p).notices = s.notices := by simp [State.emptyIntake]
@[simp] theorem State.emptyIntake_mailbox (s : State) (p : Port) : (s.emptyIntake p).mailbox = s.mailbox := by simp [State.emptyIntake]
@[simp] theorem State.emptyIntake_free (s : State) (p : Port) : (s.emptyIntake p).free = s.free := by simp [State.emptyIntake]
@[simp] theorem State.emptyIntake_pending (s : State) (p : Port) : (s.emptyIntake p).pending = s.pending := by simp [State.emptyIntake]

/-! `removeWaiting` changes no block but flight, out. -/

@[simp] theorem State.removeWaiting_part (s : State) : (s.removeWaiting).part = s.part := by
  unfold State.removeWaiting; simp only [State.withFlight_part]; exact foldl_keeps State.part _ (by simp) _ _
@[simp] theorem State.removeWaiting_clock (s : State) : (s.removeWaiting).clock = s.clock := by
  unfold State.removeWaiting; simp only [State.withFlight_clock]; exact foldl_keeps State.clock _ (by simp) _ _
@[simp] theorem State.removeWaiting_settings (s : State) : (s.removeWaiting).settings = s.settings := by
  unfold State.removeWaiting; simp only [State.withFlight_settings]; exact foldl_keeps State.settings _ (by simp) _ _
@[simp] theorem State.removeWaiting_table (s : State) : (s.removeWaiting).table = s.table := by
  unfold State.removeWaiting; simp only [State.withFlight_table]; exact foldl_keeps State.table _ (by simp) _ _
@[simp] theorem State.removeWaiting_media (s : State) : (s.removeWaiting).media = s.media := by
  unfold State.removeWaiting; simp only [State.withFlight_media]; exact foldl_keeps State.media _ (by simp) _ _
@[simp] theorem State.removeWaiting_ports (s : State) : (s.removeWaiting).ports = s.ports := by
  unfold State.removeWaiting; simp only [State.withFlight_ports]; exact foldl_keeps State.ports _ (by simp) _ _
@[simp] theorem State.removeWaiting_paths (s : State) : (s.removeWaiting).paths = s.paths := by
  unfold State.removeWaiting; simp only [State.withFlight_paths]; exact foldl_keeps State.paths _ (by simp) _ _
@[simp] theorem State.removeWaiting_walk (s : State) : (s.removeWaiting).walk = s.walk := by
  unfold State.removeWaiting; simp only [State.withFlight_walk]; exact foldl_keeps State.walk _ (by simp) _ _
@[simp] theorem State.removeWaiting_notices (s : State) : (s.removeWaiting).notices = s.notices := by
  unfold State.removeWaiting; simp only [State.withFlight_notices]; exact foldl_keeps State.notices _ (by simp) _ _
@[simp] theorem State.removeWaiting_mailbox (s : State) : (s.removeWaiting).mailbox = s.mailbox := by
  unfold State.removeWaiting; simp only [State.withFlight_mailbox]; exact foldl_keeps State.mailbox _ (by simp) _ _
@[simp] theorem State.removeWaiting_free (s : State) : (s.removeWaiting).free = s.free := by
  unfold State.removeWaiting; simp only [State.withFlight_free]; exact foldl_keeps State.free _ (by simp) _ _
@[simp] theorem State.removeWaiting_pending (s : State) : (s.removeWaiting).pending = s.pending := by
  unfold State.removeWaiting; simp only [State.withFlight_pending]; exact foldl_keeps State.pending _ (by simp) _ _

/-! `sweep` changes no block but paths, ports, flight, out. -/

@[simp] theorem State.sweep_part (s : State) : (s.sweep).part = s.part := by simp [State.sweep]
@[simp] theorem State.sweep_clock (s : State) : (s.sweep).clock = s.clock := by simp [State.sweep]
@[simp] theorem State.sweep_settings (s : State) : (s.sweep).settings = s.settings := by simp [State.sweep]
@[simp] theorem State.sweep_table (s : State) : (s.sweep).table = s.table := by simp [State.sweep]
@[simp] theorem State.sweep_media (s : State) : (s.sweep).media = s.media := by simp [State.sweep]
@[simp] theorem State.sweep_walk (s : State) : (s.sweep).walk = s.walk := by simp [State.sweep]
@[simp] theorem State.sweep_notices (s : State) : (s.sweep).notices = s.notices := by simp [State.sweep]
@[simp] theorem State.sweep_mailbox (s : State) : (s.sweep).mailbox = s.mailbox := by simp [State.sweep]
@[simp] theorem State.sweep_free (s : State) : (s.sweep).free = s.free := by simp [State.sweep]
@[simp] theorem State.sweep_pending (s : State) : (s.sweep).pending = s.pending := by simp [State.sweep]

/-! `emptyFlight` changes no block but flight, media, part. -/

@[simp] theorem State.emptyFlight_clock (s : State) : (s.emptyFlight).clock = s.clock := by simp [State.emptyFlight]
@[simp] theorem State.emptyFlight_settings (s : State) : (s.emptyFlight).settings = s.settings := by simp [State.emptyFlight]
@[simp] theorem State.emptyFlight_table (s : State) : (s.emptyFlight).table = s.table := by simp [State.emptyFlight]
@[simp] theorem State.emptyFlight_ports (s : State) : (s.emptyFlight).ports = s.ports := by simp [State.emptyFlight]
@[simp] theorem State.emptyFlight_paths (s : State) : (s.emptyFlight).paths = s.paths := by simp [State.emptyFlight]
@[simp] theorem State.emptyFlight_walk (s : State) : (s.emptyFlight).walk = s.walk := by simp [State.emptyFlight]
@[simp] theorem State.emptyFlight_notices (s : State) : (s.emptyFlight).notices = s.notices := by simp [State.emptyFlight]
@[simp] theorem State.emptyFlight_mailbox (s : State) : (s.emptyFlight).mailbox = s.mailbox := by simp [State.emptyFlight]
@[simp] theorem State.emptyFlight_out (s : State) : (s.emptyFlight).out = s.out := by simp [State.emptyFlight]
@[simp] theorem State.emptyFlight_free (s : State) : (s.emptyFlight).free = s.free := by simp [State.emptyFlight]
@[simp] theorem State.emptyFlight_pending (s : State) : (s.emptyFlight).pending = s.pending := by simp [State.emptyFlight]

/-! `takeNotice` changes no block but notices, out, mailbox. -/

@[simp] theorem State.takeNotice_part (c : Client) (tag : Byte) (s : State) : (State.takeNotice c tag s).part = s.part := by
  unfold State.takeNotice
  repeat' first | split | dsimp only
  all_goals simp
@[simp] theorem State.takeNotice_clock (c : Client) (tag : Byte) (s : State) : (State.takeNotice c tag s).clock = s.clock := by
  unfold State.takeNotice
  repeat' first | split | dsimp only
  all_goals simp
@[simp] theorem State.takeNotice_settings (c : Client) (tag : Byte) (s : State) : (State.takeNotice c tag s).settings = s.settings := by
  unfold State.takeNotice
  repeat' first | split | dsimp only
  all_goals simp
@[simp] theorem State.takeNotice_table (c : Client) (tag : Byte) (s : State) : (State.takeNotice c tag s).table = s.table := by
  unfold State.takeNotice
  repeat' first | split | dsimp only
  all_goals simp
@[simp] theorem State.takeNotice_flight (c : Client) (tag : Byte) (s : State) : (State.takeNotice c tag s).flight = s.flight := by
  unfold State.takeNotice
  repeat' first | split | dsimp only
  all_goals simp
@[simp] theorem State.takeNotice_media (c : Client) (tag : Byte) (s : State) : (State.takeNotice c tag s).media = s.media := by
  unfold State.takeNotice
  repeat' first | split | dsimp only
  all_goals simp
@[simp] theorem State.takeNotice_ports (c : Client) (tag : Byte) (s : State) : (State.takeNotice c tag s).ports = s.ports := by
  unfold State.takeNotice
  repeat' first | split | dsimp only
  all_goals simp
@[simp] theorem State.takeNotice_paths (c : Client) (tag : Byte) (s : State) : (State.takeNotice c tag s).paths = s.paths := by
  unfold State.takeNotice
  repeat' first | split | dsimp only
  all_goals simp
@[simp] theorem State.takeNotice_walk (c : Client) (tag : Byte) (s : State) : (State.takeNotice c tag s).walk = s.walk := by
  unfold State.takeNotice
  repeat' first | split | dsimp only
  all_goals simp
@[simp] theorem State.takeNotice_free (c : Client) (tag : Byte) (s : State) : (State.takeNotice c tag s).free = s.free := by
  unfold State.takeNotice
  repeat' first | split | dsimp only
  all_goals simp
@[simp] theorem State.takeNotice_pending (c : Client) (tag : Byte) (s : State) : (State.takeNotice c tag s).pending = s.pending := by
  unfold State.takeNotice
  repeat' first | split | dsimp only
  all_goals simp

/-! `acknowledge` changes no block but notices, out, mailbox. -/

@[simp] theorem State.acknowledge_part (c : Client) (tag : Byte) (k : NoticeKind) (s : State) : (State.acknowledge c tag k s).part = s.part := by
  unfold State.acknowledge
  repeat' first | split | dsimp only
  all_goals simp
@[simp] theorem State.acknowledge_clock (c : Client) (tag : Byte) (k : NoticeKind) (s : State) : (State.acknowledge c tag k s).clock = s.clock := by
  unfold State.acknowledge
  repeat' first | split | dsimp only
  all_goals simp
@[simp] theorem State.acknowledge_settings (c : Client) (tag : Byte) (k : NoticeKind) (s : State) : (State.acknowledge c tag k s).settings = s.settings := by
  unfold State.acknowledge
  repeat' first | split | dsimp only
  all_goals simp
@[simp] theorem State.acknowledge_table (c : Client) (tag : Byte) (k : NoticeKind) (s : State) : (State.acknowledge c tag k s).table = s.table := by
  unfold State.acknowledge
  repeat' first | split | dsimp only
  all_goals simp
@[simp] theorem State.acknowledge_flight (c : Client) (tag : Byte) (k : NoticeKind) (s : State) : (State.acknowledge c tag k s).flight = s.flight := by
  unfold State.acknowledge
  repeat' first | split | dsimp only
  all_goals simp
@[simp] theorem State.acknowledge_media (c : Client) (tag : Byte) (k : NoticeKind) (s : State) : (State.acknowledge c tag k s).media = s.media := by
  unfold State.acknowledge
  repeat' first | split | dsimp only
  all_goals simp
@[simp] theorem State.acknowledge_ports (c : Client) (tag : Byte) (k : NoticeKind) (s : State) : (State.acknowledge c tag k s).ports = s.ports := by
  unfold State.acknowledge
  repeat' first | split | dsimp only
  all_goals simp
@[simp] theorem State.acknowledge_paths (c : Client) (tag : Byte) (k : NoticeKind) (s : State) : (State.acknowledge c tag k s).paths = s.paths := by
  unfold State.acknowledge
  repeat' first | split | dsimp only
  all_goals simp
@[simp] theorem State.acknowledge_walk (c : Client) (tag : Byte) (k : NoticeKind) (s : State) : (State.acknowledge c tag k s).walk = s.walk := by
  unfold State.acknowledge
  repeat' first | split | dsimp only
  all_goals simp
@[simp] theorem State.acknowledge_free (c : Client) (tag : Byte) (k : NoticeKind) (s : State) : (State.acknowledge c tag k s).free = s.free := by
  unfold State.acknowledge
  repeat' first | split | dsimp only
  all_goals simp
@[simp] theorem State.acknowledge_pending (c : Client) (tag : Byte) (k : NoticeKind) (s : State) : (State.acknowledge c tag k s).pending = s.pending := by
  unfold State.acknowledge
  repeat' first | split | dsimp only
  all_goals simp

/-! `setThreshold` changes no block but notices, out, mailbox. -/

@[simp] theorem State.setThreshold_part (c : Client) (tag : Byte) (v : Nat) (s : State) : (State.setThreshold c tag v s).part = s.part := by
  unfold State.setThreshold
  repeat' first | split | dsimp only
  all_goals simp
@[simp] theorem State.setThreshold_clock (c : Client) (tag : Byte) (v : Nat) (s : State) : (State.setThreshold c tag v s).clock = s.clock := by
  unfold State.setThreshold
  repeat' first | split | dsimp only
  all_goals simp
@[simp] theorem State.setThreshold_settings (c : Client) (tag : Byte) (v : Nat) (s : State) : (State.setThreshold c tag v s).settings = s.settings := by
  unfold State.setThreshold
  repeat' first | split | dsimp only
  all_goals simp
@[simp] theorem State.setThreshold_table (c : Client) (tag : Byte) (v : Nat) (s : State) : (State.setThreshold c tag v s).table = s.table := by
  unfold State.setThreshold
  repeat' first | split | dsimp only
  all_goals simp
@[simp] theorem State.setThreshold_flight (c : Client) (tag : Byte) (v : Nat) (s : State) : (State.setThreshold c tag v s).flight = s.flight := by
  unfold State.setThreshold
  repeat' first | split | dsimp only
  all_goals simp
@[simp] theorem State.setThreshold_media (c : Client) (tag : Byte) (v : Nat) (s : State) : (State.setThreshold c tag v s).media = s.media := by
  unfold State.setThreshold
  repeat' first | split | dsimp only
  all_goals simp
@[simp] theorem State.setThreshold_ports (c : Client) (tag : Byte) (v : Nat) (s : State) : (State.setThreshold c tag v s).ports = s.ports := by
  unfold State.setThreshold
  repeat' first | split | dsimp only
  all_goals simp
@[simp] theorem State.setThreshold_paths (c : Client) (tag : Byte) (v : Nat) (s : State) : (State.setThreshold c tag v s).paths = s.paths := by
  unfold State.setThreshold
  repeat' first | split | dsimp only
  all_goals simp
@[simp] theorem State.setThreshold_walk (c : Client) (tag : Byte) (v : Nat) (s : State) : (State.setThreshold c tag v s).walk = s.walk := by
  unfold State.setThreshold
  repeat' first | split | dsimp only
  all_goals simp
@[simp] theorem State.setThreshold_free (c : Client) (tag : Byte) (v : Nat) (s : State) : (State.setThreshold c tag v s).free = s.free := by
  unfold State.setThreshold
  repeat' first | split | dsimp only
  all_goals simp
@[simp] theorem State.setThreshold_pending (c : Client) (tag : Byte) (v : Nat) (s : State) : (State.setThreshold c tag v s).pending = s.pending := by
  unfold State.setThreshold
  repeat' first | split | dsimp only
  all_goals simp

/-! `acquire` changes no block but table, notices, out. -/

@[simp] theorem State.acquire_part (p : Port) (tag : Byte) (ns start length access heir rank : Nat) (s : State) : (State.acquire p tag ns start length access heir rank s).part = s.part := by
  unfold State.acquire
  repeat' first | split | dsimp only
  all_goals simp
@[simp] theorem State.acquire_clock (p : Port) (tag : Byte) (ns start length access heir rank : Nat) (s : State) : (State.acquire p tag ns start length access heir rank s).clock = s.clock := by
  unfold State.acquire
  repeat' first | split | dsimp only
  all_goals simp
@[simp] theorem State.acquire_settings (p : Port) (tag : Byte) (ns start length access heir rank : Nat) (s : State) : (State.acquire p tag ns start length access heir rank s).settings = s.settings := by
  unfold State.acquire
  repeat' first | split | dsimp only
  all_goals simp
@[simp] theorem State.acquire_flight (p : Port) (tag : Byte) (ns start length access heir rank : Nat) (s : State) : (State.acquire p tag ns start length access heir rank s).flight = s.flight := by
  unfold State.acquire
  repeat' first | split | dsimp only
  all_goals simp
@[simp] theorem State.acquire_media (p : Port) (tag : Byte) (ns start length access heir rank : Nat) (s : State) : (State.acquire p tag ns start length access heir rank s).media = s.media := by
  unfold State.acquire
  repeat' first | split | dsimp only
  all_goals simp
@[simp] theorem State.acquire_ports (p : Port) (tag : Byte) (ns start length access heir rank : Nat) (s : State) : (State.acquire p tag ns start length access heir rank s).ports = s.ports := by
  unfold State.acquire
  repeat' first | split | dsimp only
  all_goals simp
@[simp] theorem State.acquire_paths (p : Port) (tag : Byte) (ns start length access heir rank : Nat) (s : State) : (State.acquire p tag ns start length access heir rank s).paths = s.paths := by
  unfold State.acquire
  repeat' first | split | dsimp only
  all_goals simp
@[simp] theorem State.acquire_walk (p : Port) (tag : Byte) (ns start length access heir rank : Nat) (s : State) : (State.acquire p tag ns start length access heir rank s).walk = s.walk := by
  unfold State.acquire
  repeat' first | split | dsimp only
  all_goals simp
@[simp] theorem State.acquire_mailbox (p : Port) (tag : Byte) (ns start length access heir rank : Nat) (s : State) : (State.acquire p tag ns start length access heir rank s).mailbox = s.mailbox := by
  unfold State.acquire
  repeat' first | split | dsimp only
  all_goals simp
@[simp] theorem State.acquire_free (p : Port) (tag : Byte) (ns start length access heir rank : Nat) (s : State) : (State.acquire p tag ns start length access heir rank s).free = s.free := by
  unfold State.acquire
  repeat' first | split | dsimp only
  all_goals simp
@[simp] theorem State.acquire_pending (p : Port) (tag : Byte) (ns start length access heir rank : Nat) (s : State) : (State.acquire p tag ns start length access heir rank s).pending = s.pending := by
  unfold State.acquire
  repeat' first | split | dsimp only
  all_goals simp

/-! `release` changes no block but table, out. -/

@[simp] theorem State.release_part (p : Port) (tag : Byte) (id gen : Nat) (s : State) : (State.release p tag id gen s).part = s.part := by
  unfold State.release
  repeat' first | split | dsimp only
  all_goals simp
@[simp] theorem State.release_clock (p : Port) (tag : Byte) (id gen : Nat) (s : State) : (State.release p tag id gen s).clock = s.clock := by
  unfold State.release
  repeat' first | split | dsimp only
  all_goals simp
@[simp] theorem State.release_settings (p : Port) (tag : Byte) (id gen : Nat) (s : State) : (State.release p tag id gen s).settings = s.settings := by
  unfold State.release
  repeat' first | split | dsimp only
  all_goals simp
@[simp] theorem State.release_flight (p : Port) (tag : Byte) (id gen : Nat) (s : State) : (State.release p tag id gen s).flight = s.flight := by
  unfold State.release
  repeat' first | split | dsimp only
  all_goals simp
@[simp] theorem State.release_media (p : Port) (tag : Byte) (id gen : Nat) (s : State) : (State.release p tag id gen s).media = s.media := by
  unfold State.release
  repeat' first | split | dsimp only
  all_goals simp
@[simp] theorem State.release_ports (p : Port) (tag : Byte) (id gen : Nat) (s : State) : (State.release p tag id gen s).ports = s.ports := by
  unfold State.release
  repeat' first | split | dsimp only
  all_goals simp
@[simp] theorem State.release_paths (p : Port) (tag : Byte) (id gen : Nat) (s : State) : (State.release p tag id gen s).paths = s.paths := by
  unfold State.release
  repeat' first | split | dsimp only
  all_goals simp
@[simp] theorem State.release_walk (p : Port) (tag : Byte) (id gen : Nat) (s : State) : (State.release p tag id gen s).walk = s.walk := by
  unfold State.release
  repeat' first | split | dsimp only
  all_goals simp
@[simp] theorem State.release_notices (p : Port) (tag : Byte) (id gen : Nat) (s : State) : (State.release p tag id gen s).notices = s.notices := by
  unfold State.release
  repeat' first | split | dsimp only
  all_goals simp
@[simp] theorem State.release_mailbox (p : Port) (tag : Byte) (id gen : Nat) (s : State) : (State.release p tag id gen s).mailbox = s.mailbox := by
  unfold State.release
  repeat' first | split | dsimp only
  all_goals simp
@[simp] theorem State.release_free (p : Port) (tag : Byte) (id gen : Nat) (s : State) : (State.release p tag id gen s).free = s.free := by
  unfold State.release
  repeat' first | split | dsimp only
  all_goals simp
@[simp] theorem State.release_pending (p : Port) (tag : Byte) (id gen : Nat) (s : State) : (State.release p tag id gen s).pending = s.pending := by
  unfold State.release
  repeat' first | split | dsimp only
  all_goals simp

/-! `handOver` changes no block but table, paths, notices, out. -/

@[simp] theorem State.handOver_part (p : Port) (tag : Byte) (id gen : Nat) (s : State) : (State.handOver p tag id gen s).part = s.part := by
  unfold State.handOver
  repeat' first | split | dsimp only
  all_goals simp
@[simp] theorem State.handOver_clock (p : Port) (tag : Byte) (id gen : Nat) (s : State) : (State.handOver p tag id gen s).clock = s.clock := by
  unfold State.handOver
  repeat' first | split | dsimp only
  all_goals simp
@[simp] theorem State.handOver_settings (p : Port) (tag : Byte) (id gen : Nat) (s : State) : (State.handOver p tag id gen s).settings = s.settings := by
  unfold State.handOver
  repeat' first | split | dsimp only
  all_goals simp
@[simp] theorem State.handOver_flight (p : Port) (tag : Byte) (id gen : Nat) (s : State) : (State.handOver p tag id gen s).flight = s.flight := by
  unfold State.handOver
  repeat' first | split | dsimp only
  all_goals simp
@[simp] theorem State.handOver_media (p : Port) (tag : Byte) (id gen : Nat) (s : State) : (State.handOver p tag id gen s).media = s.media := by
  unfold State.handOver
  repeat' first | split | dsimp only
  all_goals simp
@[simp] theorem State.handOver_ports (p : Port) (tag : Byte) (id gen : Nat) (s : State) : (State.handOver p tag id gen s).ports = s.ports := by
  unfold State.handOver
  repeat' first | split | dsimp only
  all_goals simp
@[simp] theorem State.handOver_walk (p : Port) (tag : Byte) (id gen : Nat) (s : State) : (State.handOver p tag id gen s).walk = s.walk := by
  unfold State.handOver
  repeat' first | split | dsimp only
  all_goals simp
@[simp] theorem State.handOver_mailbox (p : Port) (tag : Byte) (id gen : Nat) (s : State) : (State.handOver p tag id gen s).mailbox = s.mailbox := by
  unfold State.handOver
  repeat' first | split | dsimp only
  all_goals simp
@[simp] theorem State.handOver_free (p : Port) (tag : Byte) (id gen : Nat) (s : State) : (State.handOver p tag id gen s).free = s.free := by
  unfold State.handOver
  repeat' first | split | dsimp only
  all_goals simp
@[simp] theorem State.handOver_pending (p : Port) (tag : Byte) (id gen : Nat) (s : State) : (State.handOver p tag id gen s).pending = s.pending := by
  unfold State.handOver
  repeat' first | split | dsimp only
  all_goals simp

/-! `split` changes no block but table, out. -/

@[simp] theorem State.split_part (p : Port) (tag : Byte) (id offset : Nat) (s : State) : (State.split p tag id offset s).part = s.part := by
  unfold State.split
  repeat' first | split | dsimp only
  all_goals simp
@[simp] theorem State.split_clock (p : Port) (tag : Byte) (id offset : Nat) (s : State) : (State.split p tag id offset s).clock = s.clock := by
  unfold State.split
  repeat' first | split | dsimp only
  all_goals simp
@[simp] theorem State.split_settings (p : Port) (tag : Byte) (id offset : Nat) (s : State) : (State.split p tag id offset s).settings = s.settings := by
  unfold State.split
  repeat' first | split | dsimp only
  all_goals simp
@[simp] theorem State.split_flight (p : Port) (tag : Byte) (id offset : Nat) (s : State) : (State.split p tag id offset s).flight = s.flight := by
  unfold State.split
  repeat' first | split | dsimp only
  all_goals simp
@[simp] theorem State.split_media (p : Port) (tag : Byte) (id offset : Nat) (s : State) : (State.split p tag id offset s).media = s.media := by
  unfold State.split
  repeat' first | split | dsimp only
  all_goals simp
@[simp] theorem State.split_ports (p : Port) (tag : Byte) (id offset : Nat) (s : State) : (State.split p tag id offset s).ports = s.ports := by
  unfold State.split
  repeat' first | split | dsimp only
  all_goals simp
@[simp] theorem State.split_paths (p : Port) (tag : Byte) (id offset : Nat) (s : State) : (State.split p tag id offset s).paths = s.paths := by
  unfold State.split
  repeat' first | split | dsimp only
  all_goals simp
@[simp] theorem State.split_walk (p : Port) (tag : Byte) (id offset : Nat) (s : State) : (State.split p tag id offset s).walk = s.walk := by
  unfold State.split
  repeat' first | split | dsimp only
  all_goals simp
@[simp] theorem State.split_notices (p : Port) (tag : Byte) (id offset : Nat) (s : State) : (State.split p tag id offset s).notices = s.notices := by
  unfold State.split
  repeat' first | split | dsimp only
  all_goals simp
@[simp] theorem State.split_mailbox (p : Port) (tag : Byte) (id offset : Nat) (s : State) : (State.split p tag id offset s).mailbox = s.mailbox := by
  unfold State.split
  repeat' first | split | dsimp only
  all_goals simp
@[simp] theorem State.split_free (p : Port) (tag : Byte) (id offset : Nat) (s : State) : (State.split p tag id offset s).free = s.free := by
  unfold State.split
  repeat' first | split | dsimp only
  all_goals simp
@[simp] theorem State.split_pending (p : Port) (tag : Byte) (id offset : Nat) (s : State) : (State.split p tag id offset s).pending = s.pending := by
  unfold State.split
  repeat' first | split | dsimp only
  all_goals simp

/-! `setHeir` changes no block but table, out. -/

@[simp] theorem State.setHeir_part (p : Port) (tag : Byte) (id heir rank : Nat) (s : State) : (State.setHeir p tag id heir rank s).part = s.part := by
  unfold State.setHeir
  repeat' first | split | dsimp only
  all_goals simp
@[simp] theorem State.setHeir_clock (p : Port) (tag : Byte) (id heir rank : Nat) (s : State) : (State.setHeir p tag id heir rank s).clock = s.clock := by
  unfold State.setHeir
  repeat' first | split | dsimp only
  all_goals simp
@[simp] theorem State.setHeir_settings (p : Port) (tag : Byte) (id heir rank : Nat) (s : State) : (State.setHeir p tag id heir rank s).settings = s.settings := by
  unfold State.setHeir
  repeat' first | split | dsimp only
  all_goals simp
@[simp] theorem State.setHeir_flight (p : Port) (tag : Byte) (id heir rank : Nat) (s : State) : (State.setHeir p tag id heir rank s).flight = s.flight := by
  unfold State.setHeir
  repeat' first | split | dsimp only
  all_goals simp
@[simp] theorem State.setHeir_media (p : Port) (tag : Byte) (id heir rank : Nat) (s : State) : (State.setHeir p tag id heir rank s).media = s.media := by
  unfold State.setHeir
  repeat' first | split | dsimp only
  all_goals simp
@[simp] theorem State.setHeir_ports (p : Port) (tag : Byte) (id heir rank : Nat) (s : State) : (State.setHeir p tag id heir rank s).ports = s.ports := by
  unfold State.setHeir
  repeat' first | split | dsimp only
  all_goals simp
@[simp] theorem State.setHeir_paths (p : Port) (tag : Byte) (id heir rank : Nat) (s : State) : (State.setHeir p tag id heir rank s).paths = s.paths := by
  unfold State.setHeir
  repeat' first | split | dsimp only
  all_goals simp
@[simp] theorem State.setHeir_walk (p : Port) (tag : Byte) (id heir rank : Nat) (s : State) : (State.setHeir p tag id heir rank s).walk = s.walk := by
  unfold State.setHeir
  repeat' first | split | dsimp only
  all_goals simp
@[simp] theorem State.setHeir_notices (p : Port) (tag : Byte) (id heir rank : Nat) (s : State) : (State.setHeir p tag id heir rank s).notices = s.notices := by
  unfold State.setHeir
  repeat' first | split | dsimp only
  all_goals simp
@[simp] theorem State.setHeir_mailbox (p : Port) (tag : Byte) (id heir rank : Nat) (s : State) : (State.setHeir p tag id heir rank s).mailbox = s.mailbox := by
  unfold State.setHeir
  repeat' first | split | dsimp only
  all_goals simp
@[simp] theorem State.setHeir_free (p : Port) (tag : Byte) (id heir rank : Nat) (s : State) : (State.setHeir p tag id heir rank s).free = s.free := by
  unfold State.setHeir
  repeat' first | split | dsimp only
  all_goals simp
@[simp] theorem State.setHeir_pending (p : Port) (tag : Byte) (id heir rank : Nat) (s : State) : (State.setHeir p tag id heir rank s).pending = s.pending := by
  unfold State.setHeir
  repeat' first | split | dsimp only
  all_goals simp

/-! `adoptBy` changes no block but table, out, mailbox. -/

@[simp] theorem State.adoptBy_part (c : Client) (tag : Byte) (echo : Nat) (p : Port) (id : Nat) (s : State) : (State.adoptBy c tag echo p id s).part = s.part := by
  unfold State.adoptBy
  repeat' first | split | dsimp only
  all_goals simp
@[simp] theorem State.adoptBy_clock (c : Client) (tag : Byte) (echo : Nat) (p : Port) (id : Nat) (s : State) : (State.adoptBy c tag echo p id s).clock = s.clock := by
  unfold State.adoptBy
  repeat' first | split | dsimp only
  all_goals simp
@[simp] theorem State.adoptBy_settings (c : Client) (tag : Byte) (echo : Nat) (p : Port) (id : Nat) (s : State) : (State.adoptBy c tag echo p id s).settings = s.settings := by
  unfold State.adoptBy
  repeat' first | split | dsimp only
  all_goals simp
@[simp] theorem State.adoptBy_flight (c : Client) (tag : Byte) (echo : Nat) (p : Port) (id : Nat) (s : State) : (State.adoptBy c tag echo p id s).flight = s.flight := by
  unfold State.adoptBy
  repeat' first | split | dsimp only
  all_goals simp
@[simp] theorem State.adoptBy_media (c : Client) (tag : Byte) (echo : Nat) (p : Port) (id : Nat) (s : State) : (State.adoptBy c tag echo p id s).media = s.media := by
  unfold State.adoptBy
  repeat' first | split | dsimp only
  all_goals simp
@[simp] theorem State.adoptBy_ports (c : Client) (tag : Byte) (echo : Nat) (p : Port) (id : Nat) (s : State) : (State.adoptBy c tag echo p id s).ports = s.ports := by
  unfold State.adoptBy
  repeat' first | split | dsimp only
  all_goals simp
@[simp] theorem State.adoptBy_paths (c : Client) (tag : Byte) (echo : Nat) (p : Port) (id : Nat) (s : State) : (State.adoptBy c tag echo p id s).paths = s.paths := by
  unfold State.adoptBy
  repeat' first | split | dsimp only
  all_goals simp
@[simp] theorem State.adoptBy_walk (c : Client) (tag : Byte) (echo : Nat) (p : Port) (id : Nat) (s : State) : (State.adoptBy c tag echo p id s).walk = s.walk := by
  unfold State.adoptBy
  repeat' first | split | dsimp only
  all_goals simp
@[simp] theorem State.adoptBy_notices (c : Client) (tag : Byte) (echo : Nat) (p : Port) (id : Nat) (s : State) : (State.adoptBy c tag echo p id s).notices = s.notices := by
  unfold State.adoptBy
  repeat' first | split | dsimp only
  all_goals simp
@[simp] theorem State.adoptBy_free (c : Client) (tag : Byte) (echo : Nat) (p : Port) (id : Nat) (s : State) : (State.adoptBy c tag echo p id s).free = s.free := by
  unfold State.adoptBy
  repeat' first | split | dsimp only
  all_goals simp
@[simp] theorem State.adoptBy_pending (c : Client) (tag : Byte) (echo : Nat) (p : Port) (id : Nat) (s : State) : (State.adoptBy c tag echo p id s).pending = s.pending := by
  unfold State.adoptBy
  repeat' first | split | dsimp only
  all_goals simp

/-! `adoptFor` changes no block but table, out, mailbox. -/

@[simp] theorem State.adoptFor_part (port id : Nat) (s : State) : (State.adoptFor port id s).part = s.part := by
  unfold State.adoptFor
  repeat' first | split | dsimp only
  all_goals simp
@[simp] theorem State.adoptFor_clock (port id : Nat) (s : State) : (State.adoptFor port id s).clock = s.clock := by
  unfold State.adoptFor
  repeat' first | split | dsimp only
  all_goals simp
@[simp] theorem State.adoptFor_settings (port id : Nat) (s : State) : (State.adoptFor port id s).settings = s.settings := by
  unfold State.adoptFor
  repeat' first | split | dsimp only
  all_goals simp
@[simp] theorem State.adoptFor_flight (port id : Nat) (s : State) : (State.adoptFor port id s).flight = s.flight := by
  unfold State.adoptFor
  repeat' first | split | dsimp only
  all_goals simp
@[simp] theorem State.adoptFor_media (port id : Nat) (s : State) : (State.adoptFor port id s).media = s.media := by
  unfold State.adoptFor
  repeat' first | split | dsimp only
  all_goals simp
@[simp] theorem State.adoptFor_ports (port id : Nat) (s : State) : (State.adoptFor port id s).ports = s.ports := by
  unfold State.adoptFor
  repeat' first | split | dsimp only
  all_goals simp
@[simp] theorem State.adoptFor_paths (port id : Nat) (s : State) : (State.adoptFor port id s).paths = s.paths := by
  unfold State.adoptFor
  repeat' first | split | dsimp only
  all_goals simp
@[simp] theorem State.adoptFor_walk (port id : Nat) (s : State) : (State.adoptFor port id s).walk = s.walk := by
  unfold State.adoptFor
  repeat' first | split | dsimp only
  all_goals simp
@[simp] theorem State.adoptFor_notices (port id : Nat) (s : State) : (State.adoptFor port id s).notices = s.notices := by
  unfold State.adoptFor
  repeat' first | split | dsimp only
  all_goals simp
@[simp] theorem State.adoptFor_free (port id : Nat) (s : State) : (State.adoptFor port id s).free = s.free := by
  unfold State.adoptFor
  repeat' first | split | dsimp only
  all_goals simp
@[simp] theorem State.adoptFor_pending (port id : Nat) (s : State) : (State.adoptFor port id s).pending = s.pending := by
  unfold State.adoptFor
  repeat' first | split | dsimp only
  all_goals simp

/-! `dissolve` changes no block but table, mailbox. -/

@[simp] theorem State.dissolve_part (id : Nat) (s : State) : (State.dissolve id s).part = s.part := by
  unfold State.dissolve
  repeat' first | split | dsimp only
  all_goals simp
@[simp] theorem State.dissolve_clock (id : Nat) (s : State) : (State.dissolve id s).clock = s.clock := by
  unfold State.dissolve
  repeat' first | split | dsimp only
  all_goals simp
@[simp] theorem State.dissolve_settings (id : Nat) (s : State) : (State.dissolve id s).settings = s.settings := by
  unfold State.dissolve
  repeat' first | split | dsimp only
  all_goals simp
@[simp] theorem State.dissolve_flight (id : Nat) (s : State) : (State.dissolve id s).flight = s.flight := by
  unfold State.dissolve
  repeat' first | split | dsimp only
  all_goals simp
@[simp] theorem State.dissolve_media (id : Nat) (s : State) : (State.dissolve id s).media = s.media := by
  unfold State.dissolve
  repeat' first | split | dsimp only
  all_goals simp
@[simp] theorem State.dissolve_ports (id : Nat) (s : State) : (State.dissolve id s).ports = s.ports := by
  unfold State.dissolve
  repeat' first | split | dsimp only
  all_goals simp
@[simp] theorem State.dissolve_paths (id : Nat) (s : State) : (State.dissolve id s).paths = s.paths := by
  unfold State.dissolve
  repeat' first | split | dsimp only
  all_goals simp
@[simp] theorem State.dissolve_walk (id : Nat) (s : State) : (State.dissolve id s).walk = s.walk := by
  unfold State.dissolve
  repeat' first | split | dsimp only
  all_goals simp
@[simp] theorem State.dissolve_notices (id : Nat) (s : State) : (State.dissolve id s).notices = s.notices := by
  unfold State.dissolve
  repeat' first | split | dsimp only
  all_goals simp
@[simp] theorem State.dissolve_out (id : Nat) (s : State) : (State.dissolve id s).out = s.out := by
  unfold State.dissolve
  repeat' first | split | dsimp only
  all_goals simp
@[simp] theorem State.dissolve_free (id : Nat) (s : State) : (State.dissolve id s).free = s.free := by
  unfold State.dissolve
  repeat' first | split | dsimp only
  all_goals simp
@[simp] theorem State.dissolve_pending (id : Nat) (s : State) : (State.dissolve id s).pending = s.pending := by
  unfold State.dissolve
  repeat' first | split | dsimp only
  all_goals simp

/-! `query` changes no block but out, mailbox. -/

@[simp] theorem State.query_part (c : Client) (tag : Byte) (ns block : Nat) (s : State) : (State.query c tag ns block s).part = s.part := by
  unfold State.query
  repeat' first | split | dsimp only
  all_goals simp
@[simp] theorem State.query_clock (c : Client) (tag : Byte) (ns block : Nat) (s : State) : (State.query c tag ns block s).clock = s.clock := by
  unfold State.query
  repeat' first | split | dsimp only
  all_goals simp
@[simp] theorem State.query_settings (c : Client) (tag : Byte) (ns block : Nat) (s : State) : (State.query c tag ns block s).settings = s.settings := by
  unfold State.query
  repeat' first | split | dsimp only
  all_goals simp
@[simp] theorem State.query_table (c : Client) (tag : Byte) (ns block : Nat) (s : State) : (State.query c tag ns block s).table = s.table := by
  unfold State.query
  repeat' first | split | dsimp only
  all_goals simp
@[simp] theorem State.query_flight (c : Client) (tag : Byte) (ns block : Nat) (s : State) : (State.query c tag ns block s).flight = s.flight := by
  unfold State.query
  repeat' first | split | dsimp only
  all_goals simp
@[simp] theorem State.query_media (c : Client) (tag : Byte) (ns block : Nat) (s : State) : (State.query c tag ns block s).media = s.media := by
  unfold State.query
  repeat' first | split | dsimp only
  all_goals simp
@[simp] theorem State.query_ports (c : Client) (tag : Byte) (ns block : Nat) (s : State) : (State.query c tag ns block s).ports = s.ports := by
  unfold State.query
  repeat' first | split | dsimp only
  all_goals simp
@[simp] theorem State.query_paths (c : Client) (tag : Byte) (ns block : Nat) (s : State) : (State.query c tag ns block s).paths = s.paths := by
  unfold State.query
  repeat' first | split | dsimp only
  all_goals simp
@[simp] theorem State.query_walk (c : Client) (tag : Byte) (ns block : Nat) (s : State) : (State.query c tag ns block s).walk = s.walk := by
  unfold State.query
  repeat' first | split | dsimp only
  all_goals simp
@[simp] theorem State.query_notices (c : Client) (tag : Byte) (ns block : Nat) (s : State) : (State.query c tag ns block s).notices = s.notices := by
  unfold State.query
  repeat' first | split | dsimp only
  all_goals simp
@[simp] theorem State.query_free (c : Client) (tag : Byte) (ns block : Nat) (s : State) : (State.query c tag ns block s).free = s.free := by
  unfold State.query
  repeat' first | split | dsimp only
  all_goals simp
@[simp] theorem State.query_pending (c : Client) (tag : Byte) (ns block : Nat) (s : State) : (State.query c tag ns block s).pending = s.pending := by
  unfold State.query
  repeat' first | split | dsimp only
  all_goals simp

/-! `list` changes no block but out, mailbox. -/

@[simp] theorem State.list_part (c : Client) (tag : Byte) (ns fromBlock max : Nat) (s : State) : (State.list c tag ns fromBlock max s).part = s.part := by
  unfold State.list
  repeat' first | split | dsimp only
  all_goals simp
@[simp] theorem State.list_clock (c : Client) (tag : Byte) (ns fromBlock max : Nat) (s : State) : (State.list c tag ns fromBlock max s).clock = s.clock := by
  unfold State.list
  repeat' first | split | dsimp only
  all_goals simp
@[simp] theorem State.list_settings (c : Client) (tag : Byte) (ns fromBlock max : Nat) (s : State) : (State.list c tag ns fromBlock max s).settings = s.settings := by
  unfold State.list
  repeat' first | split | dsimp only
  all_goals simp
@[simp] theorem State.list_table (c : Client) (tag : Byte) (ns fromBlock max : Nat) (s : State) : (State.list c tag ns fromBlock max s).table = s.table := by
  unfold State.list
  repeat' first | split | dsimp only
  all_goals simp
@[simp] theorem State.list_flight (c : Client) (tag : Byte) (ns fromBlock max : Nat) (s : State) : (State.list c tag ns fromBlock max s).flight = s.flight := by
  unfold State.list
  repeat' first | split | dsimp only
  all_goals simp
@[simp] theorem State.list_media (c : Client) (tag : Byte) (ns fromBlock max : Nat) (s : State) : (State.list c tag ns fromBlock max s).media = s.media := by
  unfold State.list
  repeat' first | split | dsimp only
  all_goals simp
@[simp] theorem State.list_ports (c : Client) (tag : Byte) (ns fromBlock max : Nat) (s : State) : (State.list c tag ns fromBlock max s).ports = s.ports := by
  unfold State.list
  repeat' first | split | dsimp only
  all_goals simp
@[simp] theorem State.list_paths (c : Client) (tag : Byte) (ns fromBlock max : Nat) (s : State) : (State.list c tag ns fromBlock max s).paths = s.paths := by
  unfold State.list
  repeat' first | split | dsimp only
  all_goals simp
@[simp] theorem State.list_walk (c : Client) (tag : Byte) (ns fromBlock max : Nat) (s : State) : (State.list c tag ns fromBlock max s).walk = s.walk := by
  unfold State.list
  repeat' first | split | dsimp only
  all_goals simp
@[simp] theorem State.list_notices (c : Client) (tag : Byte) (ns fromBlock max : Nat) (s : State) : (State.list c tag ns fromBlock max s).notices = s.notices := by
  unfold State.list
  repeat' first | split | dsimp only
  all_goals simp
@[simp] theorem State.list_free (c : Client) (tag : Byte) (ns fromBlock max : Nat) (s : State) : (State.list c tag ns fromBlock max s).free = s.free := by
  unfold State.list
  repeat' first | split | dsimp only
  all_goals simp
@[simp] theorem State.list_pending (c : Client) (tag : Byte) (ns fromBlock max : Nat) (s : State) : (State.list c tag ns fromBlock max s).pending = s.pending := by
  unfold State.list
  repeat' first | split | dsimp only
  all_goals simp

/-! `join` changes no block but paths, out. -/

@[simp] theorem State.join_part (p : Port) (tag : Byte) (s : State) : (State.join p tag s).part = s.part := by
  unfold State.join
  repeat' first | split | dsimp only
  all_goals simp
@[simp] theorem State.join_clock (p : Port) (tag : Byte) (s : State) : (State.join p tag s).clock = s.clock := by
  unfold State.join
  repeat' first | split | dsimp only
  all_goals simp
@[simp] theorem State.join_settings (p : Port) (tag : Byte) (s : State) : (State.join p tag s).settings = s.settings := by
  unfold State.join
  repeat' first | split | dsimp only
  all_goals simp
@[simp] theorem State.join_table (p : Port) (tag : Byte) (s : State) : (State.join p tag s).table = s.table := by
  unfold State.join
  repeat' first | split | dsimp only
  all_goals simp
@[simp] theorem State.join_flight (p : Port) (tag : Byte) (s : State) : (State.join p tag s).flight = s.flight := by
  unfold State.join
  repeat' first | split | dsimp only
  all_goals simp
@[simp] theorem State.join_media (p : Port) (tag : Byte) (s : State) : (State.join p tag s).media = s.media := by
  unfold State.join
  repeat' first | split | dsimp only
  all_goals simp
@[simp] theorem State.join_ports (p : Port) (tag : Byte) (s : State) : (State.join p tag s).ports = s.ports := by
  unfold State.join
  repeat' first | split | dsimp only
  all_goals simp
@[simp] theorem State.join_walk (p : Port) (tag : Byte) (s : State) : (State.join p tag s).walk = s.walk := by
  unfold State.join
  repeat' first | split | dsimp only
  all_goals simp
@[simp] theorem State.join_notices (p : Port) (tag : Byte) (s : State) : (State.join p tag s).notices = s.notices := by
  unfold State.join
  repeat' first | split | dsimp only
  all_goals simp
@[simp] theorem State.join_mailbox (p : Port) (tag : Byte) (s : State) : (State.join p tag s).mailbox = s.mailbox := by
  unfold State.join
  repeat' first | split | dsimp only
  all_goals simp
@[simp] theorem State.join_free (p : Port) (tag : Byte) (s : State) : (State.join p tag s).free = s.free := by
  unfold State.join
  repeat' first | split | dsimp only
  all_goals simp
@[simp] theorem State.join_pending (p : Port) (tag : Byte) (s : State) : (State.join p tag s).pending = s.pending := by
  unfold State.join
  repeat' first | split | dsimp only
  all_goals simp

/-! `resign` changes no block but paths, table, walk, notices, out, ports, flight. -/

@[simp] theorem State.resign_part (p : Port) (tag : Byte) (s : State) : (State.resign p tag s).part = s.part := by
  unfold State.resign
  repeat' first | split | dsimp only
  all_goals simp
@[simp] theorem State.resign_clock (p : Port) (tag : Byte) (s : State) : (State.resign p tag s).clock = s.clock := by
  unfold State.resign
  repeat' first | split | dsimp only
  all_goals simp
@[simp] theorem State.resign_settings (p : Port) (tag : Byte) (s : State) : (State.resign p tag s).settings = s.settings := by
  unfold State.resign
  repeat' first | split | dsimp only
  all_goals simp
@[simp] theorem State.resign_media (p : Port) (tag : Byte) (s : State) : (State.resign p tag s).media = s.media := by
  unfold State.resign
  repeat' first | split | dsimp only
  all_goals simp
@[simp] theorem State.resign_mailbox (p : Port) (tag : Byte) (s : State) : (State.resign p tag s).mailbox = s.mailbox := by
  unfold State.resign
  repeat' first | split | dsimp only
  all_goals simp
@[simp] theorem State.resign_free (p : Port) (tag : Byte) (s : State) : (State.resign p tag s).free = s.free := by
  unfold State.resign
  repeat' first | split | dsimp only
  all_goals simp
@[simp] theorem State.resign_pending (p : Port) (tag : Byte) (s : State) : (State.resign p tag s).pending = s.pending := by
  unfold State.resign
  repeat' first | split | dsimp only
  all_goals simp

/-! `fencePartner` changes no block but paths, table, walk, notices, out, ports, flight. -/

@[simp] theorem State.fencePartner_part (p : Port) (tag : Byte) (s : State) : (State.fencePartner p tag s).part = s.part := by
  unfold State.fencePartner
  repeat' first | split | dsimp only
  all_goals simp
@[simp] theorem State.fencePartner_clock (p : Port) (tag : Byte) (s : State) : (State.fencePartner p tag s).clock = s.clock := by
  unfold State.fencePartner
  repeat' first | split | dsimp only
  all_goals simp
@[simp] theorem State.fencePartner_settings (p : Port) (tag : Byte) (s : State) : (State.fencePartner p tag s).settings = s.settings := by
  unfold State.fencePartner
  repeat' first | split | dsimp only
  all_goals simp
@[simp] theorem State.fencePartner_media (p : Port) (tag : Byte) (s : State) : (State.fencePartner p tag s).media = s.media := by
  unfold State.fencePartner
  repeat' first | split | dsimp only
  all_goals simp
@[simp] theorem State.fencePartner_mailbox (p : Port) (tag : Byte) (s : State) : (State.fencePartner p tag s).mailbox = s.mailbox := by
  unfold State.fencePartner
  repeat' first | split | dsimp only
  all_goals simp
@[simp] theorem State.fencePartner_free (p : Port) (tag : Byte) (s : State) : (State.fencePartner p tag s).free = s.free := by
  unfold State.fencePartner
  repeat' first | split | dsimp only
  all_goals simp
@[simp] theorem State.fencePartner_pending (p : Port) (tag : Byte) (s : State) : (State.fencePartner p tag s).pending = s.pending := by
  unfold State.fencePartner
  repeat' first | split | dsimp only
  all_goals simp

/-! `forceFencePort` changes no block but paths, table, walk, notices, out, ports, flight, mailbox. -/

@[simp] theorem State.forceFencePort_part (p : Port) (s : State) : (State.forceFencePort p s).part = s.part := by
  unfold State.forceFencePort
  repeat' first | split | dsimp only
  all_goals simp
@[simp] theorem State.forceFencePort_clock (p : Port) (s : State) : (State.forceFencePort p s).clock = s.clock := by
  unfold State.forceFencePort
  repeat' first | split | dsimp only
  all_goals simp
@[simp] theorem State.forceFencePort_settings (p : Port) (s : State) : (State.forceFencePort p s).settings = s.settings := by
  unfold State.forceFencePort
  repeat' first | split | dsimp only
  all_goals simp
@[simp] theorem State.forceFencePort_media (p : Port) (s : State) : (State.forceFencePort p s).media = s.media := by
  unfold State.forceFencePort
  repeat' first | split | dsimp only
  all_goals simp
@[simp] theorem State.forceFencePort_free (p : Port) (s : State) : (State.forceFencePort p s).free = s.free := by
  unfold State.forceFencePort
  repeat' first | split | dsimp only
  all_goals simp
@[simp] theorem State.forceFencePort_pending (p : Port) (s : State) : (State.forceFencePort p s).pending = s.pending := by
  unfold State.forceFencePort
  repeat' first | split | dsimp only
  all_goals simp

/-! `forceFence` changes no block but paths, table, walk, notices, out, ports, flight, mailbox. -/

@[simp] theorem State.forceFence_part (port : Nat) (s : State) : (State.forceFence port s).part = s.part := by
  unfold State.forceFence
  repeat' first | split | dsimp only
  all_goals simp
@[simp] theorem State.forceFence_clock (port : Nat) (s : State) : (State.forceFence port s).clock = s.clock := by
  unfold State.forceFence
  repeat' first | split | dsimp only
  all_goals simp
@[simp] theorem State.forceFence_settings (port : Nat) (s : State) : (State.forceFence port s).settings = s.settings := by
  unfold State.forceFence
  repeat' first | split | dsimp only
  all_goals simp
@[simp] theorem State.forceFence_media (port : Nat) (s : State) : (State.forceFence port s).media = s.media := by
  unfold State.forceFence
  repeat' first | split | dsimp only
  all_goals simp
@[simp] theorem State.forceFence_free (port : Nat) (s : State) : (State.forceFence port s).free = s.free := by
  unfold State.forceFence
  repeat' first | split | dsimp only
  all_goals simp
@[simp] theorem State.forceFence_pending (port : Nat) (s : State) : (State.forceFence port s).pending = s.pending := by
  unfold State.forceFence
  repeat' first | split | dsimp only
  all_goals simp

/-! `ackNotice` changes no block but paths, table, walk, notices, out, ports, flight, mailbox. -/

@[simp] theorem State.ackNotice_part (c : Client) (tag : Byte) (kind : Nat) (s : State) : (State.ackNotice c tag kind s).part = s.part := by
  unfold State.ackNotice
  repeat' first | split | dsimp only
  all_goals simp
@[simp] theorem State.ackNotice_clock (c : Client) (tag : Byte) (kind : Nat) (s : State) : (State.ackNotice c tag kind s).clock = s.clock := by
  unfold State.ackNotice
  repeat' first | split | dsimp only
  all_goals simp
@[simp] theorem State.ackNotice_settings (c : Client) (tag : Byte) (kind : Nat) (s : State) : (State.ackNotice c tag kind s).settings = s.settings := by
  unfold State.ackNotice
  repeat' first | split | dsimp only
  all_goals simp
@[simp] theorem State.ackNotice_media (c : Client) (tag : Byte) (kind : Nat) (s : State) : (State.ackNotice c tag kind s).media = s.media := by
  unfold State.ackNotice
  repeat' first | split | dsimp only
  all_goals simp
@[simp] theorem State.ackNotice_free (c : Client) (tag : Byte) (kind : Nat) (s : State) : (State.ackNotice c tag kind s).free = s.free := by
  unfold State.ackNotice
  repeat' first | split | dsimp only
  all_goals simp
@[simp] theorem State.ackNotice_pending (c : Client) (tag : Byte) (kind : Nat) (s : State) : (State.ackNotice c tag kind s).pending = s.pending := by
  unfold State.ackNotice
  repeat' first | split | dsimp only
  all_goals simp

/-! `readmitPort` changes no block but paths, out, mailbox. -/

@[simp] theorem State.readmitPort_part (c : Client) (tag : Byte) (q : Port) (s : State) : (State.readmitPort c tag q s).part = s.part := by
  unfold State.readmitPort
  repeat' first | split | dsimp only
  all_goals simp
@[simp] theorem State.readmitPort_clock (c : Client) (tag : Byte) (q : Port) (s : State) : (State.readmitPort c tag q s).clock = s.clock := by
  unfold State.readmitPort
  repeat' first | split | dsimp only
  all_goals simp
@[simp] theorem State.readmitPort_settings (c : Client) (tag : Byte) (q : Port) (s : State) : (State.readmitPort c tag q s).settings = s.settings := by
  unfold State.readmitPort
  repeat' first | split | dsimp only
  all_goals simp
@[simp] theorem State.readmitPort_table (c : Client) (tag : Byte) (q : Port) (s : State) : (State.readmitPort c tag q s).table = s.table := by
  unfold State.readmitPort
  repeat' first | split | dsimp only
  all_goals simp
@[simp] theorem State.readmitPort_flight (c : Client) (tag : Byte) (q : Port) (s : State) : (State.readmitPort c tag q s).flight = s.flight := by
  unfold State.readmitPort
  repeat' first | split | dsimp only
  all_goals simp
@[simp] theorem State.readmitPort_media (c : Client) (tag : Byte) (q : Port) (s : State) : (State.readmitPort c tag q s).media = s.media := by
  unfold State.readmitPort
  repeat' first | split | dsimp only
  all_goals simp
@[simp] theorem State.readmitPort_ports (c : Client) (tag : Byte) (q : Port) (s : State) : (State.readmitPort c tag q s).ports = s.ports := by
  unfold State.readmitPort
  repeat' first | split | dsimp only
  all_goals simp
@[simp] theorem State.readmitPort_walk (c : Client) (tag : Byte) (q : Port) (s : State) : (State.readmitPort c tag q s).walk = s.walk := by
  unfold State.readmitPort
  repeat' first | split | dsimp only
  all_goals simp
@[simp] theorem State.readmitPort_notices (c : Client) (tag : Byte) (q : Port) (s : State) : (State.readmitPort c tag q s).notices = s.notices := by
  unfold State.readmitPort
  repeat' first | split | dsimp only
  all_goals simp
@[simp] theorem State.readmitPort_free (c : Client) (tag : Byte) (q : Port) (s : State) : (State.readmitPort c tag q s).free = s.free := by
  unfold State.readmitPort
  repeat' first | split | dsimp only
  all_goals simp
@[simp] theorem State.readmitPort_pending (c : Client) (tag : Byte) (q : Port) (s : State) : (State.readmitPort c tag q s).pending = s.pending := by
  unfold State.readmitPort
  repeat' first | split | dsimp only
  all_goals simp

/-! `readmit` changes no block but paths, out, mailbox. -/

@[simp] theorem State.readmit_part (c : Client) (tag : Byte) (port : Option Nat) (s : State) : (State.readmit c tag port s).part = s.part := by
  unfold State.readmit
  repeat' first | split | dsimp only
  all_goals simp
@[simp] theorem State.readmit_clock (c : Client) (tag : Byte) (port : Option Nat) (s : State) : (State.readmit c tag port s).clock = s.clock := by
  unfold State.readmit
  repeat' first | split | dsimp only
  all_goals simp
@[simp] theorem State.readmit_settings (c : Client) (tag : Byte) (port : Option Nat) (s : State) : (State.readmit c tag port s).settings = s.settings := by
  unfold State.readmit
  repeat' first | split | dsimp only
  all_goals simp
@[simp] theorem State.readmit_table (c : Client) (tag : Byte) (port : Option Nat) (s : State) : (State.readmit c tag port s).table = s.table := by
  unfold State.readmit
  repeat' first | split | dsimp only
  all_goals simp
@[simp] theorem State.readmit_flight (c : Client) (tag : Byte) (port : Option Nat) (s : State) : (State.readmit c tag port s).flight = s.flight := by
  unfold State.readmit
  repeat' first | split | dsimp only
  all_goals simp
@[simp] theorem State.readmit_media (c : Client) (tag : Byte) (port : Option Nat) (s : State) : (State.readmit c tag port s).media = s.media := by
  unfold State.readmit
  repeat' first | split | dsimp only
  all_goals simp
@[simp] theorem State.readmit_ports (c : Client) (tag : Byte) (port : Option Nat) (s : State) : (State.readmit c tag port s).ports = s.ports := by
  unfold State.readmit
  repeat' first | split | dsimp only
  all_goals simp
@[simp] theorem State.readmit_walk (c : Client) (tag : Byte) (port : Option Nat) (s : State) : (State.readmit c tag port s).walk = s.walk := by
  unfold State.readmit
  repeat' first | split | dsimp only
  all_goals simp
@[simp] theorem State.readmit_notices (c : Client) (tag : Byte) (port : Option Nat) (s : State) : (State.readmit c tag port s).notices = s.notices := by
  unfold State.readmit
  repeat' first | split | dsimp only
  all_goals simp
@[simp] theorem State.readmit_free (c : Client) (tag : Byte) (port : Option Nat) (s : State) : (State.readmit c tag port s).free = s.free := by
  unfold State.readmit
  repeat' first | split | dsimp only
  all_goals simp
@[simp] theorem State.readmit_pending (c : Client) (tag : Byte) (port : Option Nat) (s : State) : (State.readmit c tag port s).pending = s.pending := by
  unfold State.readmit
  repeat' first | split | dsimp only
  all_goals simp

/-! `repeatRejoin` changes no block but out, free. -/

@[simp] theorem State.repeatRejoin_part (p : Port) (tag : Byte) (s : State) : (State.repeatRejoin p tag s).part = s.part := by
  unfold State.repeatRejoin
  repeat' first | split | dsimp only
  all_goals simp
@[simp] theorem State.repeatRejoin_clock (p : Port) (tag : Byte) (s : State) : (State.repeatRejoin p tag s).clock = s.clock := by
  unfold State.repeatRejoin
  repeat' first | split | dsimp only
  all_goals simp
@[simp] theorem State.repeatRejoin_settings (p : Port) (tag : Byte) (s : State) : (State.repeatRejoin p tag s).settings = s.settings := by
  unfold State.repeatRejoin
  repeat' first | split | dsimp only
  all_goals simp
@[simp] theorem State.repeatRejoin_table (p : Port) (tag : Byte) (s : State) : (State.repeatRejoin p tag s).table = s.table := by
  unfold State.repeatRejoin
  repeat' first | split | dsimp only
  all_goals simp
@[simp] theorem State.repeatRejoin_flight (p : Port) (tag : Byte) (s : State) : (State.repeatRejoin p tag s).flight = s.flight := by
  unfold State.repeatRejoin
  repeat' first | split | dsimp only
  all_goals simp
@[simp] theorem State.repeatRejoin_media (p : Port) (tag : Byte) (s : State) : (State.repeatRejoin p tag s).media = s.media := by
  unfold State.repeatRejoin
  repeat' first | split | dsimp only
  all_goals simp
@[simp] theorem State.repeatRejoin_ports (p : Port) (tag : Byte) (s : State) : (State.repeatRejoin p tag s).ports = s.ports := by
  unfold State.repeatRejoin
  repeat' first | split | dsimp only
  all_goals simp
@[simp] theorem State.repeatRejoin_paths (p : Port) (tag : Byte) (s : State) : (State.repeatRejoin p tag s).paths = s.paths := by
  unfold State.repeatRejoin
  repeat' first | split | dsimp only
  all_goals simp
@[simp] theorem State.repeatRejoin_walk (p : Port) (tag : Byte) (s : State) : (State.repeatRejoin p tag s).walk = s.walk := by
  unfold State.repeatRejoin
  repeat' first | split | dsimp only
  all_goals simp
@[simp] theorem State.repeatRejoin_notices (p : Port) (tag : Byte) (s : State) : (State.repeatRejoin p tag s).notices = s.notices := by
  unfold State.repeatRejoin
  repeat' first | split | dsimp only
  all_goals simp
@[simp] theorem State.repeatRejoin_mailbox (p : Port) (tag : Byte) (s : State) : (State.repeatRejoin p tag s).mailbox = s.mailbox := by
  unfold State.repeatRejoin
  repeat' first | split | dsimp only
  all_goals simp
@[simp] theorem State.repeatRejoin_pending (p : Port) (tag : Byte) (s : State) : (State.repeatRejoin p tag s).pending = s.pending := by
  unfold State.repeatRejoin
  repeat' first | split | dsimp only
  all_goals simp

/-! `rejoin` changes no block but paths, notices, out, free. -/

@[simp] theorem State.rejoin_part (p : Port) (tag : Byte) (s : State) : (State.rejoin p tag s).part = s.part := by
  unfold State.rejoin
  repeat' first | split | dsimp only
  all_goals simp
@[simp] theorem State.rejoin_clock (p : Port) (tag : Byte) (s : State) : (State.rejoin p tag s).clock = s.clock := by
  unfold State.rejoin
  repeat' first | split | dsimp only
  all_goals simp
@[simp] theorem State.rejoin_settings (p : Port) (tag : Byte) (s : State) : (State.rejoin p tag s).settings = s.settings := by
  unfold State.rejoin
  repeat' first | split | dsimp only
  all_goals simp
@[simp] theorem State.rejoin_table (p : Port) (tag : Byte) (s : State) : (State.rejoin p tag s).table = s.table := by
  unfold State.rejoin
  repeat' first | split | dsimp only
  all_goals simp
@[simp] theorem State.rejoin_flight (p : Port) (tag : Byte) (s : State) : (State.rejoin p tag s).flight = s.flight := by
  unfold State.rejoin
  repeat' first | split | dsimp only
  all_goals simp
@[simp] theorem State.rejoin_media (p : Port) (tag : Byte) (s : State) : (State.rejoin p tag s).media = s.media := by
  unfold State.rejoin
  repeat' first | split | dsimp only
  all_goals simp
@[simp] theorem State.rejoin_ports (p : Port) (tag : Byte) (s : State) : (State.rejoin p tag s).ports = s.ports := by
  unfold State.rejoin
  repeat' first | split | dsimp only
  all_goals simp
@[simp] theorem State.rejoin_walk (p : Port) (tag : Byte) (s : State) : (State.rejoin p tag s).walk = s.walk := by
  unfold State.rejoin
  repeat' first | split | dsimp only
  all_goals simp
@[simp] theorem State.rejoin_mailbox (p : Port) (tag : Byte) (s : State) : (State.rejoin p tag s).mailbox = s.mailbox := by
  unfold State.rejoin
  repeat' first | split | dsimp only
  all_goals simp
@[simp] theorem State.rejoin_pending (p : Port) (tag : Byte) (s : State) : (State.rejoin p tag s).pending = s.pending := by
  unfold State.rejoin
  repeat' first | split | dsimp only
  all_goals simp

/-! `arrive` changes no block but paths, ports, out, free. -/

@[simp] theorem State.arrive_part (s : State) (p : Port) (head tag : Byte) (body : List Byte) : (s.arrive p head tag body).part = s.part := by
  unfold State.arrive
  repeat' first | split | dsimp only
  all_goals simp
@[simp] theorem State.arrive_clock (s : State) (p : Port) (head tag : Byte) (body : List Byte) : (s.arrive p head tag body).clock = s.clock := by
  unfold State.arrive
  repeat' first | split | dsimp only
  all_goals simp
@[simp] theorem State.arrive_settings (s : State) (p : Port) (head tag : Byte) (body : List Byte) : (s.arrive p head tag body).settings = s.settings := by
  unfold State.arrive
  repeat' first | split | dsimp only
  all_goals simp
@[simp] theorem State.arrive_table (s : State) (p : Port) (head tag : Byte) (body : List Byte) : (s.arrive p head tag body).table = s.table := by
  unfold State.arrive
  repeat' first | split | dsimp only
  all_goals simp
@[simp] theorem State.arrive_flight (s : State) (p : Port) (head tag : Byte) (body : List Byte) : (s.arrive p head tag body).flight = s.flight := by
  unfold State.arrive
  repeat' first | split | dsimp only
  all_goals simp
@[simp] theorem State.arrive_media (s : State) (p : Port) (head tag : Byte) (body : List Byte) : (s.arrive p head tag body).media = s.media := by
  unfold State.arrive
  repeat' first | split | dsimp only
  all_goals simp
@[simp] theorem State.arrive_walk (s : State) (p : Port) (head tag : Byte) (body : List Byte) : (s.arrive p head tag body).walk = s.walk := by
  unfold State.arrive
  repeat' first | split | dsimp only
  all_goals simp
@[simp] theorem State.arrive_notices (s : State) (p : Port) (head tag : Byte) (body : List Byte) : (s.arrive p head tag body).notices = s.notices := by
  unfold State.arrive
  repeat' first | split | dsimp only
  all_goals simp
@[simp] theorem State.arrive_mailbox (s : State) (p : Port) (head tag : Byte) (body : List Byte) : (s.arrive p head tag body).mailbox = s.mailbox := by
  unfold State.arrive
  repeat' first | split | dsimp only
  all_goals simp
@[simp] theorem State.arrive_pending (s : State) (p : Port) (head tag : Byte) (body : List Byte) : (s.arrive p head tag body).pending = s.pending := by
  unfold State.arrive
  repeat' first | split | dsimp only
  all_goals simp

/-! `statusAnswer` changes no block but out, mailbox. -/

@[simp] theorem State.statusAnswer_part (c : Client) (tag : Byte) (sect : Option Nat) (s : State) : (State.statusAnswer c tag sect s).part = s.part := by
  unfold State.statusAnswer
  repeat' first | split | dsimp only
  all_goals simp
@[simp] theorem State.statusAnswer_clock (c : Client) (tag : Byte) (sect : Option Nat) (s : State) : (State.statusAnswer c tag sect s).clock = s.clock := by
  unfold State.statusAnswer
  repeat' first | split | dsimp only
  all_goals simp
@[simp] theorem State.statusAnswer_settings (c : Client) (tag : Byte) (sect : Option Nat) (s : State) : (State.statusAnswer c tag sect s).settings = s.settings := by
  unfold State.statusAnswer
  repeat' first | split | dsimp only
  all_goals simp
@[simp] theorem State.statusAnswer_table (c : Client) (tag : Byte) (sect : Option Nat) (s : State) : (State.statusAnswer c tag sect s).table = s.table := by
  unfold State.statusAnswer
  repeat' first | split | dsimp only
  all_goals simp
@[simp] theorem State.statusAnswer_flight (c : Client) (tag : Byte) (sect : Option Nat) (s : State) : (State.statusAnswer c tag sect s).flight = s.flight := by
  unfold State.statusAnswer
  repeat' first | split | dsimp only
  all_goals simp
@[simp] theorem State.statusAnswer_media (c : Client) (tag : Byte) (sect : Option Nat) (s : State) : (State.statusAnswer c tag sect s).media = s.media := by
  unfold State.statusAnswer
  repeat' first | split | dsimp only
  all_goals simp
@[simp] theorem State.statusAnswer_ports (c : Client) (tag : Byte) (sect : Option Nat) (s : State) : (State.statusAnswer c tag sect s).ports = s.ports := by
  unfold State.statusAnswer
  repeat' first | split | dsimp only
  all_goals simp
@[simp] theorem State.statusAnswer_paths (c : Client) (tag : Byte) (sect : Option Nat) (s : State) : (State.statusAnswer c tag sect s).paths = s.paths := by
  unfold State.statusAnswer
  repeat' first | split | dsimp only
  all_goals simp
@[simp] theorem State.statusAnswer_walk (c : Client) (tag : Byte) (sect : Option Nat) (s : State) : (State.statusAnswer c tag sect s).walk = s.walk := by
  unfold State.statusAnswer
  repeat' first | split | dsimp only
  all_goals simp
@[simp] theorem State.statusAnswer_notices (c : Client) (tag : Byte) (sect : Option Nat) (s : State) : (State.statusAnswer c tag sect s).notices = s.notices := by
  unfold State.statusAnswer
  repeat' first | split | dsimp only
  all_goals simp
@[simp] theorem State.statusAnswer_free (c : Client) (tag : Byte) (sect : Option Nat) (s : State) : (State.statusAnswer c tag sect s).free = s.free := by
  unfold State.statusAnswer
  repeat' first | split | dsimp only
  all_goals simp
@[simp] theorem State.statusAnswer_pending (c : Client) (tag : Byte) (sect : Option Nat) (s : State) : (State.statusAnswer c tag sect s).pending = s.pending := by
  unfold State.statusAnswer
  repeat' first | split | dsimp only
  all_goals simp

/-! `readTakeover` changes no block but mailbox. -/

@[simp] theorem State.readTakeover_part (port : Nat) (s : State) : (State.readTakeover port s).part = s.part := by
  unfold State.readTakeover
  repeat' first | split | dsimp only
  all_goals simp
@[simp] theorem State.readTakeover_clock (port : Nat) (s : State) : (State.readTakeover port s).clock = s.clock := by
  unfold State.readTakeover
  repeat' first | split | dsimp only
  all_goals simp
@[simp] theorem State.readTakeover_settings (port : Nat) (s : State) : (State.readTakeover port s).settings = s.settings := by
  unfold State.readTakeover
  repeat' first | split | dsimp only
  all_goals simp
@[simp] theorem State.readTakeover_table (port : Nat) (s : State) : (State.readTakeover port s).table = s.table := by
  unfold State.readTakeover
  repeat' first | split | dsimp only
  all_goals simp
@[simp] theorem State.readTakeover_flight (port : Nat) (s : State) : (State.readTakeover port s).flight = s.flight := by
  unfold State.readTakeover
  repeat' first | split | dsimp only
  all_goals simp
@[simp] theorem State.readTakeover_media (port : Nat) (s : State) : (State.readTakeover port s).media = s.media := by
  unfold State.readTakeover
  repeat' first | split | dsimp only
  all_goals simp
@[simp] theorem State.readTakeover_ports (port : Nat) (s : State) : (State.readTakeover port s).ports = s.ports := by
  unfold State.readTakeover
  repeat' first | split | dsimp only
  all_goals simp
@[simp] theorem State.readTakeover_paths (port : Nat) (s : State) : (State.readTakeover port s).paths = s.paths := by
  unfold State.readTakeover
  repeat' first | split | dsimp only
  all_goals simp
@[simp] theorem State.readTakeover_walk (port : Nat) (s : State) : (State.readTakeover port s).walk = s.walk := by
  unfold State.readTakeover
  repeat' first | split | dsimp only
  all_goals simp
@[simp] theorem State.readTakeover_notices (port : Nat) (s : State) : (State.readTakeover port s).notices = s.notices := by
  unfold State.readTakeover
  repeat' first | split | dsimp only
  all_goals simp
@[simp] theorem State.readTakeover_out (port : Nat) (s : State) : (State.readTakeover port s).out = s.out := by
  unfold State.readTakeover
  repeat' first | split | dsimp only
  all_goals simp
@[simp] theorem State.readTakeover_free (port : Nat) (s : State) : (State.readTakeover port s).free = s.free := by
  unfold State.readTakeover
  repeat' first | split | dsimp only
  all_goals simp
@[simp] theorem State.readTakeover_pending (port : Nat) (s : State) : (State.readTakeover port s).pending = s.pending := by
  unfold State.readTakeover
  repeat' first | split | dsimp only
  all_goals simp

/-! `storeQuota` changes no block but settings, flight, ports, out. -/

@[simp] theorem State.storeQuota_part (s : State) (p : Port) (v : Nat) : (s.storeQuota p v).part = s.part := by
  unfold State.storeQuota
  repeat' first | split | dsimp only
  all_goals simp
@[simp] theorem State.storeQuota_clock (s : State) (p : Port) (v : Nat) : (s.storeQuota p v).clock = s.clock := by
  unfold State.storeQuota
  repeat' first | split | dsimp only
  all_goals simp
@[simp] theorem State.storeQuota_table (s : State) (p : Port) (v : Nat) : (s.storeQuota p v).table = s.table := by
  unfold State.storeQuota
  repeat' first | split | dsimp only
  all_goals simp
@[simp] theorem State.storeQuota_media (s : State) (p : Port) (v : Nat) : (s.storeQuota p v).media = s.media := by
  unfold State.storeQuota
  repeat' first | split | dsimp only
  all_goals simp
@[simp] theorem State.storeQuota_paths (s : State) (p : Port) (v : Nat) : (s.storeQuota p v).paths = s.paths := by
  unfold State.storeQuota
  repeat' first | split | dsimp only
  all_goals simp
@[simp] theorem State.storeQuota_walk (s : State) (p : Port) (v : Nat) : (s.storeQuota p v).walk = s.walk := by
  unfold State.storeQuota
  repeat' first | split | dsimp only
  all_goals simp
@[simp] theorem State.storeQuota_notices (s : State) (p : Port) (v : Nat) : (s.storeQuota p v).notices = s.notices := by
  unfold State.storeQuota
  repeat' first | split | dsimp only
  all_goals simp
@[simp] theorem State.storeQuota_mailbox (s : State) (p : Port) (v : Nat) : (s.storeQuota p v).mailbox = s.mailbox := by
  unfold State.storeQuota
  repeat' first | split | dsimp only
  all_goals simp
@[simp] theorem State.storeQuota_free (s : State) (p : Port) (v : Nat) : (s.storeQuota p v).free = s.free := by
  unfold State.storeQuota
  repeat' first | split | dsimp only
  all_goals simp
@[simp] theorem State.storeQuota_pending (s : State) (p : Port) (v : Nat) : (s.storeQuota p v).pending = s.pending := by
  unfold State.storeQuota
  repeat' first | split | dsimp only
  all_goals simp

/-! `store` changes no block but settings, flight, ports, out, paths, notices. -/

@[simp] theorem State.store_part (s : State) (x : Parameter) (v : Nat) : (s.store x v).part = s.part := by
  unfold State.store
  repeat' first | split | dsimp only
  all_goals simp
@[simp] theorem State.store_clock (s : State) (x : Parameter) (v : Nat) : (s.store x v).clock = s.clock := by
  unfold State.store
  repeat' first | split | dsimp only
  all_goals simp
@[simp] theorem State.store_table (s : State) (x : Parameter) (v : Nat) : (s.store x v).table = s.table := by
  unfold State.store
  repeat' first | split | dsimp only
  all_goals simp
@[simp] theorem State.store_media (s : State) (x : Parameter) (v : Nat) : (s.store x v).media = s.media := by
  unfold State.store
  repeat' first | split | dsimp only
  all_goals simp
@[simp] theorem State.store_walk (s : State) (x : Parameter) (v : Nat) : (s.store x v).walk = s.walk := by
  unfold State.store
  repeat' first | split | dsimp only
  all_goals simp
@[simp] theorem State.store_mailbox (s : State) (x : Parameter) (v : Nat) : (s.store x v).mailbox = s.mailbox := by
  unfold State.store
  repeat' first | split | dsimp only
  all_goals simp
@[simp] theorem State.store_free (s : State) (x : Parameter) (v : Nat) : (s.store x v).free = s.free := by
  unfold State.store
  repeat' first | split | dsimp only
  all_goals simp
@[simp] theorem State.store_pending (s : State) (x : Parameter) (v : Nat) : (s.store x v).pending = s.pending := by
  unfold State.store
  repeat' first | split | dsimp only
  all_goals simp

/-! `configure` changes no block but settings, flight, ports, out, paths, notices, mailbox. -/

@[simp] theorem State.configure_part (number index value : Nat) (s : State) : (State.configure number index value s).part = s.part := by
  unfold State.configure
  repeat' first | split | dsimp only
  all_goals simp
@[simp] theorem State.configure_clock (number index value : Nat) (s : State) : (State.configure number index value s).clock = s.clock := by
  unfold State.configure
  repeat' first | split | dsimp only
  all_goals simp
@[simp] theorem State.configure_table (number index value : Nat) (s : State) : (State.configure number index value s).table = s.table := by
  unfold State.configure
  repeat' first | split | dsimp only
  all_goals simp
@[simp] theorem State.configure_media (number index value : Nat) (s : State) : (State.configure number index value s).media = s.media := by
  unfold State.configure
  repeat' first | split | dsimp only
  all_goals simp
@[simp] theorem State.configure_walk (number index value : Nat) (s : State) : (State.configure number index value s).walk = s.walk := by
  unfold State.configure
  repeat' first | split | dsimp only
  all_goals simp
@[simp] theorem State.configure_free (number index value : Nat) (s : State) : (State.configure number index value s).free = s.free := by
  unfold State.configure
  repeat' first | split | dsimp only
  all_goals simp
@[simp] theorem State.configure_pending (number index value : Nat) (s : State) : (State.configure number index value s).pending = s.pending := by
  unfold State.configure
  repeat' first | split | dsimp only
  all_goals simp

/-! `readConfig` changes no block but mailbox. -/

@[simp] theorem State.readConfig_part (number index : Nat) (s : State) : (State.readConfig number index s).part = s.part := by
  unfold State.readConfig
  repeat' first | split | dsimp only
  all_goals simp
@[simp] theorem State.readConfig_clock (number index : Nat) (s : State) : (State.readConfig number index s).clock = s.clock := by
  unfold State.readConfig
  repeat' first | split | dsimp only
  all_goals simp
@[simp] theorem State.readConfig_settings (number index : Nat) (s : State) : (State.readConfig number index s).settings = s.settings := by
  unfold State.readConfig
  repeat' first | split | dsimp only
  all_goals simp
@[simp] theorem State.readConfig_table (number index : Nat) (s : State) : (State.readConfig number index s).table = s.table := by
  unfold State.readConfig
  repeat' first | split | dsimp only
  all_goals simp
@[simp] theorem State.readConfig_flight (number index : Nat) (s : State) : (State.readConfig number index s).flight = s.flight := by
  unfold State.readConfig
  repeat' first | split | dsimp only
  all_goals simp
@[simp] theorem State.readConfig_media (number index : Nat) (s : State) : (State.readConfig number index s).media = s.media := by
  unfold State.readConfig
  repeat' first | split | dsimp only
  all_goals simp
@[simp] theorem State.readConfig_ports (number index : Nat) (s : State) : (State.readConfig number index s).ports = s.ports := by
  unfold State.readConfig
  repeat' first | split | dsimp only
  all_goals simp
@[simp] theorem State.readConfig_paths (number index : Nat) (s : State) : (State.readConfig number index s).paths = s.paths := by
  unfold State.readConfig
  repeat' first | split | dsimp only
  all_goals simp
@[simp] theorem State.readConfig_walk (number index : Nat) (s : State) : (State.readConfig number index s).walk = s.walk := by
  unfold State.readConfig
  repeat' first | split | dsimp only
  all_goals simp
@[simp] theorem State.readConfig_notices (number index : Nat) (s : State) : (State.readConfig number index s).notices = s.notices := by
  unfold State.readConfig
  repeat' first | split | dsimp only
  all_goals simp
@[simp] theorem State.readConfig_out (number index : Nat) (s : State) : (State.readConfig number index s).out = s.out := by
  unfold State.readConfig
  repeat' first | split | dsimp only
  all_goals simp
@[simp] theorem State.readConfig_free (number index : Nat) (s : State) : (State.readConfig number index s).free = s.free := by
  unfold State.readConfig
  repeat' first | split | dsimp only
  all_goals simp
@[simp] theorem State.readConfig_pending (number index : Nat) (s : State) : (State.readConfig number index s).pending = s.pending := by
  unfold State.readConfig
  repeat' first | split | dsimp only
  all_goals simp

/-! `seenWindow` changes no block but paths, flight, ports, out, notices. -/

@[simp] theorem State.seenWindow_part (s : State) (p : Port) (w : Window) : (s.seenWindow p w).part = s.part := by
  unfold State.seenWindow
  repeat' first | split | dsimp only
  all_goals simp
@[simp] theorem State.seenWindow_clock (s : State) (p : Port) (w : Window) : (s.seenWindow p w).clock = s.clock := by
  unfold State.seenWindow
  repeat' first | split | dsimp only
  all_goals simp
@[simp] theorem State.seenWindow_settings (s : State) (p : Port) (w : Window) : (s.seenWindow p w).settings = s.settings := by
  unfold State.seenWindow
  repeat' first | split | dsimp only
  all_goals simp
@[simp] theorem State.seenWindow_table (s : State) (p : Port) (w : Window) : (s.seenWindow p w).table = s.table := by
  unfold State.seenWindow
  repeat' first | split | dsimp only
  all_goals simp
@[simp] theorem State.seenWindow_media (s : State) (p : Port) (w : Window) : (s.seenWindow p w).media = s.media := by
  unfold State.seenWindow
  repeat' first | split | dsimp only
  all_goals simp
@[simp] theorem State.seenWindow_walk (s : State) (p : Port) (w : Window) : (s.seenWindow p w).walk = s.walk := by
  unfold State.seenWindow
  repeat' first | split | dsimp only
  all_goals simp
@[simp] theorem State.seenWindow_mailbox (s : State) (p : Port) (w : Window) : (s.seenWindow p w).mailbox = s.mailbox := by
  unfold State.seenWindow
  repeat' first | split | dsimp only
  all_goals simp
@[simp] theorem State.seenWindow_free (s : State) (p : Port) (w : Window) : (s.seenWindow p w).free = s.free := by
  unfold State.seenWindow
  repeat' first | split | dsimp only
  all_goals simp
@[simp] theorem State.seenWindow_pending (s : State) (p : Port) (w : Window) : (s.seenWindow p w).pending = s.pending := by
  unfold State.seenWindow
  repeat' first | split | dsimp only
  all_goals simp

/-! `missedWindow` changes no block but paths, flight, ports, out, notices, table. -/

@[simp] theorem State.missedWindow_part (s : State) (p : Port) (w : Window) : (s.missedWindow p w).part = s.part := by
  unfold State.missedWindow
  repeat' first | split | dsimp only
  all_goals simp
@[simp] theorem State.missedWindow_clock (s : State) (p : Port) (w : Window) : (s.missedWindow p w).clock = s.clock := by
  unfold State.missedWindow
  repeat' first | split | dsimp only
  all_goals simp
@[simp] theorem State.missedWindow_settings (s : State) (p : Port) (w : Window) : (s.missedWindow p w).settings = s.settings := by
  unfold State.missedWindow
  repeat' first | split | dsimp only
  all_goals simp
@[simp] theorem State.missedWindow_media (s : State) (p : Port) (w : Window) : (s.missedWindow p w).media = s.media := by
  unfold State.missedWindow
  repeat' first | split | dsimp only
  all_goals simp
@[simp] theorem State.missedWindow_walk (s : State) (p : Port) (w : Window) : (s.missedWindow p w).walk = s.walk := by
  unfold State.missedWindow
  repeat' first | split | dsimp only
  all_goals simp
@[simp] theorem State.missedWindow_mailbox (s : State) (p : Port) (w : Window) : (s.missedWindow p w).mailbox = s.mailbox := by
  unfold State.missedWindow
  repeat' first | split | dsimp only
  all_goals simp
@[simp] theorem State.missedWindow_free (s : State) (p : Port) (w : Window) : (s.missedWindow p w).free = s.free := by
  unfold State.missedWindow
  repeat' first | split | dsimp only
  all_goals simp
@[simp] theorem State.missedWindow_pending (s : State) (p : Port) (w : Window) : (s.missedWindow p w).pending = s.pending := by
  unfold State.missedWindow
  repeat' first | split | dsimp only
  all_goals simp

/-! `atGrant` changes no block but table, ports, out. -/

@[simp] theorem State.atGrant_part (s : State) (c : Client) : (s.atGrant c).part = s.part := by simp [State.atGrant]
@[simp] theorem State.atGrant_clock (s : State) (c : Client) : (s.atGrant c).clock = s.clock := by simp [State.atGrant]
@[simp] theorem State.atGrant_settings (s : State) (c : Client) : (s.atGrant c).settings = s.settings := by simp [State.atGrant]
@[simp] theorem State.atGrant_flight (s : State) (c : Client) : (s.atGrant c).flight = s.flight := by simp [State.atGrant]
@[simp] theorem State.atGrant_media (s : State) (c : Client) : (s.atGrant c).media = s.media := by simp [State.atGrant]
@[simp] theorem State.atGrant_paths (s : State) (c : Client) : (s.atGrant c).paths = s.paths := by simp [State.atGrant]
@[simp] theorem State.atGrant_walk (s : State) (c : Client) : (s.atGrant c).walk = s.walk := by simp [State.atGrant]
@[simp] theorem State.atGrant_notices (s : State) (c : Client) : (s.atGrant c).notices = s.notices := by simp [State.atGrant]
@[simp] theorem State.atGrant_mailbox (s : State) (c : Client) : (s.atGrant c).mailbox = s.mailbox := by simp [State.atGrant]
@[simp] theorem State.atGrant_free (s : State) (c : Client) : (s.atGrant c).free = s.free := by simp [State.atGrant]
@[simp] theorem State.atGrant_pending (s : State) (c : Client) : (s.atGrant c).pending = s.pending := by simp [State.atGrant]

/-! `enterResetting` changes no block but part, clock, table, flight, media, ports, paths, walk, notices, mailbox, out. -/

@[simp] theorem State.enterResetting_settings (s : State) : (s.enterResetting).settings = s.settings := by
  simp [State.enterResetting, State.resetBlocks]
@[simp] theorem State.enterResetting_free (s : State) : (s.enterResetting).free = s.free := by
  simp [State.enterResetting, State.resetBlocks]
@[simp] theorem State.enterResetting_pending (s : State) : (s.enterResetting).pending = s.pending := by
  simp [State.enterResetting, State.resetBlocks]

/-! `tick` changes no block but part, clock, paths. -/

@[simp] theorem State.tick_settings (s : State) : (s.tick).settings = s.settings := by simp [State.tick]
@[simp] theorem State.tick_table (s : State) : (s.tick).table = s.table := by simp [State.tick]
@[simp] theorem State.tick_flight (s : State) : (s.tick).flight = s.flight := by simp [State.tick]
@[simp] theorem State.tick_media (s : State) : (s.tick).media = s.media := by simp [State.tick]
@[simp] theorem State.tick_ports (s : State) : (s.tick).ports = s.ports := by simp [State.tick]
@[simp] theorem State.tick_walk (s : State) : (s.tick).walk = s.walk := by simp [State.tick]
@[simp] theorem State.tick_notices (s : State) : (s.tick).notices = s.notices := by simp [State.tick]
@[simp] theorem State.tick_mailbox (s : State) : (s.tick).mailbox = s.mailbox := by simp [State.tick]
@[simp] theorem State.tick_out (s : State) : (s.tick).out = s.out := by simp [State.tick]
@[simp] theorem State.tick_free (s : State) : (s.tick).free = s.free := by simp [State.tick]
@[simp] theorem State.tick_pending (s : State) : (s.tick).pending = s.pending := by simp [State.tick]

end Sys2Proof.Machine
end

