-- ==== Sys2Proof/Laws/Requests.lean ====
section
/-! SUPPORT. What taking a request can do: for each of the two ways in which a request is handled, the cases of its outcome. -/

namespace Sys2Proof.Machine

/-- A request that no arbiter grants is answered with the code that refuses it, or performed (R95, R189, R190). -/
theorem State.atOnce_cases (s : State) (c : Client) (tag : Byte) (r : Request) (op : State → State) :
    (∃ code, s.refusal c r = some code ∧ s.atOnce c tag r op = (s.takeFront c).respond c tag r.code code [])
      ∨ (s.refusal c r = none ∧ s.atOnce c tag r op = op (s.takeFront c)) := by
  unfold State.atOnce
  split
  · next code h => exact .inl ⟨code, h, rfl⟩
  · next h => exact .inr ⟨h, rfl⟩

/-- A table request is answered with the code that refuses it, or performed at its grant, or goes on waiting (R22, R23, R27). -/
theorem State.atTable_cases (s : State) (c : Client) (tag : Byte) (r : Request) (op : State → State) :
    (∃ code, s.refusal c r = some code ∧ s.atTable c tag r op = (s.takeFront c).respond c tag r.code code [])
      ∨ (s.refusal c r = none ∧ s.grantee = some (clientSource c) ∧ s.atTable c tag r op = op (s.atGrant c))
      ∨ (s.refusal c r = none ∧ s.grantee ≠ some (clientSource c) ∧ s.atTable c tag r op = s) := by
  unfold State.atTable
  split
  · next code h => exact .inl ⟨code, h, rfl⟩
  · next h =>
    split
    · next hg => exact .inr (.inl ⟨h, hg, rfl⟩)
    · next hg => exact .inr (.inr ⟨h, hg, rfl⟩)

/-- What every answer and every performance keeps, a request handled at once keeps. -/
theorem State.atOnce_keeps {P : State → Prop} {s : State} {c : Client} {tag : Byte} {r : Request} {op : State → State}
    (hresp : ∀ code, P ((s.takeFront c).respond c tag r.code code [])) (hop : s.refusal c r = none → P (op (s.takeFront c))) :
    P (s.atOnce c tag r op) := by
  obtain ⟨code, -, h⟩ | ⟨hr, h⟩ := s.atOnce_cases c tag r op
  · rw [h]; exact hresp code
  · rw [h]; exact hop hr

/-- What every answer, every performance and waiting keep, a table request keeps. -/
theorem State.atTable_keeps {P : State → Prop} {s : State} {c : Client} {tag : Byte} {r : Request} {op : State → State} (hs : P s)
    (hresp : ∀ code, P ((s.takeFront c).respond c tag r.code code [])) (hop : s.refusal c r = none → P (op (s.atGrant c))) :
    P (s.atTable c tag r op) := by
  obtain ⟨code, -, h⟩ | ⟨hr, -, h⟩ | ⟨-, -, h⟩ := s.atTable_cases c tag r op
  · rw [h]; exact hresp code
  · rw [h]; exact hop hr
  · rw [h]; exact hs

end Sys2Proof.Machine
end

