-- ==== Sys2Proof/Laws/Table.lean ====
section
/-! SUPPORT. The holding table: the lowest free id, the ordered insertion, and what each change of the records keeps of the table's laws
(R15 to R19). -/

namespace Sys2Proof.Machine

/-! ## The lowest free number (R17, R68) -/

/-- The number found is free, in range, and the lowest such. -/
theorem firstFree_some {used : List Nat} : ∀ {n i k : Nat}, firstFree used n i = some k →
    k ∉ used ∧ i ≤ k ∧ k < i + n ∧ ∀ j, i ≤ j → j < k → j ∈ used
  | 0, _, _, h => by simp [firstFree] at h
  | n + 1, i, k, h => by
    unfold firstFree at h
    split at h
    · next hi =>
      obtain ⟨h1, h2, h3, h4⟩ := firstFree_some h
      refine ⟨h1, by omega, by omega, fun j hj hk => ?_⟩
      by_cases hji : j = i
      · exact hji ▸ hi
      · exact h4 j (by omega) hk
    · next hi =>
      cases h
      exact ⟨hi, le_refl _, by omega, fun j _ _ => by omega⟩

/-- When no number is found, every one in range is used. -/
theorem firstFree_none {used : List Nat} : ∀ {n i : Nat}, firstFree used n i = none → ∀ j, i ≤ j → j < i + n → j ∈ used
  | 0, _, _ => fun j h1 h2 => by omega
  | n + 1, i, h => by
    unfold firstFree at h
    split at h
    · next hi =>
      intro j h1 h2
      by_cases hji : j = i
      · exact hji ▸ hi
      · exact firstFree_none h j (by omega) (by omega)
    · cases h

/-- Fewer numbers in use than the range has: one is free. -/
theorem firstFree_isSome {used : List Nat} {n : Nat} (h : used.length < n) : ∃ k, firstFree used n 0 = some k := by
  cases hk : firstFree used n 0 with
  | some k => exact ⟨k, rfl⟩
  | none =>
    have hsub : List.range n ⊆ used := fun j hj => firstFree_none hk j (Nat.zero_le _) (by simpa using hj)
    have := (List.nodup_range.subperm hsub).length_le
    simp at this; omega

/-- The id of a new record is free and at most 1023, while the table has room (R17). -/
theorem State.freeId_spec {s : State} (h : s.table.holdings.length < 1024) :
    s.freeId ∉ s.table.holdings.map (·.id) ∧ s.freeId < 1024 ∧ ∀ j < s.freeId, j ∈ s.table.holdings.map (·.id) := by
  obtain ⟨k, hk⟩ := firstFree_isSome (used := s.table.holdings.map (·.id)) (n := 1024) (by simpa using h)
  have hf : s.freeId = k := by simp [State.freeId, hk]
  obtain ⟨h1, -, h3, h4⟩ := firstFree_some hk
  rw [hf]
  exact ⟨h1, by omega, fun j hj => h4 j (Nat.zero_le _) hj⟩

/-! ## Order (R15) -/

theorem Holding.before_trans {x y z : Holding} (h1 : x.before y) (h2 : y.before z) : x.before z := by
  unfold Holding.before at *; omega

/-- Records that share no block stand in table order one way or the other. -/
theorem Holding.before_or_before {x y : Holding} (hx : 1 ≤ x.length) (hy : 1 ≤ y.length) (h : x.meets y.ns y.start y.length = false) :
    x.before y ∨ y.before x := by
  simp only [Holding.meets, rangesMeet, Bool.and_eq_false_iff, decide_eq_false_iff_not] at h
  unfold Holding.before; omega

theorem insertHolding_perm (h : Holding) : ∀ l : List Holding, (insertHolding h l).Perm (h :: l)
  | [] => .refl _
  | x :: xs => by
    unfold insertHolding
    split
    · exact .refl _
    · exact ((insertHolding_perm h xs).cons x).trans (.swap h x xs)

/-- The ordered insertion keeps the order, for a record that stands in order with each of the others (R15). -/
theorem insertHolding_pairwise {h : Holding} (hl : 1 ≤ h.length) : ∀ {l : List Holding}, l.Pairwise Holding.before →
    (∀ x ∈ l, 1 ≤ x.length) → (∀ x ∈ l, x.before h ∨ h.before x) → (insertHolding h l).Pairwise Holding.before
  | [], _, _, _ => by simp [insertHolding]
  | x :: xs, hp, hlen, hor => by
    obtain ⟨hx, hxs⟩ := List.pairwise_cons.1 hp
    unfold insertHolding
    split
    · next hc =>
      have hb : h.before x := by
        rcases hor x (by simp) with h1 | h1
        · have := hlen x (by simp); unfold Holding.before at h1; omega
        · exact h1
      refine List.pairwise_cons.2 ⟨?_, hp⟩
      intro y hy
      rcases List.mem_cons.1 hy with rfl | hy
      · exact hb
      · exact Holding.before_trans hb (hx y hy)
    · next hc =>
      have hb : x.before h := by
        rcases hor x (by simp) with h1 | h1
        · exact h1
        · unfold Holding.before at h1; omega
      refine List.pairwise_cons.2 ⟨?_, insertHolding_pairwise hl hxs (fun y hy => hlen y (by simp [hy])) fun y hy => hor y (by simp [hy])⟩
      intro y hy
      rcases List.mem_cons.1 ((insertHolding_perm h xs).mem_iff.1 hy) with rfl | hy
      · exact hb
      · exact hx y hy

/-! ## The blocks of the table that a departure and the end of a drain keep -/

section
variable (s : State)

@[simp] theorem State.granted_holdings (x : Source) : (s.granted x).table.holdings = s.table.holdings := rfl
@[simp] theorem State.granted_gen (x : Source) : (s.granted x).table.gen = s.table.gen := rfl
@[simp] theorem State.granted_namespaces (x : Source) : (s.granted x).table.namespaces = s.table.namespaces := rfl
@[simp] theorem State.granted_due (x : Source) : (s.granted x).table.due = s.table.due := rfl
@[simp] theorem State.takeDue_holdings : s.takeDue.table.holdings = s.table.holdings := rfl
@[simp] theorem State.takeDue_gen : s.takeDue.table.gen = s.table.gen := rfl
@[simp] theorem State.takeDue_namespaces : s.takeDue.table.namespaces = s.table.namespaces := rfl
@[simp] theorem State.takeDue_due : s.takeDue.table.due = s.table.due.tail := rfl
@[simp] theorem State.atGrant_holdings (c : Client) : (s.atGrant c).table.holdings = s.table.holdings := by simp [State.atGrant]
@[simp] theorem State.atGrant_gen (c : Client) : (s.atGrant c).table.gen = s.table.gen := by simp [State.atGrant]
@[simp] theorem State.atGrant_namespaces (c : Client) : (s.atGrant c).table.namespaces = s.table.namespaces := by simp [State.atGrant]
@[simp] theorem State.atGrant_due (c : Client) : (s.atGrant c).table.due = s.table.due := by simp [State.atGrant]
@[simp] theorem State.depart_holdings (e : Entry) : (s.depart e).table.holdings = s.table.holdings := by simp [State.depart]
@[simp] theorem State.depart_gen (e : Entry) : (s.depart e).table.gen = s.table.gen := by simp [State.depart]
@[simp] theorem State.depart_namespaces (e : Entry) : (s.depart e).table.namespaces = s.table.namespaces := by simp [State.depart]
@[simp] theorem State.withdraw_holdings (e : Entry) : (s.withdraw e).table.holdings = s.table.holdings := by simp [State.withdraw]
@[simp] theorem State.withdraw_gen (e : Entry) : (s.withdraw e).table.gen = s.table.gen := by simp [State.withdraw]
@[simp] theorem State.withdraw_namespaces (e : Entry) : (s.withdraw e).table.namespaces = s.table.namespaces := by simp [State.withdraw]
@[simp] theorem State.withdrawAll_holdings (es : List Entry) : (s.withdrawAll es).table.holdings = s.table.holdings :=
  foldl_keeps (·.table.holdings) _ (by simp) es s
@[simp] theorem State.withdrawAll_gen (es : List Entry) : (s.withdrawAll es).table.gen = s.table.gen :=
  foldl_keeps (·.table.gen) _ (by simp) es s
@[simp] theorem State.withdrawAll_namespaces (es : List Entry) : (s.withdrawAll es).table.namespaces = s.table.namespaces :=
  foldl_keeps (·.table.namespaces) _ (by simp) es s
@[simp] theorem State.endDrain_holdings (p : Port) : (s.endDrain p).table.holdings = s.table.holdings := by simp [State.endDrain]
@[simp] theorem State.endDrain_gen (p : Port) : (s.endDrain p).table.gen = s.table.gen := by simp [State.endDrain]
@[simp] theorem State.endDrain_namespaces (p : Port) : (s.endDrain p).table.namespaces = s.table.namespaces := by simp [State.endDrain]
@[simp] theorem State.drainTest_holdings (p : Port) : (s.drainTest p).table.holdings = s.table.holdings := by
  unfold State.drainTest; split <;> simp
@[simp] theorem State.drainTest_gen (p : Port) : (s.drainTest p).table.gen = s.table.gen := by unfold State.drainTest; split <;> simp
@[simp] theorem State.drainTest_namespaces (p : Port) : (s.drainTest p).table.namespaces = s.table.namespaces := by
  unfold State.drainTest; split <;> simp
@[simp] theorem State.drainBegun_holdings (p : Port) (c : Cause) :
    (s.drainBegun p c).table.holdings = s.table.holdings.map (Holding.toPending p) := by simp [State.drainBegun]
@[simp] theorem State.drainBegun_gen (p : Port) (c : Cause) : (s.drainBegun p c).table.gen = s.table.gen := by simp [State.drainBegun]
@[simp] theorem State.drainBegun_namespaces (p : Port) (c : Cause) : (s.drainBegun p c).table.namespaces = s.table.namespaces := by
  simp [State.drainBegun]
@[simp] theorem State.drainBegun_due (p : Port) (c : Cause) : (s.drainBegun p c).table.due = s.table.due := by simp [State.drainBegun]
@[simp] theorem State.enterDraining_holdings (p : Port) (c : Cause) :
    (s.enterDraining p c).table.holdings = s.table.holdings.map (Holding.toPending p) := by simp [State.enterDraining]
@[simp] theorem State.enterDraining_gen (p : Port) (c : Cause) : (s.enterDraining p c).table.gen = s.table.gen := by
  simp [State.enterDraining]
@[simp] theorem State.enterDraining_namespaces (p : Port) (c : Cause) :
    (s.enterDraining p c).table.namespaces = s.table.namespaces := by simp [State.enterDraining]
@[simp] theorem State.fence_holdings (p : Port) (c : Cause) :
    (s.fence p c).table.holdings = s.table.holdings.map (Holding.toPending p) := by simp [State.fence]
@[simp] theorem State.fence_gen (p : Port) (c : Cause) : (s.fence p c).table.gen = s.table.gen := by simp [State.fence]
@[simp] theorem State.fence_namespaces (p : Port) (c : Cause) : (s.fence p c).table.namespaces = s.table.namespaces := by
  simp [State.fence]
@[simp] theorem State.enterLost_holdings (p : Port) (c : Cause) : (s.enterLost p c).table.holdings = s.table.holdings := by
  simp [State.enterLost]
@[simp] theorem State.enterLost_gen (p : Port) (c : Cause) : (s.enterLost p c).table.gen = s.table.gen := by simp [State.enterLost]
@[simp] theorem State.enterLost_namespaces (p : Port) (c : Cause) : (s.enterLost p c).table.namespaces = s.table.namespaces := by
  simp [State.enterLost]
@[simp] theorem State.resolve_holdings (e : Entry) (k : Fin 32) (c : AnswerCode) :
    (s.resolve e k c).table.holdings = s.table.holdings := by unfold State.resolve; dsimp only; split <;> simp
@[simp] theorem State.resolve_gen (e : Entry) (k : Fin 32) (c : AnswerCode) : (s.resolve e k c).table.gen = s.table.gen := by
  unfold State.resolve; dsimp only; split <;> simp
@[simp] theorem State.resolve_namespaces (e : Entry) (k : Fin 32) (c : AnswerCode) :
    (s.resolve e k c).table.namespaces = s.table.namespaces := by unfold State.resolve; dsimp only; split <;> simp

end

/-! ## The laws of the table under each change of its records -/

theorem State.namespaceById_eq {s t : State} (h : t.table.namespaces = s.table.namespaces) (id : Nat) :
    t.namespaceById id = s.namespaceById id := by simp [State.namespaceById, h]

/-- Soundness of the table read off the four things it depends on. -/
theorem State.tableSound_of {s t : State} (hs : s.tableSound) (h1 : t.table.holdings = s.table.holdings) (h2 : t.table.gen = s.table.gen)
    (h3 : t.table.namespaces = s.table.namespaces) (h4 : t.part.state = s.part.state) : t.tableSound := by
  simpa only [State.tableSound, State.recordSound, State.namespaceById, h1, h2, h3, h4] using hs

/-- A change of records that keeps place, id and generation, and a rank of 1..15 (R6). -/
structure Holding.sameGround (h h' : Holding) : Prop where
  id : h'.id = h.id
  ns : h'.ns = h.ns
  start : h'.start = h.start
  length : h'.length = h.length
  gen : h'.gen = h.gen
  rank : 1 ≤ h.rank ∧ h.rank ≤ 15 → 1 ≤ h'.rank ∧ h'.rank ≤ 15

theorem State.tableSound_map {s t : State} (f : Holding → Holding) (hf : ∀ h : Holding, h.sameGround (f h)) (hs : s.tableSound)
    (h1 : t.table.holdings = s.table.holdings.map f) (h2 : t.table.gen = s.table.gen)
    (h3 : t.table.namespaces = s.table.namespaces) (h4 : t.part.state = s.part.state) : t.tableSound := by
  obtain ⟨a, b, c, d, e, g, r⟩ := hs
  refine ⟨?_, by simpa [h1] using b, ?_, ?_, ?_, by simpa [h2] using g, ?_⟩
  · rw [h1, List.pairwise_map]
    refine a.imp fun {x y} hxy => ?_
    unfold Holding.before at *
    rw [(hf x).ns, (hf x).start, (hf x).length, (hf y).ns, (hf y).start]; exact hxy
  · rw [h1, List.map_map, show (fun h : Holding => h.id) ∘ f = (·.id) from funext fun h => (hf h).id]; exact c
  · rw [h1, List.map_map, show (fun h : Holding => h.gen) ∘ f = (·.gen) from funext fun h => (hf h).gen]; exact d
  · intro h' hh'
    rw [h1] at hh'
    obtain ⟨h, hh, rfl⟩ := List.mem_map.1 hh'
    obtain ⟨e1, e2, e3, e4, e5, e6⟩ := e h hh
    have hr := (hf h).rank ⟨e3, e4⟩
    refine ⟨by rw [(hf h).id]; exact e1, by rw [(hf h).length]; exact e2, hr.1, hr.2, ?_, ?_⟩
    · rw [h2, (hf h).gen]; exact e5
    · rw [State.namespaceById_eq h3, (hf h).ns, (hf h).start, (hf h).length]; exact e6
  · intro hn; rw [h1, r (h4 ▸ hn)]; rfl

theorem State.tableSound_setHolding {s t : State} (id : Nat) (f : Holding → Holding) (hf : ∀ h : Holding, h.sameGround (f h)) (hs : s.tableSound)
    (h1 : t.table.holdings = (s.setHolding id f).table.holdings) (h2 : t.table.gen = s.table.gen)
    (h3 : t.table.namespaces = s.table.namespaces) (h4 : t.part.state = s.part.state) : t.tableSound := by
  refine State.tableSound_map (fun h => if h.id = id then f h else h) (fun h => ?_) hs h1 h2 h3 h4
  by_cases h0 : h.id = id
  · simpa only [if_pos h0] using hf h
  · simpa only [if_neg h0] using ⟨rfl, rfl, rfl, rfl, rfl, fun h => h⟩

/-- The shorter record that SPLIT leaves under the old id (R43). -/
theorem State.tableSound_shrink {s t : State} (id n : Nat) (hn : ∀ h ∈ s.table.holdings, h.id = id → 1 ≤ n ∧ n ≤ h.length)
    (hs : s.tableSound) (h1 : t.table.holdings = (s.setHolding id (·.lowerHalf n)).table.holdings) (h2 : t.table.gen = s.table.gen)
    (h3 : t.table.namespaces = s.table.namespaces) (h4 : t.part.state = s.part.state) : t.tableSound := by
  obtain ⟨a, b, c, d, e, g, r⟩ := hs
  simp only [State.setHolding, State.withTable_table] at h1
  have hf : ∀ h : Holding, (if h.id = id then h.lowerHalf n else h).id = h.id ∧ (if h.id = id then h.lowerHalf n else h).ns = h.ns
      ∧ (if h.id = id then h.lowerHalf n else h).start = h.start ∧ (if h.id = id then h.lowerHalf n else h).gen = h.gen
      ∧ (if h.id = id then h.lowerHalf n else h).rank = h.rank := fun h => by split <;> exact ⟨rfl, rfl, rfl, rfl, rfl⟩
  have hl : ∀ h ∈ s.table.holdings, 1 ≤ (if h.id = id then h.lowerHalf n else h).length
      ∧ (if h.id = id then h.lowerHalf n else h).length ≤ h.length := fun h hh => by
    split
    · next h0 => exact hn h hh h0
    · exact ⟨(e h hh).2.1, le_refl _⟩
  refine ⟨?_, by simpa [h1] using b, ?_, ?_, ?_, by simpa [h2] using g, ?_⟩
  · rw [h1, List.pairwise_map]
    refine (List.Pairwise.and a (List.pairwise_iff_forall_sublist.2 fun {x y} hxy => hl x (hxy.subset (by simp)))).imp ?_
    rintro x y ⟨hxy, hx⟩
    unfold Holding.before at *
    rw [(hf x).2.1, (hf x).2.2.1, (hf y).2.1, (hf y).2.2.1]; omega
  · rw [h1, List.map_map, show (fun h : Holding => h.id) ∘ (fun h => if h.id = id then h.lowerHalf n else h) = (·.id) from
      funext fun h => (hf h).1]
    exact c
  · rw [h1, List.map_map, show (fun h : Holding => h.gen) ∘ (fun h => if h.id = id then h.lowerHalf n else h) = (·.gen) from
      funext fun h => (hf h).2.2.2.1]
    exact d
  · intro h' hh'
    rw [h1] at hh'
    obtain ⟨h, hh, rfl⟩ := List.mem_map.1 hh'
    obtain ⟨e1, e2, e3, e4, e5, e6⟩ := e h hh
    have f1 := hf h
    refine ⟨by rw [f1.1]; exact e1, (hl h hh).1, by rw [f1.2.2.2.2]; exact e3, by rw [f1.2.2.2.2]; exact e4, by rw [h2, f1.2.2.2.1]; exact e5, ?_⟩
    rw [State.namespaceById_eq h3, f1.2.1, f1.2.2.1]
    rw [Option.any_eq_true] at e6 ⊢
    obtain ⟨ns, hns, hle⟩ := e6
    exact ⟨ns, hns, by have := (hl h hh).2; simp at hle ⊢; omega⟩
  · intro hne; rw [h1, r (h4 ▸ hne)]; rfl

theorem Holding.sameGround_withTenure (t : Tenure) (h : Holding) : h.sameGround (h.withTenure t) := ⟨rfl, rfl, rfl, rfl, rfl, fun h => h⟩

theorem Holding.sameGround_toPending (p : Port) (h : Holding) : h.sameGround (h.toPending p) := by
  unfold Holding.toPending; split
  · exact Holding.sameGround_withTenure _ h
  · exact ⟨rfl, rfl, rfl, rfl, rfl, fun h => h⟩

/-- Records that stay, as they were: retirement (R18). -/
theorem State.tableSound_filter {s t : State} (f : Holding → Bool) (hs : s.tableSound)
    (h1 : t.table.holdings = s.table.holdings.filter f) (h2 : t.table.gen = s.table.gen)
    (h3 : t.table.namespaces = s.table.namespaces) (h4 : t.part.state = s.part.state) : t.tableSound := by
  obtain ⟨a, b, c, d, e, g, r⟩ := hs
  have hsub : (s.table.holdings.filter f).Sublist s.table.holdings := List.filter_sublist
  refine ⟨h1 ▸ a.sublist hsub, h1 ▸ (hsub.length_le.trans b), h1 ▸ c.sublist (hsub.map _), h1 ▸ d.sublist (hsub.map _), ?_,
    by simpa [h2] using g, ?_⟩
  · intro h hh
    obtain ⟨e1, e2, e3, e4, e5, e6⟩ := e h (hsub.subset (h1 ▸ hh))
    exact ⟨e1, e2, e3, e4, h2 ▸ e5, by rw [State.namespaceById_eq h3]; exact e6⟩
  · intro hn; rw [h1, r (h4 ▸ hn)]; rfl

theorem genAfter_spec {g : Nat} (h : g < 2 ^ 48) : ∀ x, givenGeneration (some g) x ∨ x = g ∧ 1 ≤ g → givenGeneration (genAfter g) x := by
  intro x hx; unfold givenGeneration genAfter at *; split <;> simp at * <;> omega

/-- The counter after a grant holds a value it may hold (R19). -/
theorem genAfter_range (g : Nat) : 1 ≤ (genAfter g).getD 1 ∧ (genAfter g).getD 1 < 2 ^ 48 := by
  unfold genAfter; split
  · simp; omega
  · simp

/-- A grant of an existing record under the counter's value (R19): hand-over, walk transfer, adoption. -/
theorem State.tableSound_grant {s t : State} (id g : Nat) (f : Holding → Holding) (hg : s.table.gen = some g)
    (hf : ∀ h, (f h).id = h.id ∧ (f h).ns = h.ns ∧ (f h).start = h.start ∧ (f h).length = h.length ∧ (f h).gen = g
      ∧ (1 ≤ h.rank ∧ h.rank ≤ 15 → 1 ≤ (f h).rank ∧ (f h).rank ≤ 15)) (hs : s.tableSound)
    (h1 : t.table.holdings = (s.setHolding id f).table.holdings) (h2 : t.table.gen = genAfter g)
    (h3 : t.table.namespaces = s.table.namespaces) (h4 : t.part.state = s.part.state) : t.tableSound := by
  obtain ⟨a, b, c, d, e, k, r⟩ := hs
  rw [hg] at k; simp only [Option.getD_some] at k
  simp only [State.setHolding, State.withTable_table] at h1
  have hlt : ∀ h ∈ s.table.holdings, 1 ≤ h.gen ∧ h.gen < g := fun h hh => by have := (e h hh).2.2.2.2.1; rw [hg] at this; exact this
  have hsame : ∀ h, (if h.id = id then f h else h).id = h.id ∧ (if h.id = id then f h else h).ns = h.ns
      ∧ (if h.id = id then f h else h).start = h.start ∧ (if h.id = id then f h else h).length = h.length := fun h => by
    split
    · exact ⟨(hf h).1, (hf h).2.1, (hf h).2.2.1, (hf h).2.2.2.1⟩
    · exact ⟨rfl, rfl, rfl, rfl⟩
  refine ⟨?_, by simpa [h1] using b, ?_, ?_, ?_, by rw [h2]; exact genAfter_range g, ?_⟩
  · rw [h1, List.pairwise_map]
    refine a.imp fun {x y} hxy => ?_
    unfold Holding.before at *
    rw [(hsame x).2.1, (hsame x).2.2.1, (hsame x).2.2.2, (hsame y).2.1, (hsame y).2.2.1]; exact hxy
  · rw [h1, List.map_map, show (fun h : Holding => h.id) ∘ (fun h => if h.id = id then f h else h) = (·.id) from funext fun h => (hsame h).1]
    exact c
  · rw [h1, List.map_map, List.Nodup, List.pairwise_map]
    rw [List.Nodup, List.pairwise_map] at c d
    refine (List.Pairwise.and (List.Pairwise.and c d) (List.pairwise_iff_forall_sublist.2 fun {x y} hxy =>
      (⟨hlt x (hxy.subset (by simp)), hlt y (hxy.subset (by simp))⟩ : (1 ≤ x.gen ∧ x.gen < g) ∧ 1 ≤ y.gen ∧ y.gen < g))).imp ?_
    rintro x y ⟨⟨hid, hgen⟩, hx, hy⟩
    have hfx := (hf x).2.2.2.2.1; have hfy := (hf y).2.2.2.2.1
    simp only [Function.comp]
    split <;> split <;> omega
  · intro h' hh'
    rw [h1] at hh'
    obtain ⟨h, hh, rfl⟩ := List.mem_map.1 hh'
    obtain ⟨e1, e2, e3, e4, e5, e6⟩ := e h hh
    obtain ⟨s1, s2, s3, s4⟩ := hsame h
    refine ⟨by rw [s1]; exact e1, by rw [s4]; exact e2, ?_, ?_, ?_, by rw [State.namespaceById_eq h3, s2, s3, s4]; exact e6⟩
    · split; exacts [((hf h).2.2.2.2.2 ⟨e3, e4⟩).1, e3]
    · split; exacts [((hf h).2.2.2.2.2 ⟨e3, e4⟩).2, e4]
    · rw [h2]
      split
      · exact genAfter_spec k.2 _ (.inr ⟨(hf h).2.2.2.2.1, k.1⟩)
      · exact genAfter_spec k.2 _ (.inl (hg ▸ e5))
  · intro hn; rw [h1, r (h4 ▸ hn)]; rfl

/-- A new record under the counter's value: ACQUIRE (R34). -/
theorem State.tableSound_insert {s t : State} (h : Holding) (hg : s.table.gen = some h.gen) (hroom : s.table.holdings.length < 1024)
    (hid : h.id = s.freeId) (hrank : 1 ≤ h.rank ∧ h.rank ≤ 15) (hlen : 1 ≤ h.length)
    (hin : (s.namespaceById h.ns).any (fun n => h.start + h.length ≤ n.size) = true)
    (hfree : ∀ x ∈ s.table.holdings, x.meets h.ns h.start h.length = false) (hready : s.part.state = .ready) (hs : s.tableSound)
    (h1 : t.table.holdings = insertHolding h s.table.holdings) (h2 : t.table.gen = genAfter h.gen)
    (h3 : t.table.namespaces = s.table.namespaces) (h4 : t.part.state = s.part.state) : t.tableSound := by
  obtain ⟨a, b, c, d, e, k, r⟩ := hs
  rw [hg] at k; simp only [Option.getD_some] at k
  have hperm := insertHolding_perm h s.table.holdings
  have hfid := State.freeId_spec hroom
  refine ⟨?_, ?_, ?_, ?_, ?_, by rw [h2]; exact genAfter_range _, ?_⟩
  · rw [h1]
    exact insertHolding_pairwise hlen a (fun x hx => (e x hx).2.1) fun x hx => Holding.before_or_before (e x hx).2.1 hlen (hfree x hx)
  · rw [h1, hperm.length_eq, List.length_cons]; omega
  · rw [h1, (hperm.map _).nodup_iff, List.map_cons, List.nodup_cons, hid]
    exact ⟨hfid.1, c⟩
  · rw [h1, (hperm.map _).nodup_iff, List.map_cons, List.nodup_cons]
    refine ⟨fun hmem => ?_, d⟩
    obtain ⟨x, hx, hxg⟩ := List.mem_map.1 hmem
    have := (e x hx).2.2.2.2.1; rw [hg, givenGeneration, Option.getD_some] at this; omega
  · intro x hx
    rw [h1] at hx
    rcases List.mem_cons.1 (hperm.mem_iff.1 hx) with rfl | hx
    · exact ⟨by omega, hlen, hrank.1, hrank.2, by rw [h2]; exact genAfter_spec k.2 _ (.inr ⟨rfl, k.1⟩),
        by rw [State.namespaceById_eq h3]; exact hin⟩
    · obtain ⟨e1, e2, e3, e4, e5, e6⟩ := e x hx
      exact ⟨e1, e2, e3, e4, by rw [h2]; exact genAfter_spec k.2 _ (.inl (hg ▸ e5)), by rw [State.namespaceById_eq h3]; exact e6⟩
  · intro hn; exact absurd (h4 ▸ hready) hn

end Sys2Proof.Machine
end

