-- ==== Sys2Proof/Laws/Flight.lean ====
section
/-! SUPPORT. What the shared operations do to the flight table: an admission, a departure, a change of stage, and the withdrawals. -/

namespace Sys2Proof.Machine

/-! ## The path states and settings that admissions and departures read, and keep -/

theorem State.path_eq_of_paths {s t : State} (h : t.paths = s.paths) (p : Port) : t.path p = s.path p := by
  simp [State.path, h]

/-- The number that `firstFree` finds below 64 is free and below 64 (R68). -/
theorem firstFree_entry {used : List Nat} (h : used.length < 64) :
    (firstFree used 64 0).getD 0 < 64 ∧ (firstFree used 64 0).getD 0 ∉ used := by
  obtain ⟨k, hk⟩ := firstFree_isSome h
  obtain ⟨h1, h2⟩ := firstFree_some hk
  simp only [hk, Option.getD_some]
  simp_all

/-! ## Soundness of the flight table -/

theorem State.flightSound_of {s t : State} (hs : s.flightSound) (h : t.flight.entries = s.flight.entries) : t.flightSound := by
  simpa only [State.flightSound, h] using hs

theorem State.flightSound_filter {s t : State} (f : Entry → Bool) (hs : s.flightSound)
    (h : t.flight.entries = s.flight.entries.filter f) : t.flightSound := by
  obtain ⟨h1, h2, h3, h4, h5⟩ := hs
  have hsub : List.Sublist (s.flight.entries.filter f) s.flight.entries := List.filter_sublist
  refine ⟨?_, ?_, ?_, ?_, ?_⟩ <;> rw [h]
  · exact (hsub.length_le).trans h1
  · exact h2.sublist (hsub.map _)
  · exact fun e he => h3 e (hsub.mem he)
  · exact h4.sublist (hsub.filterMap _)
  · exact fun e he => h5 e (hsub.mem he)

/-- A change of every entry that keeps index, range, kind and slot keeps the table sound. -/
theorem State.flightSound_map {s t : State} (f : Entry → Entry)
    (hf : ∀ e, (f e).index = e.index ∧ (f e).range = e.range ∧ (f e).kind = e.kind ∧ (f e).stage.slot = e.stage.slot)
    (hs : s.flightSound) (h : t.flight.entries = s.flight.entries.map f) : t.flightSound := by
  obtain ⟨h1, h2, h3, h4, h5⟩ := hs
  have e1 : (s.flight.entries.map f).map (·.index) = s.flight.entries.map (·.index) := by
    rw [List.map_map]; exact List.map_congr_left fun e _ => (hf e).1
  have e2 : (s.flight.entries.map f).filterMap (·.stage.slot) = s.flight.entries.filterMap (·.stage.slot) := by
    rw [List.filterMap_map]; exact List.filterMap_congr fun e _ => (hf e).2.2.2
  refine ⟨by simpa [h] using h1, by rw [h, e1]; exact h2, ?_, by rw [h, e2]; exact h4, ?_⟩ <;> rw [h] <;> intro e he <;>
    obtain ⟨x, hx, rfl⟩ := List.mem_map.1 he
  · rw [(hf x).1]; exact h3 x hx
  · rw [(hf x).2.1, (hf x).2.2.1]; exact h5 x hx

/-- An admission under the room check keeps the table sound (R64, R68). -/
theorem State.admitted_flightSound {s : State} {p : Port} {tag : Byte} {c : IoCommand} (hroom : s.flight.entries.length < 64)
    (hs : s.flightSound) : (s.admitted p tag c).flightSound := by
  obtain ⟨h1, h2, h3, h4, h5⟩ := hs
  obtain ⟨hi, hn⟩ := firstFree_entry (used := s.flight.entries.map (·.index)) (by simpa using hroom)
  refine ⟨by simp [State.admitted]; omega, ?_, ?_, ?_, ?_⟩
  · simp only [State.admitted, State.newEntry, State.withFlight_flight, List.map_append, List.map_cons, List.map_nil]
    rw [List.nodup_append]
    refine ⟨h2, by simp, fun a ha b hb => ?_⟩
    simp only [List.mem_singleton] at hb; subst hb; rintro rfl; exact hn ha
  · intro e he
    simp only [State.admitted, State.newEntry, State.withFlight_flight, List.mem_append, List.mem_singleton] at he
    rcases he with he | rfl
    · exact h3 e he
    · exact hi
  · simpa [State.admitted, State.newEntry, Stage.slot] using h4
  · intro e he
    simp only [State.admitted, State.newEntry, State.withFlight_flight, List.mem_append, List.mem_singleton] at he
    rcases he with he | rfl
    · exact h5 e he
    · dsimp only; split <;> simp_all

theorem State.hasRoom_length {s : State} {p : Port} (h : s.hasRoom p = true) : s.flight.entries.length < 64 := by
  simp only [State.hasRoom, Bool.and_eq_true, decide_eq_true_eq] at h; exact h.2

theorem State.judgeHead_flightSound {s : State} {p : Port} {tag : Byte} {c : IoCommand} (hs : s.flightSound) :
    (s.judgeHead p tag c).flightSound := by
  unfold State.judgeHead
  split
  · exact State.flightSound_of hs (by simp)
  · split
    · next h => exact State.admitted_flightSound (by simpa using State.hasRoom_length h) (State.flightSound_of hs (by simp))
    · exact State.flightSound_of hs (by simp)

theorem State.rejudge_flightSound {s : State} (p : Port) (hs : s.flightSound) : (s.rejudge p).flightSound := by
  unfold State.rejudge; split
  · exact State.judgeHead_flightSound hs
  · exact hs

theorem State.rejudgeBoth_flightSound {s : State} (full : Bool) (hs : s.flightSound) : (s.rejudgeBoth full).flightSound := by
  have h1 := State.rejudge_flightSound s.flight.spaceTurn hs
  unfold State.rejudgeBoth; dsimp only
  refine State.rejudge_flightSound _ ?_
  split
  · exact State.flightSound_of h1 (by simp)
  · exact h1

theorem State.depart_flightSound {s : State} (e : Entry) (hs : s.flightSound) : (s.depart e).flightSound := by
  unfold State.depart; dsimp only
  exact State.rejudgeBoth_flightSound _ (State.flightSound_filter (fun x => x.index != e.index) hs (by simp))

theorem State.withdrawAll_flightSound (es : List Entry) : ∀ {s : State}, s.flightSound → (s.withdrawAll es).flightSound := by
  unfold State.withdrawAll
  induction es with
  | nil => exact fun hs => hs
  | cons e es ih => exact fun hs => ih (State.depart_flightSound e (State.flightSound_of hs (by simp)))

theorem State.enterDraining_flightSound {s : State} (p : Port) (cause : Cause) (hs : s.flightSound) :
    (s.enterDraining p cause).flightSound := by
  have h1 : (s.drainBegun p cause).flightSound := State.flightSound_of hs (by simp)
  exact State.flightSound_of (State.withdrawAll_flightSound (((s.drainBegun p cause).rejudge p).waitingEntries p false)
    (State.rejudge_flightSound p h1)) (by simp [State.enterDraining])

theorem State.fence_flightSound {s : State} (p : Port) (cause : Cause) (hs : s.flightSound) : (s.fence p cause).flightSound :=
  State.flightSound_of (State.enterDraining_flightSound p cause hs) (by simp [State.fence])

theorem State.enterLost_flightSound {s : State} (p : Port) (cause : Cause) (hs : s.flightSound) : (s.enterLost p cause).flightSound := by
  have h1 : (s.withPath p ((s.path p).lost cause)).flightSound := State.flightSound_of hs (by simp)
  exact State.flightSound_of (State.withdrawAll_flightSound (((s.withPath p ((s.path p).lost cause)).rejudge p).waitingEntries p true)
    (State.rejudge_flightSound p h1)) (by simp [State.enterLost])

/-- A free slot is held by no entry (R77). -/
theorem State.freeSlot_free {s : State} {k : Fin 32} (h : s.freeSlot = some k) : k ∉ s.flight.entries.filterMap (·.stage.slot) := by
  have h1 := List.find?_some h
  simp only [State.slotEntry, Option.isNone_iff_eq_none, List.find?_eq_none] at h1
  intro hk
  obtain ⟨e, he, hek⟩ := List.mem_filterMap.1 hk
  exact h1 e he (by simpa using hek)

theorem State.submissionChoice_waiting {s : State} {e : Entry} (h : s.submissionChoice = some e) :
    e ∈ s.flight.entries ∧ e.stage = .waiting := by
  have key : ∀ p, s.oldestWaiting p = some e → e ∈ s.flight.entries ∧ e.stage = .waiting := by
    intro p hp
    refine ⟨List.mem_of_find?_eq_some hp, ?_⟩
    have := List.find?_some hp
    simp only [Bool.and_eq_true, decide_eq_true_eq] at this
    revert this; cases e.stage <;> simp [Stage.isWaiting]
  unfold State.submissionChoice at h
  split at h
  · next h1 => cases h; exact key _ h1
  · exact key _ h

/-- The entry of an index is the entry itself. -/
theorem State.entry_of_index {s : State} (hs : s.flightSound) {x e : Entry} (hx : x ∈ s.flight.entries) (he : e ∈ s.flight.entries)
    (h : x.index = e.index) : x = e := List.inj_on_of_nodup_map hs.2.1 hx he h

/-- The submission of a WAITING entry into a free slot keeps the table sound (R77, R79). -/
theorem State.submit_flightSound {s : State} {e : Entry} {k : Fin 32} (he : e ∈ s.flight.entries) (hw : e.stage = .waiting)
    (hk : k ∉ s.flight.entries.filterMap (·.stage.slot)) (hs : s.flightSound) : (s.submit e k).flightSound := by
  have hone := fun x hx => State.entry_of_index hs (x := x) (e := e) hx he
  obtain ⟨h1, h2, h3, h4, h5⟩ := hs
  have hE : (s.submit e k).flight.entries =
      s.flight.entries.map fun x => if x.index = e.index then { x with stage := .submitted k, xfer := .none } else x := by
    simp [State.submit]
  have e1 : (s.submit e k).flight.entries.map (·.index) = s.flight.entries.map (·.index) := by
    rw [hE, List.map_map]; refine List.map_congr_left fun x _ => ?_
    simp only [Function.comp]; split <;> rfl
  refine ⟨by rw [hE]; simpa using h1, by rw [e1]; exact h2, ?_, ?_, ?_⟩
  · intro x hx; rw [hE] at hx
    obtain ⟨y, hy, rfl⟩ := List.mem_map.1 hx
    split <;> exact h3 y hy
  · have key : ∀ l : List Entry, (∀ x ∈ l, x ∈ s.flight.entries) → (l.map (·.index)).Nodup →
        (l.filterMap (·.stage.slot)).Nodup → ((l.map fun x => if x.index = e.index then
          ({ x with stage := .submitted k, xfer := .none } : Entry) else x).filterMap (·.stage.slot)).Nodup
        ∧ ∀ j, j ∈ ((l.map fun x => if x.index = e.index then
          ({ x with stage := .submitted k, xfer := .none } : Entry) else x).filterMap (·.stage.slot)) →
            j ∈ l.filterMap (·.stage.slot) ∨ (j = k ∧ e.index ∈ l.map (·.index)) := by
      intro l
      induction l with
      | nil => simp
      | cons x l ih =>
        intro hmem hn hsl
        simp only [List.map_cons, List.nodup_cons] at hn
        have hsl' : (l.filterMap (·.stage.slot)).Nodup := hsl.sublist ((List.sublist_cons_self x l).filterMap _)
        obtain ⟨i1, i2⟩ := ih (fun y hy => hmem y (by simp [hy])) hn.2 hsl'
        simp only [List.map_cons, List.filterMap_cons]
        by_cases hx : x.index = e.index
        · have hxe : x = e := hone x (hmem x (by simp)) hx
          subst hxe
          simp only [if_true, Stage.slot]
          refine ⟨List.nodup_cons.2 ⟨fun hin => ?_, i1⟩, ?_⟩
          · rcases i2 k hin with h | h
            · refine hk ?_
              obtain ⟨y, hy, hyk⟩ := List.mem_filterMap.1 h
              exact List.mem_filterMap.2 ⟨y, hmem y (by simp [hy]), hyk⟩
            · exact hn.1 h.2
          · intro j hj
            rcases List.mem_cons.1 hj with rfl | hj
            · exact .inr ⟨rfl, by simp⟩
            · rcases i2 j hj with h | h
              · left; split
                · exact h
                · exact List.mem_cons_of_mem _ h
              · exact .inr ⟨h.1, by simp⟩
        · simp only [hx, if_false]
          cases hslot : x.stage.slot with
          | none =>
            refine ⟨i1, fun j hj => ?_⟩
            rcases i2 j hj with h | h
            · exact .inl h
            · exact .inr ⟨h.1, by simp only [List.mem_cons]; exact .inr h.2⟩
          | some m =>
            simp only [List.filterMap_cons, hslot] at hsl
            refine ⟨List.nodup_cons.2 ⟨fun hin => ?_, i1⟩, fun j hj => ?_⟩
            · rcases i2 m hin with h | h
              · exact (List.nodup_cons.1 hsl).1 h
              · refine hk (List.mem_filterMap.2 ⟨x, hmem x (by simp), ?_⟩)
                rw [hslot, h.1]
            · rcases List.mem_cons.1 hj with rfl | hj
              · exact .inl (by simp)
              · rcases i2 j hj with h | h
                · exact .inl (List.mem_cons_of_mem _ h)
                · exact .inr ⟨h.1, by simp only [List.mem_cons]; exact .inr h.2⟩
    rw [hE]; exact (key s.flight.entries (fun _ h => h) h2 h4).1
  · intro x hx; rw [hE] at hx
    obtain ⟨y, hy, rfl⟩ := List.mem_map.1 hx
    split <;> exact h5 y hy

theorem Entry.requestAbort_same (f : Entry → Bool) (e : Entry) :
    (e.requestAbort f).index = e.index ∧ (e.requestAbort f).range = e.range ∧ (e.requestAbort f).kind = e.kind
      ∧ (e.requestAbort f).stage.slot = e.stage.slot := by
  unfold Entry.requestAbort
  split
  · next k h => split <;> simp [h, Stage.slot]
  · simp

theorem State.requestAborts_flightSound {s : State} (f : Entry → Bool) (hs : s.flightSound) : (s.requestAborts f).flightSound :=
  State.flightSound_map (Entry.requestAbort f) (Entry.requestAbort_same f) hs (by simp [State.requestAborts])

theorem Entry.abandon_same (p : Port) (e : Entry) :
    (e.abandon p).index = e.index ∧ (e.abandon p).range = e.range ∧ (e.abandon p).kind = e.kind
      ∧ (e.abandon p).stage.slot = e.stage.slot := by
  unfold Entry.abandon
  split
  · next k h => split <;> simp [h, Stage.slot]
  · simp

theorem State.setTransfer_flightSound {s : State} (k : Fin 32) (x : Transfer) (hs : s.flightSound) : (s.setTransfer k x).flightSound :=
  State.flightSound_map (fun e => if e.stage.slot = some k then { e with xfer := x } else e)
    (fun e => by split <;> simp) hs (by simp [State.setTransfer])

end Sys2Proof.Machine
end

