-- ==== Sys2Proof/Laws/Admission.lean ====
section
/-! SUPPORT. What a judgment at the head of an intake can do to the part: at most one admission, and what an admission rests on. -/

namespace Sys2Proof.Machine

/-- The entry is one that the admission unit would make in this state, for a command that passes checks 1 to 7 (R52, R54, R68). -/
def State.Admits (s : State) (e : Entry) : Prop :=
  ∃ (tag : Byte) (c : IoCommand), s.checkCommand e.port c = none ∧ s.hasRoom e.port = true ∧ e = s.newEntry e.port tag c

/-- Two states agree on the blocks that a judgment at an intake's head leaves alone. -/
structure State.Agrees (s t : State) : Prop where
  paths : t.paths = s.paths
  table : t.table = s.table
  walk : t.walk = s.walk
  part : t.part = s.part
  settings : t.settings = s.settings

theorem State.Agrees.refl (s : State) : s.Agrees s := ⟨rfl, rfl, rfl, rfl, rfl⟩

theorem State.Agrees.trans {s t u : State} (h : s.Agrees t) (h' : t.Agrees u) : s.Agrees u :=
  ⟨h'.paths.trans h.paths, h'.table.trans h.table, h'.walk.trans h.walk, h'.part.trans h.part, h'.settings.trans h.settings⟩

/-- What a judgment at an intake's head can do: nothing to the flight table, or one admission; the agreed blocks stay. -/
theorem State.judgeHead_cases (s : State) (p : Port) (tag : Byte) (c : IoCommand) :
    s.Agrees (s.judgeHead p tag c)
      ∧ ((s.judgeHead p tag c).flight.entries = s.flight.entries
        ∨ ∃ e, s.Admits e ∧ e.port = p ∧ (s.judgeHead p tag c).flight.entries = s.flight.entries ++ [e]) := by
  unfold State.judgeHead
  split
  · exact ⟨⟨by simp, by simp, by simp, by simp, by simp⟩, .inl (by simp)⟩
  · next hc =>
    split
    · next hr =>
      exact ⟨⟨by simp, by simp, by simp, by simp, by simp⟩,
        .inr ⟨s.newEntry p tag c, ⟨tag, c, hc, hr, rfl⟩, rfl, by simp [State.admitted, State.newEntry]⟩⟩
    · exact ⟨⟨by simp, by simp, by simp, by simp, by simp⟩, .inl (by simp)⟩

/-- A property that reads the agreed blocks and the entries, and that every admission keeps, is kept by a judgment. -/
structure AdmissionKeeps (P : State → Prop) : Prop where
  agree : ∀ {s t : State}, s.Agrees t → t.flight.entries = s.flight.entries → P s → P t
  admitted : ∀ {s t : State} {e : Entry}, s.Agrees t → s.Admits e → t.flight.entries = s.flight.entries ++ [e] → P s → P t

theorem AdmissionKeeps.judgeHead {P : State → Prop} (hP : AdmissionKeeps P) {s : State} (p : Port) (tag : Byte) (c : IoCommand)
    (hs : P s) : P (s.judgeHead p tag c) := by
  obtain ⟨ha, he | ⟨e, had, -, he⟩⟩ := s.judgeHead_cases p tag c
  · exact hP.agree ha he hs
  · exact hP.admitted ha had he hs

theorem AdmissionKeeps.rejudge {P : State → Prop} (hP : AdmissionKeeps P) {s : State} (p : Port) (hs : P s) : P (s.rejudge p) := by
  unfold State.rejudge; split
  · exact hP.judgeHead p _ _ hs
  · exact hs

theorem AdmissionKeeps.rejudgeBoth {P : State → Prop} (hP : AdmissionKeeps P) {s : State} (full : Bool) (hs : P s) :
    P (s.rejudgeBoth full) := by
  unfold State.rejudgeBoth; dsimp only
  refine hP.rejudge _ ?_
  split
  · exact hP.agree (s := s.rejudge s.flight.spaceTurn) ⟨by simp, by simp, by simp, by simp, by simp⟩ (by simp) (hP.rejudge _ hs)
  · exact hP.rejudge _ hs

/-- The state at a departure before the waiting heads are judged again: the entry is gone, and the waits it ended are due (R71, R74). -/
def State.departed (s : State) (e : Entry) : State :=
  let s1 := s.withFlight { s.flight with entries := s.flight.entries.filter fun x => x.index != e.index }
  s1.withTable { s1.table with due := s1.table.due ++ s1.endedWaits e }

theorem State.depart_eq (s : State) (e : Entry) :
    s.depart e = (s.departed e).rejudgeBoth (decide (64 ≤ s.flight.entries.length)) := rfl

theorem AdmissionKeeps.depart {P : State → Prop} (hP : AdmissionKeeps P) {s : State} (e : Entry) (hs : P (s.departed e)) :
    P (s.depart e) := by
  rw [State.depart_eq]; exact hP.rejudgeBoth _ hs

/-- What checks 1 to 5 leave of a WRITE or TRIM that passes them: every holding its range meets is HELD by its port (R54, R55, R59). -/
theorem State.checkCommand_path {s : State} {p : Port} {c : IoCommand} (h : s.checkCommand p c = none) :
    checkPath (s.path p).state c.kind = none := by
  unfold State.checkCommand at h
  split at h
  · cases h
  · assumption

theorem State.checkCommand_coverage {s : State} {p : Port} {c : IoCommand} (h : s.checkCommand p c = none) (hk : c.kind ≠ .flush) :
    s.checkCoverage p c (s.coverage c.ns c.start (c.start + c.count - 1)) = none := by
  simp only [State.checkCommand] at h
  repeat' split at h
  all_goals first | cases h | contradiction | assumption

/-- Every holding of the list gives one holding segment (R57). -/
theorem segmentsFrom_holding {h : Holding} {stop : Nat} : ∀ {hs : List Holding} {pos : Nat}, h ∈ hs →
    ∃ a b, Segment.holding h a b ∈ segmentsFrom pos stop hs
  | x :: xs, pos, hm => by
    rcases List.mem_cons.1 hm with rfl | hm
    · exact ⟨_, _, by unfold segmentsFrom; exact List.mem_append_right _ (List.mem_cons_self)⟩
    · obtain ⟨a, b, hab⟩ := segmentsFrom_holding (pos := x.last + 1) hm
      exact ⟨a, b, by unfold segmentsFrom; exact List.mem_append_right _ (List.mem_cons_of_mem _ hab)⟩

theorem Holding.meets_rangeHoldings {s : State} {h : Holding} {ns start count : Nat} (hm : h ∈ s.table.holdings)
    (ho : h.meets ns start count = true) : h ∈ s.rangeHoldings ns start (start + count - 1) := by
  simp only [Holding.meets, rangesMeet, Bool.and_eq_true, decide_eq_true_eq] at ho
  simp only [State.rangeHoldings, List.mem_filter, Bool.and_eq_true, decide_eq_true_eq]
  unfold Holding.last
  exact ⟨hm, ⟨ho.1, by omega⟩, by omega⟩

theorem State.checked_held {s : State} {p : Port} {c : IoCommand} (hc : s.checkCommand p c = none) (hk : c.kind = .write ∨ c.kind = .trim)
    {h : Holding} (hm : h ∈ s.table.holdings) (ho : h.meets c.ns c.start c.count = true) : h.tenure = .held p := by
  have hf : c.kind ≠ .flush := by rcases hk with hk | hk <;> simp [hk]
  have hr : ¬ c.kind = .read := by rcases hk with hk | hk <;> simp [hk]
  have h5 := State.checkCommand_coverage hc hf
  unfold State.checkCoverage at h5
  split at h5
  · cases h5
  · simp only [hr, if_false, List.findSome?_eq_none_iff] at h5
    obtain ⟨a, b, hab⟩ := segmentsFrom_holding (pos := c.start) (stop := c.start + c.count - 1) (Holding.meets_rangeHoldings hm ho)
    have := h5 _ hab
    unfold judgeWrite at this
    split at this
    · next heq =>
      cases heq
      split at this
      · next o ho' => split at this
                      · next h1 => rw [ho', h1]
                      · cases this
      all_goals cases this
    · next heq => cases heq

/-- An admitted WRITE or TRIM lies, over holdings, inside HELD holdings of its port alone (R59). -/
theorem State.Admits.held {s : State} {e : Entry} (ha : s.Admits e) (hk : e.changesBlocks) {h : Holding} (hm : h ∈ s.table.holdings)
    (ho : e.overlaps h = true) : h.tenure = .held e.port := by
  obtain ⟨tag, c, hc, -, he⟩ := ha
  generalize e.port = p at *
  subst he
  have hk' : c.kind = .write ∨ c.kind = .trim := hk
  have hf : ¬ c.kind = .flush := by rcases hk' with h | h <;> simp [h]
  refine State.checked_held hc hk' hm ?_
  simp only [Entry.overlaps, Entry.meets, State.newEntry, if_neg hf, Bool.and_eq_true, decide_eq_true_eq] at ho
  simp only [Holding.meets, Bool.and_eq_true, decide_eq_true_eq]
  refine ⟨ho.1.symm, ?_⟩
  simp only [rangesMeet, decide_eq_true_eq] at ho ⊢; omega

theorem State.Admits.path {s : State} {e : Entry} (ha : s.Admits e) : checkPath (s.path e.port).state e.kind = none := by
  obtain ⟨tag, c, hc, -, he⟩ := ha
  have : e.kind = c.kind := by rw [he]; rfl
  rw [this]; exact State.checkCommand_path hc

theorem State.Admits.waiting {s : State} {e : Entry} (ha : s.Admits e) : e.stage = .waiting := by
  obtain ⟨tag, c, -, -, h⟩ := ha; rw [h]; rfl

theorem State.Admits.fresh {s : State} {e : Entry} (ha : s.Admits e) : e.index ∉ s.flight.entries.map (·.index) := by
  obtain ⟨tag, c, -, hr, h⟩ := ha
  rw [h]; exact (firstFree_entry (by simpa using State.hasRoom_length hr)).2

end Sys2Proof.Machine
end

