-- ==== Sys2Proof/Laws/Law.lean ====
section
/-! SUPPORT. The laws of takeovers, owners and writes (R14, R62, R71, R122 to R130) over the plain data they read, and how each change of
that data keeps them. -/

namespace Sys2Proof.Machine

/-- What the laws read of a path: its state and its abort timer. -/
abbrev Core := Port → PathState × Option Nat

/-- The law of one record's owner (R14, R126). -/
abbrev ownOk (C : Core) (D : List Due) (h : Holding) : Prop :=
  match h.tenure with
  | .held p => (C p).1.mayWait
  | .releasing p _ => (C p).1.mayOwn ∧ ((C p).1 = .shedding → D.any (fun d => d.names h) = true)
  | .handing p _ => (C p).1.mayOwn ∧ ((C p).1 = .shedding → D.any (fun d => d.names h) = true)
  | .pending p => (C p).1.leaving
  | .orphaned _ => True

/-- The laws together, over the entries, the records, the due completions, the generation counter, the walk queue and the paths. An entry
that satisfies `X` is excused from the law of WAITING entries: it is about to be withdrawn. -/
structure Law (E : List Entry) (H : List Holding) (D : List Due) (G : Option Nat) (W : List Port) (C : Core) (X : Entry → Prop) :
    Prop where
  wait : ∀ e ∈ E, e.stage = .waiting → X e ∨ ((C e.port).1.mayWait ∧ ((C e.port).1 = .lost → e.kind.writeClass = false))
  ended : ∀ e ∈ E, e.kind.writeClass = true → (C e.port).1.drained → e.stage.isAbandoned = true
  timer : ∀ q, (C q).2.isSome = true → (C q).1 = .draining ∧ ∀ e ∈ E, e.writeOf q = true → e.stage.isSubmitted = false
  walk : ∀ q, q ∈ W ↔ (C q).1 = .shedding
  nodup : W.Nodup
  own : ∀ h ∈ H, ownOk C D h
  write : ∀ e ∈ E, ∀ h ∈ H, e.changesBlocks → h.tenure.owner = some e.port.partner → e.overlaps h = false
  settled : ∀ e ∈ E, ∀ h ∈ H, e.changesBlocks → e.overlaps h = true →
    (h.tenure.owner = none ∨ D.any (fun d => d.names h) = true) → e.stage.isAbandoned = true
  due : ∀ d ∈ D, ∀ h ∈ H, d.names h = true → h.tenure.owner = some d.port ∧ h.tenure.dueKind = some d.kind
  dueGen : ∀ d ∈ D, d.gen = 0 ∨ givenGeneration G d.gen
  ids : (H.map (·.id)).Nodup
  gens : ∀ h ∈ H, givenGeneration G h.gen

variable {E : List Entry} {H : List Holding} {D : List Due} {G : Option Nat} {W : List Port} {C : Core} {X : Entry → Prop}

theorem Entry.writeClass_of_changes {e : Entry} (h : e.changesBlocks) : e.kind.writeClass = true := by
  rcases h with h | h <;> simp [h, IoKind.writeClass]

theorem Due.names_of {d : Due} {h : Holding} : d.names h = true ↔ h.id = d.id ∧ h.gen = d.gen := by
  simp [Due.names]

/-- Two records that one completion names are one record. -/
theorem Due.names_unique {d : Due} {h h' : Holding} (ids : (H.map (·.id)).Nodup) (hm : h ∈ H) (hm' : h' ∈ H) (hn : d.names h = true)
    (hn' : d.names h' = true) : h = h' :=
  List.inj_on_of_nodup_map ids hm hm' ((Due.names_of.1 hn).1.trans (Due.names_of.1 hn').1.symm)

/-- No completion is due for a HELD record. -/
theorem Law.held_not_due (l : Law E H D G W C X) {h : Holding} (hm : h ∈ H) {p : Port} (ht : h.tenure = .held p) :
    ∀ d ∈ D, d.names h = false := by
  intro d hd
  by_contra hn
  have := (l.due d hd h hm (by simpa using hn)).2
  rw [ht] at this; cases this

/-- No completion is due for an ORPHANED record. -/
theorem Law.orphan_not_due (l : Law E H D G W C X) {h : Holding} (hm : h ∈ H) (ht : h.tenure.owner = none) :
    ∀ d ∈ D, d.names h = false := by
  intro d hd
  by_contra hn
  have := (l.due d hd h hm (by simpa using hn)).1
  rw [ht] at this; cases this

theorem not_any_names {h : Holding} (hd : ∀ d ∈ D, d.names h = false) : ¬ D.any (fun d => d.names h) = true := by
  simp only [List.any_eq_true, not_exists, not_and]; intro d hm; simp [hd d hm]

/-! ## Changes of the flight table -/

/-- An admission. -/
theorem Law.admitted (l : Law E H D G W C X) {e : Entry} (hw : e.stage = .waiting) (hp : checkPath (C e.port).1 e.kind = none)
    (hh : ∀ h ∈ H, e.changesBlocks → e.overlaps h = true → h.tenure = .held e.port) : Law (E ++ [e]) H D G W C X := by
  have key : (C e.port).1.mayWait ∧ ((C e.port).1 = .lost → e.kind.writeClass = false) ∧ ¬ (C e.port).1.drained := by
    revert hp; unfold checkPath
    cases (C e.port).1 <;> simp [PathState.mayWait, PathState.drained]
    intro h; simp [h, IoKind.writeClass]
  refine { l with wait := ?_, ended := ?_, timer := ?_, write := ?_, settled := ?_ }
  · intro x hx; rcases List.mem_append.1 hx with hx | hx
    · exact l.wait x hx
    · simp only [List.mem_singleton] at hx; subst hx; exact fun _ => .inr ⟨key.1, key.2.1⟩
  · intro x hx; rcases List.mem_append.1 hx with hx | hx
    · exact l.ended x hx
    · simp only [List.mem_singleton] at hx; subst hx; exact fun _ h => absurd h key.2.2
  · intro q hq
    refine ⟨(l.timer q hq).1, fun x hx => ?_⟩
    rcases List.mem_append.1 hx with hx | hx
    · exact (l.timer q hq).2 x hx
    · simp only [List.mem_singleton] at hx; subst hx; intro; rw [hw]; rfl
  · intro x hx; rcases List.mem_append.1 hx with hx | hx
    · exact l.write x hx
    · simp only [List.mem_singleton] at hx; subst hx
      intro h hm hc ho
      by_contra hov
      have := hh h hm hc (by simpa using hov)
      rw [this] at ho; simp only [Tenure.owner, Option.some.injEq] at ho
      exact Port.partner_ne _ ho.symm
  · intro x hx; rcases List.mem_append.1 hx with hx | hx
    · exact l.settled x hx
    · simp only [List.mem_singleton] at hx; subst hx
      intro h hm hc hov hor
      have ht := hh h hm hc hov
      rcases hor with h1 | h1
      · rw [ht] at h1; cases h1
      · exact absurd h1 (not_any_names (l.held_not_due hm ht))

/-- Entries leave. -/
theorem Law.filter (l : Law E H D G W C X) (f : Entry → Bool) {Y : Entry → Prop} (hY : ∀ e ∈ E, f e = true → X e → Y e) :
    Law (E.filter f) H D G W C Y where
  wait e he hw := (l.wait e (List.mem_of_mem_filter he) hw).imp_left (hY e (List.mem_of_mem_filter he) (by simpa using (List.mem_filter.1 he).2))
  ended e he := l.ended e (List.mem_of_mem_filter he)
  timer q hq := ⟨(l.timer q hq).1, fun e he => (l.timer q hq).2 e (List.mem_of_mem_filter he)⟩
  walk := l.walk
  nodup := l.nodup
  own := l.own
  write e he := l.write e (List.mem_of_mem_filter he)
  settled e he := l.settled e (List.mem_of_mem_filter he)
  due := l.due
  dueGen := l.dueGen
  ids := l.ids
  gens := l.gens

/-- The entries stay, and the excuse is narrowed to those that need it. -/
theorem Law.excuse (l : Law E H D G W C X) {Y : Entry → Prop} (hY : ∀ e ∈ E, e.stage = .waiting → X e → Y e) : Law E H D G W C Y :=
  { l with wait := fun e he hw => (l.wait e he hw).imp_left (hY e he hw) }

/-- The completion of a record of port `p` (R25). -/
theorem Holding.completion_some {h : Holding} {p : Port} {d : Due} (hc : h.completion p = some d) :
    d.id = h.id ∧ d.gen = h.gen ∧ d.port = p ∧ h.tenure.owner = some p ∧ h.tenure.dueKind = some d.kind := by
  unfold Holding.completion at hc
  split at hc
  · next k hk =>
    split at hc
    · next ho => cases hc; exact ⟨rfl, rfl, rfl, ho, hk⟩
    · cases hc
  · cases hc

/-- New completions, each for a record of port `p` over which every changing entry is ABANDONED: what the laws of completions come
to. -/
theorem newDue_laws (p : Port) (g : Holding → Bool) (ids : (H.map (·.id)).Nodup) (gens : ∀ h ∈ H, givenGeneration G h.gen)
    (settled : ∀ e ∈ E, ∀ h ∈ H, e.changesBlocks → e.overlaps h = true →
      (h.tenure.owner = none ∨ D.any (fun d => d.names h) = true) → e.stage.isAbandoned = true)
    (due : ∀ d ∈ D, ∀ h ∈ H, d.names h = true → h.tenure.owner = some d.port ∧ h.tenure.dueKind = some d.kind)
    (dueGen : ∀ d ∈ D, d.gen = 0 ∨ givenGeneration G d.gen)
    (hset : ∀ h ∈ H, g h = true → (h.completion p).isSome = true → ∀ e ∈ E, e.changesBlocks → e.overlaps h = true →
      e.stage.isAbandoned = true)
    (N : List Due) (hN : N = H.filterMap fun h => if g h then h.completion p else none) :
    (∀ e ∈ E, ∀ h ∈ H, e.changesBlocks → e.overlaps h = true →
        (h.tenure.owner = none ∨ (D ++ N).any (fun d => d.names h) = true) → e.stage.isAbandoned = true)
      ∧ (∀ d ∈ D ++ N, ∀ h ∈ H, d.names h = true → h.tenure.owner = some d.port ∧ h.tenure.dueKind = some d.kind)
      ∧ (∀ d ∈ D ++ N, d.gen = 0 ∨ givenGeneration G d.gen) := by
  have hmem : ∀ d ∈ N, ∃ h ∈ H, g h = true ∧ h.completion p = some d := by
    intro d hd; rw [hN] at hd
    obtain ⟨h, hm, hh⟩ := List.mem_filterMap.1 hd
    split at hh
    · next hg => exact ⟨h, hm, hg, hh⟩
    · cases hh
  have hnames : ∀ (d : Due) (h : Holding), h.completion p = some d → d.names h = true := by
    intro d h hc; obtain ⟨a, b, -⟩ := Holding.completion_some hc; exact Due.names_of.2 ⟨a.symm, b.symm⟩
  refine ⟨?_, ?_, ?_⟩
  · intro e he h hm hc hov hor
    rcases hor with ho | ho
    · exact settled e he h hm hc hov (.inl ho)
    · rw [List.any_append, Bool.or_eq_true] at ho
      rcases ho with ho | ho
      · exact settled e he h hm hc hov (.inr ho)
      · obtain ⟨d, hd, hn⟩ := List.any_eq_true.1 ho
        obtain ⟨h', hm', hg, hcomp⟩ := hmem d hd
        have : h = h' := Due.names_unique ids hm hm' hn (hnames d h' hcomp)
        subst this
        exact hset h hm hg (by rw [hcomp]; rfl) e he hc hov
  · intro d hd h hm hn
    rcases List.mem_append.1 hd with hd | hd
    · exact due d hd h hm hn
    · obtain ⟨h', hm', hg, hcomp⟩ := hmem d hd
      have : h = h' := Due.names_unique ids hm hm' hn (hnames d h' hcomp)
      subst this
      obtain ⟨-, -, e1, e2, e3⟩ := Holding.completion_some hcomp
      rw [e1]; exact ⟨e2, e3⟩
  · intro d hd
    rcases List.mem_append.1 hd with hd | hd
    · exact dueGen d hd
    · obtain ⟨h', hm', hg, hcomp⟩ := hmem d hd
      rw [(Holding.completion_some hcomp).2.1]; exact .inr (gens h' hm')

/-- The completions that a departure of an entry of port `p` makes due (R36). -/
theorem Law.newDue (l : Law E H D G W C X) (p : Port) (g : Holding → Bool)
    (hset : ∀ h ∈ H, g h = true → (h.completion p).isSome = true → ∀ e ∈ E, e.changesBlocks → e.overlaps h = true →
      e.stage.isAbandoned = true) :
    Law E H (D ++ H.filterMap fun h => if g h then h.completion p else none) G W C X := by
  obtain ⟨h1, h2, h3⟩ := newDue_laws p g l.ids l.gens l.settled l.due l.dueGen hset _ rfl
  refine { l with own := ?_, settled := h1, due := h2, dueGen := h3 }
  intro h hm
  have := l.own h hm
  revert this; unfold ownOk
  cases h.tenure <;> simp only [List.any_append, Bool.or_eq_true]
  all_goals first | exact id | exact fun ⟨a, b⟩ => ⟨a, fun c => .inl (b c)⟩

/-- Stages move on. -/
theorem Law.stages (l : Law E H D G W C fun _ => False) (f : Entry → Entry)
    (hf : ∀ e ∈ E, (f e).port = e.port ∧ (f e).kind = e.kind ∧ (f e).ns = e.ns ∧ (f e).range = e.range
      ∧ ((f e).stage = .waiting → e.stage = .waiting) ∧ (e.stage.isAbandoned = true → (f e).stage.isAbandoned = true)
      ∧ ((f e).stage.isSubmitted = true → e.stage.isSubmitted = true ∨ e.stage = .waiting)) :
    Law (E.map f) H D G W C fun _ => False := by
  have hov : ∀ e ∈ E, ∀ h : Holding, (f e).overlaps h = e.overlaps h := by
    intro e he h; simp only [Entry.overlaps, Entry.meets, (hf e he).2.2.1, (hf e he).2.2.2.1]
  have hch : ∀ e ∈ E, (f e).changesBlocks → e.changesBlocks := by
    intro e he h; simpa only [Entry.changesBlocks, (hf e he).2.1] using h
  refine { l with wait := ?_, ended := ?_, timer := ?_, write := ?_, settled := ?_ }
  · intro x hx hw
    obtain ⟨e, he, rfl⟩ := List.mem_map.1 hx
    obtain ⟨h1, h2, -, -, h5, -⟩ := hf e he
    rw [h1, h2]; exact l.wait e he (h5 hw)
  · intro x hx hw hd
    obtain ⟨e, he, rfl⟩ := List.mem_map.1 hx
    obtain ⟨h1, h2, -, -, -, h6, -⟩ := hf e he
    rw [h1] at hd; rw [h2] at hw
    exact h6 (l.ended e he hw hd)
  · intro q hq
    refine ⟨(l.timer q hq).1, fun x hx hw => ?_⟩
    obtain ⟨e, he, rfl⟩ := List.mem_map.1 hx
    obtain ⟨h1, h2, -, -, -, -, h7⟩ := hf e he
    have hw' : e.writeOf q = true := by simpa only [Entry.writeOf, h1, h2] using hw
    by_contra hs
    rcases h7 (by simpa using hs) with h | h
    · rw [(l.timer q hq).2 e he hw'] at h; cases h
    · rcases l.wait e he h with h | h
      · exact h
      · have hpq : e.port = q := by simp only [Entry.writeOf, Bool.and_eq_true, decide_eq_true_eq] at hw'; exact hw'.1
        rw [hpq, (l.timer q hq).1] at h; exact h.1
  · intro x hx h hm hc ho
    obtain ⟨e, he, rfl⟩ := List.mem_map.1 hx
    rw [hov e he]; rw [(hf e he).1] at ho
    exact l.write e he h hm (hch e he hc) ho
  · intro x hx h hm hc ho hor
    obtain ⟨e, he, rfl⟩ := List.mem_map.1 hx
    rw [hov e he] at ho
    exact (hf e he).2.2.2.2.2.1 (l.settled e he h hm (hch e he hc) ho hor)

/-! ## Changes of a path -/

/-- The paths with port `p`'s core replaced. -/
def Core.set (C : Core) (p : Port) (c : PathState × Option Nat) : Core := fun q => if q = p then c else C q

@[simp] theorem Core.set_self (p : Port) (c : PathState × Option Nat) : (C.set p c) p = c := by simp [Core.set]

theorem Core.set_of_ne {p q : Port} (h : q ≠ p) (c : PathState × Option Nat) : (C.set p c) q = C q := by simp [Core.set, h]

/-- A path moves to MEMBER, SUSPECT or LOST from a state that is none of LOST's successors but FENCED; at LOST its write-class entries are
excused. -/
theorem Law.toMember (l : Law E H D G W C fun _ => False) (p : Port) (c : PathState) (hold : (C p).1 ≠ .draining ∧ (C p).1 ≠ .shedding)
    (hnew : c = .member ∨ c = .suspect ∨ c = .lost) : Law E H D G W (C.set p (c, (C p).2))
      fun e => c = .lost ∧ e.port = p ∧ e.kind.writeClass = true := by
  have hmw : c.mayWait := by rcases hnew with rfl | rfl | rfl <;> trivial
  have hmo : c.mayOwn := by rcases hnew with rfl | rfl | rfl <;> trivial
  have hns : c ≠ .shedding := by rcases hnew with rfl | rfl | rfl <;> decide
  have hnd : ¬ c.drained := by rcases hnew with rfl | rfl | rfl <;> exact id
  have hnl : ¬ (C p).1.leaving := by
    have := hold; revert this; cases (C p).1 <;> simp [PathState.leaving]
  have hst : ∀ q, ((C.set p (c, (C p).2)) q).1 = .shedding ↔ (C q).1 = .shedding := by
    intro q; by_cases hq : q = p
    · subst hq; simp [hns, hold.2]
    · rw [Core.set_of_ne hq]
  refine Law.mk ?_ ?_ ?_ (fun q => by rw [l.walk q, hst]) l.nodup ?_ l.write l.settled l.due l.dueGen l.ids l.gens
  · intro e he hw
    by_cases hq : e.port = p
    · subst hq
      cases hk : e.kind.writeClass
      · right; rw [Core.set_self]; exact ⟨hmw, fun _ => rfl⟩
      · by_cases hc : c = .lost
        · exact .inl ⟨hc, rfl, rfl⟩
        · right; rw [Core.set_self]; exact ⟨hmw, fun h => absurd h hc⟩
    · right; rw [Core.set_of_ne hq]
      exact (l.wait e he hw).resolve_left id
  · intro e he hw hd
    by_cases hq : e.port = p
    · subst hq; rw [Core.set_self] at hd; exact absurd hd hnd
    · rw [Core.set_of_ne hq] at hd; exact l.ended e he hw hd
  · intro q hq'
    by_cases hq : q = p
    · subst hq; rw [Core.set_self] at hq'; exact absurd (l.timer q hq').1 hold.1
    · rw [Core.set_of_ne hq] at hq' ⊢; exact l.timer q hq'
  · intro h hm
    have := l.own h hm
    revert this; unfold ownOk
    cases h.tenure with
    | held q => dsimp only; by_cases hq : q = p
                · subst hq; rw [Core.set_self]; exact fun _ => hmw
                · rw [Core.set_of_ne hq]; exact id
    | releasing q t => dsimp only; by_cases hq : q = p
                       · subst hq; rw [Core.set_self]; exact fun _ => ⟨hmo, fun h => absurd h hns⟩
                       · rw [Core.set_of_ne hq]; exact id
    | handing q t => dsimp only; by_cases hq : q = p
                     · subst hq; rw [Core.set_self]; exact fun _ => ⟨hmo, fun h => absurd h hns⟩
                     · rw [Core.set_of_ne hq]; exact id
    | pending q => dsimp only; by_cases hq : q = p
                   · subst hq; exact fun h => absurd h hnl
                   · rw [Core.set_of_ne hq]; exact id
    | orphaned q => exact id

/-- Entry to DRAINING: the path, and the port's HELD records PENDING; the port's entries are excused until they are withdrawn (R119). -/
theorem Law.toDraining (l : Law E H D G W C fun _ => False) (p : Port)
    (hold : (C p).1 = .member ∨ (C p).1 = .suspect ∨ (C p).1 = .lost) :
    Law E (H.map (Holding.toPending p)) D G W (C.set p (.draining, (C p).2)) fun e => e.port = p := by
  have hns : (C p).1 ≠ .shedding := by rcases hold with h | h | h <;> rw [h] <;> decide
  have hnd : (C p).1 ≠ .draining := by rcases hold with h | h | h <;> rw [h] <;> decide
  have hst : ∀ q, ((C.set p (PathState.draining, (C p).2)) q).1 = .shedding ↔ (C q).1 = .shedding := by
    intro q; by_cases hq : q = p
    · subst hq; simp [hns]
    · rw [Core.set_of_ne hq]
  have hT : ∀ h : Holding, (h.toPending p).id = h.id ∧ (h.toPending p).gen = h.gen ∧ (h.toPending p).ns = h.ns
      ∧ (h.toPending p).start = h.start ∧ (h.toPending p).length = h.length
      ∧ (h.toPending p).tenure.owner = h.tenure.owner
      ∧ (h.toPending p).tenure = (if h.tenure = .held p then .pending p else h.tenure) := by
    intro h; unfold Holding.toPending; split
    · next ht => simp [Holding.withTenure, ht, Tenure.owner]
    · simp
  have hov : ∀ (e : Entry) (h : Holding), e.overlaps (h.toPending p) = e.overlaps h := by
    intro e h; obtain ⟨-, -, a, b, c, -⟩ := hT h; simp only [Entry.overlaps, a, b, c]
  have hnm : ∀ (d : Due) (h : Holding), d.names (h.toPending p) = d.names h := by
    intro d h; obtain ⟨a, b, -⟩ := hT h; simp only [Due.names, a, b]
  refine Law.mk ?_ ?_ ?_ (fun q => by rw [l.walk q, hst]) l.nodup ?_ ?_ ?_ ?_ l.dueGen ?_ ?_
  · intro e he hw
    by_cases hq : e.port = p
    · exact .inl hq
    · right; rw [Core.set_of_ne hq]
      exact (l.wait e he hw).resolve_left id
  · intro e he hw hd
    by_cases hq : e.port = p
    · subst hq; rw [Core.set_self] at hd; exact absurd hd id
    · rw [Core.set_of_ne hq] at hd; exact l.ended e he hw hd
  · intro q hq'
    by_cases hq : q = p
    · subst hq; rw [Core.set_self] at hq'; exact absurd (l.timer q hq').1 hnd
    · rw [Core.set_of_ne hq] at hq' ⊢; exact l.timer q hq'
  · intro h' hm'
    obtain ⟨h, hm, rfl⟩ := List.mem_map.1 hm'
    have := l.own h hm
    revert this; unfold ownOk
    rw [(hT h).2.2.2.2.2.2]
    simp only [hnm]
    cases h.tenure with
    | held q => dsimp only; by_cases hq : q = p
                · subst hq; simp [Core.set_self, PathState.leaving]
                · simp only [Tenure.held.injEq, hq, if_false]; rw [Core.set_of_ne hq]; exact id
    | releasing q t => dsimp only; by_cases hq : q = p
                       · subst hq; simp [Core.set_self, PathState.mayOwn]
                       · simp only [reduceCtorEq, if_false]; rw [Core.set_of_ne hq]; exact id
    | handing q t => dsimp only; by_cases hq : q = p
                     · subst hq; simp [Core.set_self, PathState.mayOwn]
                     · simp only [reduceCtorEq, if_false]; rw [Core.set_of_ne hq]; exact id
    | pending q => dsimp only; by_cases hq : q = p
                   · subst hq; simp [Core.set_self, PathState.leaving]
                   · simp only [reduceCtorEq, if_false]; rw [Core.set_of_ne hq]; exact id
    | orphaned q => simp
  · intro e he h' hm' hc ho
    obtain ⟨h, hm, rfl⟩ := List.mem_map.1 hm'
    rw [hov]; rw [(hT h).2.2.2.2.2.1] at ho; exact l.write e he h hm hc ho
  · intro e he h' hm' hc ho hor
    obtain ⟨h, hm, rfl⟩ := List.mem_map.1 hm'
    rw [hov] at ho; rw [(hT h).2.2.2.2.2.1] at hor; simp only [hnm] at hor
    exact l.settled e he h hm hc ho hor
  · intro d hd h' hm' hn
    obtain ⟨h, hm, rfl⟩ := List.mem_map.1 hm'
    rw [hnm] at hn
    obtain ⟨h1, h2⟩ := l.due d hd h hm hn
    have hnh : h.tenure ≠ .held p := fun ht => by
      have := l.held_not_due hm ht d hd; rw [hn] at this; cases this
    rw [(hT h).2.2.2.2.2.1, (hT h).2.2.2.2.2.2, if_neg hnh]
    exact ⟨h1, h2⟩
  · rw [List.map_map]
    have : ((fun x : Holding => x.id) ∘ Holding.toPending p) = fun x => x.id := by funext h; exact (hT h).1
    rw [this]; exact l.ids
  · intro h' hm'
    obtain ⟨h, hm, rfl⟩ := List.mem_map.1 hm'
    rw [(hT h).2.1]; exact l.gens h hm

/-- The end of a drain, when every write-class entry of the port is ABANDONED: the path sheds, every completion of its records is due, and it
joins the walk queue (R126). -/
theorem Law.toShedding (l : Law E H D G W C fun _ => False) (p : Port) (hold : (C p).1 = .draining)
    (hE : ∀ e ∈ E, e.writeOf p = true → e.stage.isAbandoned = true) :
    Law E H (D ++ H.filterMap fun h => h.completion p) G (W ++ [p]) (C.set p (.shedding, none)) fun _ => False := by
  have hnw : p ∉ W := fun h => by have := (l.walk p).1 h; rw [hold] at this; cases this
  have hany : ∀ h ∈ H, ∀ q t, (h.tenure = .releasing q t ∨ h.tenure = .handing q t) → q = p →
      (D ++ H.filterMap fun h => h.completion p).any (fun d => d.names h) = true := by
    intro h hm q t ht hq; subst hq
    refine List.any_eq_true.2 ⟨{ id := h.id, gen := h.gen, port := q, kind := h.tenure.dueKind.getD .release }, ?_, by simp [Due.names]⟩
    refine List.mem_append_right _ (List.mem_filterMap.2 ⟨h, hm, ?_⟩)
    rcases ht with ht | ht <;> simp [Holding.completion, ht, Tenure.dueKind, Tenure.owner]
  obtain ⟨h1, h2, h3⟩ := newDue_laws p (fun _ => true) l.ids l.gens l.settled l.due l.dueGen
    (fun h hm _ hc e he hch hov => by
      obtain ⟨d, hd⟩ := Option.isSome_iff_exists.1 hc
      have ho := (Holding.completion_some hd).2.2.2.1
      by_cases hq : e.port = p
      · exact hE e he (by simp [Entry.writeOf, hq, Entry.writeClass_of_changes hch])
      · have : p = e.port.partner := Port.eq_partner_of_ne (Ne.symm hq)
        rw [l.write e he h hm hch (by rw [ho, this])] at hov; cases hov)
    (H.filterMap fun h => h.completion p) (by simp)
  refine Law.mk ?_ ?_ ?_ ?_ ?_ ?_ l.write h1 h2 h3 l.ids l.gens
  · intro e he hw
    by_cases hq : e.port = p
    · subst hq
      have := (l.wait e he hw).resolve_left id
      rw [hold] at this; exact absurd this.1 id
    · rw [Core.set_of_ne hq]; exact l.wait e he hw
  · intro e he hw hd
    by_cases hq : e.port = p
    · exact hE e he (by simp [Entry.writeOf, hq, hw])
    · rw [Core.set_of_ne hq] at hd; exact l.ended e he hw hd
  · intro q hq'
    by_cases hq : q = p
    · subst hq; rw [Core.set_self] at hq'; cases hq'
    · rw [Core.set_of_ne hq] at hq' ⊢; exact l.timer q hq'
  · intro q
    by_cases hq : q = p
    · subst hq; simp
    · rw [Core.set_of_ne hq, ← l.walk q]; simp [hq]
  · rw [List.nodup_append]
    refine ⟨l.nodup, by simp, ?_⟩
    intro a ha b hb; simp only [List.mem_singleton] at hb; subst hb; rintro rfl; exact hnw ha
  · intro h hm
    have := l.own h hm
    have hany' := hany h hm
    revert this hany'; unfold ownOk
    cases h.tenure with
    | held q => dsimp only; by_cases hq : q = p
                · subst hq; rw [hold]; exact fun a => absurd a id
                · rw [Core.set_of_ne hq]; exact fun a _ => a
    | releasing q t => dsimp only; by_cases hq : q = p
                       · subst hq; rw [Core.set_self]; exact fun _ b => ⟨trivial, fun _ => b q t (.inl rfl) rfl⟩
                       · rw [Core.set_of_ne hq, List.any_append, Bool.or_eq_true]; exact fun a _ => ⟨a.1, fun c => .inl (a.2 c)⟩
    | handing q t => dsimp only; by_cases hq : q = p
                     · subst hq; rw [Core.set_self]; exact fun _ b => ⟨trivial, fun _ => b q t (.inr rfl) rfl⟩
                     · rw [Core.set_of_ne hq, List.any_append, Bool.or_eq_true]; exact fun a _ => ⟨a.1, fun c => .inl (a.2 c)⟩
    | pending q => dsimp only; by_cases hq : q = p
                   · subst hq; rw [Core.set_self]; exact fun _ _ => trivial
                   · rw [Core.set_of_ne hq]; exact fun a _ => a
    | orphaned q => exact fun _ _ => trivial

/-- Entry to FENCED of a port whose walk is over (R128, R130). -/
theorem Law.toFenced (l : Law E H D G W C fun _ => False) (p : Port) (hold : (C p).1 = .shedding)
    (hpend : ∀ h ∈ H, h.tenure ≠ .pending p) (hdue : ∀ d ∈ D, ∀ h ∈ H, d.names h = true → h.completion p = none) :
    Law E H D G (W.filter fun q => q != p) (C.set p (.fenced, (C p).2)) fun _ => False := by
  have hnone : ∀ h ∈ H, h.tenure.owner ≠ some p := by
    intro h hm ho
    have hown := l.own h hm
    have hp' := hpend h hm
    unfold ownOk at hown
    cases ht : h.tenure with
    | held q => rw [ht] at hown ho; cases ho; dsimp only at hown; rw [hold] at hown; exact hown
    | releasing q t =>
      rw [ht] at hown ho; cases ho
      obtain ⟨d, hd, hn⟩ := List.any_eq_true.1 (hown.2 hold)
      have := hdue d hd h hm hn
      simp [Holding.completion, ht, Tenure.dueKind, Tenure.owner] at this
    | handing q t =>
      rw [ht] at hown ho; cases ho
      obtain ⟨d, hd, hn⟩ := List.any_eq_true.1 (hown.2 hold)
      have := hdue d hd h hm hn
      simp [Holding.completion, ht, Tenure.dueKind, Tenure.owner] at this
    | pending q => rw [ht] at ho; cases ho; exact hp' ht
    | orphaned q => rw [ht] at ho; cases ho
  refine Law.mk ?_ ?_ ?_ ?_ (l.nodup.filter _) ?_ l.write l.settled l.due l.dueGen l.ids l.gens
  · intro e he hw
    by_cases hq : e.port = p
    · subst hq
      have := (l.wait e he hw).resolve_left id
      rw [hold] at this; exact absurd this.1 id
    · rw [Core.set_of_ne hq]; exact l.wait e he hw
  · intro e he hw hd
    by_cases hq : e.port = p
    · subst hq; exact l.ended e he hw (by rw [hold]; trivial)
    · rw [Core.set_of_ne hq] at hd; exact l.ended e he hw hd
  · intro q hq'
    by_cases hq : q = p
    · subst hq; rw [Core.set_self] at hq'
      have := (l.timer q hq').1; rw [hold] at this; cases this
    · rw [Core.set_of_ne hq] at hq' ⊢; exact l.timer q hq'
  · intro q
    by_cases hq : q = p
    · subst hq; simp
    · rw [Core.set_of_ne hq, ← l.walk q]; simp [hq]
  · intro h hm
    have := l.own h hm
    have hno := hnone h hm
    revert this hno; unfold ownOk
    cases h.tenure with
    | held q => dsimp only [Tenure.owner]; by_cases hq : q = p
                · subst hq; exact fun _ a => absurd rfl a
                · rw [Core.set_of_ne hq]; exact fun a _ => a
    | releasing q t => dsimp only [Tenure.owner]; by_cases hq : q = p
                       · subst hq; exact fun _ a => absurd rfl a
                       · rw [Core.set_of_ne hq]; exact fun a _ => a
    | handing q t => dsimp only [Tenure.owner]; by_cases hq : q = p
                     · subst hq; exact fun _ a => absurd rfl a
                     · rw [Core.set_of_ne hq]; exact fun a _ => a
    | pending q => dsimp only [Tenure.owner]; by_cases hq : q = p
                   · subst hq; exact fun _ a => absurd rfl a
                   · rw [Core.set_of_ne hq]; exact fun a _ => a
    | orphaned q => exact fun _ _ => trivial

/-- The abort timer of a draining port is set when its SUBMITTED writes have become ABORTING (R123). -/
theorem Law.setTimer (l : Law E H D G W C X) (p : Port) (t : Option Nat)
    (h : t.isSome = true → (C p).1 = .draining ∧ ∀ e ∈ E, e.writeOf p = true → e.stage.isSubmitted = false) :
    Law E H D G W (C.set p ((C p).1, t)) X := by
  have hst : ∀ q, ((C.set p ((C p).1, t)) q).1 = (C q).1 := by
    intro q; by_cases hq : q = p
    · subst hq; simp
    · rw [Core.set_of_ne hq]
  refine Law.mk ?_ ?_ ?_ ?_ l.nodup ?_ l.write l.settled l.due l.dueGen l.ids l.gens
  · intro e; rw [hst]; exact l.wait e
  · intro e; rw [hst]; exact l.ended e
  · intro q hq'
    by_cases hq : q = p
    · subst hq; rw [Core.set_self] at hq' ⊢; exact h hq'
    · rw [Core.set_of_ne hq] at hq' ⊢; exact l.timer q hq'
  · intro q; rw [hst]; exact l.walk q
  · intro h' hm
    have := l.own h' hm
    simpa only [ownOk, hst] using this

/-! ## Changes of the records -/

/-- A record that the laws let stand in the table beside the entries, the due completions and the counter. -/
structure Placed (E : List Entry) (D : List Due) (G : Option Nat) (C : Core) (h : Holding) : Prop where
  own : ownOk C D h
  write : ∀ e ∈ E, e.changesBlocks → h.tenure.owner = some e.port.partner → e.overlaps h = false
  settled : ∀ e ∈ E, e.changesBlocks → e.overlaps h = true →
    (h.tenure.owner = none ∨ D.any (fun d => d.names h) = true) → e.stage.isAbandoned = true
  due : ∀ d ∈ D, d.names h = true → h.tenure.owner = some d.port ∧ h.tenure.dueKind = some d.kind
  gen : givenGeneration G h.gen

theorem Law.placed (l : Law E H D G W C X) {h : Holding} (hm : h ∈ H) : Placed E D G C h where
  own := l.own h hm
  write e he := l.write e he h hm
  settled e he := l.settled e he h hm
  due d hd := l.due d hd h hm
  gen := l.gens h hm

/-- A record for which no completion is due, in a state with an owner that is no member of the other side. -/
theorem Placed.fresh {h : Holding} (hown : ownOk C D h) (hD : ∀ d ∈ D, d.names h = false)
    (hw : ∀ e ∈ E, e.changesBlocks → h.tenure.owner = some e.port.partner → e.overlaps h = false)
    (hs : h.tenure.owner = none → ∀ e ∈ E, e.changesBlocks → e.overlaps h = true → e.stage.isAbandoned = true)
    (hg : givenGeneration G h.gen) : Placed E D G C h where
  own := hown
  write := hw
  settled e he hc ho hor := by
    rcases hor with h1 | h1
    · exact hs h1 e he hc ho
    · exact absurd h1 (not_any_names hD)
  due d hd hn := by rw [hD d hd] at hn; cases hn
  gen := hg

/-- A completion of generation 0 names no record that a grant gave. -/
theorem Due.spent_names {d : Due} {h : Holding} (h0 : d.gen = 0) (hg : givenGeneration G h.gen) : d.names h = false := by
  by_contra hn
  have := (Due.names_of.1 (by simpa using hn)).2
  have := hg.1; omega

/-- The records after a change, each one that stood before or placed soundly; fewer completions may be due, or some spent, but the same
ones for the records that stood before. -/
theorem Law.records (l : Law E H D G W C X) {H' : List Holding} {D' : List Due} {G' : Option Nat} (hD : ∀ d ∈ D', d ∈ D ∨ d.gen = 0)
    (hG : ∀ g, givenGeneration G g → givenGeneration G' g) (ids : (H'.map (·.id)).Nodup)
    (hH : ∀ h ∈ H', (h ∈ H ∧ (D.any (fun d => d.names h) = true → D'.any (fun d => d.names h) = true)) ∨ Placed E D' G' C h) :
    Law E H' D' G' W C X := by
  have hP : ∀ h ∈ H', Placed E D' G' C h := by
    intro h hm
    rcases hH h hm with ⟨h1, h2⟩ | h1
    · have p := l.placed h1
      have live : ∀ d ∈ D', d.names h = true → d ∈ D := fun d hd hn =>
        (hD d hd).resolve_right fun h0 => by rw [Due.spent_names h0 p.gen] at hn; cases hn
      refine ⟨?_, p.write, ?_, fun d hd hn => p.due d (live d hd hn) hn, hG _ p.gen⟩
      · have := p.own
        revert this; unfold ownOk
        cases h.tenure <;> first | exact id | exact fun ⟨a, b⟩ => ⟨a, fun c => h2 (b c)⟩
      · intro e he hc ho hor
        refine p.settled e he hc ho (hor.imp_right fun h3 => ?_)
        obtain ⟨d, hd, hn⟩ := List.any_eq_true.1 h3
        exact List.any_eq_true.2 ⟨d, live d hd hn, hn⟩
    · exact h1
  exact { l with own := fun h hm => (hP h hm).own, write := fun e he h hm => (hP h hm).write e he,
                 settled := fun e he h hm => (hP h hm).settled e he, due := fun d hd h hm => (hP h hm).due d hd,
                 dueGen := fun d hd => (hD d hd).elim (fun h => (l.dueGen d h).imp_right (hG _)) .inl,
                 ids := ids, gens := fun h hm => (hP h hm).gen }

end Sys2Proof.Machine
end

