-- ==== Sys2Proof/Laws/Drain.lean ====
section
/-! SUPPORT. The laws of takeovers, owners and writes through the shared operations: departures, withdrawals, the drain and the walk. -/

namespace Sys2Proof.Machine

/-- What the laws read of the paths. -/
def State.cores (s : State) : Core := fun q => ((s.path q).state, (s.path q).abortTimer)

/-- The laws of a state, with some WAITING entries excused. -/
abbrev State.law (s : State) (X : Entry → Prop) : Prop :=
  Law s.flight.entries s.table.holdings s.table.due s.table.gen s.walk s.cores X

/-- The laws of a state at the end of an event. -/
abbrev State.lawful (s : State) : Prop := s.law fun _ => False

theorem State.forall_ports {P : Port → Prop} : (∀ p, P p) ↔ P .A ∧ P .B :=
  ⟨fun h => ⟨h .A, h .B⟩, fun h p => by cases p; exacts [h.1, h.2]⟩

/-- The laws are what `Safety.lean` states, with the table sound. -/
theorem State.lawful_iff {s : State} (ht : s.tableSound) :
    s.lawful ↔ s.drainsSound ∧ s.ownersSound ∧ s.writeLaw ∧ s.settledSound := by
  constructor
  · intro l
    have hd : ∀ p, s.drainSound p := fun p => by
      refine ⟨?_, ?_, l.timer p, l.walk p⟩
      · rintro e he rfl hw; exact (l.wait e he hw).resolve_left id
      · intro e he hw hd
        simp only [Entry.writeOf, Bool.and_eq_true, decide_eq_true_eq] at hw
        obtain ⟨rfl, hw⟩ := hw
        exact l.ended e he hw hd
    exact ⟨⟨hd .A, hd .B, l.nodup⟩, l.own, l.write, l.settled, l.due, l.dueGen⟩
  · rintro ⟨⟨ha, hb, hn⟩, ho, hw, hs, hd, hg⟩
    have hp : ∀ p, s.drainSound p := State.forall_ports.2 ⟨ha, hb⟩
    exact {
      wait := fun e he hw => .inr ((hp e.port).1 e he rfl hw)
      ended := fun e he hw hd => (hp e.port).2.1 e he (by simp [Entry.writeOf, hw]) hd
      timer := fun q => (hp q).2.2.1
      walk := fun q => (hp q).2.2.2
      nodup := hn, own := ho, write := hw, settled := hs, due := hd, dueGen := hg
      ids := ht.2.2.1, gens := fun h hm => (ht.2.2.2.2.1 h hm).2.2.2.2.1 }

/-! ## The cores after each operation -/

theorem State.cores_of_paths {s t : State} (h : t.paths = s.paths) : t.cores = s.cores := by
  funext q; simp [State.cores, State.path, h]

theorem State.cores_withPath (s : State) (p : Port) (x : Path) : (s.withPath p x).cores = s.cores.set p (x.state, x.abortTimer) := by
  funext q; simp only [State.cores, Core.set, State.path, State.withPath_paths, Pair.get_set]; split <;> rfl

/-- A path record replaced by one with the same state and abort timer. -/
theorem State.cores_withPath_same {s : State} {p : Port} {x : Path} (h : x.state = (s.path p).state)
    (h' : x.abortTimer = (s.path p).abortTimer) : (s.withPath p x).cores = s.cores := by
  rw [State.cores_withPath]; funext q; simp only [Core.set]; split
  · next hq => subst hq; simp [State.cores, h, h']
  · rfl

@[simp] theorem State.onTakeover_cores (s : State) (p : Port) (f : Takeover → Takeover) : (s.onTakeover p f).cores = s.cores :=
  State.cores_withPath_same rfl rfl

@[simp] theorem State.settleResign_cores (s : State) (p : Port) (code : AnswerCode) : (s.settleResign p code).cores = s.cores := by
  unfold State.settleResign; split
  · rw [State.cores_of_paths (State.answer_paths ..)]; exact State.cores_withPath_same rfl rfl
  · rfl

@[simp] theorem State.settleRejoin_cores (s : State) (p : Port) (code : AnswerCode) (result : List Byte) :
    (s.settleRejoin p code result).cores = s.cores := by
  unfold State.settleRejoin; split
  · rw [State.cores_of_paths (State.answer_paths ..)]; exact State.cores_withPath_same rfl rfl
  · rfl

theorem State.enterFenced_cores (s : State) (p : Port) :
    (s.enterFenced p).cores = s.cores.set p (.fenced, (s.cores p).2) := by
  rw [show s.cores.set p (.fenced, (s.cores p).2) = (s.withPath p ((s.path p).fenced s.clock.ms)).cores from
    (State.cores_withPath s p ((s.path p).fenced s.clock.ms)).symm]
  unfold State.enterFenced; dsimp only
  rw [State.settleResign_cores]
  split <;> exact State.cores_of_paths (by simp)

/-! ## Admissions and departures -/

theorem State.law_of {s t : State} {X : Entry → Prop} (hs : s.law X) (h1 : t.flight.entries = s.flight.entries)
    (h2 : t.table.holdings = s.table.holdings) (h3 : t.table.due = s.table.due) (h4 : t.table.gen = s.table.gen) (h5 : t.walk = s.walk)
    (h6 : t.cores = s.cores) : t.law X := by
  simpa only [State.law, h1, h2, h3, h4, h5, h6] using hs

theorem State.law_keeps (X : Entry → Prop) : AdmissionKeeps fun s => s.law X where
  agree h he hs := State.law_of hs he (by rw [h.table]) (by rw [h.table]) (by rw [h.table]) h.walk (State.cores_of_paths h.paths)
  admitted {s t e} h ha he hs := by
    have := hs.admitted ha.waiting ha.path (fun h hm hc ho => ha.held hc hm ho)
    simpa only [State.law, he, h.table, h.walk, State.cores_of_paths h.paths] using this

/-- A departure: the entry is gone, and the waits it ended are due. -/
theorem State.departed_law {s : State} {X Y : Entry → Prop} (e : Entry) (hs : s.law X)
    (hY : ∀ x ∈ s.flight.entries, x.index ≠ e.index → X x → Y x) : (s.departed e).law Y := by
  have h1 := hs.filter (fun x => x.index != e.index) (Y := Y) fun x hx hi hX => hY x hx (by simpa using hi) hX
  unfold State.departed State.endedWaits
  dsimp only
  split
  · simp only [State.law]
    refine h1.newDue e.port (fun h => e.overlaps h && !(s.withFlight _).writesOver e.port h) ?_
    · intro h hm hg hc x hx hch hov
      obtain ⟨d, hd⟩ := Option.isSome_iff_exists.1 hc
      have ho := (Holding.completion_some hd).2.2.2.1
      simp only [Bool.and_eq_true, Bool.not_eq_true'] at hg
      by_cases hq : x.port = e.port
      · have hw := hg.2
        simp only [State.writesOver, State.withFlight_flight, List.any_eq_false] at hw
        exact absurd (by simp [Entry.writeOf, hq, Entry.writeClass_of_changes hch, hov]) (hw x hx)
      · have : e.port = x.port.partner := Port.eq_partner_of_ne (Ne.symm hq)
        rw [h1.write x hx h hm hch (by rw [ho, this])] at hov; cases hov
  · exact State.law_of (s := s.withFlight { s.flight with entries := s.flight.entries.filter fun x => x.index != e.index })
      h1 rfl rfl (by simp) rfl rfl rfl

theorem State.depart_law {s : State} {X Y : Entry → Prop} (e : Entry) (hs : s.law X)
    (hY : ∀ x ∈ s.flight.entries, x.index ≠ e.index → X x → Y x) : (s.depart e).law Y :=
  (State.law_keeps Y).depart e (State.departed_law e hs hY)

/-- Withdrawing entries in turn leaves none of them excused. -/
theorem State.withdrawAll_law : ∀ (es : List Entry) {s : State}, s.law (· ∈ es) → (s.withdrawAll es).lawful
  | [], _, hs => hs.excuse fun _ _ _ h => by cases h
  | e :: es, s, hs => by
    refine State.withdrawAll_law es (s := s.withdraw e) ?_
    have h1 : (s.reply e.port e.tag .fenced).law (· ∈ e :: es) := State.law_of hs (by simp) (by simp) (by simp) (by simp) (by simp)
      (State.cores_of_paths (by simp))
    refine State.depart_law e h1 fun x _ hx hX => ?_
    rcases List.mem_cons.1 hX with rfl | hX
    · exact absurd rfl hx
    · exact hX

/-! ## The drain and the walk -/

theorem settleWalk_law : ∀ (l : List Port) {s : State}, l.Nodup → (∀ p ∈ l, p ∈ s.walk) → s.lawful → (settleWalk l s).lawful
  | [], _, _, _, hs => hs
  | p :: l, s, hn, hl, hs => by
    unfold settleWalk
    split
    · next ho =>
      obtain ⟨hp, hn'⟩ := List.nodup_cons.1 hn
      simp only [State.walkOver, Bool.and_eq_true, Bool.not_eq_true', List.any_eq_false] at ho
      have h1 := hs.toFenced p ((hs.walk p).1 (hl p (by simp)))
        (fun h hm ht => absurd (by simp [Holding.isPendingOf, ht]) (ho.1 h hm))
        (fun d hd h hm hd' => by
          have := ho.2 d hd
          simp only [List.any_eq_true, not_exists, not_and] at this
          have := this h hm
          simp only [hd', Bool.true_and, Bool.not_eq_true] at this
          simpa using this)
      have hw : (s.enterFenced p).walk = s.walk.filter fun q => q != p := by
        unfold State.enterFenced; dsimp only; rw [State.settleResign_walk]; split <;> simp
      refine settleWalk_law l hn' (fun q hq => ?_) ?_
      · rw [hw, List.mem_filter]
        exact ⟨hl q (by simp [hq]), by simpa using fun h : q = p => hp (h ▸ hq)⟩
      · simp only [State.lawful, State.law, hw, State.enterFenced_cores]
        simpa using h1
    · exact hs

theorem State.walkTest_law {s : State} (hs : s.lawful) : s.walkTest.lawful := settleWalk_law s.walk hs.nodup (fun _ h => h) hs

/-- The end of a drain with every write-class entry of the port ABANDONED (R126). -/
theorem State.endDrain_law {s : State} (p : Port) (hs : s.lawful) (hd : (s.path p).state = .draining)
    (hE : ∀ e ∈ s.flight.entries, e.writeOf p = true → e.stage.isAbandoned = true) : (s.endDrain p).lawful := by
  refine State.walkTest_law ?_
  have := hs.toShedding p hd hE
  simp only [State.lawful, State.law, State.withWalk_flight, State.withTable_flight, State.withPath_flight, State.withWalk_table,
    State.withTable_table, State.withPath_table, State.withWalk_walk, State.withTable_walk, State.withPath_walk]
  rw [State.cores_of_paths (s := s.withPath p (s.path p).shed) (by simp), State.cores_withPath]
  exact this

theorem State.drainTest_law {s : State} (p : Port) (hs : s.lawful) : (s.drainTest p).lawful := by
  unfold State.drainTest
  split
  · next h =>
    simp only [Bool.and_eq_true, decide_eq_true_eq, Bool.not_eq_true', List.any_eq_false] at h
    refine State.endDrain_law p hs h.1 fun e he hw => ?_
    have h2 := h.2 e he
    simp only [Entry.inDrain, hw, Bool.true_and, Bool.or_eq_true, not_or] at h2
    have h3 : e.stage ≠ .waiting := fun hs' => by
      have hq : e.port = p := by simp only [Entry.writeOf, Bool.and_eq_true, decide_eq_true_eq] at hw; exact hw.1
      have := (hs.wait e he hs').resolve_left id
      simp only [State.cores, hq, h.1] at this; exact this.1
    revert h2 h3
    cases e.stage <;> simp [Stage.isSubmitted, Stage.isAborting, Stage.isAbandoned]
  · exact hs

/-- Entry to DRAINING (R119). -/
theorem State.enterDraining_law {s : State} (p : Port) (cause : Cause) (hs : s.lawful)
    (hp : (s.path p).state = .member ∨ (s.path p).state = .suspect ∨ (s.path p).state = .lost) : (s.enterDraining p cause).lawful := by
  have h1 : (s.drainBegun p cause).law fun e => e.port = p := by
    have := hs.toDraining p hp
    have hc : (s.drainBegun p cause).cores = s.cores.set p (.draining, (s.cores p).2) := by
      unfold State.drainBegun; dsimp only
      rw [State.cores_of_paths (s := s.withPath p ((s.path p).drained cause
        (if s.isMember p.partner then some p.partner else none) s.clock.ms s.settings.drainExp)) (by simp), State.cores_withPath]
      rfl
    simpa only [State.law, hc, State.drainBegun_holdings, State.drainBegun_due, State.drainBegun_gen, State.drainBegun_flight,
      State.drainBegun_walk] using this
  have h2 := (State.law_keeps _).rejudge p h1
  unfold State.enterDraining; dsimp only
  refine State.drainTest_law p ?_
  refine State.law_of (State.withdrawAll_law (((s.drainBegun p cause).rejudge p).waitingEntries p false) (h2.excuse ?_))
    (by simp) (by simp) (by simp) (by simp) (by simp) (by simp)
  intro e he hw hq
  simp only [State.waitingEntries, List.mem_filter]
  exact ⟨he, by simp [hq, hw, Stage.isWaiting]⟩

theorem State.dropRefused_law {s : State} (p : Port) (was : Bool) (hs : s.lawful) : (s.dropRefused p was).lawful :=
  State.law_of hs (by simp) (by simp) (by simp) (by simp) (by simp) (State.cores_of_paths (by simp))

theorem State.fence_law {s : State} (p : Port) (cause : Cause) (hs : s.lawful)
    (hp : (s.path p).state = .member ∨ (s.path p).state = .suspect ∨ (s.path p).state = .lost) : (s.fence p cause).lawful :=
  State.dropRefused_law _ _ (State.enterDraining_law p cause hs hp)

/-- Entry to LOST of a member (R107). -/
theorem State.enterLost_law {s : State} (p : Port) (cause : Cause) (hs : s.lawful)
    (hp : (s.path p).state = .member ∨ (s.path p).state = .suspect) : (s.enterLost p cause).lawful := by
  have h1 : (s.withPath p ((s.path p).lost cause)).law fun e => e.port = p ∧ e.kind.writeClass = true := by
    have := (hs.toMember p .lost (by rcases hp with h | h <;> simp [State.cores, h]) (by simp)).excuse
      (Y := fun e => e.port = p ∧ e.kind.writeClass = true) fun _ _ _ h => h.2
    simp only [State.law, State.cores_withPath, State.withPath_flight, State.withPath_table, State.withPath_walk]
    exact this
  have h2 := (State.law_keeps _).rejudge p h1
  unfold State.enterLost; dsimp only
  refine State.dropRefused_law _ _ ?_
  refine State.law_of (State.withdrawAll_law (((s.withPath p ((s.path p).lost cause)).rejudge p).waitingEntries p true)
    (h2.excuse ?_)) (by simp) (by simp) (by simp) (by simp) (by simp) ?_
  · intro e he hw hq
    simp only [State.waitingEntries, List.mem_filter]
    exact ⟨he, by simp [hq, hw, Stage.isWaiting]⟩
  · rw [State.cores_of_paths (State.raise_paths ..)]
    exact State.cores_withPath_same rfl rfl

/-- A stage map that moves entries on keeps the laws. -/
theorem State.stages_law {s t : State} (f : Entry → Entry) (hs : s.lawful)
    (hf : ∀ e ∈ s.flight.entries, (f e).port = e.port ∧ (f e).kind = e.kind ∧ (f e).ns = e.ns ∧ (f e).range = e.range
      ∧ ((f e).stage = .waiting → e.stage = .waiting) ∧ (e.stage.isAbandoned = true → (f e).stage.isAbandoned = true)
      ∧ ((f e).stage.isSubmitted = true → e.stage.isSubmitted = true ∨ e.stage = .waiting))
    (h1 : t.flight.entries = s.flight.entries.map f) (h2 : t.table = s.table) (h5 : t.walk = s.walk) (h6 : t.cores = s.cores) :
    t.lawful := by
  have := hs.stages f hf
  simpa only [State.lawful, State.law, h1, h2, h5, h6] using this

end Sys2Proof.Machine
end

