-- ==== Sys2Proof/Laws/Leaving.lean ====
section
/-! SUPPORT. The vocabulary of departures against the machine: the completion a holding waits for, the waits that departures end, the end
of a drain, and what leaves on a path link (R25, R36, R74, R126, R181, R182). -/

namespace Sys2Proof.Machine

theorem Holding.completion_eq_waitOf (h : Holding) (p : Port) : h.completion p = h.waitOf p := by
  unfold Holding.completion Holding.waitOf Tenure.dueKind Tenure.owner
  cases h.tenure <;> simp

/-- The machine's end of a drain is the statements' one (R126). -/
theorem State.endDrain_eq_shed (s : State) (p : Port) : s.endDrain p = s.shed p := by
  have h : (fun h : Holding => h.completion p) = fun h => h.waitOf p := funext fun h => h.completion_eq_waitOf p
  unfold State.endDrain State.shed State.waitsOf
  rw [h]; rfl

/-- The waits that one departure ends are those that its entry's leaving ends (R36, R74). -/
theorem State.endedWaits_eq_waitsEnded (s : State) (e : Entry) (he : e ∈ s.flight.entries)
    (hi : (s.flight.entries.map (·.index)).Nodup) :
    (s.withFlight { s.flight with entries := s.flight.entries.filter fun x => x.index != e.index }).endedWaits e
      = s.waitsEnded e.port fun x => decide (x.index = e.index) := by
  have only : ∀ x ∈ s.flight.entries, x.index = e.index → x = e := fun x hx h => List.inj_on_of_nodup_map hi hx he h
  unfold State.endedWaits State.waitsEnded
  have stays : ∀ h : Holding, (s.flight.entries.any fun x => !decide (x.index = e.index) && x.writeOf e.port && x.overlaps h)
      = (s.withFlight { s.flight with entries := s.flight.entries.filter fun x => x.index != e.index }).writesOver e.port h := by
    intro h
    simp only [State.writesOver, State.withFlight, List.any_filter]
    congr 1; funext x
    by_cases hx : x.index = e.index <;> simp [hx]
  have left : ∀ h : Holding, (s.flight.entries.any fun x => decide (x.index = e.index) && x.writeOf e.port && x.overlaps h)
      = (e.kind.writeClass && e.overlaps h) := by
    intro h
    rw [Bool.eq_iff_iff]
    simp only [List.any_eq_true, Bool.and_eq_true, decide_eq_true_eq, Entry.writeOf]
    exact ⟨fun ⟨x, hx, ⟨⟨h1, _, h2⟩, h3⟩⟩ => by rw [only x hx h1] at h2 h3; exact ⟨h2, h3⟩,
      fun ⟨h2, h3⟩ => ⟨e, he, ⟨⟨rfl, rfl, h2⟩, h3⟩⟩⟩
  cases hw : e.kind.writeClass
  · simp [left, hw]
  · simp only [left, hw, stays, Bool.true_and, if_true, Holding.completion_eq_waitOf]; rfl

/-! ## What leaves on a path link -/

/-- What one sending adds to what has been sent (R182). -/
theorem State.sent_sendOn (s : State) (p q : Port) (o : LinkOut) :
    (s.sendOn p o).sent q = s.sent q ++ if q = p ∧ (s.path p).linkUp = true then o.unmarked.toList else [] := by
  unfold State.sendOn State.sent
  cases hu : (s.path p).linkUp <;> cases p <;> cases q <;>
    simp [State.withOut, Pair.get, Pair.set, List.filterMap_append, List.filterMap_cons] <;> cases o.unmarked <;> rfl

/-- What one sending adds to the hold marks (R181). -/
theorem State.marks_sendOn (s : State) (p q : Port) (o : LinkOut) :
    (s.sendOn p o).marks q = s.marks q ++ if q = p ∧ (s.path p).linkUp = true then o.mark.toList else [] := by
  unfold State.sendOn State.marks
  cases hu : (s.path p).linkUp <;> cases p <;> cases q <;>
    simp [State.withOut, Pair.get, Pair.set, List.filterMap_append, List.filterMap_cons] <;> cases o.mark <;> rfl

/-- A REPLY adds itself to what has been sent, and no hold mark (R183). -/
theorem State.sent_reply (s : State) (p q : Port) (tag : Byte) (code : AnswerCode) :
    (s.reply p tag code).sent q
      = s.sent q ++ if q = p ∧ (s.path p).linkUp = true then [.frame 2 false tag [BitVec.ofNat 8 code.num]] else [] :=
  s.sent_sendOn p q _

theorem State.marks_reply (s : State) (p q : Port) (tag : Byte) (code : AnswerCode) : (s.reply p tag code).marks q = s.marks q := by
  have h := s.marks_sendOn p q (.frame 2 (s.port p).hold tag (be 1 code.num))
  simp only [LinkOut.mark, Option.toList_none, ite_self, List.append_nil] at h
  exact h

end Sys2Proof.Machine
end

