-- ==== Sys2Proof/Laws/Owners.lean ====
section
/-! SUPPORT. The laws of takeovers, owners and writes through the table operations: grants, releases, hand-overs, the walk. -/

namespace Sys2Proof.Machine

variable {E : List Entry} {H : List Holding} {D D' : List Due} {G : Option Nat} {W : List Port} {C : Core} {X : Entry → Prop}

/-- Fewer completions due, or some spent, leave a record placed, if its owner's law stands. -/
theorem Placed.shrink {h : Holding} (p : Placed E D G C h) (hD : ∀ d ∈ D', d ∈ D ∨ d.gen = 0) (ho : ownOk C D' h) :
    Placed E D' G C h where
  own := ho
  write := p.write
  settled e he hc hov hor := p.settled e he hc hov (hor.imp_right fun h1 => by
    obtain ⟨d, hd, hn⟩ := List.any_eq_true.1 h1
    exact List.any_eq_true.2 ⟨d, (hD d hd).resolve_right (fun h0 => by rw [Due.spent_names h0 p.gen] at hn; cases hn), hn⟩)
  due d hd hn := p.due d ((hD d hd).resolve_right fun h0 => by rw [Due.spent_names h0 p.gen] at hn; cases hn) hn
  gen := p.gen

/-- No completion names a record of a generation not given before. -/
theorem Law.fresh_not_due {g : Nat} (l : Law E H D (some g) W C X) (g1 : 1 ≤ g) {h : Holding} (hg : h.gen = g) :
    ∀ d ∈ D, d.names h = false := by
  intro d hd
  by_contra hn
  have h1 := (Due.names_of.1 (by simpa using hn)).2
  rcases l.dueGen d hd with h2 | h2
  · omega
  · have := h2.2; simp only [Option.getD_some] at this; omega

theorem genAfter_mono {g : Nat} (hg : 1 ≤ g ∧ g < 2 ^ 48) (x : Nat) (hx : givenGeneration (some g) x) : givenGeneration (genAfter g) x :=
  genAfter_spec hg.2 x (.inl hx)

theorem genAfter_self {g : Nat} (hg : 1 ≤ g ∧ g < 2 ^ 48) : givenGeneration (genAfter g) g := genAfter_spec hg.2 g (.inr ⟨rfl, hg.1⟩)

theorem State.gen_range {s : State} (ht : s.tableSound) {g : Nat} (hg : s.table.gen = some g) : 1 ≤ g ∧ g < 2 ^ 48 := by
  have := ht.2.2.2.2.2.1; simpa [hg] using this

/-- The record of an id is replaced by one placed soundly; no completion leaves. -/
theorem State.setHolding_law {s t : State} (id : Nat) (f : Holding → Holding) (hs : s.lawful) (hid : ∀ h, (f h).id = h.id)
    (hP : ∀ h ∈ s.table.holdings, h.id = id → Placed s.flight.entries s.table.due t.table.gen s.cores (f h))
    (hG : ∀ g, givenGeneration s.table.gen g → givenGeneration t.table.gen g)
    (h1 : t.table.holdings = s.table.holdings.map fun h => if h.id = id then f h else h) (h2 : t.table.due = s.table.due)
    (h3 : t.flight.entries = s.flight.entries) (h4 : t.walk = s.walk) (h5 : t.cores = s.cores) : t.lawful := by
  have := hs.records (H' := s.table.holdings.map fun h => if h.id = id then f h else h) (G' := t.table.gen) (fun _ => .inl) hG ?_ ?_
  · simpa only [State.lawful, State.law, h1, h2, h3, h4, h5] using this
  · rw [List.map_map]
    have : ((fun x : Holding => x.id) ∘ fun h : Holding => if h.id = id then f h else h) = fun x => x.id := by
      funext h; simp only [Function.comp]; split
      · exact hid h
      · rfl
    rw [this]; exact hs.ids
  · intro h' hm'
    obtain ⟨h, hm, rfl⟩ := List.mem_map.1 hm'
    split
    · next hi => exact .inr (hP h hm hi)
    · exact .inl ⟨hm, fun h => h⟩

/-- Records leave; no completion does. -/
theorem State.filterHoldings_law {s t : State} (f : Holding → Bool) (hs : s.lawful)
    (h1 : t.table.holdings = s.table.holdings.filter f) (h2 : t.table.due = s.table.due) (h6 : t.table.gen = s.table.gen)
    (h3 : t.flight.entries = s.flight.entries) (h4 : t.walk = s.walk) (h5 : t.cores = s.cores) : t.lawful := by
  have := hs.records (H' := s.table.holdings.filter f) (G' := s.table.gen) (fun _ => .inl) (fun _ h => h)
    (hs.ids.sublist (List.filter_sublist.map _)) (fun h hm => .inl ⟨List.mem_of_mem_filter hm, fun h => h⟩)
  simpa only [State.lawful, State.law, h1, h2, h3, h4, h5, h6] using this

/-- A record is made, placed soundly under a new id. -/
theorem State.insertHolding_law {s t : State} (h : Holding) (hs : s.lawful) (hid : h.id ∉ s.table.holdings.map (·.id))
    (hP : Placed s.flight.entries s.table.due t.table.gen s.cores h)
    (hG : ∀ g, givenGeneration s.table.gen g → givenGeneration t.table.gen g)
    (h1 : t.table.holdings = insertHolding h s.table.holdings) (h2 : t.table.due = s.table.due)
    (h3 : t.flight.entries = s.flight.entries) (h4 : t.walk = s.walk) (h5 : t.cores = s.cores) : t.lawful := by
  have hp := insertHolding_perm h s.table.holdings
  have := hs.records (H' := insertHolding h s.table.holdings) (G' := t.table.gen) (fun _ => .inl) hG ?_ ?_
  · simpa only [State.lawful, State.law, h1, h2, h3, h4, h5] using this
  · rw [(hp.map _).nodup_iff]; exact List.nodup_cons.2 ⟨hid, hs.ids⟩
  · intro x hx
    rcases List.mem_cons.1 (hp.mem_iff.1 hx) with rfl | hx
    · exact .inr hP
    · exact .inl ⟨hx, fun h => h⟩

/-! ## Grants and releases -/

theorem State.isMember_iff {s : State} {p : Port} : s.isMember p = true ↔ (s.path p).state = .member ∨ (s.path p).state = .suspect := by
  unfold State.isMember; cases (s.path p).state <;> simp [PathState.isMember]

theorem State.mayWait_of_member {s : State} {p : Port} (h : s.isMember p = true) : (s.cores p).1.mayWait := by
  rcases State.isMember_iff.1 h with h | h <;> simp [State.cores, h, PathState.mayWait]

theorem State.mayOwn_of_member {s : State} {p : Port} (h : s.isMember p = true) : (s.cores p).1.mayOwn := by
  rcases State.isMember_iff.1 h with h | h <;> simp [State.cores, h, PathState.mayOwn]

theorem State.not_shedding_of_member {s : State} {p : Port} (h : s.isMember p = true) : (s.cores p).1 ≠ .shedding := by
  rcases State.isMember_iff.1 h with h | h <;> simp [State.cores, h]

/-- What the checks of an id leave: the record, HELD by the requester (R29). -/
theorem State.ownedHolding_ok {s : State} {p : Port} {id : Nat} {g : Option Nat} {h : Holding} (hh : s.ownedHolding p id g = .ok h) :
    h ∈ s.table.holdings ∧ h.id = id ∧ h.tenure = .held p := by
  have key : s.holdingById id = some h ∧ h.tenure = .held p := by
    unfold State.ownedHolding at hh
    repeat' split at hh
    all_goals first | (cases hh; done) | skip
    all_goals cases hh; exact ⟨by assumption, by assumption⟩
  exact ⟨List.mem_of_find?_eq_some key.1, by simpa using List.find?_some key.1, key.2⟩

theorem State.orphanHolding_ok {s : State} {id : Nat} {code : AnswerCode} {h : Holding} (hh : s.orphanHolding id code = .ok h) :
    h ∈ s.table.holdings ∧ h.id = id ∧ h.tenure.owner = none := by
  unfold State.orphanHolding at hh
  split at hh
  · cases hh
  · next h' heq =>
    split at hh
    · cases hh
    · next o ht => cases hh; exact ⟨List.mem_of_find?_eq_some heq, by simpa using List.find?_some heq, by rw [ht]; rfl⟩
    · cases hh

theorem State.id_unique {s : State} (hs : s.lawful) {x y : Holding} (hx : x ∈ s.table.holdings) (hy : y ∈ s.table.holdings)
    (h : x.id = y.id) : x = y := List.inj_on_of_nodup_map hs.ids hx hy h

/-- ACQUIRE at its grant, from a member (R30, R34). -/
theorem State.acquire_law {s : State} {p : Port} {tag : Byte} {ns st len a h r : Nat} (hs : s.lawful) (ht : s.tableSound)
    (hp : s.isMember p = true) : (State.acquire p tag ns st len a h r s).lawful := by
  have same : ∀ {t : State}, t.flight = s.flight → t.table = s.table → t.walk = s.walk → t.paths = s.paths → t.lawful :=
    fun a b c d => State.law_of hs (by rw [a]) (by rw [b]) (by rw [b]) (by rw [b]) c (State.cores_of_paths d)
  unfold State.acquire
  split
  · next acc hr rk h1 h2 h3 =>
    split
    · dsimp only; split <;> exact same (by simp) (by simp) (by simp) (by simp)
    · next hn =>
      dsimp only
      unfold State.acquireRefusal at hn
      repeat' split at hn
      all_goals first | (cases hn; done) | skip
      next hbusy hroom hg =>
      obtain ⟨g, hg'⟩ := Option.isSome_iff_exists.1 (by simpa [Option.isNone_iff_eq_none, Option.ne_none_iff_isSome] using hg)
      have hr' := State.gen_range ht hg'
      have hgen : (s.newHolding p ns st len acc hr rk).gen = g := by simp [State.newHolding, hg']
      have hn2 := State.freeId_spec (s := s) (by omega)
      refine State.insertHolding_law (s.newHolding p ns st len acc hr rk) hs ?_ ?_ ?_ (by simp [State.advanceGen]) (by simp [State.advanceGen])
        (by simp) (by simp) (State.cores_of_paths (by simp))
      · exact hn2.1
      · have hgt : (((s.withTable { s.table with holdings := insertHolding (s.newHolding p ns st len acc hr rk) s.table.holdings }).advanceGen
            (s.newHolding p ns st len acc hr rk).gen).answer p tag 1 .good (((s.withTable { s.table with holdings := insertHolding (s.newHolding p ns st len acc hr rk) s.table.holdings }).advanceGen
            (s.newHolding p ns st len acc hr rk).gen).holdingRecord (s.newHolding p ns st len acc hr rk))).table.gen = genAfter g := by
          simp [State.advanceGen, hgen]
        rw [hgt]
        have l' := hs
        unfold State.lawful State.law at l'; rw [hg'] at l'
        refine Placed.fresh (by simpa [State.newHolding, ownOk] using State.mayWait_of_member hp) (l'.fresh_not_due (State.gen_range ht hg').1 hgen) ?_ ?_ ?_
        · intro e he hc ho
          simp only [State.newHolding, Tenure.owner, Option.some.injEq] at ho
          have he' : e.port = p.partner := by rw [ho]; simp
          simp only [List.any_eq_true, not_exists, not_and, Bool.not_eq_true] at hbusy
          have := hbusy e he
          simpa [Entry.writeOf, he', Entry.writeClass_of_changes hc, Entry.overlaps, State.newHolding] using this
        · intro ho; simp [State.newHolding, Tenure.owner] at ho
        · rw [hgen]; exact genAfter_self hr'
      · intro x hx; rw [hg'] at hx
        simpa [State.advanceGen, hgen] using genAfter_mono hr' x hx
  · exact same (by simp) (by simp) (by simp) (by simp)

/-- A HELD record's wait begins, at a member (R35, R39). -/
theorem State.toWaiting_law {s : State} {p : Port} {id : Nat} {h : Holding} (t : Tenure) (hs : s.lawful) (hp : s.isMember p = true)
    (hm : h ∈ s.table.holdings) (hi : h.id = id) (hh : h.tenure = .held p)
    (ht : (∃ tag, t = .releasing p tag) ∨ ∃ tag, t = .handing p tag) : (s.setHolding id fun x => x.withTenure t).lawful := by
  refine State.setHolding_law id (fun x => x.withTenure t) hs (fun _ => rfl) (fun x hx hxi => ?_) (fun _ h => h) (by simp [State.setHolding])
    (by simp [State.setHolding]) (by simp) (by simp) (State.cores_of_paths (by simp))
  have : x = h := State.id_unique hs hx hm (hxi.trans hi.symm)
  subst this
  have hnd := hs.held_not_due hx hh
  have hown : t.owner = some p := by rcases ht with ⟨_, rfl⟩ | ⟨_, rfl⟩ <;> rfl
  refine Placed.fresh ?_ hnd ?_ ?_ (hs.gens x hx)
  · rcases ht with ⟨tag, rfl⟩ | ⟨tag, rfl⟩ <;>
      exact ⟨State.mayOwn_of_member hp, fun h => absurd h (State.not_shedding_of_member hp)⟩
  · intro e he hc ho
    refine hs.write e he x hx hc ?_
    rw [hh]; have ho' : t.owner = some e.port.partner := ho
    rw [hown] at ho'; exact ho'
  · intro ho; simp [Holding.withTenure, hown] at ho

theorem State.release_law {s : State} {p : Port} {tag : Byte} {id g : Nat} (hs : s.lawful) (hp : s.isMember p = true) :
    (State.release p tag id g s).lawful := by
  unfold State.release
  split
  · exact State.law_of hs (by simp) (by simp) (by simp) (by simp) (by simp) (State.cores_of_paths (by simp))
  · next h hh =>
    obtain ⟨hm, hi, ht⟩ := State.ownedHolding_ok hh
    split
    · exact State.toWaiting_law _ hs hp hm hi ht (.inl ⟨tag, rfl⟩)
    · exact State.filterHoldings_law (fun h => h.id != id) hs (by simp [State.retire]) (by simp [State.retire]) (by simp [State.retire])
        (by simp) (by simp) (State.cores_of_paths (by simp))

/-! ## Hand-overs -/

/-- The end of a hand-over, given to the receiver or returned (R40). The state `s` is the lawful `s0` with some completions taken
off or spent. -/
theorem State.finishHandOver_law {s0 s : State} {p : Port} {h : Holding} {tag : Byte} (hs : s0.lawful) (ht : s0.tableSound)
    (e1 : s.flight.entries = s0.flight.entries) (e2 : s.table.holdings = s0.table.holdings) (e3 : ∀ d ∈ s.table.due, d ∈ s0.table.due ∨ d.gen = 0)
    (e4 : s.table.gen = s0.table.gen) (e5 : s.walk = s0.walk) (e6 : s.paths = s0.paths) (hm : h ∈ s0.table.holdings)
    (howner : h.tenure.owner = some p) (hmay : (s0.cores p).1.mayOwn)
    (hE : s.unresolved h = false → ∀ e ∈ s0.flight.entries, e.changesBlocks → e.port = p → e.overlaps h = false)
    (hdue : ∀ h' ∈ s0.table.holdings, h'.id ≠ h.id → s0.table.due.any (fun d => d.names h') = true →
      s.table.due.any (fun d => d.names h') = true)
    (hname : ∀ d ∈ s.table.due, d.names h = false) : (s.finishHandOver p h tag).lawful := by
  have hc : s.cores = s0.cores := State.cores_of_paths e6
  have huniq : ∀ x ∈ s0.table.holdings, x.id = h.id → x = h := fun x hx hi => State.id_unique hs hx hm hi
  have main : ∀ (f : Holding → Holding) (t : State), (∀ x, (f x).id = x.id) →
      Placed s0.flight.entries s.table.due t.table.gen s0.cores (f h) →
      (∀ g, givenGeneration s0.table.gen g → givenGeneration t.table.gen g) →
      t.table.holdings = (s.table.holdings.map fun x => if x.id = h.id then f x else x) → t.table.due = s.table.due →
      t.flight.entries = s.flight.entries → t.walk = s.walk → t.cores = s.cores → t.lawful := by
    intro f t hid hP hG h1 h2 h3 h4 h5
    have := hs.records (H' := s0.table.holdings.map fun x => if x.id = h.id then f x else x) (D' := s.table.due) (G' := t.table.gen) e3 hG ?_ ?_
    · simpa only [State.lawful, State.law, h1, h2, h3, h4, h5, e1, e2, e5, hc] using this
    · rw [List.map_map]
      have : ((fun x : Holding => x.id) ∘ fun x : Holding => if x.id = h.id then f x else x) = fun x => x.id := by
        funext x; simp only [Function.comp]; split
        · exact hid x
        · rfl
      rw [this]; exact hs.ids
    · intro h' hm'
      obtain ⟨x, hx, rfl⟩ := List.mem_map.1 hm'
      split
      · next hi => rw [huniq x hx hi]; exact .inr hP
      · next hi => exact .inl ⟨hx, hdue x hx hi⟩
  have pl := (hs.placed hm)
  unfold State.finishHandOver
  split
  · refine main (fun x => x.withTenure (returnTenure (s.path p).state p)) _ (fun _ => rfl) ?_ (by simp [State.setHolding, e4])
      (by simp [State.setHolding]) (by simp [State.setHolding]) (by simp) (by simp) (State.cores_of_paths (by simp))
    have hro : (returnTenure (s.path p).state p).owner = some p := by unfold returnTenure; split <;> rfl
    have hst : (s.path p).state = (s0.cores p).1 := by simp [State.cores, State.path, e6]
    refine Placed.fresh ?_ (fun d hd => hname d hd) ?_ (fun ho => by simp [Holding.withTenure, hro] at ho) ?_
    · rw [hst]; simp only [Holding.withTenure, ownOk, returnTenure]
      cases hx : (s0.cores p).1 <;> rw [hx] at hmay <;> simp_all [PathState.mayOwn, PathState.mayWait, PathState.leaving]
    · intro e he hch ho
      refine pl.write e he hch ?_
      rw [howner]; simpa [Holding.withTenure, hro] using ho
    · have := pl.gen; rw [← e4] at this; simpa [State.setHolding, Holding.withTenure] using this
  · next hn =>
    unfold State.handOverRefusal at hn
    repeat' split at hn
    all_goals first | (cases hn; done) | skip
    next hunr hpart hg =>
    obtain ⟨g, hg'⟩ := Option.isSome_iff_exists.1 (by simpa [Option.isNone_iff_eq_none, Option.ne_none_iff_isSome] using hg)
    have hr' := State.gen_range ht (e4 ▸ hg')
    have hgr : s.table.gen.getD 0 = g := by simp [hg']
    dsimp only
    rw [hgr]
    have l' := hs
    unfold State.lawful State.law at l'; rw [← e4, hg'] at l'
    have hmem' : s0.isMember p.partner = true := by
      have : s.isMember p.partner = true := by simpa using hpart
      simpa [State.isMember, State.path, e6] using this
    refine main (fun x => x.grantedTo p.partner g) _ (fun _ => rfl) ?_ ?_ ?_ ?_ ?_ ?_ ?_
    · refine Placed.fresh (by simpa [Holding.grantedTo, ownOk] using State.mayWait_of_member hmem')
        (fun d hd => (e3 d hd).elim (fun hd => l'.fresh_not_due hr'.1 (h := h.grantedTo p.partner g) rfl d hd)
          fun h0 => Due.spent_names (G := genAfter g) h0 (genAfter_self hr')) ?_ (by simp [Holding.grantedTo, Tenure.owner]) ?_
      · intro e he hch ho
        simp only [Holding.grantedTo, Tenure.owner, Option.some.injEq] at ho
        have hp : e.port = p := by have := congrArg Port.partner ho; simpa using this.symm
        exact hE (by simpa using hunr) e he hch hp
      · have : ∀ x : Nat, x = g → givenGeneration (genAfter g) x := fun x hx => by subst hx; exact genAfter_self hr'
        split <;> simpa [State.advanceGen, Holding.grantedTo] using this g rfl
    · intro x hx; rw [← e4, hg'] at hx
      split <;> simpa [State.advanceGen] using genAfter_mono hr' x hx
    · split <;> simp [State.advanceGen, State.setHolding]
    · split <;> simp [State.advanceGen, State.setHolding]
    · split <;> simp
    · split <;> simp
    · split <;> (rw [State.cores_of_paths (State.answer_paths ..), State.cores_of_paths (State.raise_paths ..)]) <;>
        first | (rw [State.onTakeover_cores]; exact State.cores_of_paths (by simp)) | exact State.cores_of_paths (by simp)

theorem State.handOver_law {s : State} {p : Port} {tag : Byte} {id g : Nat} (hs : s.lawful) (ht : s.tableSound)
    (hp : s.isMember p = true) : (State.handOver p tag id g s).lawful := by
  unfold State.handOver
  split
  · exact State.law_of hs (by simp) (by simp) (by simp) (by simp) (by simp) (State.cores_of_paths (by simp))
  · next h hh =>
    obtain ⟨hm, hi, hheld⟩ := State.ownedHolding_ok hh
    split
    · exact State.law_of hs (by simp) (by simp) (by simp) (by simp) (by simp) (State.cores_of_paths (by simp))
    · split
      · exact State.toWaiting_law _ hs hp hm hi hheld (.inr ⟨tag, rfl⟩)
      · next hw =>
        refine State.finishHandOver_law hs ht rfl rfl (fun _ => .inl) rfl rfl rfl hm (by rw [hheld]; rfl)
          (State.mayOwn_of_member hp) ?_ (fun _ _ _ h => h) (hs.held_not_due hm hheld)
        · intro _ e he hch hq
          by_contra hov
          refine hw ?_
          simp only [State.writesOver, List.any_eq_true]
          exact ⟨e, he, by simp [Entry.writeOf, hq, Entry.writeClass_of_changes hch]; simpa using hov⟩

/-! ## Completions (R25, R37, R40) -/

/-- A completion leaves the queue; the records it does not name keep theirs. -/
theorem due_tail_any {d : Due} {D : List Due} {h : Holding} (hn : d.names h = false) (ha : (d :: D).any (fun d => d.names h) = true) :
    D.any (fun d => d.names h) = true := by
  simpa [hn] using ha

theorem State.dueHolding_some {s : State} {d : Due} {h : Holding} (hh : s.dueHolding d = some h) :
    h ∈ s.table.holdings ∧ d.names h = true := ⟨List.mem_of_find?_eq_some hh, by simpa using List.find?_some hh⟩

theorem State.takeDue_dueHolding (s : State) (d : Due) : s.takeDue.dueHolding d = s.dueHolding d := by
  simp [State.dueHolding]

/-- A completion of the kind its record waits for, or one that names no record. -/
theorem State.complete_law {s : State} {d : Due} {D : List Due} (hs : s.lawful) (ht : s.tableSound) (hd : s.table.due = d :: D) :
    (d.kind = .release → (s.takeDue.completeRelease d).lawful) ∧ (d.kind = .handOver → (s.takeDue.completeHandOver d).lawful) := by
  have hmemd : d ∈ s.table.due := by rw [hd]; simp
  have hsub : ∀ x ∈ D, x ∈ s.table.due ∨ x.gen = 0 := by rw [hd]; exact fun x hx => .inl (List.mem_cons_of_mem _ hx)
  have hoth : ∀ h ∈ s.table.holdings, d.names h = true → ∀ h' ∈ s.table.holdings, h'.id ≠ h.id →
      s.table.due.any (fun d => d.names h') = true → D.any (fun d => d.names h') = true := by
    intro h hm hn h' hm' hne ha
    rw [hd] at ha
    refine due_tail_any ?_ ha
    by_contra hn'
    have := Due.names_unique hs.ids hm' hm (by simpa using hn') hn
    exact hne (by rw [this])
  have e6 : s.takeDue.cores = s.cores := State.cores_of_paths (by simp)
  have gone : s.dueHolding d = none → s.takeDue.lawful := by
    intro hh
    have := hs.records (H' := s.table.holdings) (D' := D) (G' := s.table.gen) hsub (fun _ h => h) hs.ids fun h hm =>
      .inl ⟨hm, fun ha => due_tail_any (by simpa using List.find?_eq_none.1 hh h hm) (hd ▸ ha)⟩
    simpa only [State.lawful, State.law, State.takeDue_holdings, State.takeDue_gen, State.takeDue_due, hd, List.tail_cons, State.takeDue_flight,
      State.takeDue_walk, e6] using this
  have named : ∀ h, s.dueHolding d = some h → h.tenure.owner = some d.port ∧ h.tenure.dueKind = some d.kind := by
    intro h hh
    obtain ⟨hm, hn⟩ := State.dueHolding_some hh
    exact hs.due d hmemd h hm hn
  constructor
  · intro hk
    unfold State.completeRelease
    rw [State.takeDue_dueHolding]
    split
    · next h hh =>
      obtain ⟨hm, hn⟩ := State.dueHolding_some hh
      split
      · next o tag ho =>
        have := hs.records (H' := s.table.holdings.filter fun x => x.id != h.id) (D' := D) (G' := s.table.gen) hsub (fun _ h => h)
          (hs.ids.sublist (List.filter_sublist.map _)) fun x hx => by
            obtain ⟨hx1, hx2⟩ := List.mem_filter.1 hx
            exact .inl ⟨hx1, hoth h hm hn x hx1 (by simpa using hx2)⟩
        have e6 : ((s.takeDue.retire h.id).answer o tag 2 .good []).cores = s.cores := State.cores_of_paths (by simp)
        simp only [State.lawful, State.law, e6]
        simpa [State.retire, hd] using this
      · next hno =>
        have hdk := (named h hh).2
        rw [hk] at hdk
        revert hdk hno; cases h.tenure <;> simp [Tenure.dueKind]
    · next hh => exact gone hh
  · intro hk
    unfold State.completeHandOver
    rw [State.takeDue_dueHolding]
    split
    · next h hh =>
      obtain ⟨hm, hn⟩ := State.dueHolding_some hh
      split
      · next o tag ho =>
        have hown : h.tenure.owner = some o := by rw [ho]; rfl
        have huniq : ∀ x : Due, x.names h = true ↔ x.id = d.id ∧ x.gen = d.gen := by
          intro x; rw [Due.names_of, (Due.names_of.1 hn).1, (Due.names_of.1 hn).2]; constructor <;> rintro ⟨a, b⟩ <;> exact ⟨a.symm, b.symm⟩
        have hdue : (s.takeDue.spendDue d).table.due = D.map d.spend := by simp [State.spendDue, hd]
        have hg0 := (hs.gens h hm).1
        refine State.finishHandOver_law hs ht (by simp) (by simp [State.spendDue]) ?_ (by simp [State.spendDue]) (by simp) (by simp) hm hown ?_ ?_
          ?_ ?_
        · rw [hdue]; intro x hx
          obtain ⟨y, hy, rfl⟩ := List.mem_map.1 hx
          unfold Due.spend; split
          · exact .inr rfl
          · exact hsub y hy
        · have := hs.own h hm; unfold ownOk at this; rw [ho] at this; exact this.1
        · intro hu e he hch _
          by_contra hov
          have hov' : e.overlaps h = true := by simpa using hov
          have hab := hs.settled e he h hm hch hov' (.inr (List.any_eq_true.2 ⟨d, hmemd, hn⟩))
          have : (s.takeDue.spendDue d).unresolved h = true := by
            simp only [State.unresolved, List.any_eq_true]
            exact ⟨e, by simpa using he, by simp [hab, Entry.writeClass_of_changes hch, hov']⟩
          rw [this] at hu; cases hu
        · intro h' hm' hne ha
          obtain ⟨x, hx, hn'⟩ := List.any_eq_true.1 (hoth h hm hn h' hm' hne ha)
          rw [hdue]
          refine List.any_eq_true.2 ⟨x, List.mem_map.2 ⟨x, hx, ?_⟩, hn'⟩
          unfold Due.spend; split
          · next hxd =>
            simp only [Bool.and_eq_true, decide_eq_true_eq] at hxd
            exact absurd ((Due.names_of.1 hn').1.trans (hxd.1.trans (Due.names_of.1 hn).1.symm)) hne
          · rfl
        · rw [hdue]; intro x hx
          obtain ⟨y, hy, rfl⟩ := List.mem_map.1 hx
          unfold Due.spend; split
          · exact Due.spent_names (G := s.table.gen) rfl (hs.gens h hm)
          · next hxd =>
            by_contra hn'
            obtain ⟨a, b⟩ := (huniq y).1 (by simpa using hn')
            exact hxd (by simp [a, b])
      · next hno =>
        have hdk := (named h hh).2
        rw [hk] at hdk
        revert hdk hno; cases h.tenure <;> simp [Tenure.dueKind]
    · next hh => exact gone hh

end Sys2Proof.Machine
end

