-- ==== Sys2Proof/Laws/Ports.lean ====
section
/-! SUPPORT. What the shared operations do to the path ports: the intake, the hold indication and the wait for room. -/

namespace Sys2Proof.Machine

/-! ## The port block after each operation -/

theorem State.port_eq_of_ports {s t : State} (h : t.ports = s.ports) (p : Port) : t.port p = s.port p := by
  simp [State.port, h]

theorem State.setIntake_port (s : State) (p : Port) (frames : List IntakeFrame) :
    (s.setIntake p frames).port p =
      { s.port p with intake := frames, hold := holdAfter (s.port p).hold frames.length } := by
  unfold State.setIntake; dsimp only; split <;> simp [State.port]

theorem State.setIntake_port_partner (s : State) (p : Port) (frames : List IntakeFrame) :
    (s.setIntake p frames).port p.partner = s.port p.partner := by
  unfold State.setIntake; dsimp only; split <;> simp [State.port]

theorem State.takeHead_port (s : State) (p : Port) :
    (s.takeHead p).port p =
      { intake := (s.port p).intake.tail, roomWait := false, hold := holdAfter (s.port p).hold (s.port p).intake.tail.length } := by
  rw [State.takeHead, State.setIntake_port]; simp [State.port]

theorem State.takeHead_port_partner (s : State) (p : Port) : (s.takeHead p).port p.partner = s.port p.partner := by
  rw [State.takeHead, State.setIntake_port_partner]; simp [State.port]

/-- A fact about both ports follows from one about `p` and one about its partner. -/
theorem forall_port_of {P : Port → Prop} (p : Port) (h1 : P p) (h2 : P p.partner) : ∀ q, P q
  | .A => by cases p; exacts [h1, h2]
  | .B => by cases p; exacts [h2, h1]

/-! ## The hold indication (R181) -/

/-- After a change of the intake, an ON indication stands at 7 frames or more, an OFF one at 11 or fewer (R181). -/
theorem holdAfter_sound (before : Bool) (n : Nat) :
    (holdAfter before n = true → 7 ≤ n) ∧ (holdAfter before n = false → n ≤ 11) := by
  cases before <;> simp [holdAfter] <;> omega

/-! ## Soundness of the intakes -/

theorem State.intakesSound_iff (s : State) : s.intakesSound ↔ ∀ p, s.intakeSound p :=
  ⟨fun h p => by cases p; exacts [h.1, h.2], fun h => ⟨h .A, h .B⟩⟩

theorem State.intakeSound_of_port {s t : State} {p : Port} (h : t.port p = s.port p) (hs : s.intakeSound p) : t.intakeSound p := by
  simpa only [State.intakeSound, State.headIo, h] using hs

theorem State.intakesSound_of_ports {s t : State} (hs : s.intakesSound) (h : t.ports = s.ports) : t.intakesSound :=
  (t.intakesSound_iff).2 fun p => s.intakeSound_of_port (State.port_eq_of_ports h p) ((s.intakesSound_iff).1 hs p)

/-- Replacing the intake by sound frames keeps the intakes sound, when no command is left waiting. -/
theorem State.setIntake_sound {s : State} {p : Port} {frames : List IntakeFrame} (hs : s.intakesSound)
    (hlen : frames.length ≤ 16) (htags : (frames.map (·.tag)).Nodup)
    (hwait : (s.port p).roomWait = true → ∃ tag c rest, frames = ⟨tag, .io c⟩ :: rest) : (s.setIntake p frames).intakesSound := by
  rw [State.intakesSound_iff] at hs ⊢
  refine forall_port_of p ?_ (State.intakeSound_of_port (s.setIntake_port_partner p frames) (hs p.partner))
  have hp := s.setIntake_port p frames
  refine ⟨by rw [hp]; exact hlen, by rw [hp]; exact htags, ?_, ?_, ?_⟩
  · rw [hp]; exact (holdAfter_sound _ _).1
  · rw [hp]; exact (holdAfter_sound _ _).2
  · rw [State.headIo, hp]; intro hw; obtain ⟨tag, c, rest, rfl⟩ := hwait hw; rfl

theorem State.takeHead_sound {s : State} (p : Port) (hs : s.intakesSound) : (s.takeHead p).intakesSound := by
  have h := (s.intakesSound_iff).1 hs
  have h1 : (s.withPort p { s.port p with roomWait := false }).intakesSound := by
    rw [State.intakesSound_iff]
    refine forall_port_of p ?_ (State.intakeSound_of_port (by simp [State.port]) (h p.partner))
    simpa [State.intakeSound, State.port] using (⟨(h p).1, (h p).2.1, (h p).2.2.1, (h p).2.2.2.1⟩ : _ ∧ _ ∧ _ ∧ _)
  refine State.setIntake_sound h1 ?_ ?_ (by simp [State.port])
  · have := (h p).1; simp only [List.length_tail]; omega
  · have := (h p).2.1; rw [List.map_tail]; exact this.sublist (List.tail_sublist _)

theorem State.judgeHead_sound {s : State} {p : Port} {tag : Byte} {c : IoCommand} (hh : s.headIo p = some (tag, c))
    (hs : s.intakesSound) : (s.judgeHead p tag c).intakesSound := by
  unfold State.judgeHead
  split
  · exact State.intakesSound_of_ports (State.takeHead_sound p hs) (by simp)
  · split
    · exact State.intakesSound_of_ports (State.takeHead_sound p hs) (by simp)
    · have h := (s.intakesSound_iff).1 hs
      rw [State.intakesSound_iff]
      refine forall_port_of p ?_ (State.intakeSound_of_port (by simp [State.port]) (h p.partner))
      refine ⟨by simpa [State.port] using (h p).1, by simpa [State.port] using (h p).2.1,
        by simpa [State.port] using (h p).2.2.1, by simpa [State.port] using (h p).2.2.2.1, fun _ => ?_⟩
      have : (s.withPort p { s.port p with roomWait := true }).headIo p = s.headIo p := by simp [State.headIo, State.port]
      rw [this, hh]; rfl

theorem State.headIo_of_waitingHead {s : State} {p : Port} {x : Byte × IoCommand} (h : s.waitingHead p = some x) :
    s.headIo p = some x ∧ (s.port p).roomWait = true := by
  unfold State.waitingHead at h; split at h
  · exact ⟨h, by assumption⟩
  · cases h

theorem State.rejudge_sound {s : State} (p : Port) (hs : s.intakesSound) : (s.rejudge p).intakesSound := by
  unfold State.rejudge; split
  · next h => exact State.judgeHead_sound (State.headIo_of_waitingHead h).1 hs
  · exact hs

theorem State.rejudgeBoth_sound {s : State} (full : Bool) (hs : s.intakesSound) : (s.rejudgeBoth full).intakesSound := by
  have h1 := State.rejudge_sound s.flight.spaceTurn hs
  unfold State.rejudgeBoth; dsimp only
  refine State.rejudge_sound _ ?_
  split
  · exact State.intakesSound_of_ports h1 (by simp)
  · exact h1

theorem State.depart_sound {s : State} (e : Entry) (hs : s.intakesSound) : (s.depart e).intakesSound := by
  unfold State.depart; dsimp only
  exact State.rejudgeBoth_sound _ (State.intakesSound_of_ports hs (by simp))

theorem State.withdrawAll_sound (es : List Entry) : ∀ {s : State}, s.intakesSound → (s.withdrawAll es).intakesSound := by
  unfold State.withdrawAll
  induction es with
  | nil => exact fun hs => hs
  | cons e es ih => exact fun hs => ih (State.depart_sound e (State.intakesSound_of_ports hs (by simp)))

theorem State.enterDraining_sound {s : State} (p : Port) (cause : Cause) (hs : s.intakesSound) :
    (s.enterDraining p cause).intakesSound := by
  have h1 : (s.drainBegun p cause).intakesSound := State.intakesSound_of_ports hs (by simp)
  have h2 := State.withdrawAll_sound (((s.drainBegun p cause).rejudge p).waitingEntries p false) (State.rejudge_sound p h1)
  exact State.intakesSound_of_ports h2 (by simp [State.enterDraining])

theorem State.dropRefused_sound {s : State} (p : Port) (was : Bool) (hs : s.intakesSound) : (s.dropRefused p was).intakesSound := by
  unfold State.dropRefused
  repeat' split
  · exact State.intakesSound_of_ports (State.takeHead_sound p hs) (by simp)
  all_goals exact hs

theorem State.fence_sound {s : State} (p : Port) (cause : Cause) (hs : s.intakesSound) : (s.fence p cause).intakesSound :=
  State.dropRefused_sound _ _ (State.enterDraining_sound _ _ hs)

theorem State.enterLost_sound {s : State} (p : Port) (cause : Cause) (hs : s.intakesSound) : (s.enterLost p cause).intakesSound := by
  have h1 : (s.withPath p ((s.path p).lost cause)).intakesSound := State.intakesSound_of_ports hs (by simp)
  have h2 := State.withdrawAll_sound (((s.withPath p ((s.path p).lost cause)).rejudge p).waitingEntries p true)
    (State.rejudge_sound p h1)
  unfold State.enterLost
  exact State.dropRefused_sound _ _ (State.intakesSound_of_ports h2 (by simp only [State.raise_ports, State.withPath_ports]))

theorem State.emptyIntake_sound {s : State} (p : Port) (hs : s.intakesSound) : (s.emptyIntake p).intakesSound := by
  have h := (s.intakesSound_iff).1 hs
  have h1 : (s.withPort p { s.port p with roomWait := false }).intakesSound := by
    rw [State.intakesSound_iff]
    refine forall_port_of p ?_ (State.intakeSound_of_port (by simp [State.port]) (h p.partner))
    simpa [State.intakeSound, State.port] using (⟨(h p).1, (h p).2.1, (h p).2.2.1, (h p).2.2.2.1⟩ : _ ∧ _ ∧ _ ∧ _)
  exact State.setIntake_sound h1 (by simp) (by simp) (by simp [State.port])

end Sys2Proof.Machine
end

