-- ==== Sys2Proof/WellFormed.lean ====
section
/-! DEFINITION. Which commands can stand on the links: the operands the links' own layouts allow. -/

namespace Sys2Proof

/-- A runt is shorter than the four-byte header, and a body length fits its two bytes (R177, R178). -/
def ArrivingFrame.wellFormed : ArrivingFrame → Bool
  | .runt bytes => bytes.length < 4
  | .frame _ _ body => body.length < 65536

/-- A command's operands as the links allow them: a frame with its header's length (R177), and an I2C_WRITE_OTHER that is
neither a write of the request buffer nor one of one byte to the clear-overrun byte, which have rows of their own (R188). -/
def Instr.wellFormed : Instr → Bool
  | .frameArrival _ f => f.wellFormed
  | .i2cWriteOther selector bytes => (selector != 1 || bytes.length != 1) && selector != 2
  | _ => true

end Sys2Proof
end

