-- ==== Sys2Proof/Tests/Slice0.lean ====
section
/-! SUPPORT. Tests on small states: the well-formedness checks, worked cases of the spec, and for each statement with hypotheses a state
that meets them. -/

namespace Sys2Proof.Tests

open Sys2Proof.Machine

/-! ## Small states -/

/-- A member with its link up and a first window of 100 ms. -/
def member : Machine.Path := { Path.powerOn with state := .member, linkUp := true, window := some { start := 0, width := 100 } }

/-- READY with namespace 1 of 40 blocks, both ports members. -/
def ready : State :=
  { State.reset with
    part := { State.reset.part with state := .ready, retryTimer := none }
    table := { State.reset.table with namespaces := [{ id := 1, size := 40, blockSize := 512 }] }
    media := { State.reset.media with identify := 0 }
    paths := ⟨member, member⟩ }

/-- With a request at the head of a port's intake, under tag 9. -/
def asks (s : State) (p : Port) (r : Request) : State :=
  { s with ports := s.ports.set p { intake := [{ tag := 9, msg := .request r }], roomWait := false, hold := false } }

/-- With an I/O command at the head of a port's intake, under tag 9. -/
def sends (s : State) (p : Port) (c : IoCommand) (wait : Bool) : State :=
  { s with ports := s.ports.set p { intake := [{ tag := 9, msg := .io c }], roomWait := wait, hold := false } }

/-- With a request in the mailbox. -/
def mails (s : State) (r : Request) : State := { s with mailbox := { s.mailbox with request := some r.envelope } }

/-- A holding of ten blocks of namespace 1 under id and generation `n`. -/
def holding (n start : Nat) (t : Tenure) : Holding :=
  { id := n, ns := 1, start := start, length := 10, access := .exclusive, heir := .partner, rank := 8, gen := n, tenure := t }

/-- With these holdings, and the next generation 5. -/
def holds (s : State) (l : List Holding) : State := { s with table := { s.table with holdings := l, gen := some 5 } }

/-- A WRITE of two blocks of namespace 1 under tag 3. -/
def write (index : Nat) (p : Port) (start : Nat) (stage : Stage) : Entry :=
  { index := index, port := p, tag := 3, kind := .write, ns := 1, range := some { start := start, count := 2 }, stage := stage, xfer := .none }

/-- With these flight entries. -/
def flies (s : State) (l : List Entry) : State := { s with flight := { s.flight with entries := l } }

/-- With another path state of a port. -/
def stands (s : State) (p : Port) (st : PathState) : State := s.withPath p { s.path p with state := st }

/-- A takeover record with the cause LINK. -/
def record : Takeover := Takeover.begin .link (some 0) 0

/-- Port B is LOST with cause LINK, and port A has the notice. -/
def lostB : State :=
  let s := ready.withPath .B { member with state := .lost, cause := some .link, window := none, takeover := some record }
  s.withTarget (.port .A) { s.target (.port .A) with
    pending := [{ kind := .partnerLost, occurrences := 1, detail := { port := none, value := 2 } }] }

/-! ## Well-formed commands (R177, R178, R188) -/

theorem test_runt_of_four_refused : Instr.wellFormed (.frameArrival .A (.runt [1, 2, 3, 4])) = false := by decide
theorem test_runt_of_three_accepted : Instr.wellFormed (.frameArrival .A (.runt [1, 2, 3])) = true := by decide
theorem test_frame_too_long_refused : Instr.wellFormed (.frameArrival .A (.frame 1 0 (List.replicate 65536 0))) = false := by
  rw [Instr.wellFormed, ArrivingFrame.wellFormed, List.length_replicate]; rfl
theorem test_other_write_to_request_buffer_refused : Instr.wellFormed (.i2cWriteOther 2 []) = false := by decide
theorem test_other_write_to_overrun_byte_refused :
    Instr.wellFormed (.i2cWriteOther 1 [0]) = false ∧ Instr.wellFormed (.i2cWriteOther 1 [0, 0]) = true := by decide

/-! ## Worked cases of the spec -/

/-- R183: WRITE, namespace 1, count 8, generation 5 supplied, start 2. -/
theorem test_command_body :
    messageOf 1 [2, 1, 7, 1, 0, 0, 0, 0, 0, 2, 0, 0, 0, 0, 0, 5]
      = some (.io { kind := .write, ns := 1, start := 2, count := 8, gen := some 5 }) := by decide

/-- R184: ACQUIRE of namespace 2, start 256, length 16, WRITE-GUARD, heir NONE, rank 15. -/
theorem test_acquire_body :
    messageOf 3 [1, 2, 0, 0, 0, 0, 1, 0, 0, 0, 0, 0, 0, 16, 2, 2, 15] = some (.request (.acquire 2 256 16 2 2 15)) := by decide

/-- R186: CONFIGURE of parameter 1, index 2, value 500, in an envelope. -/
theorem test_configure_envelope : envelopeRequest [22, 4, 1, 2, 1, 0xF4] = some (.configure 1 2 500) := by decide

/-- R186: a length that disagrees with the code, and an envelope that ends early. -/
theorem test_bad_envelopes : envelopeRequest [22, 3, 1, 2, 1] = none ∧ envelopeRequest [22, 4, 1, 2, 1] = none := by decide

/-- R185: the carried record of a HELD WRITE-GUARD holding of port B with heir PARTNER, 26 bytes. -/
theorem test_holding_record :
    holdingBytes { id := 258, ns := 1, start := 4, length := 6, access := .writeGuard, heir := .partner, rank := 3, gen := 7,
                   tenure := .held .B } false
      = [1, 2, 1, 1, 0, 0, 0, 0, 0, 4, 0, 0, 0, 0, 0, 6, 0, 0, 0, 0, 0, 7, 1, 49, 3, 0] := by decide

/-- R177: a REPLY, class 2, with the hold flag, under tag 7, with a body of one byte; a hold mark is no frame. -/
theorem test_frame_header :
    (LinkOut.frame 2 true 7 [4]).frameBytes = some [0x82, 7, 0, 1, 4] ∧ (LinkOut.holdMark true).frameBytes = none := by decide

/-- R181: with 11 frames queued the twelfth turns the hold indication ON, and it stays ON down to 7. -/
theorem test_hold_indication :
    (holdAfter false 11, holdAfter false 12, holdAfter true 7, holdAfter true 6) = (false, true, true, false) := by decide

/-- R19: the grant that takes 2^48 - 1 leaves the counter spent. -/
theorem test_counter_spent : genAfter (2 ^ 48 - 2) = some (2 ^ 48 - 1) ∧ genAfter (2 ^ 48 - 1) = none := by decide

/-- R1: an id repeated and a wrong block size are passed over. -/
theorem test_installed :
    installed [⟨3, 10, 512⟩, ⟨3, 20, 4096⟩, ⟨8, 5, 512⟩, ⟨2, 5, 1024⟩, ⟨0, 1, 4096⟩] = [⟨3, 10, 512⟩, ⟨0, 1, 4096⟩] := by decide

/-- R57: blocks 5 to 25 over holdings at 10..19: uncovered, the holding, uncovered. -/
theorem test_coverage :
    (holds ready [holding 1 10 (.held .A)]).coverage 1 5 25
      = [.uncovered 5 9, .holding (holding 1 10 (.held .A)) 10 19, .uncovered 20 25] := by decide

/-- R100: a beacon stamped at the end of a window not yet taken is for the next one. -/
theorem test_beacon_at_window_end : seenAfter member 99 = .set ∧ seenAfter member 100 = .setForNext := by decide

/-- R191: values outside their ranges go to the nearer end. -/
theorem test_clamped :
    ((Parameter.windowLength .A).stored 5, (Parameter.windowLength .A).stored 20000, (Parameter.quota .B).stored 60,
      Parameter.actOnLink.stored 7) = (10, 10000, 56, 1) := by decide

/-- R60: the partner reads under WRITE-GUARD and not under EXCLUSIVE; nobody reads a PENDING holding. -/
theorem test_read_judged :
    judgeRead .B .closed (.holding { holding 1 0 (.held .A) with access := .writeGuard } 0 9) = none
      ∧ judgeRead .B .closed (.holding (holding 1 0 (.held .A)) 0 9) = some .notOwner
      ∧ judgeRead .B .openArea (.holding { holding 1 0 (.pending .A) with access := .writeGuard } 0 9) = some .transferPending := by
  decide

/-- R158: with the thresholds of reset a pending notice of priority 8 asserts the alert line, bit 3 of the status byte. -/
theorem test_alert :
    (ready.withTarget .mgmt { Target.powerOn with
      pending := [{ kind := .partnerSuspect, occurrences := 1, detail := { port := none, value := 3 } }] }).statusByte = 0x28 := by decide

/-- R188: a read under selector 0 begins with the status byte, READY being 2 in bits 4 and 5; one under selector 2 gives zeros. -/
theorem test_reads_by_selector :
    (ready.select 0).readBytes 1 = [0x20] ∧ (ready.select 2).readBytes 3 = [0, 0, 0] := by decide

/-- R127, R175: an earlier takeover's ABANDONED write, answered ABORTED while its port is DRAINING, is answered late and not aborted. -/
theorem test_late_answer_counted :
    let s := ready.withPath .A { member with state := .draining, window := none, takeover := some record }
    (((s.countResolution (write 0 .A 0 (.abandoned 5)) .aborted).path .A).takeover = some { record with answeredLate := 1 })
      ∧ (((s.countResolution (write 0 .A 0 (.aborting 5)) .aborted).path .A).takeover = some { record with aborted := 1 }) := by decide

/-- R36, R74: a FLUSH of the owner that leaves with no other write over a HANDING holding makes a completion due, one being due already. -/
theorem test_second_completion :
    let flush : Entry := { index := 0, port := .A, tag := 3, kind := .flush, ns := 1, range := none, stage := .submitted 0, xfer := .none }
    let s := flies (holds ready [holding 1 0 (.handing .A 9)]) [flush]
    let d : Due := { id := 1, gen := 1, port := .A, kind := .handOver }
    (({ s with table := { s.table with due := [d] } }).depart flush).table.due = [d, d] := by decide

/-! ## States that meet the statements' hypotheses -/

theorem witness_EmptyQueueIsTime :
    (State.reset.pending = [] ∧ (∀ p, (State.reset.path p).window = none ∧ (State.reset.path p).drainTimer = none
        ∧ (State.reset.path p).abortTimer = none) ∧ State.reset.part.retryTimer ≠ some 0 ∧ State.reset.part.resetAbortTimer = none
        ∧ State.reset.part.clearedTimer = none)
      ∧ ({ State.reset.part with retryTimer := some 0 }).retryTimer = some 0
      ∧ (let late := { ready with clock := { ms := 100, us := 0 } };
        late.isMember .A = true ∧ (late.path .A).window = some { start := 0, width := 100 } ∧ 100 ≤ (late.clock.ms - 0).toNat) :=
  ⟨⟨rfl, fun p => by cases p <;> decide, by decide⟩, by decide⟩

theorem witness_ArbiterGrantsInRotation :
    (let s := asks (mails ready (.query 1 0)) .B (.query 1 0);
      s.waits .management = true ∧ s.grantee = some .portB ∧ Source.portB ≠ .management)
      ∧ commandFor .mgmt (.query 1 0) = some (.query .mgmt) ∧ ready.front .mgmt = none
      ∧ (asks ready .A .join).front (.port .A) = some (9, .join) ∧ commandFor (.port .A) .join ≠ commandFor (.port .A) .rejoin := by decide

theorem witness_RequestsRefusedOrWaiting :
    (commandFor (.port .A) (.query 1 0) = some (.query (.port .A))
        ∧ (asks (stands ready .A .outside) .A (.query 1 0)).front (.port .A) = some (9, .query 1 0)
        ∧ (asks (stands ready .A .outside) .A (.query 1 0)).refusal (.port .A) (.query 1 0) = some .notMember)
      ∧ (asks (asks ready .A (.query 1 0)) .B (.query 1 0)).front (.port .B) = some (9, .query 1 0)
      ∧ (asks (asks ready .A (.query 1 0)) .B (.query 1 0)).refusal (.port .B) (.query 1 0) = none
      ∧ (Request.query 1 0).isTable = true
      ∧ (asks (asks ready .A (.query 1 0)) .B (.query 1 0)).grantee ≠ some (clientSource (.port .B)) := by decide

theorem witness_RequestGate :
    State.reset.part.state ≠ .ready ∧ ready.part.state = .ready ∧ (Request.forceFence 1).carriedBy .mgmt = true := by decide

theorem witness_TakingAFrame : ((asks ready .A .join).port .A).intake = { tag := 9, msg := .request .join } :: [] := by decide

theorem witness_RequestsDecodeAsEncoded :
    (Request.acquire 255 (2 ^ 48 - 1) 1 1 2 15).carriedBy (.port .A) = true ∧ (Request.acquire 255 (2 ^ 48 - 1) 1 1 2 15).fits = true
      ∧ (Request.configure 1 2 65535).carriedBy .mgmt = true ∧ (Request.configure 1 2 65535).fits = true
      ∧ classOf 3 = 3 ∧ messageOf 3 [12, 0] = none ∧ envelopeRequest [1, 0] = none
      ∧ ([5, 6] : List Byte)[0 + 1]? = some 6 := by decide

theorem witness_IoCommandsDecodeAsEncoded :
    (∃ c : IoCommand, c.kind ≠ .flush ∧ c.count = 256 ∧ c.fits = true) ∧ (List.replicate 14 (0 : Byte)).length = 14
      ∧ classOf 1 = 1 ∧ classOf 0 ≠ 1 ∧ classOf 0 ≠ 3 :=
  ⟨⟨{ kind := .trim, ns := 0, start := 2 ^ 48 - 1, count := 256, gen := none }, by decide⟩, by decide⟩

theorem witness_StartUp :
    (State.reset.part.state = .starting ∧ installed [⟨7, 1, 512⟩] ≠ [] ∧ installed [⟨8, 1, 512⟩] = []) ∧ ready.part.state ≠ .starting
      ∧ ({ State.reset.part with attempts := 9, retryTimer := some 0 }).retryTimer = some 0 := by decide

theorem witness_ControllerResetEntry :
    (mails ready .controllerReset).front .mgmt = some (0, .controllerReset)
      ∧ (mails { ready with part := { ready.part with state := .resetting } } .controllerReset).front .mgmt = some (0, .controllerReset) := by
  decide

theorem witness_ControllerResetEnd :
    let s : State := { ready with
      part := { ready.part with state := .resetting, resetAbortTimer := some 0, clearedTimer := some 0 } }
    s.part.state = .resetting ∧ s.part.resetAbortTimer = some 0 ∧ s.media.clear = .idle ∧ s.part.clearedTimer = some 0
      ∧ s.table.namespaces ≠ [] ∧ ({ s.media with clear := .awaiting }).clear = .awaiting ∧ State.reset.table.namespaces = [] := by decide

theorem witness_FrameArrival :
    ((ready.path .A).linkUp = true ∧ classOf 1 = 1 ∧ classOf 3 ≠ 1 ∧ classOf 3 ≠ 5)
      ∧ (9 : Byte) ∈ (asks ready .A .join).outstanding .A ∧ messageOf 3 [99] = none ∧ messageOf 3 [] = none
      ∧ (0 : Byte) ∉ ready.outstanding .A ∧ messageOf 3 [12] = some (.request .join) ∧ (ready.port .A).intake.length < 16 := by decide

theorem witness_Beacons :
    ((ready.path .A).linkUp = true ∧ classOf 5 = 5 ∧ (3 : Byte) ≠ 1 ∧ (3 : Byte) ≠ 2 ∧ State.reset.part.state ≠ .ready)
      ∧ (ready.part.state = .ready ∧ (ready.path .A).state.isMember = true ∧ (ready.path .A).last = none
        ∧ (ready.path .A).window = some { start := 0, width := 100 })
      ∧ ((stands ready .A .lost).path .A).state.isMember = false := by decide

theorem witness_StatusAnswers :
    (asks State.reset .A (.status none)).front (.port .A) = some (9, .status none)
      ∧ (mails State.reset (.status (some 4))).front .mgmt = some (0, .status (some 4))
      ∧ (mails State.reset (.status (some 5))).front .mgmt = some (0, .status (some 5)) ∧ (State.reset.statusSection 4).isSome = true := by
  decide

theorem witness_LinkReports : (stands ready .A .lost).isMember .A = false := by decide

theorem witness_EntersLost :
    let s := flies { ready with clock := { ms := 100, us := 0 } } [write 0 .A 0 .waiting]
    let s := s.withPath .A { s.path .A with miss := 2 }
    s.flightSound ∧ s.isMember .A = true ∧ (s.path .A).window = some { start := 0, width := 100 }
      ∧ 100 ≤ (s.clock.ms - 0).toNat ∧ (s.path .A).seen ≠ .set ∧ (s.path .A).m ≤ (s.path .A).miss + 1 := by decide

/-- A WRITE of blocks 2 and 3 of namespace 1. -/
def writeTwo : IoCommand := { kind := .write, ns := 1, start := 2, count := 2, gen := none }

theorem witness_IoCommands :
    let s := sends (holds ready [holding 1 0 (.held .A)]) .A writeTwo false
    let full := { s with settings := { s.settings with quotas := ⟨0, 40⟩ } }
    (s.headIo .A = some (9, writeTwo) ∧ (s.port .A).roomWait = false ∧ s.part.state = .ready ∧ s.checkCommand .A writeTwo = none
        ∧ s.portCount .A < s.settings.quotas.get .A ∧ s.flight.entries.length < 64)
      ∧ (full.checkCommand .A writeTwo = none ∧ full.settings.quotas.get .A ≤ full.portCount .A)
      ∧ (sends ready .A writeTwo false).checkCommand .A writeTwo = some .closedArea
      ∧ (sends State.reset .A writeTwo false).headIo .A = some (9, writeTwo)
      ∧ (sends ready .A writeTwo true).headIo .A = some (9, writeTwo) ∧ ((sends ready .A writeTwo true).port .A).roomWait = true := by
  decide

theorem witness_CoverageBlockByBlock :
    let s := holds ready [holding 1 0 (.held .A)]
    s.tableSound ∧ 1 ≤ writeTwo.count ∧ writeTwo.kind ≠ .flush
      ∧ s.checkCoverage .A writeTwo (s.coverage 1 2 3) = none
      ∧ s.checkCoverage .A { writeTwo with start := 9 } (s.coverage 1 9 10) = some .closedArea := by decide

theorem witness_GenerationCheck :
    (holds ready [holding 1 0 (.held .A)]).tableSound ∧ 1 ≤ writeTwo.count ∧ writeTwo.kind ≠ .flush
      ∧ ({ writeTwo with gen := some 1 }).gen = some 1
      ∧ (holds ready [holding 1 0 (.held .A)]).checkCommand .A { writeTwo with gen := some 0 } = some .stale := by decide

theorem witness_FreedPlaceGoesByTurn :
    let c : IoCommand := { kind := .flush, ns := 1, start := 0, count := 0, gen := none }
    let e := write 0 .A 0 (.submitted 31)
    let s := flies (sends (sends ready .A c true) .B c true)
      (e :: (List.range 31).map (fun i => write (1 + i) .A 0 .waiting) ++ (List.range 32).map fun i => write (32 + i) .B 0 .waiting)
    s.flightSound ∧ s.slotEntry 31 = some e ∧ s.flight.spaceTurn = .A ∧ s.flight.entries.length = 64
      ∧ s.waitingHead .A = some (9, c) ∧ s.waitingHead .B = some (9, c) ∧ s.checkCommand .A c = none ∧ s.checkCommand .B c = none := by
  decide +kernel

/-! ## Ownership requests -/

/-- The body of the last frame that a command sends to a port. -/
def told (s : State) (p : Port) (i : Instr) : Option (List Byte) :=
  match exec i s with
  | .next t =>
    match (t.out.links.get p).getLast? with
    | some (.frame _ _ _ body) => some body
    | _ => none
  | _ => none

/-- Blocks 0 to 9 of port A, 10 to 19 of port B, and a WRITE of port B on blocks 30 and 31. -/
def shared : State := flies (holds ready [holding 1 0 (.held .A), holding 2 10 (.held .B)]) [write 0 .B 30 .waiting]

theorem witness_CommandsEndAndKeepQueue :
    let s := flies ready [{ write 0 .A 0 (.submitted 31) with kind := .read }]
    exec (.pullRequest 31) s = .fault .pullOfNonWrite ∧ (∃ e, s.slotEntry 31 = some e ∧ (s.path e.port).linkUp = true ∧ e.kind ≠ .write) :=
  ⟨rfl, _, rfl, by decide, by decide⟩

theorem witness_AcquireGrants :
    let s := asks shared .A (.acquire 1 32 8 1 2 15)
    s.grants (.port .A) 9 (.acquire 1 32 8 1 2 15) ∧ accessOf 1 = some .exclusive ∧ heirOf 2 = some .none
      ∧ s.namespaceById 1 = some { id := 1, size := 40, blockSize := 512 }
      ∧ (∀ h ∈ s.table.holdings, h.meets 1 32 8 = false)
      ∧ (∀ e ∈ s.flight.entries, e.writeOf .B = true → e.meets 1 32 8 = false) ∧ s.table.holdings.length < 1024 ∧ s.table.gen = some 5 := by
  decide

/-- R30's order, each check at its boundary: MALFORMED, BAD-NAMESPACE, OUT-OF-RANGE, OVERLAP before CONFLICT, CONFLICT, BUSY-RANGE. -/
theorem witness_AcquireRefusals :
    (∀ x ∈ [(Request.acquire 1 0 1 1 1 0, 9), (.acquire 1 0 1 1 1 16, 9), (.acquire 1 0 1 3 1 1, 9), (.acquire 2 0 1 1 1 1, 10),
        (.acquire 1 0 0 1 1 1, 11), (.acquire 1 32 9 1 1 1, 11), (.acquire 1 9 2 1 1 1, 18), (.acquire 1 19 1 1 1 1, 17),
        (.acquire 1 31 1 1 1 1, 19)],
      (asks shared .A x.1).grants (.port .A) 9 x.1 ∧ ((told (asks shared .A x.1) .A (.acquire .A)).bind (·.head?)) = some x.2)
      ∧ (let s := { shared with table := { shared.table with gen := none } };
        told (asks s .A (.acquire 1 32 8 1 1 1)) .A (.acquire .A) = some [23, 1]) := by decide

theorem witness_AcquireRefusals_tableFull :
    let l := List.replicate 1024 { holding 1 0 (.held .A) with ns := 0 }
    (asks (holds ready l) .A (.acquire 1 32 8 1 1 1)).grants (.port .A) 9 (.acquire 1 32 8 1 1 1)
      ∧ 1024 ≤ l.length ∧ l.filter (fun h => h.meets 1 32 8) = [] := by
  refine ⟨⟨⟨rfl, rfl⟩, rfl⟩, ?_⟩
  rw [List.length_replicate, List.filter_replicate]; exact ⟨Nat.le_refl _, rfl⟩

theorem witness_IdChecks :
    let s := holds ready [holding 1 0 (.pending .A), holding 2 10 (.held .B), holding 3 20 (.releasing .A 4), holding 4 30 (.held .A)]
    (∀ x ∈ [(Request.release 0 1, 21), (.release 1 1, 16), (.release 2 2, 21), (.release 3 3, 22), (.release 4 3, 15)],
      (asks s .A x.1).grants (.port .A) 9 x.1 ∧ told (asks s .A x.1) .A (.release .A) = some [x.2, 2])
      ∧ (∀ r ∈ [Request.handOver 1 1, .split 1 1, .setHeir 1 1 1], (asks s .A r).grants (.port .A) 9 r) := by decide

theorem witness_Releases :
    (let s := asks shared .A (.release 1 1);
      s.grants (.port .A) 9 (.release 1 1) ∧ s.holdingById 1 = some (holding 1 0 (.held .A))
        ∧ ∀ e ∈ s.flight.entries, e.writeOf .A = true → e.overlaps (holding 1 0 (.held .A)) = false)
      ∧ (let s := asks (flies shared [write 0 .A 9 .waiting]) .A (.release 1 1);
        s.grants (.port .A) 9 (.release 1 1)
          ∧ ∃ e ∈ s.flight.entries, e.writeOf .A = true ∧ e.overlaps (holding 1 0 (.held .A)) = true) := by decide

/-- With a completion due for holding 1. -/
def completes (s : State) (k : DueKind) : State :=
  { s with table := { s.table with due := [{ id := 1, gen := 1, port := .A, kind := k }], pointer := .internal } }

theorem witness_ReleaseCompletions :
    (let s := completes (holds ready [holding 1 0 (.releasing .A 3)]) .release;
      s.grantee = some .internal ∧ s.table.holdings.find? (fun h => h.id = 1 && h.gen = 1) = some (holding 1 0 (.releasing .A 3)))
      ∧ (completes (holds ready []) .release).grantee = some .internal := by decide

theorem witness_HandOvers :
    (let s := asks shared .A (.handOver 1 1);
      s.grants (.port .A) 9 (.handOver 1 1) ∧ s.isMember .B = true ∧ s.unresolved (holding 1 0 (.held .A)) = false ∧ s.table.gen = some 5
        ∧ s.holdingById 1 = some (holding 1 0 (.held .A))
        ∧ ¬ ∃ e ∈ s.flight.entries, e.writeOf .A = true ∧ e.overlaps (holding 1 0 (.held .A)) = true)
      ∧ (let s := asks (stands shared .B .lost) .A (.handOver 1 1);
        s.grants (.port .A) 9 (.handOver 1 1) ∧ s.isMember .B = false)
      ∧ (let s := asks (flies shared [write 0 .A 9 .waiting]) .A (.handOver 1 1);
        s.isMember .B = true ∧ ∃ e ∈ s.flight.entries, e.writeOf .A = true ∧ e.overlaps (holding 1 0 (.held .A)) = true)
      ∧ (let s := asks (flies shared [write 0 .B 9 (.abandoned 0)]) .A (.handOver 1 1);
        s.grants (.port .A) 9 (.handOver 1 1) ∧ s.unresolved (holding 1 0 (.held .A)) = true
          ∧ ¬ ∃ e ∈ s.flight.entries, e.writeOf .A = true ∧ e.overlaps (holding 1 0 (.held .A)) = true)
      ∧ told (asks { shared with table := { shared.table with gen := none } } .A (.handOver 1 1)) .A (.handOver .A) = some [23, 3] := by
  decide

theorem witness_HandOverCompletions :
    (let s := completes (holds ready [holding 1 0 (.handing .A 3)]) .handOver;
      s.grantee = some .internal ∧ s.unresolved (holding 1 0 (.handing .A 3)) = false ∧ s.isMember .B = true ∧ s.table.gen = some 5
        ∧ s.table.holdings.find? (fun h => h.id = 1 && h.gen = 1) = some (holding 1 0 (.handing .A 3)))
      ∧ (let s := flies (completes (holds ready [holding 1 0 (.handing .A 3)]) .handOver) [write 0 .A 9 (.abandoned 0)];
        s.grantee = some .internal ∧ s.unresolved (holding 1 0 (.handing .A 3)) = true)
      ∧ (completes (holds ready []) .handOver).grantee = some .internal := by decide

theorem witness_Splits :
    (∀ o ∈ [0, 1, 9, 10], (asks shared .A (.split 1 o)).grants (.port .A) 9 (.split 1 o))
      ∧ (asks shared .A (.split 1 9)).holdingById 1 = some (holding 1 0 (.held .A))
      ∧ shared.table.holdings.length < 1024 ∧ shared.table.gen = some 5 := by decide

theorem witness_SetsHeir :
    (∀ x ∈ [(3, 1), (1, 0), (1, 16), (2, 15)], (asks shared .A (.setHeir 1 x.1 x.2)).grants (.port .A) 9 (.setHeir 1 x.1 x.2))
      ∧ heirOf 3 = none ∧ heirOf 2 = some .none ∧ shared.holdingById 1 = some (holding 1 0 (.held .A)) := by decide

/-- Holding 1 is ORPHANED, and nothing of it is unresolved. -/
def orphan : State := holds ready [holding 1 0 (.orphaned .A)]

theorem witness_Adoptions :
    ((asks orphan .B (.adopt 1)).grants (.port .B) 9 (.adopt 1) ∧ (asks orphan .B (.adopt 1)).holdingById 1 = some (holding 1 0 (.orphaned .A))
        ∧ orphan.unresolved (holding 1 0 (.orphaned .A)) = false ∧ orphan.table.gen = some 5)
      ∧ ((mails orphan (.adoptFor 2 1)).grants .mgmt 0 (.adoptFor 2 1) ∧ orphan.isMember .B = true ∧ portNum .B = 2)
      ∧ ((mails orphan (.adoptFor 3 1)).grants .mgmt 0 (.adoptFor 3 1)
        ∧ (stands orphan .B .outside).isMember .B = false
        ∧ (mails (stands orphan .B .outside) (.adoptFor 2 1)).grants .mgmt 0 (.adoptFor 2 1)) := by decide

theorem witness_Dissolves :
    (mails orphan (.dissolve 1)).grants .mgmt 0 (.dissolve 1) ∧ (mails orphan (.dissolve 1)).holdingById 1 = some (holding 1 0 (.orphaned .A))
      ∧ (flies orphan [write 0 .B 9 (.abandoned 0)]).unresolved (holding 1 0 (.orphaned .A)) = true
      ∧ (mails shared (.dissolve 1)).grants .mgmt 0 (.dissolve 1) := by decide

theorem witness_Queries :
    (∀ b ∈ [9, 10, 39, 40], (asks shared .A (.query 1 b)).grants (.port .A) 9 (.query 1 b)) ∧ (asks shared .A (.query 1 39)).tableSound
      ∧ (mails shared (.query 2 0)).grants .mgmt 0 (.query 2 0) ∧ shared.namespaceById 2 = none
      ∧ shared.namespaceById 1 = some { id := 1, size := 40, blockSize := 512 } := by decide

theorem witness_Lists :
    (∀ x ∈ [(0, 1), (9, 1), (10, 16), (39, 16), (40, 1), (0, 0), (0, 17)],
      (asks shared .A (.list 1 x.1 x.2)).grants (.port .A) 9 (.list 1 x.1 x.2))
      ∧ (mails shared (.list 1 0 2)).grants .mgmt 0 (.list 1 0 2) ∧ (mails shared (.list 1 0 3)).grants .mgmt 0 (.list 1 0 3)
      ∧ (shared.table.holdings.filter fun h => h.ns = 1 && 9 ≤ h.start + h.length - 1)[1]? = some (holding 2 10 (.held .B)) := by decide

/-- Port A is SHEDDING and its walk is served; its two PENDING holdings share a rank. -/
def walking : State :=
  { stands (holds ready [holding 1 0 (.pending .A), holding 2 10 (.pending .A)]) .A .shedding with walk := [.A] }

theorem witness_WalkSteps :
    (walking.tableSound ∧ walking.grantee = some .internal ∧ holding 1 0 (.pending .A) ∈ walking.table.holdings
        ∧ (∀ x ∈ walking.table.holdings, x.tenure = .pending .A → x.rank < 8 ∨ (x.rank = 8 ∧ 1 ≤ x.id))
        ∧ walking.unresolved (holding 1 0 (.pending .A)) = false ∧ walking.isMember .B = true ∧ walking.table.gen = some 5)
      ∧ (stands walking .B .outside).isMember .B = false ∧ (stands walking .B .outside).grantee = some .internal := by decide

theorem witness_WalkEnds :
    walking.walk = .A :: [] ∧ holding 1 0 (.pending .A) ∈ walking.table.holdings
      ∧ (∀ h ∈ (holds walking [holding 1 0 (.orphaned .A)]).table.holdings, h.tenure ≠ .pending .A) ∧ walking.table.due = []
      ∧ ({ walking with walk := [] }).walk = [] := by decide

/-! ## Notices -/

/-- With notices pending at port A: CONTENTION of priority 5 and PARTNER-SUSPECT of priority 8. -/
def noticed : State :=
  ready.withTarget (.port .A) { Target.powerOn with
    pending := [{ kind := .contention, occurrences := 255, detail := { port := none, value := 1 } },
                { kind := .partnerSuspect, occurrences := 1, detail := { port := none, value := 3 } }] }

theorem witness_NoticesRecorded :
    noticed.isMember .A = true ∧ noticed.priority .contention ≠ 0 ∧ (stands noticed .A .lost).isMember .A = false
      ∧ (let t := noticed.target (.port .A); max t.threshold t.level < noticed.priority .contention)
      ∧ (let t := ({ noticed.target (.port .A) with threshold := noticed.priority .contention } : Target);
        ¬ (max t.threshold t.level < noticed.priority .contention ∨ noticed.priority .contention = 15)) := by decide

theorem witness_TakesNotice :
    let s := asks noticed .A .takeNotice
    s.takes (.port .A) 9 .takeNotice ∧ (asks ready .A .takeNotice).takes (.port .A) 9 .takeNotice
      ∧ ∃ n ∈ (s.target (.port .A)).pending, ∀ m ∈ (s.target (.port .A)).pending, m = n ∨ s.priority m.kind < s.priority n.kind
        ∨ (s.priority m.kind = s.priority n.kind ∧ n.kind.num < m.kind.num) := by decide

theorem witness_AcknowledgesNotice :
    (∀ v ∈ [0, 15, 16], (asks noticed .A (.setThreshold v)).takes (.port .A) 9 (.setThreshold v))
      ∧ (∀ v ∈ [0, 1, 2, 8, 10, 11], (asks noticed .A (.ackNotice v)).takes (.port .A) 9 (.ackNotice v))
      ∧ (∃ n ∈ (noticed.target (.port .A)).pending, n.kind = .contention)
      ∧ ((asks lostB .A (.ackNotice 1)).takes (.port .A) 9 (.ackNotice 1) ∧ NoticeKind.partnerLost.num = 1
        ∧ ∃ n ∈ (lostB.target (.port .A)).pending, n.kind = .partnerLost) := by decide

/-! ## Path states -/

theorem witness_Joins :
    (∀ st ∈ [PathState.outside, .member, .suspect, .lost, .draining, .shedding, .fenced],
      (asks (stands ready .A st) .A .join).takes (.port .A) 9 .join)
      ∧ (asks ready .A .rejoin).takes (.port .A) 9 .rejoin ∧ (ready.path .A).state.isMember = true := by decide

/-- Without WAITING entries, timers, a walk, or a port in SHEDDING or FENCED the laws of the drains hold. -/
theorem calm_drainsSound (s : State) (hw : s.walk = [])
    (h : ∀ p, ((s.path p).state = .member ∨ (s.path p).state = .lost ∨ (s.path p).state = .draining) ∧ (s.path p).abortTimer = none)
    (he : ∀ e ∈ s.flight.entries, e.stage ≠ .waiting) : s.drainsSound := by
  have one : ∀ p, s.drainSound p := by
    intro p
    refine ⟨fun e h1 _ h3 => absurd h3 (he e h1), fun e _ _ h3 => ?_, fun ha => ?_, ?_⟩
    · rcases (h p).1 with g | g | g <;> rw [g] at h3 <;> exact h3.elim
    · rw [(h p).2] at ha; exact absurd ha (by decide)
    · rw [hw]
      rcases (h p).1 with g | g | g <;> rw [g] <;> exact ⟨fun x => (nomatch x), fun x => (nomatch x)⟩
  exact ⟨one .A, one .B, by rw [hw]; exact List.nodup_nil⟩

/-- Port A's request RESIGN, a fence of port A asked by its partner and by management, and the same with port A LOST. -/
theorem witness_EntersDraining :
    (let s := asks ready .A .resign; s.flightSound ∧ s.takes (.port .A) 9 .resign)
      ∧ (let s := asks ready .B .fencePartner; s.flightSound ∧ s.takes (.port .B) 9 .fencePartner ∧ s.isMember .A = true)
      ∧ (let s := mails ready (.forceFence 1); s.flightSound ∧ s.takes .mgmt 0 (.forceFence 1) ∧ s.isMember .A = true) := by decide

theorem witness_EntersDraining_lost :
    (lostB.path .B).state = .lost ∧ (lostB.path .B).takeover = some record ∧ lostB.isMember .A = true ∧ lostB.flightSound
      ∧ (asks lostB .A .fencePartner).takes (.port .A) 9 .fencePartner
      ∧ (mails lostB (.forceFence 2)).takes .mgmt 0 (.forceFence 2)
      ∧ (asks lostB .A (.ackNotice 1)).takes (.port .A) 9 (.ackNotice 1)
      ∧ (∃ n ∈ (lostB.target (.port .A)).pending, n.kind = .partnerLost)
      ∧ (lostB.path .B).cause = some .link ∧ lostB.settings.actOnLink = true := by decide

theorem witness_FencesWithoutEffect :
    (∀ st ∈ [PathState.outside, .draining, .shedding, .fenced],
      (asks (stands ready .A st) .B .fencePartner).takes (.port .B) 9 .fencePartner
        ∧ (mails (stands ready .A st) (.forceFence 1)).takes .mgmt 0 (.forceFence 1))
      ∧ (∀ v ∈ [0, 3], (mails ready (.forceFence v)).takes .mgmt 0 (.forceFence v))
      ∧ (ready.path .A).state ≠ .lost ∧ (stands lostB .A .outside).isMember .A = false
      ∧ (let t := { lostB with settings := { lostB.settings with actOnLink := false } };
        (t.path .B).cause = some .link ∧ t.settings.actOnLink = false) := by decide

/-- Port A is FENCED, with these keys. -/
def fencedA (rejoin : Bool) (readmit : Option Client) (parked : Option Byte) : State :=
  ready.withPath .A { member with state := .fenced, window := none, rejoinKey := rejoin, readmitKey := readmit, parkedRejoin := parked }

theorem witness_ReturnsToMember :
    (∀ s ∈ [ready, fencedA false none none, fencedA true none (some 7), fencedA false (some .mgmt) none],
      (asks s .B (.readmit none)).takes (.port .B) 9 (.readmit none)
        ∧ (mails s (.readmit (some 1))).takes .mgmt 0 (.readmit (some 1)))
      ∧ (∀ v ∈ [0, 3], (mails ready (.readmit (some v))).takes .mgmt 0 (.readmit (some v)))
      ∧ (∀ s ∈ [fencedA false none none, fencedA false (some .mgmt) none, fencedA true none (some 7)],
        (asks s .A .rejoin).takes (.port .A) 9 .rejoin ∧ (s.path .A).state = .fenced) := by decide

theorem witness_WindowEnds :
    let w : Window := { start := 0, width := 100 }
    let late := { ready with clock := { ms := 100, us := 0 } }
    ((ready.path .A).window = some w ∧ (ready.clock.ms - w.start).toNat < w.width)
      ∧ (late.isMember .A = true ∧ w.width ≤ (late.clock.ms - w.start).toNat ∧ (late.path .A).seen ≠ .set
        ∧ (late.path .A).miss + 1 < (late.path .A).m)
      ∧ (let s := late.withPath .A { member with state := .suspect, miss := 1, seen := .set };
        s.isMember .A = true ∧ (s.path .A).seen = .set ∧ (s.path .A).window = some w)
      ∧ (stands late .A .lost).isMember .A = false := by decide

/-- Port A is DRAINING over a SUBMITTED WRITE. -/
def draining : State :=
  flies (ready.withPath .A { member with state := .draining, window := none, takeover := some record, drainTimer := some 0 })
    [write 0 .A 0 (.submitted 5)]

theorem witness_DrainTimers :
    ((draining.path .A).state = .draining ∧ (draining.path .A).drainTimer = some 0)
      ∧ (let s := draining.withPath .A { draining.path .A with drainTimer := none, abortTimer := some 0 };
        (s.path .A).state = .draining ∧ (s.path .A).abortTimer = some 0) := by decide

/-! ## The media port, the mailbox and the configuration -/

theorem witness_SubmitsOldest :
    (let s := flies ready [write 0 .A 0 (.submitted 0), write 1 .B 20 .waiting, write 2 .A 2 .waiting, write 3 .A 4 .waiting];
      s.flightSound ∧ s.media.failureList = [] ∧ s.media.abortList = [] ∧ s.media.clear ≠ .requested ∧ s.media.identify = 0
        ∧ s.media.turn = .A ∧ s.flight.entries = [write 0 .A 0 (.submitted 0), write 1 .B 20 .waiting] ++ write 2 .A 2 .waiting :: [write 3 .A 4 .waiting]
        ∧ (∀ x ∈ [write 0 .A 0 (.submitted 0), write 1 .B 20 .waiting], x.port = .A → x.stage ≠ .waiting)
        ∧ (∀ x ∈ s.flight.entries, x.stage.slot ≠ some 1) ∧ (∀ j < (1 : Fin 32), ∃ x ∈ s.flight.entries, x.stage.slot = some j))
      ∧ ∀ x ∈ (flies ready [write 1 .B 20 .waiting]).flight.entries, x.port = ready.media.turn → x.stage ≠ .waiting := by decide

theorem witness_SendsInOrder :
    let media := fun (f a : List (Fin 32)) (c : ClearState) (i : Nat) =>
      ({ ready.media with failureList := f, abortList := a, clear := c, identify := i } : MediaBlock)
    (media [31] [0] .requested 1).failureList = 31 :: [] ∧ (media [] [31, 0] .requested 1).abortList = 31 :: [0]
      ∧ (media [] [] .requested 1).clear = .requested ∧ (media [] [] .awaiting 1).clear ≠ .requested ∧ 0 < (media [] [] .idle 1).identify
      ∧ (media [] [] .idle 0).identify = 0 := by
  decide

theorem witness_DriveAnswers :
    (∀ k : Fin 32, ready.slotEntry k = none) ∧ draining.flightSound ∧ draining.slotEntry 5 = some (write 0 .A 0 (.submitted 5))
      ∧ (let s := flies (holds ready [holding 1 0 (.orphaned .A)]) [write 0 .B 0 (.abandoned 5)];
        s.flightSound ∧ s.slotEntry 5 = some (write 0 .B 0 (.abandoned 5))) := by decide

theorem witness_Transfers :
    (ready.slotEntry 31 = none)
      ∧ (let s := flies ready [write 0 .A 0 (.submitted 31)];
        s.slotEntry 31 = some (write 0 .A 0 (.submitted 31)) ∧ (s.path .A).linkUp = true
          ∧ s.namespaceById 1 = some { id := 1, size := 40, blockSize := 512 })
      ∧ (let s := flies (ready.withPath .A { member with linkUp := false }) [write 0 .A 0 (.submitted 31)];
        s.slotEntry 31 = some (write 0 .A 0 (.submitted 31)) ∧ (s.path .A).linkUp = false)
      ∧ (let e := { write 0 .A 0 (.submitted 31) with xfer := .pulling };
        (flies ready [e]).flight.entries = [] ++ e :: [] ∧ e.tag = 3 ∧ e.stage.slot = some 31) := by decide

theorem witness_MailboxAccess :
    (let s : State := { ready with mailbox := { ready.mailbox with request := some [99, 0], answerReady := false } };
      s.mailbox.request = some (99 :: [0]) ∧ s.mailbox.answerReady = false ∧ s.mailbox.resetAnswer = false ∧ envelopeRequest [99, 0] = none
        ∧ ([99] : List Byte).length < 2 ∧ 2 ≤ ([99, 0] : List Byte).length)
      ∧ ∀ k ∈ [0, 1, 2, 3], (ready.select k).mailbox.selector = k := by decide

theorem witness_Configuration :
    (∀ v ∈ [0, 1, 2, 3], (mails ready (.readTakeover v)).takes .mgmt 0 (.readTakeover v))
      ∧ (∀ x ∈ [(1, 2, 65535), (5, 1, 0), (6, 0, 2), (8, 10, 16), (9, 10, 7), (11, 0, 0), (11, 7, 3), (1, 3, 0), (0, 0, 0), (8, 0, 1), (11, 8, 1)],
        (mails ready (.configure x.1 x.2.1 x.2.2)).takes .mgmt 0 (.configure x.1 x.2.1 x.2.2))
      ∧ (mails ready (.readConfig 1 2)).takes .mgmt 0 (.readConfig 1 2) ∧ (mails ready (.readConfig 12 0)).takes .mgmt 0 (.readConfig 12 0) := by
  decide

/-! ## The laws, in states that answer a next state -/

/-- Port A asks for blocks 32 to 39, and the request is next: a state for StepKeepsSettings, StepKeepsTable and StepKeepsFlight. -/
def acquiring : State := { asks shared .A (.acquire 1 32 8 1 2 15) with pending := [.acquire .A] }

theorem witness_StepKeepsSettings_Table_Flight :
    acquiring.settingsSound ∧ acquiring.tableSound ∧ acquiring.flightSound ∧ ∃ t, step acquiring = .next t :=
  ⟨by decide, by decide, by decide, _, rfl⟩

theorem witness_StepKeepsSound :
    let s := { asks (holds ready [holding 1 0 (.held .A)]) .A (.release 1 1) with pending := [.release .A] }
    s.sound ∧ ∃ t, step s = .next t := by
  refine ⟨⟨by decide, by decide, by decide, calm_drainsSound _ rfl (fun p => by cases p <;> decide) (by decide), ?_, by decide, by decide,
    by decide⟩, _, rfl⟩
  intro h hh
  obtain rfl := List.mem_singleton.mp hh
  exact trivial

end Sys2Proof.Tests
end

section
/-! PROOFS. ADOPT, ADOPT-FOR and DISSOLVE (R45 to R47): a request at its grant, the checks of an orphan (R29), and the two statements. -/

namespace Sys2Proof.Machine

/-! ## A request at its grant (R22, R23) -/

/-- The arbiter's grant performs the request. -/
theorem State.atTable_of_grants {s : State} {c : Client} {tag : Byte} {r : Request} (hs : s.grants c tag r) (op : State → State) :
    s.atTable c tag r op = op (s.atGrant c) := by
  obtain ⟨⟨-, hr⟩, hg⟩ := hs
  simp [State.atTable, State.atGrant, hr, hg]

theorem State.front_of_grants {s : State} {c : Client} {tag : Byte} {r : Request} (hs : s.grants c tag r) : s.front c = some (tag, r) := by
  obtain ⟨⟨hf, -⟩, -⟩ := hs
  exact hf

theorem exec_adopt_of_grants {s : State} {p : Port} {tag : Byte} {id : Nat} (hs : s.grants (.port p) tag (.adopt id)) :
    exec (.adopt p) s = .next (State.adoptBy (.port p) tag 6 p id (s.atGrant (.port p))) := by
  have hf : s.front (.port p) = some (tag, .adopt id) := State.front_of_grants hs
  change execAdopt p s = _
  simp only [execAdopt, hf, State.atTable_of_grants hs]

theorem exec_adoptFor_of_grants {s : State} {tag : Byte} {port id : Nat} (hs : s.grants .mgmt tag (.adoptFor port id)) :
    exec .adoptFor s = .next (State.adoptFor port id (s.atGrant .mgmt)) := by
  have hf : s.front .mgmt = some (tag, .adoptFor port id) := State.front_of_grants hs
  change execAdoptFor s = _
  simp only [execAdoptFor, hf, State.atTable_of_grants hs]

theorem exec_dissolve_of_grants {s : State} {tag : Byte} {id : Nat} (hs : s.grants .mgmt tag (.dissolve id)) :
    exec .dissolve s = .next (State.dissolve id (s.atGrant .mgmt)) := by
  have hf : s.front .mgmt = some (tag, .dissolve id) := State.front_of_grants hs
  change execDissolve s = _
  simp only [execDissolve, hf, State.atTable_of_grants hs]

/-! ## What a grant leaves as it was -/

@[simp] theorem State.atGrant_holdingById (s : State) (c : Client) (id : Nat) : (s.atGrant c).holdingById id = s.holdingById id := by
  simp [State.holdingById]

@[simp] theorem State.atGrant_unresolved (s : State) (c : Client) (h : Holding) : (s.atGrant c).unresolved h = s.unresolved h := by
  simp [State.unresolved]

@[simp] theorem State.atGrant_isMember (s : State) (c : Client) (p : Port) : (s.atGrant c).isMember p = s.isMember p := by
  simp [State.isMember, State.path]

@[simp] theorem State.atGrant_orphanHolding (s : State) (c : Client) (id : Nat) (code : AnswerCode) :
    (s.atGrant c).orphanHolding id code = s.orphanHolding id code := by
  simp [State.orphanHolding]

/-! ## The checks of an orphan (R8, R29) -/

section
variable {s : State} {id : Nat} {code : AnswerCode} {h : Holding}

theorem State.orphanHolding_of_absent (hh : s.holdingById id = none) : s.orphanHolding id code = .error .noHolding := by
  simp [State.orphanHolding, hh]

theorem State.orphanHolding_of_pending {o : Port} (hh : s.holdingById id = some h) (ht : h.tenure = .pending o) :
    s.orphanHolding id code = .error code := by
  simp [State.orphanHolding, hh, ht]

theorem State.orphanHolding_of_orphaned {l : Port} (hh : s.holdingById id = some h) (ht : h.tenure = .orphaned l) :
    s.orphanHolding id code = .ok h := by
  simp [State.orphanHolding, hh, ht]

/-- A holding in HELD, RELEASING or HANDING. -/
theorem State.orphanHolding_of_used (hh : s.holdingById id = some h) (hp : ∀ o, h.tenure ≠ .pending o) (ho : ∀ l, h.tenure ≠ .orphaned l) :
    s.orphanHolding id code = .error .wrongState := by
  cases ht : h.tenure with
  | pending o => exact absurd ht (hp o)
  | orphaned l => exact absurd ht (ho l)
  | held _ | releasing _ _ | handing _ _ => simp [State.orphanHolding, hh, ht]

end

theorem Tenure.lastOwner_eq_none_iff {t : Tenure} : t.lastOwner = none ↔ ∀ l, t ≠ .orphaned l := by
  cases t <;> simp [Tenure.lastOwner]

theorem Stage.isAbandoned_iff {x : Stage} : x.isAbandoned = true ↔ ∃ k, x = .abandoned k := by
  cases x <;> simp [Stage.isAbandoned]

theorem IoKind.writeClass_iff {k : IoKind} : k.writeClass = true ↔ k ≠ .read := by
  cases k <;> simp [IoKind.writeClass]

theorem State.unresolved_iff {s : State} {h : Holding} : s.unresolved h = true ↔
    ∃ e ∈ s.flight.entries, (∃ k, e.stage = .abandoned k) ∧ e.kind ≠ .read ∧ e.overlaps h = true := by
  simp [State.unresolved, Stage.isAbandoned_iff, IoKind.writeClass_iff, and_assoc]

/-- Whether a holding is unresolved rests on its range and on the flight table alone. -/
theorem State.unresolved_congr {s t : State} {h x : Holding} (hf : t.flight = s.flight) (hn : x.ns = h.ns) (hs : x.start = h.start)
    (hl : x.length = h.length) : t.unresolved x = s.unresolved h := by
  simp [State.unresolved, Entry.overlaps, hf, hn, hs, hl]

/-! ## ADOPT and ADOPT-FOR at the grant (R45, R46) -/

section
variable {s : State} {c : Client} {tag : Byte} {echo id : Nat} {p : Port} {h : Holding}

theorem State.adoptBy_of_error {code : AnswerCode} (ho : s.orphanHolding id .transferPending = .error code) :
    State.adoptBy c tag echo p id s = s.respond c tag echo code [] := by
  simp [State.adoptBy, ho]

theorem State.adoptBy_of_unresolved (ho : s.orphanHolding id .transferPending = .ok h) (hu : s.unresolved h = true) :
    State.adoptBy c tag echo p id s = s.respond c tag echo .unresolved [] := by
  simp [State.adoptBy, ho, hu]

theorem State.adoptBy_of_spent (ho : s.orphanHolding id .transferPending = .ok h) (hu : s.unresolved h = false)
    (hg : s.table.gen = none) : State.adoptBy c tag echo p id s = s.respond c tag echo .generationSpent [] := by
  simp [State.adoptBy, ho, hu, hg]

/-- An adopted holding is still not unresolved: its range is the orphan's, and no flight entry changes. -/
theorem State.adoptBy_of_granted {g : Nat} (ho : s.orphanHolding id .transferPending = .ok h) (hu : s.unresolved h = false)
    (hg : s.table.gen = some g) :
    State.adoptBy c tag echo p id s = ((s.setHolding id fun x => x.adopted p g).advanceGen g).respond c tag echo .good
      (holdingBytes (h.adopted p g) false) := by
  have hu' : ((s.setHolding id fun x => x.adopted p g).advanceGen g).unresolved (h.adopted p g) = false :=
    (State.unresolved_congr (by simp) rfl rfl rfl).trans hu
  simp [State.adoptBy, ho, hu, hg, State.holdingRecord, hu']

end

theorem portOf_portNum (p : Port) : portOf (portNum p) = some p := by cases p <;> rfl

theorem portOf_eq_none {n : Nat} (h1 : n ≠ 1) (h2 : n ≠ 2) : portOf n = none := by
  unfold portOf
  split
  · exact absurd rfl h1
  · exact absurd rfl h2
  · rfl

theorem State.adoptFor_of_unnamed {s : State} {port id : Nat} (h1 : port ≠ 1) (h2 : port ≠ 2) :
    State.adoptFor port id s = s.placeAnswer 18 .malformed [] := by
  simp [State.adoptFor, portOf_eq_none h1 h2]

theorem State.adoptFor_of_absent {s : State} {p : Port} {id : Nat} (hm : s.isMember p = false) :
    State.adoptFor (portNum p) id s = s.placeAnswer 18 .notMember [] := by
  simp [State.adoptFor, portOf_portNum, hm]

/-- Management's answer goes to the mailbox and carries no tag, so any tag may stand here. -/
theorem State.adoptFor_of_member {s : State} {p : Port} {id : Nat} (tag : Byte) (hm : s.isMember p = true) :
    State.adoptFor (portNum p) id s = State.adoptBy .mgmt tag 18 p id s := by
  simp only [State.adoptFor, portOf_portNum, hm, if_true]
  rfl

/-! ## DISSOLVE at the grant (R47) -/

section
variable {s : State} {id : Nat} {h : Holding}

theorem State.dissolve_of_error {code : AnswerCode} (ho : s.orphanHolding id .wrongState = .error code) :
    State.dissolve id s = s.placeAnswer 19 code [] := by
  simp [State.dissolve, ho]

theorem State.dissolve_of_unresolved (ho : s.orphanHolding id .wrongState = .ok h) (hu : s.unresolved h = true) :
    State.dissolve id s = s.placeAnswer 19 .unresolved [] := by
  simp [State.dissolve, ho, hu]

theorem State.dissolve_of_resolved (ho : s.orphanHolding id .wrongState = .ok h) (hu : s.unresolved h = false) :
    State.dissolve id s = (s.retire id).placeAnswer 19 .good [] := by
  simp [State.dissolve, ho, hu]

theorem State.retire_eq (s : State) (id : Nat) :
    s.retire id = s.withTable { s.table with holdings := s.table.holdings.filter fun x : Holding => x.id ≠ id } := by
  simp [State.retire, bne, beq_eq_decide]

/-- DISSOLVE's check has one code for every holding that is not ORPHANED. -/
theorem State.orphanHolding_of_lastOwner_none (hh : s.holdingById id = some h) (hl : h.tenure.lastOwner = none) :
    s.orphanHolding id .wrongState = .error .wrongState := by
  by_cases hp : ∃ o, h.tenure = .pending o
  · obtain ⟨o, ht⟩ := hp
    exact State.orphanHolding_of_pending hh ht
  · exact State.orphanHolding_of_used hh (not_exists.1 hp) (Tenure.lastOwner_eq_none_iff.1 hl)

end

/-! ## The statements -/

/-- Either request, once its own first checks pass, runs the checks of ADOPT with the port as the adopter (R45, R46). -/
theorem exec_adoption {c : Client} {tag : Byte} {echo id : Nat} {p : Port} {i : Instr} {s : State}
    (hreq : (c = .port p ∧ i = .adopt p ∧ echo = 6 ∧ s.grants c tag (.adopt id))
      ∨ (c = .mgmt ∧ i = .adoptFor ∧ echo = 18 ∧ s.isMember p = true ∧ s.grants c tag (.adoptFor (portNum p) id))) :
    exec i s = .next (State.adoptBy c tag echo p id (s.atGrant c)) := by
  obtain ⟨rfl, rfl, rfl, hs⟩ | ⟨rfl, rfl, rfl, hm, hs⟩ := hreq
  · exact exec_adopt_of_grants hs
  · rw [exec_adoptFor_of_grants hs, State.adoptFor_of_member tag (by simpa using hm)]

/-- Settles O35, by the cases of the orphan checks at the grant. -/
theorem adoptions : Obligations.Adoptions := by
  unfold Obligations.Adoptions
  refine ⟨fun c tag echo id p i s hreq => ?_, fun tag port id s hs => ⟨fun hport => ?_, fun p hp hm => ?_⟩⟩
  · rw [exec_adoption hreq]
    cases hh : s.holdingById id with
    | none => rw [State.adoptBy_of_error (code := .noHolding) (by simp [State.orphanHolding_of_absent hh])]
    | some h =>
      dsimp only
      cases ht : h.tenure with
      | pending o => rw [State.adoptBy_of_error (code := .transferPending) (by simp [State.orphanHolding_of_pending hh ht])]
      | held _ | releasing _ _ | handing _ _ =>
        rw [State.adoptBy_of_error (code := .wrongState) (by simp [State.orphanHolding_of_used hh, ht])]
      | orphaned l =>
        have ho : (s.atGrant c).orphanHolding id .transferPending = .ok h := by simp [State.orphanHolding_of_orphaned hh ht]
        dsimp only
        split
        · next hu => rw [State.adoptBy_of_unresolved ho (by simpa using hu)]
        · next hu =>
          have hu' : (s.atGrant c).unresolved h = false := by simpa using hu
          cases hg : s.table.gen with
          | none => rw [State.adoptBy_of_spent ho hu' (by simpa using hg)]
          | some g =>
            dsimp only
            rw [State.adoptBy_of_granted ho hu' (by simpa using hg), ← s.atGrant_holdings c]
            rfl
  · rw [exec_adoptFor_of_grants hs, State.adoptFor_of_unnamed hport.1 hport.2]
  · subst hp
    rw [exec_adoptFor_of_grants hs, State.adoptFor_of_absent (by simpa using hm)]

/-- Settles O36, by the cases of the orphan checks at the grant. -/
theorem dissolves : Obligations.Dissolves := by
  unfold Obligations.Dissolves
  refine ⟨fun tag id s hs => ?_, fun s h => State.unresolved_iff⟩
  rw [exec_dissolve_of_grants hs]
  cases hh : s.holdingById id with
  | none => rw [State.dissolve_of_error (code := .noHolding) (by simp [State.orphanHolding_of_absent hh])]
  | some h =>
    dsimp only
    split
    · next hl => rw [State.dissolve_of_error (code := .wrongState) (by simp [State.orphanHolding_of_lastOwner_none hh hl])]
    · next hl =>
      obtain ⟨l, ht⟩ : ∃ l, h.tenure = .orphaned l := by simpa [Tenure.lastOwner_eq_none_iff] using hl
      have ho : (s.atGrant .mgmt).orphanHolding id .wrongState = .ok h := by simp [State.orphanHolding_of_orphaned hh ht]
      split
      · next hu => rw [State.dissolve_of_unresolved ho (by simpa using hu)]
      · next hu =>
        rw [State.dissolve_of_resolved ho (by simpa using hu), State.retire_eq, s.atGrant_holdings]
        rfl

end Sys2Proof.Machine
end

section
/-! PROOFS. The generation check (R63): the one segment a range inside a holding gives (R57), what check 6 answers of it, and which of the
checks can answer STALE (R54). -/

namespace Sys2Proof.Machine

/-! ## A range inside one holding (R57) -/

@[simp] theorem segmentsFrom_cons_ne_nil {pos stop : Nat} {h : Holding} {hs : List Holding} : segmentsFrom pos stop (h :: hs) ≠ [] := by
  simp [segmentsFrom]

theorem segmentsFrom_eq_nil_iff {pos stop : Nat} {hs : List Holding} : segmentsFrom pos stop hs = [] ↔ hs = [] ∧ stop < pos := by
  cases hs with
  | nil => simp [segmentsFrom]
  | cons x xs => simp

/-- The coverage is one holding segment exactly when one holding overlaps the range and reaches over both its ends. -/
theorem segmentsFrom_eq_holding_iff {pos stop : Nat} {hs : List Holding} {h : Holding} :
    (∃ a b, segmentsFrom pos stop hs = [.holding h a b]) ↔ hs = [h] ∧ h.start ≤ pos ∧ stop ≤ h.last := by
  cases hs with
  | nil =>
    simp only [segmentsFrom]
    split <;> simp
  | cons x xs =>
    simp only [segmentsFrom]
    split
    case isTrue hlt =>
      -- Blocks before the first holding make a second segment.
      constructor
      · rintro ⟨a, b, heq⟩
        cases heq
      · rintro ⟨heq, hle, -⟩
        cases heq
        omega
    case isFalse hle =>
      simp only [List.nil_append, List.cons.injEq, Segment.holding.injEq, segmentsFrom_eq_nil_iff, Nat.lt_succ_iff]
      constructor
      · rintro ⟨a, b, ⟨rfl, -, -⟩, hnil, hstop⟩
        exact ⟨⟨rfl, hnil⟩, by omega, hstop⟩
      · rintro ⟨⟨rfl, hnil⟩, -, hstop⟩
        exact ⟨_, _, ⟨rfl, rfl, rfl⟩, hnil, hstop⟩

/-- In table order no record that meets a range stands before or after one that holds the whole range. -/
theorem Holding.not_before_of_covers {s : State} {ns first last : Nat} {h x : Holding} (ht : s.tableSound)
    (hh : h ∈ s.rangeHoldings ns first last) (hx : x ∈ s.rangeHoldings ns first last) (hstart : h.start ≤ first)
    (hlast : last ≤ h.last) : ¬ h.before x ∧ ¬ x.before h := by
  obtain ⟨-, -, -, -, hrecord, -⟩ := ht
  simp only [State.rangeHoldings, List.mem_filter, Bool.and_eq_true, decide_eq_true_eq] at hh hx
  obtain ⟨hmh, ⟨hnh, -⟩, -⟩ := hh
  obtain ⟨hmx, ⟨hnx, hxs⟩, hxl⟩ := hx
  obtain ⟨-, hlen, -⟩ := hrecord h hmh
  obtain ⟨-, hlenx, -⟩ := hrecord x hmx
  unfold Holding.before
  unfold Holding.last at *
  omega

/-- A holding that has the whole range is the only one that overlaps it (R15). -/
theorem State.rangeHoldings_eq_singleton {s : State} {ns first last : Nat} {h : Holding} (ht : s.tableSound) (hm : h ∈ s.table.holdings)
    (hns : h.ns = ns) (hrange : first ≤ last) (hstart : h.start ≤ first) (hlast : last ≤ h.last) :
    s.rangeHoldings ns first last = [h] := by
  have hh : h ∈ s.rangeHoldings ns first last := by
    simp only [State.rangeHoldings, List.mem_filter, Bool.and_eq_true, decide_eq_true_eq]
    exact ⟨hm, ⟨hns, by omega⟩, by omega⟩
  have horder : (s.rangeHoldings ns first last).Pairwise Holding.before := ht.1.filter _
  have hapart : ∀ x ∈ s.rangeHoldings ns first last, ¬ h.before x ∧ ¬ x.before h := fun x hx =>
    Holding.not_before_of_covers ht hh hx hstart hlast
  cases hl : s.rangeHoldings ns first last with
  | nil => simp [hl] at hh
  | cons x xs =>
    rw [hl] at hh hapart horder
    obtain ⟨hbefore, -⟩ := List.pairwise_cons.1 horder
    rcases List.mem_cons.1 hh with rfl | htail
    · have hnil : xs = [] := List.eq_nil_iff_forall_not_mem.2 fun y hy =>
        (hapart y (List.mem_cons_of_mem _ hy)).1 (hbefore y hy)
      rw [hnil]
    · exact absurd (hbefore h htail) (hapart x List.mem_cons_self).2

/-- R57's coverage of a range of a sound table is one holding segment exactly when that holding has the whole range. -/
theorem State.coverage_eq_holding_iff {s : State} {ns start count : Nat} {h : Holding} (ht : s.tableSound) (hcount : 1 ≤ count) :
    (∃ a b, s.coverage ns start (start + count - 1) = [.holding h a b]) ↔
      h ∈ s.table.holdings ∧ h.ns = ns ∧ h.start ≤ start ∧ start + count ≤ h.start + h.length := by
  rw [State.coverage, segmentsFrom_eq_holding_iff]
  constructor
  · rintro ⟨hl, hstart, hlast⟩
    have hh : h ∈ s.rangeHoldings ns start (start + count - 1) := by simp [hl]
    simp only [State.rangeHoldings, List.mem_filter, Bool.and_eq_true, decide_eq_true_eq] at hh
    obtain ⟨hm, ⟨hns, -⟩, -⟩ := hh
    obtain ⟨-, -, -, -, hrecord, -⟩ := ht
    obtain ⟨-, hlen, -⟩ := hrecord h hm
    unfold Holding.last at hlast
    exact ⟨hm, hns, hstart, by omega⟩
  · rintro ⟨hm, hns, hstart, hend⟩
    have hlast : start + count - 1 ≤ h.last := by unfold Holding.last; omega
    exact ⟨State.rangeHoldings_eq_singleton ht hm hns (by omega) hstart hlast, hstart, hlast⟩

/-! ## Check 6 (R63) -/

theorem checkGeneration_of_gen_none {c : IoCommand} {segments : List Segment} (hg : c.gen = none) : checkGeneration c segments = none := by
  simp [checkGeneration, hg]

theorem checkGeneration_eq_none_or_stale (c : IoCommand) (segments : List Segment) :
    checkGeneration c segments = none ∨ checkGeneration c segments = some .stale := by
  unfold checkGeneration
  split
  · exact .inl rfl
  · split
    · exact .inl rfl
    · exact .inr rfl
  · exact .inr rfl

theorem checkGeneration_eq_none_iff {c : IoCommand} {segments : List Segment} {g : Nat} (hg : c.gen = some g) :
    checkGeneration c segments = none ↔ ∃ h, (∃ a b, segments = [.holding h a b]) ∧ h.gen = g := by
  unfold checkGeneration
  rw [hg]
  split
  case h_1 hnone => cases hnone
  case h_2 h a b heq => cases heq; simp
  case h_3 hother =>
    constructor
    · rintro ⟨⟩
    · rintro ⟨h, ⟨a, b, hs⟩, -⟩
      exact (hother h a b hs).elim

/-- Check 6 of a sound table: a supplied generation passes exactly when it is that of a holding that has the whole range. -/
theorem State.checkGeneration_coverage_eq_none_iff {s : State} {c : IoCommand} {g : Nat} (ht : s.tableSound) (hcount : 1 ≤ c.count)
    (hg : c.gen = some g) :
    checkGeneration c (s.coverage c.ns c.start (c.start + c.count - 1)) = none ↔
      ∃ h ∈ s.table.holdings, h.ns = c.ns ∧ h.start ≤ c.start ∧ c.start + c.count ≤ h.start + h.length ∧ h.gen = g := by
  simp only [checkGeneration_eq_none_iff hg, State.coverage_eq_holding_iff ht hcount, and_assoc]

/-- No record has generation 0 (R19), so none matches it. -/
theorem State.checkGeneration_of_gen_zero {s : State} {c : IoCommand} (ht : s.tableSound) (hcount : 1 ≤ c.count) (hg : c.gen = some 0) :
    checkGeneration c (s.coverage c.ns c.start (c.start + c.count - 1)) = some .stale := by
  refine (checkGeneration_eq_none_or_stale c _).resolve_left fun hpass => ?_
  obtain ⟨h, hm, -, -, -, hzero⟩ := (State.checkGeneration_coverage_eq_none_iff ht hcount hg).1 hpass
  obtain ⟨-, -, -, -, hrecord, -⟩ := ht
  obtain ⟨-, -, -, -, ⟨hgiven, -⟩, -⟩ := hrecord h hm
  omega

/-! ## STALE comes of check 6 alone (R54) -/

theorem checkPath_ne_stale (st : PathState) (kind : IoKind) : checkPath st kind ≠ some .stale := by
  cases st <;> simp [checkPath]

theorem checkRange_ne_stale (n : Namespace) (c : IoCommand) : checkRange n c ≠ some .stale := by
  simp [checkRange]

theorem judgeWrite_ne_stale (p : Port) (policy : Policy) (x : Segment) : judgeWrite p policy x ≠ some .stale := by
  cases x with
  | holding h _ _ => cases ht : h.tenure <;> simp [judgeWrite, ht]
  | uncovered _ _ => cases policy <;> simp [judgeWrite]

theorem judgeRead_ne_stale (p : Port) (policy : Policy) (x : Segment) : judgeRead p policy x ≠ some .stale := by
  cases x with
  | holding h _ _ => cases ht : h.tenure <;> simp [judgeRead, ht]
  | uncovered _ _ => cases policy <;> simp [judgeRead]

theorem State.checkCoverage_ne_stale (s : State) (p : Port) (c : IoCommand) (segments : List Segment) :
    s.checkCoverage p c segments ≠ some .stale := by
  unfold State.checkCoverage
  split
  · simp
  · intro hstale
    obtain ⟨x, -, hx⟩ := List.exists_of_findSome?_eq_some hstale
    split at hx
    · exact judgeRead_ne_stale _ _ _ hx
    · exact judgeWrite_ne_stale _ _ _ hx

/-- A command refused STALE has passed check 5 and failed check 6 (R54, R63). -/
theorem State.checks_of_stale {s : State} {p : Port} {c : IoCommand} (hstale : s.checkCommand p c = some .stale) :
    s.checkCoverage p c (s.coverage c.ns c.start (c.start + c.count - 1)) = none
      ∧ checkGeneration c (s.coverage c.ns c.start (c.start + c.count - 1)) = some .stale := by
  unfold State.checkCommand at hstale
  split at hstale
  case h_1 hpath => exact absurd (hpath.trans hstale) (checkPath_ne_stale _ _)
  split at hstale
  · cases hstale
  split at hstale
  · cases hstale
  split at hstale
  · cases hstale
  split at hstale
  case h_1 hrange => exact absurd (hrange.trans hstale) (checkRange_ne_stale _ _)
  dsimp only at hstale
  split at hstale
  case h_1 hcover => exact absurd (hcover.trans hstale) (s.checkCoverage_ne_stale p c _)
  case h_2 hcover => exact ⟨hcover, hstale⟩

/-- Settles O24, from the coverage of a range inside one holding, the generations of a sound table, and the codes of checks 1 to 5. -/
theorem generationCheck : Obligations.GenerationCheck := by
  unfold Obligations.GenerationCheck
  intro s p c ht hcount _
  exact ⟨checkGeneration_eq_none_or_stale c _, checkGeneration_of_gen_none,
    fun _ hg => State.checkGeneration_coverage_eq_none_iff ht hcount hg, State.checkGeneration_of_gen_zero ht hcount,
    State.checks_of_stale⟩

end Sys2Proof.Machine
end

section
/-! PROOFS. Requests as one: which client a command takes its request from, what a taken request performs, and what a step can end in. -/

namespace Sys2Proof.Machine

/-! ## What a command ends in -/

/-- The command ends in a next state that satisfies `P`, or in none. -/
def Ends (P : State → Prop) : Out → Prop
  | .next t => P t
  | .fault _ => True
  | .refused _ => True

theorem ends_iff {P : State → Prop} {o : Out} : Ends P o ↔ ∀ t, o = .next t → P t := by
  cases o <;> simp [Ends]

theorem Ends.imp {P Q : State → Prop} {o : Out} (h : Ends P o) (hPQ : ∀ {t}, P t → Q t) : Ends Q o := by
  cases o
  exacts [hPQ h, trivial, trivial]

theorem ends_next {P : State → Prop} {t : State} (h : P t) : Ends P (.next t) := h

/-- What the queue does not touch, the passing of time keeps, and every command keeps, every step keeps. -/
theorem step_ends {P : State → Prop} (queue : ∀ s q, P s → P { s with pending := q }) (tick : ∀ s : State, P s → P s.tick)
    (command : ∀ i s, P s → Ends P (exec i s)) (s : State) (hs : P s) : Ends P (step s) := by
  unfold step
  split
  · unfold State.idle
    split
    · exact command _ _ hs
    · exact tick _ hs
  · exact command _ _ (queue _ _ hs)

/-- What holds of the state that a condition chooses. -/
theorem ite_keeps {P : State → Prop} {c : Prop} [Decidable c] {t u : State} (ht : c → P t) (hu : ¬ c → P u) : P (if c then t else u) := by
  split
  · exact ht ‹_›
  · exact hu ‹_›

/-! ## Requests -/

/-- The client from which a command takes a request. -/
def commandClient : Instr → Option Client
  | .acquire p | .release p | .handOver p | .split p | .setHeir p | .adopt p => some (.port p)
  | .join p | .resign p | .fencePartner p | .rejoin p => some (.port p)
  | .query c | .list c | .takeNotice c | .ackNotice c | .setThreshold c | .readmit c | .status c => some c
  | .adoptFor | .dissolve | .forceFence | .readTakeover | .configure | .readConfig | .controllerReset => some .mgmt
  | _ => none

/-- What a request does once it is taken and nothing refuses it. -/
def Request.perform : Client → Byte → Request → State → State
  | .port p, tag, .acquire ns start length access heir rank => State.acquire p tag ns start length access heir rank
  | .port p, tag, .release id gen => State.release p tag id gen
  | .port p, tag, .handOver id gen => State.handOver p tag id gen
  | .port p, tag, .split id offset => State.split p tag id offset
  | .port p, tag, .setHeir id heir rank => State.setHeir p tag id heir rank
  | .port p, tag, .adopt id => State.adoptBy (.port p) tag 6 p id
  | c, tag, .query ns block => State.query c tag ns block
  | c, tag, .list ns fromBlock max => State.list c tag ns fromBlock max
  | c, tag, .takeNotice => State.takeNotice c tag
  | c, tag, .ackNotice kind => State.ackNotice c tag kind
  | c, tag, .setThreshold v => State.setThreshold c tag v
  | .port p, tag, .join => State.join p tag
  | .port p, tag, .resign => State.resign p tag
  | .port p, tag, .fencePartner => State.fencePartner p tag
  | c, tag, .readmit port => State.readmit c tag port
  | .port p, tag, .rejoin => State.rejoin p tag
  | c, tag, .status sect => State.statusAnswer c tag sect
  | .mgmt, _, .adoptFor port id => State.adoptFor port id
  | .mgmt, _, .dissolve id => State.dissolve id
  | .mgmt, _, .forceFence port => State.forceFence port
  | .mgmt, _, .readTakeover port => State.readTakeover port
  | .mgmt, _, .configure number index value => State.configure number index value
  | .mgmt, _, .readConfig number index => State.readConfig number index
  | .mgmt, _, .controllerReset => State.controllerReset
  | _, _, _ => id

/-- A request handled where it stands next to be taken: a table request by the arbiter, any other at once. -/
def State.handled (s : State) (c : Client) (tag : Byte) (r : Request) : State :=
  if r.isTable then s.atTable c tag r (r.perform c tag) else s.atOnce c tag r (r.perform c tag)

theorem commandClient_of_commandFor {c : Client} {r : Request} {i : Instr} (hi : commandFor c r = some i) :
    commandClient i = some c := by
  cases c <;> cases r <;> cases hi <;> rfl

/-- The command for a request handles it when it stands next to be taken. -/
theorem exec_of_front {s : State} {c : Client} {r : Request} {i : Instr} {tag : Byte} (hi : commandFor c r = some i)
    (hf : s.front c = some (tag, r)) : exec i s = .next (s.handled c tag r) := by
  cases c <;> cases r <;> cases hi <;>
    simp only [exec, execAcquire, execRelease, execHandOver, execSplit, execSetHeir, execAdopt, execAdoptFor, execDissolve, execQuery,
      execList, execTakeNotice, execAckNotice, execSetThreshold, execJoin, execResign, execFencePartner, execForceFence, execReadmit,
      execRejoin, execStatus, execReadTakeover, execConfigure, execReadConfig, execControllerReset, hf] <;> rfl

/-- A command that takes a request changes nothing where another or none stands next to be taken. -/
theorem exec_of_not_front {s : State} {c : Client} {i : Instr} (hc : commandClient i = some c)
    (hf : ∀ tag r, s.front c = some (tag, r) → commandFor c r ≠ some i) : exec i s = .next s := by
  cases c <;> cases i <;> cases hc <;>
    simp only [exec, execAcquire, execRelease, execHandOver, execSplit, execSetHeir, execAdopt, execAdoptFor, execDissolve, execQuery,
      execList, execTakeNotice, execAckNotice, execSetThreshold, execJoin, execResign, execFencePartner, execForceFence, execReadmit,
      execRejoin, execStatus, execReadTakeover, execConfigure, execReadConfig, execControllerReset] <;>
    split <;> first | exact absurd rfl (hf _ _ ‹_›) | rfl

/-- What a command that takes a request can do. -/
theorem exec_request_cases {s : State} {c : Client} {i : Instr} (hc : commandClient i = some c) :
    exec i s = .next s ∨ ∃ tag r, s.front c = some (tag, r) ∧ commandFor c r = some i ∧ exec i s = .next (s.handled c tag r) := by
  by_cases hf : ∀ tag r, s.front c = some (tag, r) → commandFor c r ≠ some i
  · exact .inl (exec_of_not_front hc hf)
  · push Not at hf
    obtain ⟨tag, r, hfr, hi⟩ := hf
    exact .inr ⟨tag, r, hfr, hi, exec_of_front hi hfr⟩

/-- What a command that takes a request keeps: what the answer of a refused request keeps, and the request itself, where it is taken or
granted. -/
theorem exec_request_ends {P : State → Prop} {s : State} {c : Client} {i : Instr} (hc : commandClient i = some c) (hs : P s)
    (refused : ∀ tag (r : Request) code, P ((s.takeFront c).respond c tag r.code code []))
    (performed : ∀ tag (r : Request) t, s.front c = some (tag, r) → s.refusal c r = none → t = s.takeFront c ∨ t = s.atGrant c →
      P (r.perform c tag t)) : Ends P (exec i s) := by
  obtain h | ⟨tag, r, hf, -, h⟩ := exec_request_cases (s := s) hc
  · exact h ▸ hs
  · rw [h]
    change P (s.handled c tag r)
    unfold State.handled
    split
    · exact State.atTable_keeps hs (refused tag r) fun hr => performed tag r _ hf hr (.inr rfl)
    · exact State.atOnce_keeps (refused tag r) fun hr => performed tag r _ hf hr (.inl rfl)

/-! ## A drive answer in two parts (R83, R84) -/

/-- A resolved entry has been replied to and counted, and has departed (R74, R84). -/
def State.resolveLeft (s : State) (e : Entry) (k : Fin 32) (code : AnswerCode) : State :=
  let s1 := (s.replyResolved e code).countResolution e code
  (s1.withMedia { s1.media with abortList := s1.media.abortList.filter fun x => x != k }).depart e

/-- After the departure come the test of the drain, UNRESOLVED-CLEARED, and in RESETTING the request of QUEUE-CLEAR. -/
theorem State.resolve_eq (s : State) (e : Entry) (k : Fin 32) (code : AnswerCode) :
    s.resolve e k code = ((if e.kind.writeClass then (s.resolveLeft e k code).drainTest e.port
      else s.resolveLeft e k code).raiseCleared e).clearWhenEmpty := rfl

end Sys2Proof.Machine
end

section
/-! PROOFS. What the settings' ranges rest on (R191): the configuration block, W and M of each path, and the thresholds; and the
operations that change paths or notice targets without touching them. -/

namespace Sys2Proof.Machine

/-- The configured values, in whatever block they stand (R191): the settings, W and M of a path, and a target's threshold. -/
def State.tuning (s : State) : Settings × (Port → Nat × Nat) × (Client → Nat) :=
  (s.settings, fun p => ((s.path p).w, (s.path p).m), fun c => (s.target c).threshold)

theorem State.tuning_eq_iff {s t : State} : t.tuning = s.tuning ↔ t.settings = s.settings
    ∧ (∀ p, (t.path p).w = (s.path p).w ∧ (t.path p).m = (s.path p).m) ∧ ∀ c, (t.target c).threshold = (s.target c).threshold := by
  simp [State.tuning, funext_iff]

/-- No configured value stands in another block. -/
theorem State.tuning_of {s t : State} (hs : t.settings = s.settings) (hp : t.paths = s.paths) (hn : t.notices = s.notices) :
    t.tuning = s.tuning := by
  refine State.tuning_eq_iff.2 ⟨hs, fun p => ?_, fun c => ?_⟩
  · simp [State.path, hp]
  · cases c <;> simp [State.target, hn]

@[simp] theorem State.answer_tuning (s : State) (p : Port) (tag : Byte) (echo : Nat) (code : AnswerCode) (result : List Byte) :
    (s.answer p tag echo code result).tuning = s.tuning := State.tuning_of (by simp) (by simp) (by simp)

@[simp] theorem State.respond_tuning (s : State) (c : Client) (tag : Byte) (echo : Nat) (code : AnswerCode) (result : List Byte) :
    (s.respond c tag echo code result).tuning = s.tuning := State.tuning_of (by simp) (by simp) (by simp)

@[simp] theorem State.dropRefused_tuning (s : State) (p : Port) (was : Bool) : (s.dropRefused p was).tuning = s.tuning :=
  State.tuning_of (by simp) (by simp) (by simp)

@[simp] theorem State.clearWhenEmpty_tuning (s : State) : s.clearWhenEmpty.tuning = s.tuning :=
  State.tuning_of (by simp) (by simp) (by simp)

@[simp] theorem State.withTable_tuning (s : State) (x : TableBlock) : (s.withTable x).tuning = s.tuning := State.tuning_of rfl rfl rfl

@[simp] theorem State.withWalk_tuning (s : State) (x : List Port) : (s.withWalk x).tuning = s.tuning := State.tuning_of rfl rfl rfl

/-! ## A path or a target replaced -/

theorem State.withPath_tuning {s : State} {p : Port} {x : Path} (hw : x.w = (s.path p).w) (hm : x.m = (s.path p).m) :
    (s.withPath p x).tuning = s.tuning := by
  refine State.tuning_eq_iff.2 ⟨rfl, fun q => ?_, fun c => by cases c <;> rfl⟩
  by_cases hq : q = p
  · subst hq
    simpa [State.path, State.withPath] using ⟨hw, hm⟩
  · simp [State.path, State.withPath, Pair.get_set, hq]

theorem State.withTarget_tuning {s : State} {c : Client} {t : Target} (ht : t.threshold = (s.target c).threshold) :
    (s.withTarget c t).tuning = s.tuning := by
  refine State.tuning_eq_iff.2 ⟨by simp, fun q => by simp [State.path], fun d => ?_⟩
  cases c with
  | mgmt => cases d <;> simp_all [State.target, State.withTarget]
  | port p =>
    cases d with
    | mgmt => rfl
    | port q =>
      by_cases hq : q = p
      · subst hq
        simpa [State.target, State.withTarget] using ht
      · simp [State.target, State.withTarget, Pair.get_set, hq]

@[simp] theorem State.onTakeover_tuning (s : State) (p : Port) (f : Takeover → Takeover) : (s.onTakeover p f).tuning = s.tuning :=
  State.withPath_tuning rfl rfl

/-! ## Notices -/

@[simp] theorem Target.record_threshold (t : Target) (k : NoticeKind) (d : Detail) : (t.record k d).threshold = t.threshold := by
  unfold Target.record
  split <;> rfl

@[simp] theorem Target.acknowledge_threshold (t : Target) (k : NoticeKind) : (t.acknowledge k).threshold = t.threshold := by
  unfold Target.acknowledge
  dsimp only
  split <;> rfl

@[simp] theorem State.recordAtPort_tuning (s : State) (k : NoticeKind) (d : Detail) (p : Port) :
    (s.recordAtPort k d p).tuning = s.tuning := by
  have recorded : (s.withTarget (.port p) ((s.target (.port p)).record k d)).tuning = s.tuning := State.withTarget_tuning (by simp)
  unfold State.recordAtPort
  split
  · dsimp only
    split
    · split
      · exact (State.tuning_of (by simp) (by simp) (by simp)).trans recorded
      · exact recorded
    · exact recorded
  · rfl

@[simp] theorem State.recordAtMgmt_tuning (s : State) (k : NoticeKind) (d : Detail) : (s.recordAtMgmt k d).tuning = s.tuning := by
  unfold State.recordAtMgmt
  split
  · exact State.withTarget_tuning (by simp)
  · rfl

@[simp] theorem State.raise_tuning (s : State) (k : NoticeKind) (d : Detail) (targets : List Port) :
    (s.raise k d targets).tuning = s.tuning := by
  unfold State.raise
  rw [State.recordAtMgmt_tuning]
  exact foldl_keeps State.tuning _ (fun s p => State.recordAtPort_tuning s k d p) targets s

@[simp] theorem State.contention_tuning (s : State) (p : Port) (ns start length : Nat) :
    (s.contention p ns start length).tuning = s.tuning := by
  unfold State.contention
  split
  · split <;> simp
  · rfl

@[simp] theorem State.countAttempt_tuning (s : State) : s.countAttempt.tuning = s.tuning := by
  unfold State.countAttempt
  dsimp only
  split
  · rw [State.raise_tuning]
    exact State.tuning_of rfl rfl rfl
  · exact State.tuning_of rfl rfl rfl

@[simp] theorem State.raiseCleared_tuning (s : State) (e : Entry) : (s.raiseCleared e).tuning = s.tuning := by
  unfold State.raiseCleared
  split
  · exact foldl_keeps State.tuning _ (fun s h => State.raise_tuning s _ _ _) _ s
  · rfl

/-! ## Parked answers, the walk and the drain -/

@[simp] theorem State.settleResign_tuning (s : State) (p : Port) (code : AnswerCode) : (s.settleResign p code).tuning = s.tuning := by
  unfold State.settleResign
  split
  · rw [State.answer_tuning]
    exact State.withPath_tuning rfl rfl
  · rfl

@[simp] theorem State.settleRejoin_tuning (s : State) (p : Port) (code : AnswerCode) (result : List Byte) :
    (s.settleRejoin p code result).tuning = s.tuning := by
  unfold State.settleRejoin
  split
  · rw [State.answer_tuning]
    exact State.withPath_tuning rfl rfl
  · rfl

@[simp] theorem State.enterFenced_tuning (s : State) (p : Port) : (s.enterFenced p).tuning = s.tuning := by
  have fenced : ((s.withPath p ((s.path p).fenced s.clock.ms)).withWalk (s.walk.filter fun q => q != p)).tuning = s.tuning := by
    rw [State.withWalk_tuning]
    exact State.withPath_tuning rfl rfl
  unfold State.enterFenced
  dsimp only
  rw [State.settleResign_tuning]
  split <;> simpa using fenced

@[simp] theorem settleWalk_tuning : ∀ (l : List Port) (s : State), (settleWalk l s).tuning = s.tuning
  | [], _ => rfl
  | p :: l, s => by
    unfold settleWalk
    split
    · rw [settleWalk_tuning l, State.enterFenced_tuning]
    · rfl

@[simp] theorem State.walkTest_tuning (s : State) : s.walkTest.tuning = s.tuning := settleWalk_tuning _ _

@[simp] theorem State.endDrain_tuning (s : State) (p : Port) : (s.endDrain p).tuning = s.tuning := by
  unfold State.endDrain
  rw [State.walkTest_tuning, State.withWalk_tuning, State.withTable_tuning]
  exact State.withPath_tuning rfl rfl

@[simp] theorem State.drainTest_tuning (s : State) (p : Port) : (s.drainTest p).tuning = s.tuning := by
  unfold State.drainTest
  split <;> simp

@[simp] theorem State.drainBegun_tuning (s : State) (p : Port) (cause : Cause) : (s.drainBegun p cause).tuning = s.tuning := by
  unfold State.drainBegun
  dsimp only
  refine (State.withTarget_tuning ?_).trans ?_
  · rfl
  · rw [State.withTable_tuning]
    exact State.withPath_tuning rfl rfl

@[simp] theorem State.enterDraining_tuning (s : State) (p : Port) (cause : Cause) : (s.enterDraining p cause).tuning = s.tuning := by
  unfold State.enterDraining
  dsimp only
  rw [State.drainTest_tuning, State.onTakeover_tuning]
  exact (State.tuning_of (by simp) (by simp) (by simp)).trans (s.drainBegun_tuning p cause)

@[simp] theorem State.fence_tuning (s : State) (p : Port) (cause : Cause) : (s.fence p cause).tuning = s.tuning :=
  (State.tuning_of (by simp [State.fence]) (by simp [State.fence]) (by simp [State.fence])).trans (s.enterDraining_tuning p cause)

@[simp] theorem State.acknowledgeLoss_tuning (s : State) (y : Port) : (s.acknowledgeLoss y).tuning = s.tuning := by
  unfold State.acknowledgeLoss
  dsimp only
  split <;> simp

/-! ## Windows, losses and the return to MEMBER -/

@[simp] theorem State.enterLost_tuning (s : State) (p : Port) (cause : Cause) : (s.enterLost p cause).tuning = s.tuning := by
  have lost : (s.withPath p ((s.path p).lost cause)).tuning = s.tuning := State.withPath_tuning rfl rfl
  unfold State.enterLost
  dsimp only
  rw [State.dropRefused_tuning, State.raise_tuning]
  refine (State.withPath_tuning ?_ ?_).trans ((State.tuning_of (by simp) (by simp) (by simp)).trans lost) <;> rfl

@[simp] theorem State.seenWindow_tuning (s : State) (p : Port) (w : Window) : (s.seenWindow p w).tuning = s.tuning := by
  have seen : (s.withPath p ((s.path p).afterSeen w)).tuning = s.tuning := State.withPath_tuning rfl rfl
  unfold State.seenWindow
  dsimp only
  split
  · rw [State.raise_tuning]
    exact (State.tuning_of (by simp) (by simp) (by simp)).trans seen
  · exact seen

@[simp] theorem State.missedWindow_tuning (s : State) (p : Port) (w : Window) : (s.missedWindow p w).tuning = s.tuning := by
  have missed : (s.withPath p ((s.path p).afterMissed w)).tuning = s.tuning := State.withPath_tuning rfl rfl
  unfold State.missedWindow
  dsimp only
  split
  · rw [State.enterLost_tuning]
    exact State.withPath_tuning rfl rfl
  · split
    · rw [State.raise_tuning]
      exact (State.tuning_of (by simp) (by simp) (by simp)).trans missed
    · exact missed

@[simp] theorem State.takeBeacon_tuning (s : State) (p : Port) (seq : BitVec 16) (view : Byte) :
    (s.takeBeacon p seq view).tuning = s.tuning := by
  unfold State.takeBeacon
  split
  · rfl
  · split
    · rfl
    · exact State.withPath_tuning rfl rfl

@[simp] theorem State.returnToMember_tuning (s : State) (p : Port) : (s.returnToMember p).tuning = s.tuning := by
  unfold State.returnToMember
  rw [State.settleRejoin_tuning]
  exact State.withPath_tuning rfl rfl

/-! ## Holdings and drive answers -/

@[simp] theorem State.finishHandOver_tuning (s : State) (p : Port) (h : Holding) (tag : Byte) :
    (s.finishHandOver p h tag).tuning = s.tuning := by
  unfold State.finishHandOver
  split
  · exact State.tuning_of (by simp) (by simp) (by simp)
  · dsimp only
    rw [State.answer_tuning, State.raise_tuning]
    split
    · rw [State.onTakeover_tuning]
      exact State.tuning_of (by simp) (by simp) (by simp)
    · exact State.tuning_of (by simp) (by simp) (by simp)

@[simp] theorem State.completeHandOver_tuning (s : State) (d : Due) : (s.completeHandOver d).tuning = s.tuning := by
  unfold State.completeHandOver
  split
  · split
    · rw [State.finishHandOver_tuning]
      exact State.tuning_of (by simp) (by simp) (by simp)
    · rfl
  · rfl

@[simp] theorem State.walkOne_tuning (s : State) (p : Port) (h : Holding) : (s.walkOne p h).tuning = s.tuning := by
  unfold State.walkOne
  repeat' split
  all_goals
    rw [State.onTakeover_tuning]
    exact State.tuning_of (by simp) (by simp) (by simp)

@[simp] theorem State.countResolution_tuning (s : State) (e : Entry) (code : AnswerCode) : (s.countResolution e code).tuning = s.tuning := by
  unfold State.countResolution
  repeat' split
  all_goals simp

@[simp] theorem State.resolve_tuning (s : State) (e : Entry) (k : Fin 32) (code : AnswerCode) :
    (s.resolve e k code).tuning = s.tuning := by
  have departed (u : State) (x : MediaBlock) : ((u.withMedia x).depart e).tuning = u.tuning :=
    State.tuning_of (by simp) (by simp) (by simp)
  have replied : (s.replyResolved e code).tuning = s.tuning := State.tuning_of (by simp) (by simp) (by simp)
  unfold State.resolve
  dsimp only
  rw [State.clearWhenEmpty_tuning, State.raiseCleared_tuning]
  split <;> simp [departed, replied]

/-! ## The ranges (R191) -/

theorem Parameter.stored_stored (x : Parameter) (v : Nat) : x.stored (x.stored v) = x.stored v := by
  cases x <;> simp only [Parameter.stored, clamp] <;> first | omega | (split <;> simp)

theorem State.parameter_of_tuning {s t : State} (h : t.tuning = s.tuning) (x : Parameter) : t.parameter x = s.parameter x := by
  obtain ⟨hset, hpath, htarget⟩ := State.tuning_eq_iff.1 h
  cases x <;> simp [State.parameter, State.policy, hset, hpath, htarget]

/-- A value of 0 or 1 is stored as it is under parameters 6, 7 and 9. -/
theorem stored_bit (b : Bool) : (if bit b 0 = 0 then 0 else 1) = bit b 0 := by cases b <;> rfl

theorem stored_policy_num (id : Nat) (x : Policy) : Parameter.stored (.policy id) x.num = x.num := by cases x <;> rfl

/-- The settings are in range when each value in force is one that would be stored. -/
theorem State.settingsSound_iff {s : State} : s.settingsSound ↔
    (s.settings.priorities.length = 10 ∧ s.settings.copyFlags.length = 10 ∧ s.settings.policies.length = 8)
      ∧ ∀ x : Parameter, x.stored (s.parameter x) = s.parameter x := by
  constructor
  · rintro ⟨hp, hc, hq, h⟩
    refine ⟨⟨hp, hc, hq⟩, fun x => ?_⟩
    have row {x : Parameter} (number index : Nat) (hn : number < 12) (hi : index < 11) (hx : parameterOf number index = some x) :
        x.stored (s.parameter x) = s.parameter x := by
      have := h number hn index hi
      simpa [hx] using this
    cases x with
    | windowLength p => cases p; exacts [row 1 1 (by omega) (by omega) rfl, row 1 2 (by omega) (by omega) rfl]
    | missLimit p => cases p; exacts [row 2 1 (by omega) (by omega) rfl, row 2 2 (by omega) (by omega) rfl]
    | drainExponent => exact row 3 0 (by omega) (by omega) rfl
    | abortExponent => exact row 4 0 (by omega) (by omega) rfl
    | quota p => cases p; exacts [row 5 1 (by omega) (by omega) rfl, row 5 2 (by omega) (by omega) rfl]
    | actOnBeacon => exact row 6 0 (by omega) (by omega) rfl
    | actOnLink => exact row 7 0 (by omega) (by omega) rfl
    | priority kind =>
      by_cases hin : kind ≤ 10
      · cases kind with
        | zero => exact row (x := .priority 1) 8 1 (by omega) (by omega) rfl
        | succ k => exact row 8 (k + 1) (by omega) (by omega) (by simp only [parameterOf]; rw [if_pos (by omega)])
      · have hzero : s.parameter (.priority kind) = 0 := List.getD_eq_default _ _ (by omega)
        rw [hzero]
        rfl
    | copyFlag kind => exact stored_bit _
    | threshold c =>
      cases c with
      | mgmt => exact row 10 3 (by omega) (by omega) rfl
      | port p => cases p; exacts [row 10 1 (by omega) (by omega) rfl, row 10 2 (by omega) (by omega) rfl]
    | policy id => exact stored_policy_num id _
  · rintro ⟨⟨hp, hc, hq⟩, h⟩
    refine ⟨hp, hc, hq, fun number _ index _ => ?_⟩
    cases parameterOf number index with
    | none => rfl
    | some x => simpa using h x

theorem State.settingsSound_of_tuning {s t : State} (hs : s.settingsSound) (h : t.tuning = s.tuning) : t.settingsSound := by
  rw [State.settingsSound_iff] at hs ⊢
  obtain ⟨hlen, hval⟩ := hs
  obtain ⟨hset, -⟩ := State.tuning_eq_iff.1 h
  exact ⟨by rwa [hset], fun x => by rw [State.parameter_of_tuning h]; exact hval x⟩

theorem State.storeQuota_tuning (s : State) (p : Port) (v : Nat) :
    (s.storeQuota p v).tuning = (s.withSettings { s.settings with quotas := s.settings.quotas.set p v }).tuning := by
  unfold State.storeQuota
  dsimp only
  split
  · rfl
  · exact State.tuning_of (by simp) (by simp) (by simp)

/-- A value stored in range changes each value in force to one in range, or not at all. -/
theorem State.parameter_store (s : State) (x : Parameter) (v : Nat) (y : Parameter) :
    (s.store x (x.stored v)).parameter y = s.parameter y ∨ ∃ v', (s.store x (x.stored v)).parameter y = y.stored v' := by
  cases x with
  | windowLength p =>
    cases y with
    | windowLength q =>
      by_cases hq : q = p
      · exact .inr ⟨v, by simp [State.store, State.parameter, State.path, State.withPath, hq, Parameter.stored]⟩
      · exact .inl (by simp [State.store, State.parameter, State.path, State.withPath, Pair.get_set, hq])
    | missLimit q =>
      refine .inl ?_
      simp only [State.store, State.parameter, State.path, State.withPath, Pair.get_set]
      split <;> simp_all
    | _ => exact .inl rfl
  | missLimit p =>
    cases y with
    | missLimit q =>
      by_cases hq : q = p
      · exact .inr ⟨v, by simp [State.store, State.parameter, State.path, State.withPath, hq, Parameter.stored]⟩
      · exact .inl (by simp [State.store, State.parameter, State.path, State.withPath, Pair.get_set, hq])
    | windowLength q =>
      refine .inl ?_
      simp only [State.store, State.parameter, State.path, State.withPath, Pair.get_set]
      split <;> simp_all
    | _ => exact .inl rfl
  | quota p =>
    have stored := State.parameter_of_tuning (s.storeQuota_tuning p (clamp 8 56 v)) y
    change State.parameter (s.storeQuota p (clamp 8 56 v)) y = _ ∨ ∃ v', State.parameter (s.storeQuota p (clamp 8 56 v)) y = _
    rw [stored]
    cases y with
    | quota q =>
      by_cases hq : q = p
      · exact .inr ⟨v, by simp [State.parameter, hq, Parameter.stored]⟩
      · exact .inl (by simp [State.parameter, Pair.get_set, hq])
    | _ => exact .inl rfl
  | threshold c =>
    cases y with
    | threshold d =>
      by_cases hd : d = c
      · exact .inr ⟨v, by subst hd; cases d <;> simp [State.store, State.parameter, State.target, State.withTarget, Parameter.stored]⟩
      · refine .inl ?_
        cases c <;> cases d <;> simp_all [State.store, State.parameter, State.target, State.withTarget, Pair.get_set]
    | _ => exact .inl (by cases c <;> rfl)
  | priority k =>
    cases y with
    | priority j =>
      simp only [State.store, State.parameter, State.withSettings_settings, List.getD_eq_getElem?_getD, List.getElem?_set]
      split
      · split
        · exact .inr ⟨v, rfl⟩
        · next hj hlt => exact .inl (by simp [← hj, List.getElem?_eq_none (not_lt.1 hlt)])
      · exact .inl rfl
    | _ => exact .inl rfl
  | drainExponent => cases y with
    | drainExponent => exact .inr ⟨v, rfl⟩
    | _ => exact .inl rfl
  | abortExponent => cases y with
    | abortExponent => exact .inr ⟨v, rfl⟩
    | _ => exact .inl rfl
  | actOnBeacon => cases y with
    | actOnBeacon => exact .inr ⟨_, (stored_bit _).symm⟩
    | _ => exact .inl rfl
  | actOnLink => cases y with
    | actOnLink => exact .inr ⟨_, (stored_bit _).symm⟩
    | _ => exact .inl rfl
  | copyFlag k => cases y with
    | copyFlag j => exact .inr ⟨_, (stored_bit _).symm⟩
    | _ => exact .inl rfl
  | policy id => cases y with
    | policy j => exact .inr ⟨_, (stored_policy_num j _).symm⟩
    | _ => exact .inl rfl

theorem State.store_settingsSound {s : State} (x : Parameter) (v : Nat) (hs : s.settingsSound) :
    (s.store x (x.stored v)).settingsSound := by
  rw [State.settingsSound_iff] at hs ⊢
  obtain ⟨hlen, hval⟩ := hs
  refine ⟨?_, fun y => ?_⟩
  · cases x <;> simpa [State.store, State.storeQuota, apply_ite State.settings] using hlen
  · obtain h | ⟨v', h⟩ := s.parameter_store x v y
    · rw [h, hval]
    · rw [h, Parameter.stored_stored]

/-! ## The requests and the commands -/

theorem State.takeNotice_tuning (s : State) (c : Client) (tag : Byte) : (State.takeNotice c tag s).tuning = s.tuning := by
  unfold State.takeNotice
  dsimp only
  split
  · simp
  · rw [State.respond_tuning]
    exact State.withTarget_tuning rfl

theorem State.acknowledge_tuning (s : State) (c : Client) (tag : Byte) (k : NoticeKind) : (s.acknowledge c tag k).tuning = s.tuning := by
  unfold State.acknowledge
  rw [State.respond_tuning]
  exact State.withTarget_tuning (Target.acknowledge_threshold _ _)

theorem State.ackNotice_tuning (s : State) (c : Client) (tag : Byte) (kind : Nat) : (State.ackNotice c tag kind s).tuning = s.tuning := by
  unfold State.ackNotice
  repeat' split
  all_goals simp [State.acknowledge_tuning]

theorem State.acquire_tuning (s : State) (p : Port) (tag : Byte) (ns start length access heir rank : Nat) :
    (State.acquire p tag ns start length access heir rank s).tuning = s.tuning := by
  unfold State.acquire
  split
  · split
    · dsimp only
      split <;> simp
    · exact State.tuning_of (by simp) (by simp) (by simp)
  · simp

theorem State.handOver_tuning (s : State) (p : Port) (tag : Byte) (id gen : Nat) : (State.handOver p tag id gen s).tuning = s.tuning := by
  unfold State.handOver
  repeat' split
  all_goals first | simp; done | exact State.tuning_of (by simp) (by simp) (by simp)

theorem State.join_tuning (s : State) (p : Port) (tag : Byte) : (State.join p tag s).tuning = s.tuning := by
  unfold State.join
  split
  · dsimp only
    rw [State.answer_tuning]
    exact State.withPath_tuning rfl rfl
  all_goals simp

theorem State.resign_tuning (s : State) (p : Port) (tag : Byte) : (State.resign p tag s).tuning = s.tuning := by
  unfold State.resign
  rw [State.enterDraining_tuning, State.raise_tuning]
  exact State.withPath_tuning rfl rfl

theorem State.fencePartner_tuning (s : State) (p : Port) (tag : Byte) : (State.fencePartner p tag s).tuning = s.tuning := by
  unfold State.fencePartner
  split <;> simp

@[simp] theorem State.placeAnswer_tuning (s : State) (echo : Nat) (code : AnswerCode) (result : List Byte) :
    (s.placeAnswer echo code result).tuning = s.tuning := State.tuning_of rfl rfl rfl

theorem State.forceFence_tuning (s : State) (port : Nat) : (State.forceFence port s).tuning = s.tuning := by
  unfold State.forceFence
  split
  · simp
  · unfold State.forceFencePort
    split <;> simp

theorem State.readmitPort_tuning (s : State) (c : Client) (tag : Byte) (q : Port) : (State.readmitPort c tag q s).tuning = s.tuning := by
  have keyed : (s.withPath q { s.path q with readmitKey := some c }).tuning = s.tuning := State.withPath_tuning rfl rfl
  unfold State.readmitPort
  split
  · split
    · simp
    · dsimp only
      rw [State.respond_tuning]
      split <;> simp [keyed]
  · simp

theorem State.readmit_tuning (s : State) (c : Client) (tag : Byte) (port : Option Nat) : (State.readmit c tag port s).tuning = s.tuning := by
  unfold State.readmit
  repeat' split
  all_goals simp [State.readmitPort_tuning]

theorem State.rejoin_tuning (s : State) (p : Port) (tag : Byte) : (State.rejoin p tag s).tuning = s.tuning := by
  have keyed : (s.withPath p { s.path p with rejoinKey := true }).tuning = s.tuning := State.withPath_tuning rfl rfl
  have repeated : (State.repeatRejoin p tag s).tuning = s.tuning := State.tuning_of (by simp) (by simp) (by simp)
  unfold State.rejoin
  split
  · split
    · exact repeated
    · dsimp only
      split
      · simp [keyed]
      · rw [State.raise_tuning]
        refine (State.withPath_tuning ?_ ?_).trans keyed <;> rfl
  · simp

theorem State.sweep_tuning (s : State) : s.sweep.tuning = s.tuning := by
  have swept (u : State) (p : Port) : (u.sweepPath p).tuning = u.tuning := by simp [State.sweepPath]
  have holdings : s.sweepHoldings.tuning = s.tuning := State.tuning_of (by simp) (by simp) (by simp)
  have emptied (u : State) (p : Port) : (u.emptyIntake p).tuning = u.tuning := State.tuning_of (by simp) (by simp) (by simp)
  have removed (u : State) : u.removeWaiting.tuning = u.tuning := State.tuning_of (by simp) (by simp) (by simp)
  simp only [State.sweep, removed, emptied, swept, holdings]

theorem State.resetBlocks_tuning (s : State) : s.resetBlocks.tuning = s.tuning := by
  refine State.tuning_eq_iff.2 ⟨rfl, fun p => by cases p <;> exact ⟨rfl, rfl⟩, fun c => ?_⟩
  cases c with
  | mgmt => rfl
  | port p => cases p <;> rfl

theorem State.controllerReset_tuning (s : State) : s.controllerReset.tuning = s.tuning := by
  have aborts (u : State) : ((u.requestAborts fun _ => true).clearWhenEmpty).tuning = u.tuning :=
    State.tuning_of (by simp) (by simp) (by simp)
  unfold State.controllerReset
  split
  · simp
  · simp only [State.enterResetting, aborts, State.resetBlocks_tuning, State.sweep_tuning]

theorem Request.perform_settingsSound {c : Client} {tag : Byte} {r : Request} {s : State} (hs : s.settingsSound) :
    (r.perform c tag s).settingsSound := by
  have same {t : State} (h : t.tuning = s.tuning) : t.settingsSound := State.settingsSound_of_tuning hs h
  cases r
  case setThreshold v =>
    have performed : (State.setThreshold c tag v s).settingsSound := by
      unfold State.setThreshold
      split
      · next hv =>
        have hv' : Parameter.stored (.threshold c) v = v := by simp only [Parameter.stored, clamp]; omega
        have stored := State.store_settingsSound (.threshold c) v hs
        rw [hv'] at stored
        exact State.settingsSound_of_tuning stored (State.respond_tuning ..)
      · exact same (State.respond_tuning ..)
    cases c <;> exact performed
  case configure number index value =>
    cases c
    · exact same rfl
    · change (State.configure number index value s).settingsSound
      unfold State.configure
      split
      · exact same (State.placeAnswer_tuning ..)
      · exact State.settingsSound_of_tuning (State.store_settingsSound _ value hs) (State.placeAnswer_tuning ..)
  case acquire => cases c; exacts [same (State.acquire_tuning ..), same rfl]
  case handOver => cases c; exacts [same (State.handOver_tuning ..), same rfl]
  case join => cases c; exacts [same (State.join_tuning ..), same rfl]
  case resign => cases c; exacts [same (State.resign_tuning ..), same rfl]
  case fencePartner => cases c; exacts [same (State.fencePartner_tuning ..), same rfl]
  case forceFence => cases c; exacts [same rfl, same (State.forceFence_tuning ..)]
  case rejoin => cases c; exacts [same (State.rejoin_tuning ..), same rfl]
  case controllerReset => cases c; exacts [same rfl, same (State.controllerReset_tuning ..)]
  case takeNotice => exact same (by cases c <;> exact State.takeNotice_tuning ..)
  case ackNotice => exact same (by cases c <;> exact State.ackNotice_tuning ..)
  case readmit => exact same (by cases c <;> exact State.readmit_tuning ..)
  all_goals exact same (by cases c <;> exact State.tuning_of (by simp [Request.perform]) (by simp [Request.perform]) (by simp [Request.perform]))

theorem State.tick_tuning (s : State) : s.tick.tuning = s.tuning :=
  State.tuning_eq_iff.2 ⟨rfl, fun p => by cases p <;> exact ⟨rfl, rfl⟩, fun c => by cases c <;> rfl⟩

end Sys2Proof.Machine
end

section
/-! PROOFS. The commands that change nothing the laws rest on, or the transfer indications alone. -/

namespace Sys2Proof.Machine

/-! ## Quiet commands -/

/-- From `s` to `t` nothing has changed that a law of `State.sound` rests on. -/
structure State.Quiet (s t : State) : Prop where
  table : t.table = s.table
  entries : t.flight.entries = s.flight.entries
  ports : t.ports = s.ports
  walk : t.walk = s.walk
  part : t.part.state = s.part.state
  cores : t.cores = s.cores
  tuning : t.tuning = s.tuning

theorem State.Quiet.refl (s : State) : s.Quiet s := ⟨rfl, rfl, rfl, rfl, rfl, rfl, rfl⟩

/-- Clock, media port, mailbox, outputs and timers of the part bear on no law. -/
theorem State.quiet_of {s t : State} (table : t.table = s.table) (entries : t.flight.entries = s.flight.entries) (ports : t.ports = s.ports)
    (walk : t.walk = s.walk) (part : t.part.state = s.part.state) (paths : t.paths = s.paths) (settings : t.settings = s.settings)
    (notices : t.notices = s.notices) : s.Quiet t :=
  ⟨table, entries, ports, walk, part, State.cores_of_paths paths, State.tuning_of settings paths notices⟩

/-- A path record replaced by one in the same state, with the same abort timer, W and M. -/
theorem State.quiet_withPath {s : State} {p : Port} {x : Path} (hs : x.state = (s.path p).state)
    (ha : x.abortTimer = (s.path p).abortTimer) (hw : x.w = (s.path p).w) (hm : x.m = (s.path p).m) : s.Quiet (s.withPath p x) :=
  ⟨rfl, rfl, rfl, rfl, rfl, State.cores_withPath_same hs ha, State.withPath_tuning hw hm⟩

theorem State.Quiet.trans {s t u : State} (h : s.Quiet t) (h' : t.Quiet u) : s.Quiet u :=
  ⟨h'.table.trans h.table, h'.entries.trans h.entries, h'.ports.trans h.ports, h'.walk.trans h.walk, h'.part.trans h.part,
    h'.cores.trans h.cores, h'.tuning.trans h.tuning⟩

/-- The commands that change nothing a law rests on: the link reports of a link-up, beacons, the mailbox's transactions, the messages of
the media port that are no submission, the data of a server, and the timers of start-up and of the controller reset. -/
def quietCommand : Instr → Bool
  | .beacon .. | .linkUp _ | .requestBufferWrite .. | .clearOverrun .. | .answerBufferRead .. | .i2cWriteOther ..
  | .managementRequestMalformed | .sendTransferFailure | .sendAbort | .sendQueueClear | .sendIdentify | .serverData ..
  | .identifyRetryExpiry | .resetAbortTimerExpiry => true
  | _ => false

theorem State.takeBeacon_quiet (s : State) (p : Port) (seq : BitVec 16) (view : Byte) : s.Quiet (s.takeBeacon p seq view) := by
  unfold State.takeBeacon
  split
  · exact .refl s
  · split
    · exact .refl s
    · exact State.quiet_withPath rfl rfl rfl rfl

theorem State.countAttempt_quiet (s : State) : s.Quiet s.countAttempt := by
  refine ⟨by simp, by simp, by simp, by simp, ?_, State.cores_of_paths (by simp), State.countAttempt_tuning s⟩
  unfold State.countAttempt
  dsimp only
  split <;> simp

theorem exec_quiet {i : Instr} (hi : quietCommand i = true) (s : State) : Ends s.Quiet (exec i s) := by
  have same {t : State} (table : t.table = s.table) (entries : t.flight.entries = s.flight.entries) (ports : t.ports = s.ports)
      (walk : t.walk = s.walk) (part : t.part.state = s.part.state) (paths : t.paths = s.paths) (settings : t.settings = s.settings)
      (notices : t.notices = s.notices) : s.Quiet t := State.quiet_of table entries ports walk part paths settings notices
  cases i <;> cases hi
  case beacon p seq view => exact ends_next (ite_keeps (fun _ => s.takeBeacon_quiet p seq view) fun _ => .refl s)
  case linkUp p =>
    have sent (u : State) (o : LinkOut) : u.Quiet (u.sendOn p o) := by apply State.quiet_of <;> simp
    refine ends_next (.trans (State.quiet_withPath (x := (s.path p).withLink true) ?_ ?_ ?_ ?_) (sent _ _)) <;> rfl
  case requestBufferWrite bytes stop => exact ends_next (ite_keeps (fun _ => by apply same <;> simp) fun _ => by apply same <;> simp)
  case clearOverrun value stop => exact ends_next (ite_keeps (fun _ => by apply same <;> simp) fun _ => by apply same <;> simp)
  case answerBufferRead n stop => exact ends_next (ite_keeps (fun _ => by apply same <;> simp) fun _ => by apply same <;> simp)
  case i2cWriteOther selector bytes =>
    refine ends_next ?_
    repeat' split
    all_goals apply same <;> simp
  case managementRequestMalformed =>
    refine ends_next ?_
    repeat' split
    all_goals apply same <;> simp
  case sendTransferFailure | sendAbort | sendQueueClear | sendIdentify =>
    refine ends_next ?_
    split
    all_goals apply same <;> simp
  case serverData p tag data =>
    refine ends_next ?_
    repeat' split
    all_goals apply same <;> simp
  case identifyRetryExpiry =>
    refine ends_next (ite_keeps (fun _ => ite_keeps (fun _ => ?_) fun _ => by apply same <;> simp) fun _ => .refl s)
    exact .trans (by apply same <;> simp) (State.countAttempt_quiet _)
  case resetAbortTimerExpiry =>
    exact ends_next (ite_keeps (fun _ => ite_keeps (fun _ => by apply same <;> simp) fun _ => by apply same <;> simp) fun _ => .refl s)

/-! ## Transfers -/

/-- From `s` to `t` at most the transfer indications have changed of what a law of `State.sound` rests on (R77). -/
def State.Transferring (s t : State) : Prop :=
  ∃ f : Entry → Transfer, s.Quiet (t.withFlight { t.flight with entries := s.flight.entries })
    ∧ t.flight.entries = s.flight.entries.map fun e => { e with xfer := f e }

theorem State.Quiet.transferring {s t : State} (h : s.Quiet t) : s.Transferring t := by
  refine ⟨Entry.xfer, ⟨h.table, rfl, h.ports, h.walk, h.part, h.cores, h.tuning⟩, ?_⟩
  rw [h.entries]
  exact (List.map_id _).symm

theorem State.setTransfer_transferring (s : State) (k : Fin 32) (x : Transfer) : s.Transferring (s.setTransfer k x) := by
  refine ⟨fun e => if e.stage.slot = some k then x else e.xfer, by apply State.quiet_of <;> simp, ?_⟩
  simp only [State.setTransfer, State.withFlight_flight]
  exact List.map_congr_left fun e _ => by split <;> rfl

theorem State.failTransfers_transferring (s : State) (p : Port) : s.Transferring (s.failTransfers p) := by
  refine ⟨fun e => if e.port = p then .none else e.xfer, by apply State.quiet_of <;> simp [State.failTransfers], ?_⟩
  simp only [State.failTransfers, State.withMedia_flight, State.withFlight_flight]
  exact List.map_congr_left fun e _ => by split <;> rfl

theorem State.Transferring.quiet {s t u : State} (h : s.Transferring t) (h' : t.Quiet u) : s.Transferring u := by
  obtain ⟨f, hq, hf⟩ := h
  exact ⟨f, ⟨h'.table.trans hq.table, rfl, h'.ports.trans hq.ports, h'.walk.trans hq.walk, h'.part.trans hq.part,
    h'.cores.trans hq.cores, h'.tuning.trans hq.tuning⟩, h'.entries.trans hf⟩

/-- The drive's commands on the data lane. -/
def transferCommand : Instr → Bool
  | .pullRequest _ | .pullEnd _ | .deliveryStart .. | .deliveryEnd _ => true
  | _ => false

theorem exec_transferring {i : Instr} (hi : transferCommand i = true) (s : State) : Ends s.Transferring (exec i s) := by
  have failed (k : Fin 32) : s.Transferring (s.failTransfer k) :=
    (s.setTransfer_transferring k .none).quiet (by apply State.quiet_of <;> simp [State.failTransfer])
  have sent (k : Fin 32) (x : Transfer) (p : Port) (o : LinkOut) : s.Transferring ((s.setTransfer k x).sendOn p o) :=
    (s.setTransfer_transferring k x).quiet (by apply State.quiet_of <;> simp)
  have kept : s.Transferring s := (State.Quiet.refl s).transferring
  cases i <;> cases hi
  case pullRequest k =>
    change Ends _ (execPullRequest k s)
    unfold execPullRequest
    repeat' split
    exacts [failed k, sent .., trivial, failed k]
  case deliveryStart k data =>
    change Ends _ (execDeliveryStart k data s)
    unfold execDeliveryStart
    repeat' split
    exacts [failed k, sent .., trivial, failed k]
  case pullEnd k | deliveryEnd k =>
    refine ends_next ?_
    split
    · exact ite_keeps (fun _ => s.setTransfer_transferring k .none) fun _ => kept
    · exact kept

end Sys2Proof.Machine
end

section
/-! PROOFS. Every step keeps the settings in their ranges (R191). -/

namespace Sys2Proof.Machine

theorem State.arrive_tuning (s : State) (p : Port) (head tag : Byte) (body : List Byte) : (s.arrive p head tag body).tuning = s.tuning := by
  unfold State.arrive
  repeat' split
  · exact State.takeBeacon_tuning ..
  · rfl
  · exact State.tuning_of (by simp) (by simp) (by simp)
  · exact State.tuning_of (by simp) (by simp) (by simp)
  · rfl

/-- Every command that takes no request leaves the configured values as they are, but for the power-on reset. -/
theorem exec_tuning {i : Instr} (hi : commandClient i = none) (hr : i ≠ .powerOnReset) (s : State) :
    Ends (fun t => t.tuning = s.tuning) (exec i s) := by
  have quiet (hq : quietCommand i = true) : Ends (fun t => t.tuning = s.tuning) (exec i s) :=
    (exec_quiet hq s).imp fun h => h.tuning
  have transfer (ht : transferCommand i = true) : Ends (fun t => t.tuning = s.tuning) (exec i s) :=
    (exec_transferring ht s).imp fun ⟨_, h, _⟩ => h.tuning
  have shed (u : State) (p : Port) (x : Path) (hw : x.w = (u.path p).w) (hm : x.m = (u.path p).m) : (u.withPath p x).tuning = u.tuning :=
    State.withPath_tuning hw hm
  have chosen {c : Prop} [Decidable c] {t u : State} (ht : c → t.tuning = s.tuning) (hu : ¬ c → u.tuning = s.tuning) :
      (if c then t else u).tuning = s.tuning := ite_keeps (P := fun t => t.tuning = s.tuning) ht hu
  cases i with
  | frameArrival p f =>
    refine ends_next (chosen (fun _ => ?_) fun _ => rfl)
    cases f with
    | runt => rfl
    | frame head tag body => exact s.arrive_tuning ..
  | read p | write p | trim p | flush p => exact ends_next (State.tuning_of (by simp) (by simp) (by simp))
  | releaseCompletion =>
    refine ends_next ?_
    split
    · refine chosen (fun _ => ?_) fun _ => rfl
      rw [State.walkTest_tuning]
      exact State.tuning_of (by simp) (by simp) (by simp)
    · rfl
  | handOverCompletion =>
    refine ends_next ?_
    split
    · refine chosen (fun _ => ?_) fun _ => rfl
      rw [State.walkTest_tuning, State.completeHandOver_tuning]
      exact State.tuning_of (by simp) (by simp) (by simp)
    · rfl
  | walkStep =>
    refine ends_next ?_
    split
    · refine chosen (fun _ => ?_) fun _ => rfl
      split
      · rw [State.walkTest_tuning, State.walkOne_tuning]
        exact State.tuning_of rfl rfl rfl
      · rfl
    · rfl
  | linkDown p =>
    have down : ((s.withPath p ((s.path p).withLink false)).failTransfers p).tuning = s.tuning :=
      (State.tuning_of (by simp) (by simp) (by simp)).trans (shed s p ((s.path p).withLink false) rfl rfl)
    exact ends_next (chosen (fun _ => (State.enterLost_tuning ..).trans down) fun _ => down)
  | windowEnd p =>
    refine ends_next (chosen (fun _ => ?_) fun _ => rfl)
    split
    · split <;> simp
    · rfl
  | drainTimerExpiry p =>
    have expired := shed s p ((s.path p).drainExpired s.settings.abortExp) rfl rfl
    exact ends_next (chosen
      (fun _ => chosen
        (fun _ => (State.tuning_of (by simp) (by simp) (by simp)).trans expired) fun _ => expired) fun _ => rfl)
  | abortTimerExpiry p =>
    have expired := shed s p (s.path p).abortExpired rfl rfl
    refine ends_next (chosen
      (fun _ => chosen (fun _ => ?_) fun _ => expired) fun _ => rfl)
    rw [State.endDrain_tuning, State.onTakeover_tuning]
    exact (State.tuning_of rfl rfl rfl).trans expired
  | submitCommand =>
    refine ends_next ?_
    repeat' split
    all_goals exact State.tuning_of (by simp) (by simp) (by simp)
  | driveAnswer k value =>
    refine ends_next ?_
    split <;> simp
  | cleared =>
    refine ends_next ?_
    repeat' split
    all_goals exact State.tuning_of (by simp) (by simp) (by simp)
  | clearedTimerExpiry =>
    refine ends_next ?_
    repeat' split
    all_goals exact State.tuning_of (by simp) (by simp) (by simp)
  | identifyAnswer entries =>
    have freed : s.freeSlots.tuning = s.tuning := State.tuning_of (by simp) (by simp) (by simp)
    refine ends_next ?_
    repeat' split
    · rw [State.countAttempt_tuning, freed]
    · exact State.tuning_of (by simp) (by simp) (by simp)
    · rfl
  | powerOnReset => exact absurd rfl hr
  | beacon | linkUp | requestBufferWrite | clearOverrun | answerBufferRead | i2cWriteOther | managementRequestMalformed
  | sendTransferFailure | sendAbort | sendQueueClear | sendIdentify | serverData | identifyRetryExpiry | resetAbortTimerExpiry =>
    exact quiet rfl
  | pullRequest | pullEnd | deliveryStart | deliveryEnd => exact transfer rfl
  | _ => cases hi

/-! ## Power-on reset -/

theorem State.reset_settingsSound : State.reset.settingsSound := by decide

/-- POWER_ON_RESET's state, whatever of the model's own records it keeps. -/
theorem State.reset_tuning (s : State) : { State.reset with pending := s.pending, out := s.out, free := s.free }.tuning = State.reset.tuning :=
  State.tuning_of rfl rfl rfl

theorem exec_settingsSound (i : Instr) {s : State} (hs : s.settingsSound) : Ends State.settingsSound (exec i s) := by
  cases hc : commandClient i with
  | some c =>
    refine exec_request_ends hc hs (fun tag r code => State.settingsSound_of_tuning hs (State.tuning_of (by simp) (by simp) (by simp)))
      fun tag r t _ _ ht => Request.perform_settingsSound (State.settingsSound_of_tuning hs ?_)
    obtain rfl | rfl := ht <;> exact State.tuning_of (by simp) (by simp) (by simp)
  | none =>
    by_cases hr : i = .powerOnReset
    · subst hr
      exact State.settingsSound_of_tuning State.reset_settingsSound s.reset_tuning
    · exact (exec_tuning hc hr s).imp fun h => State.settingsSound_of_tuning hs h

/-- Settles O57: each configured value is left as it is or stored in range, at every command and as time passes. -/
theorem stepKeepsSettings : Obligations.StepKeepsSettings := by
  intro s t hs ht
  refine ends_iff.1 (step_ends (P := State.settingsSound) (fun s q hs => State.settingsSound_of_tuning hs (State.tuning_of rfl rfl rfl))
    (fun s hs => State.settingsSound_of_tuning hs s.tick_tuning) (fun i s hs => exec_settingsSound i hs) s hs) t ht

end Sys2Proof.Machine
end

section
/-! PROOFS. Every step keeps the flight table's capacity, indices and slots (R64, R68, R77). -/

namespace Sys2Proof.Machine

theorem State.Quiet.flightSound {s t : State} (h : s.Quiet t) (hs : s.flightSound) : t.flightSound := State.flightSound_of hs h.entries

theorem State.Transferring.flightSound {s t : State} (h : s.Transferring t) (hs : s.flightSound) : t.flightSound := by
  obtain ⟨f, -, hf⟩ := h
  exact State.flightSound_map (fun e => { e with xfer := f e }) (fun e => ⟨rfl, rfl, rfl, rfl⟩) hs hf

/-! ## Requests -/

theorem State.resign_flightSound {s : State} {p : Port} {tag : Byte} (hs : s.flightSound) : (State.resign p tag s).flightSound :=
  State.enterDraining_flightSound p _ (State.flightSound_of hs (by simp))

theorem State.fencePartner_flightSound {s : State} {p : Port} {tag : Byte} (hs : s.flightSound) :
    (State.fencePartner p tag s).flightSound := by
  have answered (code : AnswerCode) : (s.answer p tag 14 code []).flightSound := State.flightSound_of hs (by simp)
  unfold State.fencePartner
  split
  exacts [answered _, State.fence_flightSound _ _ (answered _), State.fence_flightSound _ _ (answered _),
    State.fence_flightSound _ _ (answered _), answered _]

theorem State.forceFence_flightSound {s : State} {port : Nat} (hs : s.flightSound) : (State.forceFence port s).flightSound := by
  have answered (code : AnswerCode) : (s.placeAnswer 20 code []).flightSound := State.flightSound_of hs (by simp)
  unfold State.forceFence
  split
  · exact answered _
  · unfold State.forceFencePort
    split
    exacts [answered _, State.fence_flightSound _ _ (State.flightSound_of hs (by simp)),
      State.fence_flightSound _ _ (State.flightSound_of hs (by simp)), State.fence_flightSound _ _ (answered _), answered _]

theorem State.acknowledgeLoss_flightSound {s : State} {y : Port} (hs : s.flightSound) : (s.acknowledgeLoss y).flightSound :=
  ite_keeps (fun _ => State.fence_flightSound _ _ hs) fun _ => hs

theorem State.ackNotice_flightSound {s : State} {c : Client} {tag : Byte} {kind : Nat} (hs : s.flightSound) :
    (State.ackNotice c tag kind s).flightSound := by
  unfold State.ackNotice
  repeat' split
  exacts [State.flightSound_of hs (by simp), State.flightSound_of hs (by simp),
    State.acknowledgeLoss_flightSound (State.flightSound_of hs (by simp)), State.flightSound_of hs (by simp)]

theorem State.configure_flightSound {s : State} {number index value : Nat} (hs : s.flightSound) :
    (State.configure number index value s).flightSound := by
  unfold State.configure
  split
  · exact State.flightSound_of hs (by simp)
  · next x _ =>
    suffices h : (s.store x (x.stored value)).flightSound from State.flightSound_of h (by simp)
    cases x with
    | quota p =>
      refine ite_keeps (fun _ => State.flightSound_of hs rfl) fun _ => State.rejudge_flightSound p (State.flightSound_of hs rfl)
    | _ => exact State.flightSound_of hs (by simp [State.store])

theorem State.clearWhenEmpty_flightSound {s : State} (hs : s.flightSound) : s.clearWhenEmpty.flightSound :=
  State.flightSound_of hs (by simp)

theorem State.sweep_entries (s : State) : s.sweep.flight.entries = s.flight.entries.filter fun e => !e.stage.isWaiting := by
  have replied (u : State) (es : List Entry) :
      (es.foldl (fun x e => x.reply e.port e.tag .notReady) u).flight = u.flight :=
    foldl_keeps State.flight _ (fun _ _ => by simp) es u
  simp [State.sweep, State.removeWaiting, replied]

theorem State.sweep_flightSound {s : State} (hs : s.flightSound) : s.sweep.flightSound :=
  State.flightSound_filter _ hs s.sweep_entries

theorem State.controllerReset_flightSound {s : State} (hs : s.flightSound) : s.controllerReset.flightSound :=
  ite_keeps (fun _ => State.flightSound_of hs (by simp)) fun _ =>
    State.clearWhenEmpty_flightSound (State.requestAborts_flightSound _ (State.flightSound_of (State.sweep_flightSound hs) rfl))

theorem Request.perform_flightSound {c : Client} {tag : Byte} {r : Request} {s : State} (hs : s.flightSound) :
    (r.perform c tag s).flightSound := by
  cases r <;> cases c
  case resign.port => exact State.resign_flightSound hs
  case fencePartner.port => exact State.fencePartner_flightSound hs
  case forceFence.mgmt => exact State.forceFence_flightSound hs
  case ackNotice.port | ackNotice.mgmt => exact State.ackNotice_flightSound hs
  case configure.mgmt => exact State.configure_flightSound hs
  case controllerReset.mgmt => exact State.controllerReset_flightSound hs
  all_goals exact State.flightSound_of hs (by simp [Request.perform])

/-! ## Commands -/

theorem State.takeCommand_flightSound {s : State} {p : Port} {kind : IoKind} (hs : s.flightSound) : (s.takeCommand p kind).flightSound := by
  unfold State.takeCommand
  split
  · exact ite_keeps (fun _ => ite_keeps (fun _ => State.flightSound_of hs (by simp)) fun _ => State.judgeHead_flightSound hs) fun _ => hs
  · exact hs

theorem State.resolve_flightSound {s : State} {e : Entry} {k : Fin 32} {code : AnswerCode} (hs : s.flightSound) :
    (s.resolve e k code).flightSound := by
  have left : (s.resolveLeft e k code).flightSound := State.depart_flightSound e (State.flightSound_of hs (by simp))
  rw [State.resolve_eq]
  split <;> exact State.flightSound_of left (by simp)

theorem exec_flightSound (i : Instr) {s : State} (hs : s.flightSound) : Ends State.flightSound (exec i s) := by
  have same {t : State} (h : t.flight.entries = s.flight.entries) : t.flightSound := State.flightSound_of hs h
  have quiet (hq : quietCommand i = true) : Ends State.flightSound (exec i s) := (exec_quiet hq s).imp fun h => h.flightSound hs
  have transfer (ht : transferCommand i = true) : Ends State.flightSound (exec i s) :=
    (exec_transferring ht s).imp fun h => h.flightSound hs
  have request {c : Client} (hc : commandClient i = some c) : Ends State.flightSound (exec i s) :=
    exec_request_ends hc hs (fun tag r code => same (by simp)) fun tag r t _ _ ht =>
      Request.perform_flightSound (same (by obtain rfl | rfl := ht <;> simp))
  cases i with
  | frameArrival p f =>
    refine ends_next (ite_keeps (fun _ => ?_) fun _ => hs)
    cases f with
    | runt => exact hs
    | frame head tag body => exact same (by simp)
  | read p | write p | trim p | flush p => exact ends_next (State.takeCommand_flightSound hs)
  | releaseCompletion | handOverCompletion =>
    refine ends_next ?_
    split
    · exact ite_keeps (fun _ => same (by simp)) fun _ => hs
    · exact hs
  | walkStep =>
    refine ends_next ?_
    split
    · refine ite_keeps (fun _ => ?_) fun _ => hs
      split
      · exact same (by simp)
      · exact hs
    · exact hs
  | linkDown p =>
    have down : ((s.withPath p ((s.path p).withLink false)).failTransfers p).flightSound :=
      (State.failTransfers_transferring _ p).flightSound (same rfl)
    exact ends_next (ite_keeps (fun _ => State.enterLost_flightSound p _ down) fun _ => down)
  | windowEnd p =>
    refine ends_next (ite_keeps (fun _ => ?_) fun _ => hs)
    split
    · next w _ =>
      refine ite_keeps (fun _ => ?_) fun _ => ?_
      · have seen := State.rejudge_flightSound p (s := s.withPath p ((s.path p).afterSeen w)) (same rfl)
        exact ite_keeps (fun _ => State.flightSound_of seen (by simp)) fun _ => same rfl
      · have missed := State.rejudge_flightSound p (s := s.withPath p ((s.path p).afterMissed w)) (same rfl)
        exact ite_keeps (fun _ => State.enterLost_flightSound p _ (same rfl)) fun _ =>
          ite_keeps (fun _ => State.flightSound_of missed (by simp)) fun _ => same rfl
    · exact hs
  | drainTimerExpiry p =>
    exact ends_next (ite_keeps (fun _ => ite_keeps (fun _ => State.requestAborts_flightSound _ (same rfl)) fun _ => same rfl) fun _ => hs)
  | abortTimerExpiry p =>
    refine ends_next (ite_keeps (fun _ => ite_keeps (fun _ => ?_) fun _ => same rfl) fun _ => hs)
    exact State.flightSound_map (Entry.abandon p) (Entry.abandon_same p) hs (by simp)
  | submitCommand =>
    refine ends_next (ite_keeps (fun _ => hs) fun _ => ?_)
    split
    · next k e hk he =>
      obtain ⟨hm, hw⟩ := State.submissionChoice_waiting he
      exact State.submit_flightSound hm hw (State.freeSlot_free hk) hs
    · exact hs
  | driveAnswer k value =>
    refine ends_next ?_
    split
    exacts [State.resolve_flightSound hs, hs]
  | cleared =>
    have empty {t : State} (h : t.flight.entries = []) : t.flightSound := State.flightSound_filter (fun _ => false) hs (by simpa using h)
    refine ends_next (ite_keeps (fun _ => ?_) fun _ => hs)
    dsimp only
    split <;> exact empty (by simp [State.emptyFlight])
  | clearedTimerExpiry =>
    have empty {t : State} (h : t.flight.entries = []) : t.flightSound := State.flightSound_filter (fun _ => false) hs (by simpa using h)
    exact ends_next (ite_keeps (fun _ => ite_keeps (fun _ => empty (by simp [State.emptyFlight])) fun _ => same rfl) fun _ => hs)
  | identifyAnswer entries =>
    have freed {t : State} (h : t.flight.entries = s.freeSlots.flight.entries) : t.flightSound :=
      State.flightSound_filter (fun e => e.stage.slot.isNone) hs (by simpa [State.freeSlots] using h)
    refine ends_next (ite_keeps (fun _ => ?_) fun _ => hs)
    split <;> exact freed (by simp)
  | powerOnReset => exact ends_next (State.flightSound_filter (fun _ => false) hs (by simp [State.reset]))
  | beacon | linkUp | requestBufferWrite | clearOverrun | answerBufferRead | i2cWriteOther | managementRequestMalformed
  | sendTransferFailure | sendAbort | sendQueueClear | sendIdentify | serverData | identifyRetryExpiry | resetAbortTimerExpiry =>
    exact quiet rfl
  | pullRequest | pullEnd | deliveryStart | deliveryEnd => exact transfer rfl
  | _ => exact request rfl

/-- Settles O59: admissions take a free index below the capacity, submissions a free slot, and every other command keeps or removes
entries. -/
theorem stepKeepsFlight : Obligations.StepKeepsFlight := by
  intro s t hs ht
  exact ends_iff.1 (step_ends (P := State.flightSound) (fun s q hs => State.flightSound_of hs rfl)
    (fun s hs => State.flightSound_of hs (by simp)) (fun i s hs => exec_flightSound i hs) s hs) t ht

end Sys2Proof.Machine
end

section
/-! PROOFS. The holding table (R15 to R19, R26): every command keeps its laws. -/

namespace Sys2Proof.Machine

/-! ## What the checks of ACQUIRE and SPLIT leave (R30, R43) -/

/-- An ACQUIRE that no check refuses. -/
theorem State.acquireRefusal_eq_none {s : State} {p : Port} {ns start length : Nat} (h : s.acquireRefusal p ns start length = none) :
    (∃ n, s.namespaceById ns = some n ∧ start + length ≤ n.size) ∧ 1 ≤ length
      ∧ (∀ x ∈ s.table.holdings, x.meets ns start length = false)
      ∧ s.table.holdings.length < 1024 ∧ ∃ g, s.table.gen = some g := by
  unfold State.acquireRefusal at h
  split at h
  · cases h
  · next n hn =>
    repeat' split at h
    all_goals first | (cases h; done) | skip
    next hlen _ _ _ _ hbusy hroom hg =>
    refine ⟨⟨n, hn, by omega⟩, by omega, fun x hx => ?_, by omega, ?_⟩
    · by_contra hmeet
      have hover : x ∈ s.holdingsOver ns start length := List.mem_filter.2 ⟨hx, by simpa using hmeet⟩
      have h1 := List.find?_eq_none.1 ‹s.ownOver p ns start length = none› x hover
      have h2 := List.find?_eq_none.1 ‹s.otherOver p ns start length = none› x hover
      simp at h1 h2
      exact h1 h2
    · cases hgen : s.table.gen with
      | none => simp [hgen] at hg
      | some g => exact ⟨g, rfl⟩

/-- A SPLIT that no check refuses. -/
theorem State.splitRefusal_eq_none {s : State} {h : Holding} {offset : Nat} (hr : s.splitRefusal h offset = none) :
    0 < offset ∧ offset < h.length ∧ s.table.holdings.length < 1024 ∧ ∃ g, s.table.gen = some g := by
  unfold State.splitRefusal at hr
  repeat' split at hr
  all_goals first | (cases hr; done) | skip
  next hoff hroom hg =>
  refine ⟨by omega, by omega, by omega, ?_⟩
  cases hgen : s.table.gen with
  | none => simp [hgen] at hg
  | some g => exact ⟨g, rfl⟩

/-! ## The operations on the table -/

/-- Only the table and the part state bear on the table's laws. -/
theorem State.tableSound_of_table {s t : State} (hs : s.tableSound) (h : t.table = s.table) (hp : t.part.state = s.part.state) :
    t.tableSound :=
  State.tableSound_of hs (by rw [h]) (by rw [h]) (by rw [h]) hp

/-- A sound table with a record is that of a READY part (R26). -/
theorem State.ready_of_mem {s : State} (hs : s.tableSound) {h : Holding} (hm : h ∈ s.table.holdings) : s.part.state = .ready := by
  obtain ⟨-, -, -, -, -, -, hready⟩ := hs
  by_contra hne
  rw [hready hne] at hm
  cases hm

/-- Two records of a sound table that share an id are one. -/
theorem State.record_of_id {s : State} (hs : s.tableSound) {x y : Holding} (hx : x ∈ s.table.holdings) (hy : y ∈ s.table.holdings)
    (h : x.id = y.id) : x = y := by
  obtain ⟨-, -, hids, -⟩ := hs
  exact List.inj_on_of_nodup_map hids hx hy h

/-- Of two records of a sound table one stands before the other (R15). -/
theorem State.before_of_ne {s : State} (hs : s.tableSound) {x y : Holding} (hx : x ∈ s.table.holdings) (hy : y ∈ s.table.holdings)
    (hne : x ≠ y) : x.before y ∨ y.before x := by
  obtain ⟨horder, -⟩ := hs
  have hsymm : Std.Symm fun x y : Holding => x.before y ∨ y.before x := ⟨fun _ _ h => h.symm⟩
  have hor : s.table.holdings.Pairwise fun x y => x.before y ∨ y.before x := horder.imp Or.inl
  exact hor.forall hx hy hne

/-- Two records of a sound table that share a block are one. -/
theorem State.record_of_block {s : State} (hs : s.tableSound) {x y : Holding} (hx : x ∈ s.table.holdings) (hy : y ∈ s.table.holdings)
    {b : Nat} (hn : x.ns = y.ns) (hxb : x.start ≤ b ∧ b < x.start + x.length) (hyb : y.start ≤ b ∧ b < y.start + y.length) :
    x = y := by
  by_contra hne
  have hor := State.before_of_ne hs hx hy hne
  unfold Holding.before at hor
  omega

theorem Holding.meets_eq_false_iff {h : Holding} {ns start length : Nat} : h.meets ns start length = false ↔
    h.ns = ns → min (h.start + h.length) (start + length) ≤ max h.start start := by
  simp only [Holding.meets, rangesMeet, Bool.and_eq_false_imp, decide_eq_true_eq, decide_eq_false_iff_not, not_lt]

theorem Holding.not_meets_of_before {x y : Holding} (h : x.before y ∨ y.before x) : x.meets y.ns y.start y.length = false := by
  unfold Holding.before at h
  rw [Holding.meets_eq_false_iff]
  omega

theorem State.acquire_tableSound {s : State} {p : Port} {tag : Byte} {ns start length access heir rank : Nat} (hs : s.tableSound)
    (hready : s.part.state = .ready) : (State.acquire p tag ns start length access heir rank s).tableSound := by
  unfold State.acquire
  split
  · next acc hr rk hacc hheir hrank =>
    split
    · dsimp only
      split <;> exact State.tableSound_of_table hs (by simp) (by simp)
    · next hnone =>
      obtain ⟨⟨n, hn, hsize⟩, hlen, hfree, hroom, g, hg⟩ := State.acquireRefusal_eq_none hnone
      have hrk : 1 ≤ rk ∧ rk ≤ 15 := by
        unfold rankOf at hrank
        split at hrank <;> simp_all
      refine State.tableSound_insert (s.newHolding p ns start length acc hr rk) ?_ hroom rfl hrk hlen ?_ hfree hready hs ?_ ?_ ?_ ?_ <;>
        simp [State.newHolding, State.advanceGen, hg, hn, hsize]
  · exact State.tableSound_of_table hs (by simp) (by simp)

theorem State.release_tableSound {s : State} {p : Port} {tag : Byte} {id gen : Nat} (hs : s.tableSound) :
    (State.release p tag id gen s).tableSound := by
  unfold State.release
  split
  · exact State.tableSound_of_table hs (by simp) (by simp)
  · split
    · exact State.tableSound_setHolding id _ (Holding.sameGround_withTenure _) hs rfl rfl rfl rfl
    · exact State.tableSound_filter (fun h => h.id != id) hs (by simp [State.retire]) (by simp [State.retire]) (by simp [State.retire])
        (by simp)

theorem State.finishHandOver_tableSound {s : State} {p : Port} {h : Holding} {tag : Byte} (hs : s.tableSound) :
    (s.finishHandOver p h tag).tableSound := by
  unfold State.finishHandOver
  split
  · exact State.tableSound_setHolding h.id _ (Holding.sameGround_withTenure (returnTenure (s.path p).state p)) hs (by simp)
      (by simp [State.setHolding]) (by simp [State.setHolding]) (by simp)
  · next hnone =>
    have hg : ∃ g, s.table.gen = some g := by
      unfold State.handOverRefusal at hnone
      repeat' split at hnone
      all_goals first | (cases hnone; done) | skip
      next hgen => exact Option.isSome_iff_exists.1 (by simpa [Option.isNone_iff_eq_none, Option.ne_none_iff_isSome] using hgen)
    obtain ⟨g, hg⟩ := hg
    refine State.tableSound_grant h.id g (fun x => x.grantedTo p.partner g) hg (fun x => ⟨rfl, rfl, rfl, rfl, rfl, fun r => r⟩) hs ?_ ?_ ?_ ?_ <;>
      dsimp only <;> split <;> simp [State.advanceGen, State.setHolding, hg]

theorem State.handOver_tableSound {s : State} {p : Port} {tag : Byte} {id gen : Nat} (hs : s.tableSound) :
    (State.handOver p tag id gen s).tableSound := by
  unfold State.handOver
  split
  · exact State.tableSound_of_table hs (by simp) (by simp)
  · split
    · exact State.tableSound_of_table hs (by simp) (by simp)
    · split
      · exact State.tableSound_setHolding id _ (Holding.sameGround_withTenure _) hs rfl rfl rfl rfl
      · exact State.finishHandOver_tableSound hs

theorem State.split_tableSound {s : State} {p : Port} {tag : Byte} {id offset : Nat} (hs : s.tableSound) :
    (State.split p tag id offset s).tableSound := by
  unfold State.split
  split
  · exact State.tableSound_of_table hs (by simp) (by simp)
  · next h hok =>
    obtain ⟨hm, hid, -⟩ := State.ownedHolding_ok hok
    split
    · exact State.tableSound_of_table hs (by simp) (by simp)
    · next hnone =>
      obtain ⟨hpos, hlt, hroom, g, hg⟩ := State.splitRefusal_eq_none hnone
      have hone : ∀ x ∈ s.table.holdings, x.id = id → x = h := fun x hx hxi => State.record_of_id hs hx hm (hxi.trans hid.symm)
      have hs1 : (s.setHolding id fun x => x.lowerHalf offset).tableSound :=
        State.tableSound_shrink id offset (fun x hx hxi => by rw [hone x hx hxi]; omega) hs rfl rfl rfl rfl
      have hready := State.ready_of_mem hs hm
      have hapart := fun x hx => State.before_of_ne (x := x) hs hx hm
      obtain ⟨-, -, -, -, hrec, -⟩ := hs
      obtain ⟨-, -, hr1, hr2, -, hin⟩ := hrec h hm
      have hids : (s.setHolding id fun x => x.lowerHalf offset).table.holdings.map (·.id) = s.table.holdings.map (·.id) := by
        simp only [State.setHolding, State.withTable_table, List.map_map]
        exact List.map_congr_left fun x _ => by simp only [Function.comp]; split <;> rfl
      have hfree : ∀ x ∈ (s.setHolding id fun x => x.lowerHalf offset).table.holdings,
          x.meets h.ns (h.start + offset) (h.length - offset) = false := by
        simp only [State.setHolding, State.withTable_table, List.mem_map]
        rintro _ ⟨x, hx, rfl⟩
        rw [Holding.meets_eq_false_iff]
        split
        · next hxi =>
          rw [hone x hx hxi]
          simp only [Holding.lowerHalf]
          omega
        · next hxi =>
          have hmeet := Holding.meets_eq_false_iff.1 (Holding.not_meets_of_before (hapart x hx fun e => hxi (e ▸ hid)))
          omega
      refine State.tableSound_insert (h.upperHalf offset s.freeId g) (by simpa [State.setHolding, Holding.upperHalf] using hg)
        (by simpa [State.setHolding] using hroom) (by simp [Holding.upperHalf, State.freeId, hids]) ⟨hr1, hr2⟩
        (by simp only [Holding.upperHalf]; omega) ?_ hfree hready hs1 (by simp [hg, State.advanceGen, State.setHolding])
        (by simp [hg, State.advanceGen, Holding.upperHalf]) (by simp [State.advanceGen]) (by simp)
      rw [Option.any_eq_true] at hin ⊢
      obtain ⟨n, hn, hle⟩ := hin
      have hle' := of_decide_eq_true hle
      exact ⟨n, hn, decide_eq_true (by simp only [Holding.upperHalf]; omega)⟩

theorem State.setHeir_tableSound {s : State} {p : Port} {tag : Byte} {id heir rank : Nat} (hs : s.tableSound) :
    (State.setHeir p tag id heir rank s).tableSound := by
  unfold State.setHeir
  split
  · next hr rk hheir hrank =>
    have hrk : 1 ≤ rk ∧ rk ≤ 15 := by
      unfold rankOf at hrank
      split at hrank <;> simp_all
    split
    · exact State.tableSound_of_table hs (by simp) (by simp)
    · exact State.tableSound_setHolding id (fun x => x.withHeir hr rk) (fun h => ⟨rfl, rfl, rfl, rfl, rfl, fun _ => hrk⟩) hs (by simp)
        (by simp [State.setHolding]) (by simp [State.setHolding]) (by simp)
  · exact State.tableSound_of_table hs (by simp) (by simp)

theorem State.adoptBy_tableSound {s : State} {c : Client} {tag : Byte} {echo id : Nat} {p : Port} (hs : s.tableSound) :
    (State.adoptBy c tag echo p id s).tableSound := by
  unfold State.adoptBy
  split
  · exact State.tableSound_of_table hs (by simp) (by simp)
  · split
    · exact State.tableSound_of_table hs (by simp) (by simp)
    · split
      · exact State.tableSound_of_table hs (by simp) (by simp)
      · next g hg =>
        exact State.tableSound_grant id g (fun x => x.adopted p g) hg (fun x => ⟨rfl, rfl, rfl, rfl, rfl, fun _ => by simp [Holding.adopted]⟩) hs
          (by simp [State.advanceGen]) (by simp [State.advanceGen]) (by simp [State.advanceGen, State.setHolding]) (by simp)

theorem State.fence_tableSound {s : State} {p : Port} {cause : Cause} (hs : s.tableSound) : (s.fence p cause).tableSound :=
  State.tableSound_map (Holding.toPending p) (Holding.sameGround_toPending p) hs (by simp) (by simp) (by simp) (by simp)

theorem State.completeRelease_tableSound {s : State} {d : Due} (hs : s.tableSound) : (s.completeRelease d).tableSound := by
  unfold State.completeRelease
  split
  · next h _ =>
    split
    · exact State.tableSound_filter (fun x => x.id != h.id) hs (by simp [State.retire]) (by simp [State.retire]) (by simp [State.retire])
        (by simp)
    · exact hs
  · exact hs

theorem State.completeHandOver_tableSound {s : State} {d : Due} (hs : s.tableSound) : (s.completeHandOver d).tableSound := by
  unfold State.completeHandOver
  split
  · split
    · exact State.finishHandOver_tableSound (State.tableSound_of hs rfl rfl rfl rfl)
    · exact hs
  · exact hs

theorem State.walkOne_tableSound {s : State} {p : Port} {h : Holding} (hs : s.tableSound) : (s.walkOne p h).tableSound := by
  have orphaned (count : Takeover → Takeover) :
      ((s.setHolding h.id fun x => x.withTenure (.orphaned p)).onTakeover p count).tableSound :=
    State.tableSound_setHolding h.id _ (Holding.sameGround_withTenure (.orphaned p)) hs (by simp) (by simp [State.setHolding])
      (by simp [State.setHolding]) (by simp)
  unfold State.walkOne
  split
  · next g hg =>
    split
    · exact State.tableSound_grant h.id g (fun x => x.grantedTo p.partner g) hg (fun x => ⟨rfl, rfl, rfl, rfl, rfl, fun r => r⟩) hs
        (by simp [State.advanceGen]) (by simp [State.advanceGen]) (by simp [State.advanceGen, State.setHolding]) (by simp)
    · exact orphaned _
  · exact orphaned _

/-! ## The requests -/

/-- A request that only a READY part performs, performed. -/
theorem State.ready_of_refusal {s : State} {p : Port} {r : Request} (h : s.refusal (.port p) r = none) (hr : needsReady (.port p) r = true) :
    s.part.state = .ready := by
  unfold State.refusal at h
  by_contra hne
  simp [hr, hne] at h

theorem State.adoptFor_tableSound {s : State} {port id : Nat} (hs : s.tableSound) : (State.adoptFor port id s).tableSound := by
  unfold State.adoptFor
  split
  · exact State.tableSound_of_table hs (by simp) (by simp)
  · exact ite_keeps (fun _ => State.adoptBy_tableSound hs) fun _ => State.tableSound_of_table hs (by simp) (by simp)

theorem State.dissolve_tableSound {s : State} {id : Nat} (hs : s.tableSound) : (State.dissolve id s).tableSound := by
  unfold State.dissolve
  split
  · exact State.tableSound_of_table hs (by simp) (by simp)
  · refine ite_keeps (fun _ => State.tableSound_of_table hs (by simp) (by simp)) fun _ => ?_
    exact State.tableSound_filter (fun h => h.id != id) hs (by simp [State.retire]) (by simp [State.retire]) (by simp [State.retire]) (by simp)

theorem State.resign_tableSound {s : State} {p : Port} {tag : Byte} (hs : s.tableSound) : (State.resign p tag s).tableSound :=
  State.tableSound_map (Holding.toPending p) (Holding.sameGround_toPending p) hs (by simp [State.resign]) (by simp [State.resign])
    (by simp [State.resign]) (by simp)

theorem State.fencePartner_tableSound {s : State} {p : Port} {tag : Byte} (hs : s.tableSound) :
    (State.fencePartner p tag s).tableSound := by
  have answered (code : AnswerCode) : (s.answer p tag 14 code []).tableSound := State.tableSound_of_table hs (by simp) (by simp)
  unfold State.fencePartner
  split
  exacts [answered _, State.fence_tableSound (answered _), State.fence_tableSound (answered _), State.fence_tableSound (answered _),
    answered _]

theorem State.forceFence_tableSound {s : State} {port : Nat} (hs : s.tableSound) : (State.forceFence port s).tableSound := by
  have answered (code : AnswerCode) : (s.placeAnswer 20 code []).tableSound := State.tableSound_of_table hs (by simp) (by simp)
  have told (k : NoticeKind) (d : Detail) (l : List Port) : ((s.placeAnswer 20 .good []).raise k d l).tableSound :=
    State.tableSound_of_table hs (by simp) (by simp)
  unfold State.forceFence
  split
  · exact answered _
  · unfold State.forceFencePort
    split
    exacts [answered _, State.fence_tableSound (told ..), State.fence_tableSound (told ..), State.fence_tableSound (answered _), answered _]

theorem State.ackNotice_tableSound {s : State} {c : Client} {tag : Byte} {kind : Nat} (hs : s.tableSound) :
    (State.ackNotice c tag kind s).tableSound := by
  have acknowledged (k : NoticeKind) : (s.acknowledge c tag k).tableSound := State.tableSound_of_table hs (by simp) (by simp)
  unfold State.ackNotice
  repeat' split
  exacts [State.tableSound_of_table hs (by simp) (by simp), State.tableSound_of_table hs (by simp) (by simp),
    ite_keeps (fun _ => State.fence_tableSound (acknowledged _)) fun _ => acknowledged _, acknowledged _]

/-- A table without records. -/
theorem State.tableSound_empty {s : State} (hh : s.table.holdings = []) (hg : 1 ≤ s.table.gen.getD 1 ∧ s.table.gen.getD 1 < 2 ^ 48) :
    s.tableSound := by
  simp only [State.tableSound, hh]
  exact ⟨.nil, by simp, .nil, .nil, by simp, hg, fun _ => trivial⟩

theorem State.controllerReset_tableSound {s : State} (hs : s.tableSound) : s.controllerReset.tableSound := by
  refine ite_keeps (fun _ => State.tableSound_of_table hs (by simp) (by simp)) fun _ => State.tableSound_empty ?_ ?_ <;>
    simp [State.enterResetting, State.resetBlocks]

theorem Request.perform_tableSound {s t : State} {c : Client} {tag : Byte} {r : Request} (hs : t.tableSound)
    (hr : s.refusal c r = none) (hp : t.part = s.part) : (r.perform c tag t).tableSound := by
  cases r <;> cases c
  case acquire.port => exact State.acquire_tableSound hs (hp ▸ State.ready_of_refusal hr rfl)
  case release.port => exact State.release_tableSound hs
  case handOver.port => exact State.handOver_tableSound hs
  case split.port => exact State.split_tableSound hs
  case setHeir.port => exact State.setHeir_tableSound hs
  case adopt.port => exact State.adoptBy_tableSound hs
  case adoptFor.mgmt => exact State.adoptFor_tableSound hs
  case dissolve.mgmt => exact State.dissolve_tableSound hs
  case resign.port => exact State.resign_tableSound hs
  case fencePartner.port => exact State.fencePartner_tableSound hs
  case forceFence.mgmt => exact State.forceFence_tableSound hs
  case ackNotice.port | ackNotice.mgmt => exact State.ackNotice_tableSound hs
  case controllerReset.mgmt => exact State.controllerReset_tableSound hs
  all_goals exact State.tableSound_of_table hs (by simp [Request.perform]) (by simp [Request.perform])

/-! ## The commands -/

theorem State.Quiet.tableSound {s t : State} (h : s.Quiet t) (hs : s.tableSound) : t.tableSound :=
  State.tableSound_of_table hs h.table h.part

theorem State.Transferring.tableSound {s t : State} (h : s.Transferring t) (hs : s.tableSound) : t.tableSound := by
  obtain ⟨f, hq, -⟩ := h
  exact hq.tableSound hs

theorem State.clearWhenEmpty_part_state (s : State) : s.clearWhenEmpty.part.state = s.part.state := by
  unfold State.clearWhenEmpty
  split <;> simp

theorem State.resolve_part_state (s : State) (e : Entry) (k : Fin 32) (code : AnswerCode) :
    (s.resolve e k code).part.state = s.part.state := by
  rw [State.resolve_eq, State.clearWhenEmpty_part_state]
  split <;> simp [State.resolveLeft]

theorem exec_tableSound (i : Instr) {s : State} (hs : s.tableSound) : Ends State.tableSound (exec i s) := by
  have same {t : State} (h : t.table = s.table) (hp : t.part.state = s.part.state) : t.tableSound :=
    State.tableSound_of_table hs h hp
  have parts {t : State} (h1 : t.table.holdings = s.table.holdings) (h2 : t.table.gen = s.table.gen)
      (h3 : t.table.namespaces = s.table.namespaces) (h4 : t.part.state = s.part.state) : t.tableSound :=
    State.tableSound_of hs h1 h2 h3 h4
  have unready {t : State} (hu : s.part.state ≠ .ready) (h1 : t.table.holdings = s.table.holdings) (h2 : t.table.gen = s.table.gen) :
      t.tableSound := by
    obtain ⟨-, -, -, -, -, hg, hnone⟩ := hs
    exact State.tableSound_empty (h1.trans (hnone hu)) (by rw [h2]; exact hg)
  have quiet (hq : quietCommand i = true) : Ends State.tableSound (exec i s) := (exec_quiet hq s).imp fun h => h.tableSound hs
  have transfer (ht : transferCommand i = true) : Ends State.tableSound (exec i s) :=
    (exec_transferring ht s).imp fun h => h.tableSound hs
  have request {c : Client} (hc : commandClient i = some c) : Ends State.tableSound (exec i s) := by
    refine exec_request_ends hc hs (fun tag r code => same (by simp) (by simp)) fun tag r t _ hr ht => ?_
    have taken : t.tableSound := by obtain rfl | rfl := ht <;> exact parts (by simp) (by simp) (by simp) (by simp)
    exact Request.perform_tableSound taken hr (by obtain rfl | rfl := ht <;> simp)
  cases i with
  | frameArrival p f =>
    refine ends_next (ite_keeps (fun _ => ?_) fun _ => hs)
    cases f with
    | runt => exact hs
    | frame head tag body => exact same (by simp) (by simp)
  | read p | write p | trim p | flush p => exact ends_next (same (by simp) (by simp))
  | releaseCompletion =>
    refine ends_next ?_
    split
    · next d _ _ =>
      refine ite_keeps (fun _ => ?_) fun _ => hs
      have taken : s.takeDue.tableSound := State.tableSound_of hs rfl rfl rfl rfl
      exact State.tableSound_of_table (State.completeRelease_tableSound (d := d) taken) (by simp) (by simp)
    · exact hs
  | handOverCompletion =>
    refine ends_next ?_
    split
    · next d _ _ =>
      refine ite_keeps (fun _ => ?_) fun _ => hs
      have taken : s.takeDue.tableSound := State.tableSound_of hs rfl rfl rfl rfl
      exact State.tableSound_of_table (State.completeHandOver_tableSound (d := d) taken) (by simp) (by simp)
    · exact hs
  | walkStep =>
    refine ends_next ?_
    split
    · next p _ _ _ =>
      refine ite_keeps (fun _ => ?_) fun _ => hs
      split
      · next h _ =>
        have granted : (s.granted .internal).tableSound := State.tableSound_of hs rfl rfl rfl rfl
        exact State.tableSound_of_table (State.walkOne_tableSound (p := p) (h := h) granted) (by simp) (by simp)
      · exact hs
    · exact hs
  | linkDown p => exact ends_next (ite_keeps (fun _ => parts (by simp) (by simp) (by simp) (by simp)) fun _ => same (by simp) (by simp))
  | windowEnd p =>
    refine ends_next (ite_keeps (fun _ => ?_) fun _ => hs)
    split
    · refine ite_keeps (fun _ => same (by simp) (by simp)) fun _ => ?_
      exact ite_keeps (fun _ => parts (by simp) (by simp) (by simp) (by simp)) fun _ =>
        ite_keeps (fun _ => same (by simp) (by simp)) fun _ => same rfl rfl
    · exact hs
  | drainTimerExpiry p =>
    exact ends_next (ite_keeps (fun _ => ite_keeps (fun _ => same (by simp) (by simp)) fun _ => same rfl rfl) fun _ => hs)
  | abortTimerExpiry p =>
    exact ends_next (ite_keeps (fun _ => ite_keeps (fun _ => parts (by simp) (by simp) (by simp) (by simp)) fun _ => same rfl rfl)
      fun _ => hs)
  | submitCommand =>
    refine ends_next (ite_keeps (fun _ => hs) fun _ => ?_)
    split
    exacts [same (by simp) (by simp), hs]
  | driveAnswer k value =>
    refine ends_next ?_
    split
    · exact parts (by simp) (by simp) (by simp) (by simp [State.resolve_part_state])
    · exact hs
  | cleared =>
    refine ends_next (ite_keeps (fun h => ?_) fun _ => hs)
    have hu : s.part.state ≠ .ready := by simp_all
    dsimp only
    split <;> exact unready hu (by simp) (by simp)
  | clearedTimerExpiry =>
    refine ends_next (ite_keeps (fun _ => ite_keeps (fun h => ?_) fun _ => same rfl rfl) fun _ => hs)
    exact unready (by simp [h]) (by simp) (by simp)
  | identifyAnswer entries =>
    refine ends_next (ite_keeps (fun h => ?_) fun _ => hs)
    have hu : s.part.state ≠ .ready := by simp [h]
    split
    · exact unready hu (by simp) (by simp)
    · exact unready hu (by simp) (by simp)
  | powerOnReset => exact ends_next (State.tableSound_empty rfl (show 1 ≤ 1 ∧ 1 < 2 ^ 48 by decide))
  | beacon | linkUp | requestBufferWrite | clearOverrun | answerBufferRead | i2cWriteOther | managementRequestMalformed
  | sendTransferFailure | sendAbort | sendQueueClear | sendIdentify | serverData | identifyRetryExpiry | resetAbortTimerExpiry =>
    exact quiet rfl
  | pullRequest | pullEnd | deliveryStart | deliveryEnd => exact transfer rfl
  | _ => exact request rfl

/-- Settles O58: each change of the records keeps order, ids and generations (`Laws/Table.lean`), and no other block bears on them. -/
theorem stepKeepsTable : Obligations.StepKeepsTable := by
  intro s t hs ht
  exact ends_iff.1 (step_ends (P := State.tableSound) (fun s q hs => State.tableSound_of hs rfl rfl rfl rfl)
    (fun s hs => State.tableSound_of_table hs (by simp) rfl) (fun i s hs => exec_tableSound i hs) s hs) t ht

end Sys2Proof.Machine
end

section
/-! PROOFS. The intakes (R52, R65, R180, R181): every command keeps their laws. -/

namespace Sys2Proof.Machine

theorem State.Quiet.intakesSound {s t : State} (h : s.Quiet t) (hs : s.intakesSound) : t.intakesSound :=
  State.intakesSound_of_ports hs h.ports

theorem State.Transferring.intakesSound {s t : State} (h : s.Transferring t) (hs : s.intakesSound) : t.intakesSound := by
  obtain ⟨f, hq, -⟩ := h
  exact State.intakesSound_of_ports hs hq.ports

/-! ## Arrival (R178) -/

/-- A frame that no check refuses at arrival. -/
theorem State.arrivalRefusal_eq_none {s : State} {p : Port} {head tag : Byte} {body : List Byte} :
    s.arrivalRefusal p head tag body = none ↔
      tag ∉ s.outstanding p ∧ (messageOf head body).isNone = false ∧ (s.port p).intake.length < 16 := by
  unfold State.arrivalRefusal
  repeat' split
  all_goals simp_all [Option.isSome_iff_ne_none]

theorem State.tag_outstanding_of_intake {s : State} {p : Port} {tag : Byte} (h : tag ∈ (s.port p).intake.map (·.tag)) :
    tag ∈ s.outstanding p := by
  unfold State.outstanding
  simp only [List.mem_append]
  exact .inl (.inl (.inl (.inl h)))

/-- A frame joins the intake: its tag is new there, and the wait for room stays that of the command at the head. -/
theorem State.enqueue_intakesSound {s : State} {p : Port} {tag : Byte} {m : Message} (hs : s.intakesSound)
    (htag : tag ∉ (s.port p).intake.map (·.tag)) (hroom : (s.port p).intake.length < 16) : (s.enqueue p tag m).intakesSound := by
  obtain ⟨-, hnodup, -, -, hwait⟩ := (State.intakesSound_iff s).1 hs p
  refine State.setIntake_sound hs (by simpa using hroom) ?_ fun hw => ?_
  · rw [List.map_append, List.nodup_append]
    refine ⟨hnodup, by simp, fun a ha b hb => ?_⟩
    obtain rfl : b = tag := by simpa using hb
    exact fun e => htag (e ▸ ha)
  · have hio := hwait hw
    unfold State.headIo at hio
    split at hio
    · next t c rest h => exact ⟨t, c, rest ++ _, by rw [h]; rfl⟩
    · cases hio

theorem State.arrive_intakesSound {s : State} {p : Port} {head tag : Byte} {body : List Byte} (hs : s.intakesSound) :
    (s.arrive p head tag body).intakesSound := by
  unfold State.arrive
  refine ite_keeps (fun _ => ite_keeps (fun _ => (s.takeBeacon_quiet ..).intakesSound hs) fun _ => hs) fun _ => ?_
  split
  · exact State.intakesSound_of_ports hs (by simp)
  · next hnone _ =>
    obtain ⟨htag, -, hroom⟩ := State.arrivalRefusal_eq_none.1 hnone
    exact State.enqueue_intakesSound hs (fun h => htag (State.tag_outstanding_of_intake h)) hroom
  · exact hs

/-! ## Requests -/

theorem State.takeFront_intakesSound {s : State} (c : Client) (hs : s.intakesSound) : (s.takeFront c).intakesSound := by
  cases c
  exacts [State.takeHead_sound _ hs, hs]

theorem State.fencePartner_intakesSound {s : State} {p : Port} {tag : Byte} (hs : s.intakesSound) :
    (State.fencePartner p tag s).intakesSound := by
  have answered (code : AnswerCode) : (s.answer p tag 14 code []).intakesSound := State.intakesSound_of_ports hs (by simp)
  unfold State.fencePartner
  split
  exacts [answered _, State.fence_sound _ _ (answered _), State.fence_sound _ _ (answered _), State.fence_sound _ _ (answered _),
    answered _]

theorem State.forceFence_intakesSound {s : State} {port : Nat} (hs : s.intakesSound) : (State.forceFence port s).intakesSound := by
  have answered (code : AnswerCode) : (s.placeAnswer 20 code []).intakesSound := State.intakesSound_of_ports hs (by simp)
  have told (k : NoticeKind) (d : Detail) (l : List Port) : ((s.placeAnswer 20 .good []).raise k d l).intakesSound :=
    State.intakesSound_of_ports hs (by simp)
  unfold State.forceFence
  split
  · exact answered _
  · unfold State.forceFencePort
    split
    exacts [answered _, State.fence_sound _ _ (told ..), State.fence_sound _ _ (told ..), State.fence_sound _ _ (answered _), answered _]

theorem State.ackNotice_intakesSound {s : State} {c : Client} {tag : Byte} {kind : Nat} (hs : s.intakesSound) :
    (State.ackNotice c tag kind s).intakesSound := by
  have acknowledged (k : NoticeKind) : (s.acknowledge c tag k).intakesSound := State.intakesSound_of_ports hs (by simp)
  unfold State.ackNotice
  repeat' split
  exacts [State.intakesSound_of_ports hs (by simp), State.intakesSound_of_ports hs (by simp),
    ite_keeps (fun _ => State.fence_sound _ _ (acknowledged _)) fun _ => acknowledged _, acknowledged _]

theorem State.configure_intakesSound {s : State} {number index value : Nat} (hs : s.intakesSound) :
    (State.configure number index value s).intakesSound := by
  unfold State.configure
  split
  · exact State.intakesSound_of_ports hs (by simp)
  · next x _ =>
    suffices h : (s.store x (x.stored value)).intakesSound from State.intakesSound_of_ports h (by simp)
    cases x with
    | quota p =>
      exact ite_keeps (fun _ => State.intakesSound_of_ports hs rfl) fun _ => State.rejudge_sound p (State.intakesSound_of_ports hs rfl)
    | _ => exact State.intakesSound_of_ports hs (by simp [State.store])

theorem State.controllerReset_intakesSound {s : State} (hs : s.intakesSound) : s.controllerReset.intakesSound := by
  refine ite_keeps (fun _ => State.intakesSound_of_ports hs (by simp)) fun _ => ?_
  have swept : ((((s.sweepHoldings.sweepPath .A).sweepPath .B).emptyIntake .A).emptyIntake .B).intakesSound :=
    State.emptyIntake_sound .B (State.emptyIntake_sound .A (State.intakesSound_of_ports hs (by simp)))
  exact State.intakesSound_of_ports swept (by simp [State.enterResetting, State.resetBlocks, State.sweep])

theorem Request.perform_intakesSound {c : Client} {tag : Byte} {r : Request} {s : State} (hs : s.intakesSound) :
    (r.perform c tag s).intakesSound := by
  cases r <;> cases c
  case resign.port => exact State.enterDraining_sound _ _ (State.intakesSound_of_ports hs (by simp))
  case fencePartner.port => exact State.fencePartner_intakesSound hs
  case forceFence.mgmt => exact State.forceFence_intakesSound hs
  case ackNotice.port | ackNotice.mgmt => exact State.ackNotice_intakesSound hs
  case configure.mgmt => exact State.configure_intakesSound hs
  case controllerReset.mgmt => exact State.controllerReset_intakesSound hs
  all_goals exact State.intakesSound_of_ports hs (by simp [Request.perform])

/-! ## Commands -/

theorem State.takeCommand_intakesSound {s : State} {p : Port} {kind : IoKind} (hs : s.intakesSound) :
    (s.takeCommand p kind).intakesSound := by
  unfold State.takeCommand
  split
  · next hh =>
    refine ite_keeps (fun _ => ite_keeps (fun _ => ?_) fun _ => State.judgeHead_sound hh hs) fun _ => hs
    exact State.intakesSound_of_ports (State.takeHead_sound p hs) (by simp)
  · exact hs

theorem State.resolve_intakesSound {s : State} {e : Entry} {k : Fin 32} {code : AnswerCode} (hs : s.intakesSound) :
    (s.resolve e k code).intakesSound := by
  have left : (s.resolveLeft e k code).intakesSound := State.depart_sound e (State.intakesSound_of_ports hs (by simp))
  rw [State.resolve_eq]
  split <;> exact State.intakesSound_of_ports left (by simp)

theorem exec_intakesSound (i : Instr) {s : State} (hs : s.intakesSound) : Ends State.intakesSound (exec i s) := by
  have same {t : State} (h : t.ports = s.ports) : t.intakesSound := State.intakesSound_of_ports hs h
  have quiet (hq : quietCommand i = true) : Ends State.intakesSound (exec i s) := (exec_quiet hq s).imp fun h => h.intakesSound hs
  have transfer (ht : transferCommand i = true) : Ends State.intakesSound (exec i s) :=
    (exec_transferring ht s).imp fun h => h.intakesSound hs
  have request {c : Client} (hc : commandClient i = some c) : Ends State.intakesSound (exec i s) := by
    have taken := State.takeFront_intakesSound c hs
    refine exec_request_ends hc hs (fun tag r code => State.intakesSound_of_ports taken (by simp)) fun tag r t _ _ ht => ?_
    exact Request.perform_intakesSound (State.intakesSound_of_ports taken (by obtain rfl | rfl := ht <;> simp [State.atGrant]))
  cases i with
  | frameArrival p f =>
    refine ends_next (ite_keeps (fun _ => ?_) fun _ => hs)
    cases f
    exacts [hs, State.arrive_intakesSound hs]
  | read p | write p | trim p | flush p => exact ends_next (State.takeCommand_intakesSound hs)
  | releaseCompletion | handOverCompletion =>
    refine ends_next ?_
    split
    · exact ite_keeps (fun _ => same (by simp)) fun _ => hs
    · exact hs
  | walkStep =>
    refine ends_next ?_
    split
    · refine ite_keeps (fun _ => ?_) fun _ => hs
      split
      exacts [same (by simp), hs]
    · exact hs
  | linkDown p =>
    have down : ((s.withPath p ((s.path p).withLink false)).failTransfers p).intakesSound := same (by simp)
    exact ends_next (ite_keeps (fun _ => State.enterLost_sound p _ down) fun _ => down)
  | windowEnd p =>
    refine ends_next (ite_keeps (fun _ => ?_) fun _ => hs)
    split
    · next w _ =>
      refine ite_keeps (fun _ => ?_) fun _ => ?_
      · have seen := State.rejudge_sound p (s := s.withPath p ((s.path p).afterSeen w)) (same rfl)
        exact ite_keeps (fun _ => State.intakesSound_of_ports seen (by simp)) fun _ => same rfl
      · have missed := State.rejudge_sound p (s := s.withPath p ((s.path p).afterMissed w)) (same rfl)
        exact ite_keeps (fun _ => State.enterLost_sound p _ (same rfl)) fun _ =>
          ite_keeps (fun _ => State.intakesSound_of_ports missed (by simp)) fun _ => same rfl
    · exact hs
  | drainTimerExpiry p =>
    exact ends_next (ite_keeps (fun _ => ite_keeps (fun _ => same (by simp)) fun _ => same rfl) fun _ => hs)
  | abortTimerExpiry p => exact ends_next (ite_keeps (fun _ => ite_keeps (fun _ => same (by simp)) fun _ => same rfl) fun _ => hs)
  | submitCommand =>
    refine ends_next (ite_keeps (fun _ => hs) fun _ => ?_)
    split
    exacts [same (by simp), hs]
  | driveAnswer k value =>
    refine ends_next ?_
    split
    exacts [State.resolve_intakesSound hs, hs]
  | cleared =>
    refine ends_next (ite_keeps (fun _ => ?_) fun _ => hs)
    dsimp only
    split <;> exact same (by simp)
  | clearedTimerExpiry =>
    exact ends_next (ite_keeps (fun _ => ite_keeps (fun _ => same (by simp)) fun _ => same rfl) fun _ => hs)
  | identifyAnswer entries =>
    refine ends_next (ite_keeps (fun _ => ?_) fun _ => hs)
    split <;> exact same (by simp)
  | powerOnReset => exact ends_next (show State.reset.intakesSound by decide)
  | beacon | linkUp | requestBufferWrite | clearOverrun | answerBufferRead | i2cWriteOther | managementRequestMalformed
  | sendTransferFailure | sendAbort | sendQueueClear | sendIdentify | serverData | identifyRetryExpiry | resetAbortTimerExpiry =>
    exact quiet rfl
  | pullRequest | pullEnd | deliveryStart | deliveryEnd => exact transfer rfl
  | _ => exact request rfl

end Sys2Proof.Machine
end

section
/-! PROOFS. The laws of takeovers, owners and writes (R14, R62, R71, R122 to R130): every request keeps them. -/

namespace Sys2Proof.Machine

/-- The laws rest on entries, records, completions, the counter, the walk queue and the paths' cores alone. -/
theorem State.lawful_of {s t : State} (hs : s.lawful) (entries : t.flight.entries = s.flight.entries)
    (holdings : t.table.holdings = s.table.holdings) (due : t.table.due = s.table.due) (gen : t.table.gen = s.table.gen)
    (walk : t.walk = s.walk) (paths : t.paths = s.paths) : t.lawful :=
  State.law_of hs entries holdings due gen walk (State.cores_of_paths paths)

theorem State.Quiet.lawful {s t : State} (h : s.Quiet t) (hs : s.lawful) : t.lawful :=
  State.law_of hs h.entries (by rw [h.table]) (by rw [h.table]) (by rw [h.table]) h.walk h.cores

theorem State.Transferring.lawful {s t : State} (h : s.Transferring t) (hs : s.lawful) : t.lawful := by
  obtain ⟨f, hq, hf⟩ := h
  exact State.stages_law (fun e => { e with xfer := f e }) hs (fun _ _ => ⟨rfl, rfl, rfl, rfl, id, id, .inl⟩) hf hq.table hq.walk hq.cores

/-! ## Changes of a record -/

/-- The record shrunk or with other values, its id, generation and tenure kept, stands where the old one stood. -/
theorem Placed.within {E : List Entry} {D : List Due} {G : Option Nat} {C : Core} {h h' : Holding} (hp : Placed E D G C h)
    (hi : h'.id = h.id) (hg : h'.gen = h.gen) (ht : h'.tenure = h.tenure) (hsub : ∀ e : Entry, e.overlaps h' = true → e.overlaps h = true) :
    Placed E D G C h' := by
  have hn : (fun d : Due => d.names h') = fun d => d.names h := by
    funext d
    simp only [Due.names, hi, hg]
  refine ⟨?_, fun e he hc ho => ?_, fun e he hc ho hd => ?_, fun d hd hnm => ?_, hg ▸ hp.gen⟩
  · simpa only [ownOk, ht, hn] using hp.own
  · by_contra hov
    exact absurd (hsub e (by simpa using hov)) (by simp [hp.write e he hc (ht ▸ ho)])
  · exact hp.settled e he hc (hsub e ho) (by simpa only [ht, hn] using hd)
  · rw [ht]
    exact hp.due d hd (congrFun hn d ▸ hnm)

/-- An entry that overlaps a part of a record overlaps the record. -/
theorem Entry.overlaps_of_within {e : Entry} {h h' : Holding} (hn : h'.ns = h.ns) (hs : h.start ≤ h'.start)
    (hl : h'.start + h'.length ≤ h.start + h.length) (ho : e.overlaps h' = true) : e.overlaps h = true := by
  simp only [Entry.overlaps, Entry.meets, Bool.and_eq_true, decide_eq_true_eq, hn] at ho ⊢
  refine ⟨ho.1, ?_⟩
  cases hr : e.range with
  | none => rfl
  | some r =>
    simp only [hr, rangesMeet, decide_eq_true_eq] at ho ⊢
    omega

/-- Over a record that is not unresolved no changing entry is ABANDONED. -/
theorem State.not_abandoned_of_resolved {s : State} {h : Holding} (hu : s.unresolved h = false) {e : Entry} (he : e ∈ s.flight.entries)
    (hc : e.changesBlocks) (ho : e.overlaps h = true) : e.stage.isAbandoned = false := by
  have := List.any_eq_false.1 hu e he
  simpa [Entry.writeClass_of_changes hc, ho] using this

/-- SPLIT at its grant (R43): both halves stand where the old record stood. -/
theorem State.split_law {s : State} {p : Port} {tag : Byte} {id offset : Nat} (hs : s.lawful) (ht : s.tableSound) :
    (State.split p tag id offset s).lawful := by
  have answered (code : AnswerCode) : (s.answer p tag 4 code []).lawful := State.lawful_of hs (by simp) (by simp) (by simp) (by simp) (by simp) (by simp)
  unfold State.split
  split
  · exact answered _
  · next h hok =>
    obtain ⟨hm, hid, hheld⟩ := State.ownedHolding_ok hok
    split
    · exact answered _
    · next hnone =>
      obtain ⟨hpos, hlt, hroom, g, hg⟩ := State.splitRefusal_eq_none hnone
      have hrange := State.gen_range ht hg
      have hone : ∀ x ∈ s.table.holdings, x.id = id → x = h := fun x hx hxi => State.id_unique hs hx hm (hxi.trans hid.symm)
      have hs1 : (s.setHolding id fun x => x.lowerHalf offset).lawful := by
        refine State.setHolding_law id (fun x => x.lowerHalf offset) hs (fun _ => rfl) (fun x hx hxi => ?_) (fun _ h => h) (by simp [State.setHolding])
          (by simp [State.setHolding]) (by simp) (by simp) (State.cores_of_paths (by simp))
        rw [hone x hx hxi]
        exact (hs.placed hm).within rfl rfl rfl fun e => Entry.overlaps_of_within rfl (Nat.le_refl _) (by simp only [Holding.lowerHalf]; omega)
      have hids : (s.setHolding id fun x => x.lowerHalf offset).table.holdings.map (·.id) = s.table.holdings.map (·.id) := by
        simp only [State.setHolding, State.withTable_table, List.map_map]
        exact List.map_congr_left fun x _ => by simp only [Function.comp]; split <;> rfl
      have hgen : (s.setHolding id fun x => x.lowerHalf offset).table.gen = some g := by simpa [State.setHolding] using hg
      refine State.insertHolding_law (h.upperHalf offset s.freeId g) hs1 ?_ ?_ ?_ (by simp [State.advanceGen, hg])
        (by simp [State.advanceGen]) (by simp) (by simp) (State.cores_of_paths (by simp))
      · rw [hids]
        exact (State.freeId_spec hroom).1
      · have l := hs1
        unfold State.lawful State.law at l
        rw [hgen] at l
        refine Placed.fresh ?_ (l.fresh_not_due hrange.1 rfl) ?_ (fun ho => ?_) (by simpa [State.advanceGen, hg, Holding.upperHalf] using genAfter_self hrange)
        · rw [State.cores_of_paths (s := s) (by simp)]
          have := hs.own h hm
          simp only [ownOk, hheld] at this
          simpa only [ownOk, Holding.upperHalf, hheld] using this
        · intro e he hc ho
          by_contra hov
          have hover : e.overlaps h = true := Entry.overlaps_of_within (h' := h.upperHalf offset s.freeId g) rfl (by simp [Holding.upperHalf])
            (by simp only [Holding.upperHalf]; omega) (by simpa using hov)
          exact absurd hover (by simp [hs.write e he h hm hc ho])
        · simp [Holding.upperHalf, hheld, Tenure.owner] at ho
      · intro x hx
        rw [hgen] at hx
        simpa [State.advanceGen, hg] using genAfter_mono hrange x hx

theorem State.setHeir_law {s : State} {p : Port} {tag : Byte} {id heir rank : Nat} (hs : s.lawful) : (State.setHeir p tag id heir rank s).lawful := by
  have answered (code : AnswerCode) : (s.answer p tag 5 code []).lawful := State.lawful_of hs (by simp) (by simp) (by simp) (by simp) (by simp) (by simp)
  unfold State.setHeir
  split
  · next hr rk _ _ =>
    split
    · exact answered _
    · refine State.setHolding_law id (fun x => x.withHeir hr rk) hs (fun _ => rfl) (fun x hx _ => ?_) (fun g hg => by simpa [State.setHolding] using hg)
        (by simp [State.setHolding]) (by simp [State.setHolding]) (by simp) (by simp) (State.cores_of_paths (by simp))
      simpa [State.setHolding] using (hs.placed hx).within (h' := x.withHeir hr rk) rfl rfl rfl fun e he => he
  · exact answered _

/-- ADOPT and ADOPT-FOR (R45, R46): over an orphan that is not unresolved no entry can change a block. -/
theorem State.adoptBy_law {s : State} {c : Client} {tag : Byte} {echo id : Nat} {p : Port} (hs : s.lawful) (ht : s.tableSound)
    (hp : s.isMember p = true) : (State.adoptBy c tag echo p id s).lawful := by
  have answered (code : AnswerCode) : (s.respond c tag echo code []).lawful :=
    State.lawful_of hs (by simp) (by simp) (by simp) (by simp) (by simp) (by simp)
  unfold State.adoptBy
  split
  · exact answered _
  · next h hok =>
    obtain ⟨hm, hid, howner⟩ := State.orphanHolding_ok hok
    split
    · exact answered _
    · next hu =>
      split
      · exact answered _
      · next g hg =>
        have hrange := State.gen_range ht hg
        have l := hs
        unfold State.lawful State.law at l
        rw [hg] at l
        refine State.setHolding_law id (fun x => x.adopted p g) hs (fun _ => rfl) (fun x hx hxi => ?_) (fun x hx => ?_)
          (by simp [State.setHolding, State.advanceGen]) (by simp [State.setHolding, State.advanceGen]) (by simp) (by simp)
          (State.cores_of_paths (by simp))
        · rw [State.id_unique hs hx hm (hxi.trans hid.symm)]
          refine Placed.fresh (by simpa [Holding.adopted, ownOk] using State.mayWait_of_member hp) (l.fresh_not_due hrange.1 rfl) ?_
            (fun ho => by simp [Holding.adopted, Tenure.owner] at ho) (by simpa [State.advanceGen, Holding.adopted] using genAfter_self hrange)
          intro e he hc _
          by_contra hov
          have hover : e.overlaps h = true := by simpa [Entry.overlaps, Holding.adopted] using hov
          have := hs.settled e he h hm hc hover (.inl howner)
          rw [State.not_abandoned_of_resolved (by simpa using hu) he hc hover] at this
          cases this
        · rw [hg] at hx
          simpa [State.advanceGen] using genAfter_mono hrange x hx

theorem State.adoptFor_law {s : State} {port id : Nat} (hs : s.lawful) (ht : s.tableSound) : (State.adoptFor port id s).lawful := by
  have answered (code : AnswerCode) : (s.placeAnswer 18 code []).lawful :=
    State.lawful_of hs (by simp) (by simp) (by simp) (by simp) (by simp) (by simp)
  unfold State.adoptFor
  split
  · exact answered _
  · exact ite_keeps (fun hp => State.adoptBy_law hs ht hp) fun _ => answered _

theorem State.dissolve_law {s : State} {id : Nat} (hs : s.lawful) : (State.dissolve id s).lawful := by
  have answered (code : AnswerCode) : (s.placeAnswer 19 code []).lawful :=
    State.lawful_of hs (by simp) (by simp) (by simp) (by simp) (by simp) (by simp)
  unfold State.dissolve
  split
  · exact answered _
  · exact ite_keeps (fun _ => answered _) fun _ => State.filterHoldings_law (fun h => h.id != id) hs (by simp [State.retire]) (by simp [State.retire])
      (by simp [State.retire]) (by simp) (by simp) (State.cores_of_paths (by simp))

/-! ## Changes of a path -/

/-- A path that is not leaving becomes, or stays, a member's (R98, R102, R103, R147). -/
theorem State.toMember_law {s : State} {p : Port} {x : Path} (hs : s.lawful) (hold : (s.path p).state ≠ .draining ∧ (s.path p).state ≠ .shedding)
    (hx : x.state = .member ∨ x.state = .suspect) (ha : x.abortTimer = (s.path p).abortTimer) : (s.withPath p x).lawful := by
  have h1 := (Law.toMember hs p x.state hold (hx.imp_right .inl)).excuse (Y := fun _ => False) fun e _ _ he => by
    obtain hm | hm := hx <;> simp [hm] at he
  simp only [State.lawful, State.law, State.cores_withPath, State.withPath_flight, State.withPath_table, State.withPath_walk, ha]
  exact h1

/-- A path record with state and abort timer kept. -/
theorem State.samePath_law {s : State} {p : Port} {x : Path} (hs : s.lawful) (hst : x.state = (s.path p).state)
    (ha : x.abortTimer = (s.path p).abortTimer) : (s.withPath p x).lawful :=
  State.law_of hs rfl rfl rfl rfl rfl (State.cores_withPath_same hst ha)

theorem State.rejudge_law {s : State} (p : Port) (hs : s.lawful) : (s.rejudge p).lawful := (State.law_keeps _).rejudge p hs

/-- A request that the path state lets through only in MEMBER and SUSPECT comes from a member (R95). -/
theorem State.isMember_of_refusal {s : State} {p : Port} {r : Request} (h : s.refusal (.port p) r = none)
    (hr : ∀ st, requestGate st r = none → st.isMember = true) : s.isMember p = true := by
  unfold State.refusal at h
  split at h
  · cases h
  · exact hr _ h

theorem State.join_law {s : State} {p : Port} {tag : Byte} (hs : s.lawful) : (State.join p tag s).lawful := by
  have answered (u : State) (hu : u.lawful) (code : AnswerCode) (result : List Byte) : (u.answer p tag 12 code result).lawful :=
    State.lawful_of hu (by simp) (by simp) (by simp) (by simp) (by simp) (by simp)
  unfold State.join
  split
  · next hout => exact answered _ (State.toMember_law (p := p) (x := (s.path p).started s.clock.ms) hs (by simp [hout]) (.inl rfl) rfl) _ _
  all_goals exact answered s hs _ _

theorem State.resign_law {s : State} {p : Port} {tag : Byte} (hs : s.lawful) (hp : s.isMember p = true) : (State.resign p tag s).lawful := by
  refine State.enterDraining_law p _ ?_ ?_
  · exact State.lawful_of (State.samePath_law (x := { s.path p with parkedResign := some tag }) hs rfl rfl) (by simp) (by simp) (by simp)
      (by simp) (by simp) (by simp)
  · simp only [State.path, State.raise_paths, State.withPath_paths, Pair.get_set_self]
    exact (State.isMember_iff.1 hp).imp_right .inl

theorem State.answer_path (s : State) (p q : Port) (tag : Byte) (echo : Nat) (code : AnswerCode) (result : List Byte) :
    (s.answer p tag echo code result).path q = s.path q := by
  simp only [State.path, State.answer_paths]

theorem State.fencePartner_law {s : State} {p : Port} {tag : Byte} (hs : s.lawful) : (State.fencePartner p tag s).lawful := by
  have answered (code : AnswerCode) : (s.answer p tag 14 code []).lawful :=
    State.lawful_of hs (by simp) (by simp) (by simp) (by simp) (by simp) (by simp)
  have fenced (h : (s.path p.partner).state = .member ∨ (s.path p.partner).state = .suspect ∨ (s.path p.partner).state = .lost) :
      ((s.answer p tag 14 .good []).fence p.partner .partnerFence).lawful :=
    State.fence_law _ _ (answered _) (by rwa [State.answer_path])
  unfold State.fencePartner
  split
  · exact answered _
  · next h => exact fenced (.inl h)
  · next h => exact fenced (.inr (.inl h))
  · next h => exact fenced (.inr (.inr h))
  · exact answered _

theorem State.forceFence_law {s : State} {port : Nat} (hs : s.lawful) : (State.forceFence port s).lawful := by
  have answered (code : AnswerCode) : (s.placeAnswer 20 code []).lawful :=
    State.lawful_of hs (by simp) (by simp) (by simp) (by simp) (by simp) (by simp)
  have told (k : NoticeKind) (d : Detail) (l : List Port) : ((s.placeAnswer 20 .good []).raise k d l).lawful :=
    State.lawful_of hs (by simp) (by simp) (by simp) (by simp) (by simp) (by simp)
  unfold State.forceFence
  split
  · exact answered _
  · unfold State.forceFencePort
    split
    · exact answered _
    · next h => exact State.fence_law _ _ (told ..) (.inl (by simpa [State.path] using h))
    · next h => exact State.fence_law _ _ (told ..) (.inr (.inl (by simpa [State.path] using h)))
    · next h => exact State.fence_law _ _ (answered _) (.inr (.inr (by simpa [State.path] using h)))
    · exact answered _

theorem State.acknowledgeLoss_law {s : State} {y : Port} (hs : s.lawful) : (s.acknowledgeLoss y).lawful := by
  refine ite_keeps (fun h => State.fence_law _ _ hs (.inr (.inr ?_))) fun _ => hs
  simp only [Bool.and_eq_true, decide_eq_true_eq] at h
  exact h.1.2

theorem State.ackNotice_law {s : State} {c : Client} {tag : Byte} {kind : Nat} (hs : s.lawful) : (State.ackNotice c tag kind s).lawful := by
  have same {t : State} (h1 : t.flight = s.flight) (h2 : t.table = s.table) (h3 : t.walk = s.walk) (h4 : t.paths = s.paths) : t.lawful :=
    State.lawful_of hs (by rw [h1]) (by rw [h2]) (by rw [h2]) (by rw [h2]) h3 h4
  unfold State.ackNotice
  repeat' split
  · exact same (by simp) (by simp) (by simp) (by simp)
  · exact same (by simp) (by simp) (by simp) (by simp)
  · exact State.acknowledgeLoss_law (same (by simp) (by simp) (by simp) (by simp))
  · exact same (by simp) (by simp) (by simp) (by simp)

theorem State.returnToMember_law {s : State} {p : Port} (hs : s.lawful) (hf : (s.path p).state = .fenced) : (s.returnToMember p).lawful := by
  have h1 : (s.withPath p ((s.path p).returned s.clock.ms)).lawful := State.toMember_law hs (by simp [hf]) (.inl rfl) rfl
  exact State.law_of h1 (by simp [State.returnToMember]) (by simp [State.returnToMember]) (by simp [State.returnToMember])
    (by simp [State.returnToMember]) (by simp [State.returnToMember]) (by simp [State.returnToMember])

theorem State.readmitPort_law {s : State} {c : Client} {tag : Byte} {q : Port} (hs : s.lawful) : (State.readmitPort c tag q s).lawful := by
  have answered {u : State} (hu : u.lawful) (code : AnswerCode) (result : List Byte) : (u.respond c tag 15 code result).lawful :=
    State.lawful_of hu (by simp) (by simp) (by simp) (by simp) (by simp) (by simp)
  unfold State.readmitPort
  refine ite_keeps (fun hf => ?_) fun _ => answered hs _ _
  split
  · exact answered hs _ _
  · have keyed : (s.withPath q { s.path q with readmitKey := some c }).lawful := State.samePath_law hs rfl rfl
    refine answered (ite_keeps (fun _ => State.returnToMember_law keyed ?_) fun _ => keyed) _ _
    simpa [State.path] using hf

theorem State.readmit_law {s : State} {c : Client} {tag : Byte} {port : Option Nat} (hs : s.lawful) : (State.readmit c tag port s).lawful := by
  unfold State.readmit
  split
  · exact State.readmitPort_law hs
  · split
    · exact State.lawful_of hs (by simp) (by simp) (by simp) (by simp) (by simp) (by simp)
    · exact State.readmitPort_law hs

theorem State.rejoin_law {s : State} {p : Port} {tag : Byte} (hs : s.lawful) : (State.rejoin p tag s).lawful := by
  have answered {u : State} (hu : u.lawful) (code : AnswerCode) (result : List Byte) : (u.answer p tag 16 code result).lawful :=
    State.lawful_of hu (by simp) (by simp) (by simp) (by simp) (by simp) (by simp)
  unfold State.rejoin
  refine ite_keeps (fun hf => ite_keeps (fun _ => ?_) fun _ => ?_) fun _ => answered hs _ _
  · exact State.lawful_of hs (by simp) (by simp) (by simp) (by simp) (by simp) (by simp)
  · have keyed : (s.withPath p { s.path p with rejoinKey := true }).lawful := State.samePath_law hs rfl rfl
    dsimp only
    split
    · exact answered (State.returnToMember_law keyed (by simpa [State.path] using hf)) _ _
    · have parked := State.samePath_law (p := p)
        (x := { (s.withPath p { s.path p with rejoinKey := true }).path p with parkedRejoin := some tag }) keyed rfl rfl
      exact State.lawful_of parked (by simp) (by simp) (by simp) (by simp) (by simp) (by simp)

theorem State.configure_law {s : State} {number index value : Nat} (hs : s.lawful) : (State.configure number index value s).lawful := by
  have answered {u : State} (hu : u.lawful) (code : AnswerCode) (result : List Byte) : (u.placeAnswer 22 code result).lawful :=
    State.lawful_of hu (by simp) (by simp) (by simp) (by simp) (by simp) (by simp)
  unfold State.configure
  split
  · exact answered hs _ _
  · next x _ =>
    refine answered ?_ _ _
    have same {t : State} (h1 : t.flight = s.flight) (h2 : t.table = s.table) (h3 : t.walk = s.walk) (h4 : t.paths = s.paths) : t.lawful :=
      State.lawful_of hs (by rw [h1]) (by rw [h2]) (by rw [h2]) (by rw [h2]) h3 h4
    cases x with
    | quota p => exact ite_keeps (fun _ => same rfl rfl rfl rfl) fun _ => State.rejudge_law p (same rfl rfl rfl rfl)
    | windowLength p => exact State.samePath_law hs rfl rfl
    | missLimit p => exact State.samePath_law hs rfl rfl
    | _ => exact same (by simp [State.store]) (by simp [State.store]) (by simp [State.store]) (by simp [State.store])

/-! ## A part with nothing left to protect -/

/-- Without records and completions, with every port OUTSIDE, no abort timer and no walk, only the WAITING entries need a law. -/
theorem State.lawful_outside {t : State} (hw : ∀ e ∈ t.flight.entries, e.stage ≠ .waiting) (hh : t.table.holdings = [])
    (hd : t.table.due = []) (hk : t.walk = []) (hp : ∀ p, (t.path p).state = .outside ∧ (t.path p).abortTimer = none) : t.lawful := by
  refine ⟨fun e he h => absurd h (hw e he), fun e _ _ h => ?_, fun q h => ?_, fun q => ?_, by simp [hk], ?_, ?_, ?_, ?_, ?_, ?_, ?_⟩
  · simp only [State.cores, (hp e.port).1] at h
    exact h.elim
  · simp [State.cores, (hp q).2] at h
  · simp [hk, State.cores, (hp q).1]
  all_goals simp [hh, hd]

theorem State.controllerReset_law {s : State} (hs : s.lawful) : s.controllerReset.lawful := by
  refine ite_keeps (fun _ => State.lawful_of hs (by simp) (by simp) (by simp) (by simp) (by simp) (by simp)) fun _ => ?_
  refine State.lawful_outside ?_ (by simp [State.enterResetting, State.resetBlocks]) (by simp [State.enterResetting, State.resetBlocks])
    (by simp [State.enterResetting, State.resetBlocks]) fun p => ?_
  · have hent : s.enterResetting.flight.entries = (s.flight.entries.filter fun e => !e.stage.isWaiting).map (Entry.requestAbort fun _ => true) := by
      simp [State.enterResetting, State.resetBlocks, State.requestAborts, State.sweep_entries]
    rw [hent]
    intro e he
    obtain ⟨x, hx, rfl⟩ := List.mem_map.1 he
    have hx' := (List.mem_filter.1 hx).2
    revert hx'
    unfold Entry.requestAbort
    cases hst : x.stage <;> simp [Stage.isWaiting, hst]
  · cases p <;> simp [State.path, State.enterResetting, State.resetBlocks, Path.controllerReset, Path.powerOn, Pair.get]

/-! ## The requests -/

theorem Request.perform_law {s t : State} {c : Client} {tag : Byte} {r : Request} (hs : t.lawful) (ht : t.tableSound)
    (hr : s.refusal c r = none) (hm : ∀ p, t.isMember p = s.isMember p) : (r.perform c tag t).lawful := by
  have member {p : Port} (hc : c = .port p) (hg : ∀ st, requestGate st r = none → st.isMember = true) : t.isMember p = true := by
    subst hc
    rw [hm]
    exact State.isMember_of_refusal hr hg
  cases r <;> cases c
  case acquire.port p => exact State.acquire_law hs ht (member rfl fun st => by cases st <;> simp [requestGate, PathState.isMember])
  case release.port p => exact State.release_law hs (member rfl fun st => by cases st <;> simp [requestGate, PathState.isMember])
  case handOver.port p => exact State.handOver_law hs ht (member rfl fun st => by cases st <;> simp [requestGate, PathState.isMember])
  case split.port => exact State.split_law hs ht
  case setHeir.port => exact State.setHeir_law hs
  case adopt.port p => exact State.adoptBy_law hs ht (member rfl fun st => by cases st <;> simp [requestGate, PathState.isMember])
  case adoptFor.mgmt => exact State.adoptFor_law hs ht
  case dissolve.mgmt => exact State.dissolve_law hs
  case join.port => exact State.join_law hs
  case resign.port p => exact State.resign_law hs (member rfl fun st => by cases st <;> simp [requestGate, PathState.isMember])
  case fencePartner.port => exact State.fencePartner_law hs
  case forceFence.mgmt => exact State.forceFence_law hs
  case ackNotice.port | ackNotice.mgmt => exact State.ackNotice_law hs
  case readmit.port | readmit.mgmt => exact State.readmit_law hs
  case rejoin.port => exact State.rejoin_law hs
  case configure.mgmt => exact State.configure_law hs
  case controllerReset.mgmt => exact State.controllerReset_law hs
  all_goals refine State.lawful_of hs ?_ ?_ ?_ ?_ ?_ ?_ <;> simp [Request.perform]

end Sys2Proof.Machine
end

section
/-! PROOFS. The laws of takeovers, owners and writes under every command; every step keeps all the laws together. -/

namespace Sys2Proof.Machine

/-! ## The walk (R129) -/

/-- A choice between two, made along a list, takes one of those it was given. -/
theorem foldl_choice_mem {α : Type} {f : α → α → α} (hf : ∀ x y, f x y = x ∨ f x y = y) : ∀ (l : List α) (a : α), l.foldl f a ∈ a :: l
  | [], a => List.mem_singleton.2 rfl
  | x :: l, a => by
    have h := foldl_choice_mem hf l (f a x)
    rw [List.foldl_cons]
    obtain e | e := hf a x <;> rw [e] at h ⊢ <;> simp only [List.mem_cons] at h ⊢ <;> tauto

theorem walkedFirst_choice (x y : Holding) : walkedFirst x y = x ∨ walkedFirst x y = y := by
  unfold walkedFirst
  repeat' split
  all_goals simp

theorem State.walkChoice_mem {s : State} {p : Port} {h : Holding} (hc : s.walkChoice p = some h) :
    h ∈ s.table.holdings ∧ h.tenure = .pending p := by
  have key : h ∈ s.table.holdings.filter fun h => h.isPendingOf p := by
    unfold State.walkChoice at hc
    split at hc
    · cases hc
    · next x xs hx =>
      cases hc
      rw [hx]
      exact foldl_choice_mem walkedFirst_choice xs x
  obtain ⟨hm, hp⟩ := List.mem_filter.1 key
  exact ⟨hm, by simpa [Holding.isPendingOf] using hp⟩

/-- Over a PENDING holding of a port whose drain is over every entry that can change blocks is ABANDONED (R126, R129). -/
theorem Law.abandoned_over_pending {E : List Entry} {H : List Holding} {D : List Due} {G : Option Nat} {W : List Port} {C : Core}
    {X : Entry → Prop} (l : Law E H D G W C X) {h : Holding} {p : Port} (hm : h ∈ H) (hp : h.tenure = .pending p)
    (hs : (C p).1 = .shedding) {e : Entry} (he : e ∈ E) (hc : e.changesBlocks) (ho : e.overlaps h = true) :
    e.stage.isAbandoned = true := by
  by_cases hport : e.port = p
  · refine l.ended e he (Entry.writeClass_of_changes hc) ?_
    rw [hport, hs]
    trivial
  · have hpart : h.tenure.owner = some e.port.partner := by
      rw [hp]
      cases hq : e.port <;> cases p <;> simp_all [Tenure.owner, Port.partner]
    rw [l.write e he h hm hc hpart] at ho
    cases ho

theorem State.walkOne_law {s : State} {p : Port} {h : Holding} (hs : s.lawful) (ht : s.tableSound) (hm : h ∈ s.table.holdings)
    (hp : h.tenure = .pending p) (hst : (s.path p).state = .shedding) : (s.walkOne p h).lawful := by
  have hone : ∀ x ∈ s.table.holdings, x.id = h.id → x = h := fun x hx hi => State.id_unique hs hx hm hi
  have orphaned (count : Takeover → Takeover) :
      ((s.setHolding h.id fun x => x.withTenure (.orphaned p)).onTakeover p count).lawful := by
    refine State.setHolding_law h.id (fun x => x.withTenure (.orphaned p)) hs (fun _ => rfl) (fun x hx hi => ?_)
      (fun g hg => by simpa [State.setHolding] using hg) (by simp [State.setHolding]) (by simp [State.setHolding]) (by simp) (by simp)
      (by rw [State.onTakeover_cores]; exact State.cores_of_paths (by simp))
    rw [hone x hx hi]
    refine Placed.fresh trivial (fun d hd => ?_) (fun e _ _ ho => by simp [Holding.withTenure, Tenure.owner] at ho)
      (fun _ e he hc ho => hs.abandoned_over_pending hm hp hst he hc ho) (by simpa [State.setHolding, Holding.withTenure] using hs.gens h hm)
    by_contra hn
    have hn' : d.names h = true := Bool.eq_true_of_not_eq_false hn
    have := (hs.due d hd h hm hn').2
    rw [hp] at this
    cases this
  unfold State.walkOne
  split
  · next g hg =>
    refine ite_keeps (fun htr => ?_) fun _ => orphaned _
    simp only [State.transferable, Bool.and_eq_true, Bool.not_eq_true', decide_eq_true_eq] at htr
    obtain ⟨⟨hu, -⟩, hmem⟩ := htr
    have hrange := State.gen_range ht hg
    have l := hs
    unfold State.lawful State.law at l
    rw [hg] at l
    refine State.setHolding_law h.id (fun x => x.grantedTo p.partner g) hs (fun _ => rfl) (fun x hx hi => ?_) (fun x hx => ?_)
      (by simp [State.setHolding, State.advanceGen]) (by simp [State.setHolding, State.advanceGen]) (by simp) (by simp)
      (by rw [State.onTakeover_cores]; exact State.cores_of_paths (by simp))
    · rw [hone x hx hi]
      refine Placed.fresh (by simpa [Holding.grantedTo, ownOk] using State.mayWait_of_member hmem) (l.fresh_not_due hrange.1 rfl)
        (fun e he hc _ => ?_) (fun ho => by simp [Holding.grantedTo, Tenure.owner] at ho)
        (by simpa [State.advanceGen, Holding.grantedTo] using genAfter_self hrange)
      by_contra hov
      have hover : e.overlaps h = true := by simpa [Entry.overlaps, Holding.grantedTo] using hov
      have := hs.abandoned_over_pending hm hp hst he hc hover
      rw [State.not_abandoned_of_resolved hu he hc hover] at this
      cases this
    · rw [hg] at hx
      simpa [State.advanceGen] using genAfter_mono hrange x hx
  · exact orphaned _

/-! ## Timers -/

/-- The laws read of the abort timers only whether they run. -/
theorem Law.cores {E : List Entry} {H : List Holding} {D : List Due} {G : Option Nat} {W : List Port} {C C' : Core} {X : Entry → Prop}
    (l : Law E H D G W C X) (hst : ∀ q, (C' q).1 = (C q).1) (ht : ∀ q, (C' q).2.isSome = true → (C q).2.isSome = true) :
    Law E H D G W C' X where
  wait e he hw := by simpa only [hst] using l.wait e he hw
  ended e he hw := by simpa only [hst] using l.ended e he hw
  timer q hq := by simpa only [hst] using l.timer q (ht q hq)
  walk q := by simpa only [hst] using l.walk q
  nodup := l.nodup
  own h hm := by simpa only [ownOk, hst] using l.own h hm
  write := l.write
  settled := l.settled
  due := l.due
  dueGen := l.dueGen
  ids := l.ids
  gens := l.gens

theorem tickTimer_isSome (t : Option Nat) : (tickTimer t).isSome = t.isSome := by cases t <;> rfl

theorem State.tick_law {s : State} (hs : s.lawful) : s.tick.lawful := by
  refine Law.cores hs (fun q => ?_) fun q hq => ?_
  · cases q <;> rfl
  · cases q <;> simpa [State.cores, State.path, State.tick, Pair.get, Path.tick, tickTimer_isSome] using hq

theorem Entry.requestAbort_moves (f : Entry → Bool) (e : Entry) :
    (e.requestAbort f).port = e.port ∧ (e.requestAbort f).kind = e.kind ∧ (e.requestAbort f).ns = e.ns ∧ (e.requestAbort f).range = e.range
      ∧ ((e.requestAbort f).stage = .waiting → e.stage = .waiting)
      ∧ (e.stage.isAbandoned = true → (e.requestAbort f).stage.isAbandoned = true)
      ∧ ((e.requestAbort f).stage.isSubmitted = true → e.stage.isSubmitted = true ∨ e.stage = .waiting) := by
  unfold Entry.requestAbort
  split
  · next k h => split <;> simp [h, Stage.isSubmitted, Stage.isAbandoned]
  · exact ⟨rfl, rfl, rfl, rfl, id, id, .inl⟩

theorem Entry.abandon_moves (p : Port) (e : Entry) :
    (e.abandon p).port = e.port ∧ (e.abandon p).kind = e.kind ∧ (e.abandon p).ns = e.ns ∧ (e.abandon p).range = e.range
      ∧ ((e.abandon p).stage = .waiting → e.stage = .waiting)
      ∧ (e.stage.isAbandoned = true → (e.abandon p).stage.isAbandoned = true)
      ∧ ((e.abandon p).stage.isSubmitted = true → e.stage.isSubmitted = true ∨ e.stage = .waiting) := by
  unfold Entry.abandon
  split
  · next k h => split <;> simp [h, Stage.isSubmitted, Stage.isAbandoned]
  · exact ⟨rfl, rfl, rfl, rfl, id, id, .inl⟩

theorem State.requestAborts_law {s : State} (f : Entry → Bool) (hs : s.lawful) : (s.requestAborts f).lawful :=
  State.stages_law (Entry.requestAbort f) hs (fun e _ => e.requestAbort_moves f) (by simp [State.requestAborts]) (by simp) (by simp)
    (State.cores_of_paths (by simp))

theorem State.drainTimer_law {s : State} {p : Port} (hs : s.lawful) :
    (if (s.path p).state = .draining then (s.withPath p ((s.path p).drainExpired s.settings.abortExp)).requestAborts fun e => e.writeOf p
      else s.withPath p ((s.path p).drainExpired s.settings.abortExp)).lawful := by
  refine ite_keeps (fun hd => ?_) fun hd => State.samePath_law hs rfl (by simp [Path.drainExpired, hd])
  have l := Law.setTimer (State.requestAborts_law (fun e => e.writeOf p) hs) p (some (2 ^ s.settings.abortExp)) fun _ => ?_
  · have hc : ((s.withPath p ((s.path p).drainExpired s.settings.abortExp)).requestAborts fun e => e.writeOf p).cores =
        (s.requestAborts fun e => e.writeOf p).cores.set p
          (((s.requestAborts fun e => e.writeOf p).cores p).1, some (2 ^ s.settings.abortExp)) := by
      rw [State.cores_of_paths (State.requestAborts_paths ..), State.cores_withPath, State.cores_of_paths (State.requestAborts_paths s _)]
      simp [Path.drainExpired, hd, State.cores]
    rw [State.lawful, State.law, hc]
    simpa [State.requestAborts] using l
  · refine ⟨by simpa [State.cores, State.path] using hd, fun e he hw => ?_⟩
    simp only [State.requestAborts, State.withMedia_flight, State.withFlight_flight] at he
    obtain ⟨x, -, rfl⟩ := List.mem_map.1 he
    have hx : x.writeOf p = true := by
      obtain ⟨hp, hk, -⟩ := x.requestAbort_moves fun e => e.writeOf p
      rwa [Entry.writeOf, hp, hk] at hw
    cases hst : x.stage <;> simp [Entry.requestAbort, hst, hx, Stage.isSubmitted]

/-- The abort timer of a DRAINING port expires (R124): its write-class entries are ABORTING or ABANDONED by then. -/
theorem State.abortTimer_law {s : State} {p : Port} (count : Takeover → Takeover) (hs : s.lawful) (ht : (s.path p).abortTimer = some 0)
    (hd : (s.path p).state = .draining) :
    ((((s.withPath p (s.path p).abortExpired).withFlight
        { s.flight with entries := s.flight.entries.map (Entry.abandon p) }).onTakeover p count).endDrain p).lawful := by
  have h1 : (s.withPath p (s.path p).abortExpired).lawful := by
    have l := Law.setTimer hs p none fun h => by cases h
    have hc : (s.withPath p (s.path p).abortExpired).cores = s.cores.set p ((s.cores p).1, none) := by
      rw [State.cores_withPath]
      rfl
    rw [State.lawful, State.law, hc]
    exact l
  have h2 : ((s.withPath p (s.path p).abortExpired).withFlight
      { s.flight with entries := s.flight.entries.map (Entry.abandon p) }).lawful :=
    State.stages_law (Entry.abandon p) h1 (fun e _ => e.abandon_moves p) rfl rfl rfl (State.cores_of_paths rfl)
  refine State.endDrain_law p (State.law_of h2 rfl rfl rfl rfl rfl (State.onTakeover_cores ..)) ?_ fun e he hw => ?_
  · simpa [State.onTakeover, State.path, Path.abortExpired] using hd
  · simp only [State.onTakeover, State.withPath_flight, State.withFlight_flight] at he
    obtain ⟨x, hx, rfl⟩ := List.mem_map.1 he
    have hxw : x.writeOf p = true := by
      obtain ⟨hp, hk, -⟩ := x.abandon_moves p
      simpa only [Entry.writeOf, hp, hk] using hw
    have hsub := (hs.timer p (by simp [State.cores, ht])).2 x hx hxw
    have hwait : x.stage ≠ .waiting := fun h => by
      have := (hs.wait x hx h).resolve_left id
      rw [(by simpa [Entry.writeOf] using hxw : x.port = p ∧ _).1] at this
      simp only [State.cores, hd] at this
      exact this.1
    cases hst : x.stage <;> simp [Entry.abandon, hst, hxw, Stage.isAbandoned, Stage.isSubmitted] at hsub hwait ⊢

/-! ## Commands -/

theorem State.takeCommand_law {s : State} {p : Port} {kind : IoKind} (hs : s.lawful) : (s.takeCommand p kind).lawful := by
  unfold State.takeCommand
  split
  · refine ite_keeps (fun _ => ite_keeps (fun _ => ?_) fun _ => (State.law_keeps _).judgeHead p _ _ hs) fun _ => hs
    exact State.lawful_of hs (by simp) (by simp) (by simp) (by simp) (by simp) (by simp)
  · exact hs

theorem State.countResolution_cores (s : State) (e : Entry) (code : AnswerCode) : (s.countResolution e code).cores = s.cores := by
  unfold State.countResolution
  repeat' split
  all_goals simp

theorem State.resolve_law {s : State} {e : Entry} {k : Fin 32} {code : AnswerCode} (hs : s.lawful) : (s.resolve e k code).lawful := by
  have counted : (((s.replyResolved e code).countResolution e code).withMedia
      { ((s.replyResolved e code).countResolution e code).media with
        abortList := ((s.replyResolved e code).countResolution e code).media.abortList.filter fun x => x != k }).lawful := by
    refine State.law_of hs (by simp) (by simp) (by simp) (by simp) (by simp) ?_
    rw [State.cores_of_paths (State.withMedia_paths ..), State.countResolution_cores]
    exact State.cores_of_paths (by simp)
  have left : (s.resolveLeft e k code).lawful := State.depart_law e counted fun _ _ _ h => h
  rw [State.resolve_eq]
  split
  · exact State.lawful_of (State.drainTest_law e.port left) (by simp) (by simp) (by simp) (by simp) (by simp) (by simp)
  · exact State.lawful_of left (by simp) (by simp) (by simp) (by simp) (by simp) (by simp)

theorem State.submit_law {s : State} {e : Entry} {k : Fin 32} (hs : s.lawful) (hf : s.flightSound) (he : e ∈ s.flight.entries)
    (hw : e.stage = .waiting) : (s.submit e k).lawful := by
  refine State.stages_law (fun x => if x.index = e.index then { x with stage := .submitted k, xfer := .none } else x) hs (fun x hx => ?_)
    (by simp [State.submit]) (by simp) (by simp) (State.cores_of_paths (by simp))
  split
  · next hi =>
    rw [State.entry_of_index hf hx he hi, hw]
    simp [Stage.isAbandoned]
  · exact ⟨rfl, rfl, rfl, rfl, id, id, .inl⟩

/-- Entries leave without a departure's other effects. -/
theorem State.removed_law {s t : State} (f : Entry → Bool) (hs : s.lawful) (entries : t.flight.entries = s.flight.entries.filter f)
    (holdings : t.table.holdings = s.table.holdings) (due : t.table.due = s.table.due) (gen : t.table.gen = s.table.gen)
    (walk : t.walk = s.walk) (paths : t.paths = s.paths) : t.lawful := by
  have l := Law.filter hs f (Y := fun _ => False) fun _ _ _ h => h
  simpa only [State.lawful, State.law, entries, holdings, due, gen, walk, State.cores_of_paths paths] using l

theorem exec_lawful (i : Instr) {s : State} (hs : s.lawful) (ht : s.tableSound) (hf : s.flightSound) :
    Ends State.lawful (exec i s) := by
  have same {t : State} (h1 : t.flight = s.flight) (h2 : t.table = s.table) (h3 : t.walk = s.walk) (h4 : t.paths = s.paths) : t.lawful :=
    State.lawful_of hs (by rw [h1]) (by rw [h2]) (by rw [h2]) (by rw [h2]) h3 h4
  have quiet (hq : quietCommand i = true) : Ends State.lawful (exec i s) := (exec_quiet hq s).imp fun h => h.lawful hs
  have transfer (hq : transferCommand i = true) : Ends State.lawful (exec i s) := (exec_transferring hq s).imp fun h => h.lawful hs
  have request {c : Client} (hc : commandClient i = some c) : Ends State.lawful (exec i s) := by
    refine exec_request_ends hc hs (fun tag r code => same (by simp) (by simp) (by simp) (by simp)) fun tag r t _ hr hto => ?_
    have taken : t.lawful := by
      obtain rfl | rfl := hto <;> refine State.lawful_of hs ?_ ?_ ?_ ?_ ?_ ?_ <;> simp
    have table : t.tableSound := by
      obtain rfl | rfl := hto <;> refine State.tableSound_of ht ?_ ?_ ?_ ?_ <;> simp
    exact Request.perform_law taken table hr fun p => by obtain rfl | rfl := hto <;> simp [State.isMember, State.path]
  cases i with
  | frameArrival p f =>
    refine ends_next (ite_keeps (fun _ => ?_) fun _ => hs)
    cases f with
    | runt => exact hs
    | frame head tag body =>
      unfold State.arrive
      refine ite_keeps (fun _ => ite_keeps (fun _ => (s.takeBeacon_quiet ..).lawful hs) fun _ => hs) fun _ => ?_
      split
      · exact same (by simp) (by simp) (by simp) (by simp)
      · exact same (by simp) (by simp) (by simp) (by simp)
      · exact hs
  | read p | write p | trim p | flush p => exact ends_next (State.takeCommand_law hs)
  | releaseCompletion =>
    refine ends_next ?_
    split
    · next d D hd =>
      refine ite_keeps (fun h => ?_) fun _ => hs
      exact State.walkTest_law ((State.complete_law hs ht hd).1 h.1)
    · exact hs
  | handOverCompletion =>
    refine ends_next ?_
    split
    · next d D hd =>
      refine ite_keeps (fun h => ?_) fun _ => hs
      exact State.walkTest_law ((State.complete_law hs ht hd).2 h.1)
    · exact hs
  | walkStep =>
    refine ends_next ?_
    split
    · next p rest _ hwalk =>
      refine ite_keeps (fun _ => ?_) fun _ => hs
      split
      · next h hh =>
        obtain ⟨hm, hp⟩ := State.walkChoice_mem hh
        have hst : (s.path p).state = .shedding := (hs.walk p).1 (by simp [hwalk])
        have granted : (s.granted .internal).lawful := State.lawful_of hs rfl rfl rfl rfl rfl rfl
        exact State.walkTest_law (State.walkOne_law granted (State.tableSound_of ht rfl rfl rfl rfl) hm hp hst)
      · exact hs
    · exact hs
  | linkDown p =>
    have linked : (s.withPath p ((s.path p).withLink false)).lawful := State.samePath_law hs rfl rfl
    have down : ((s.withPath p ((s.path p).withLink false)).failTransfers p).lawful := (State.failTransfers_transferring _ p).lawful linked
    refine ends_next (ite_keeps (fun hm => State.enterLost_law p _ down ?_) fun _ => down)
    simpa [State.path, Path.withLink] using State.isMember_iff.1 hm
  | windowEnd p =>
    refine ends_next (ite_keeps (fun hdue => ?_) fun _ => hs)
    split
    · next w hw =>
      have hm : s.isMember p = true := by
        simp only [State.windowDue, hw, Bool.and_eq_true] at hdue
        exact hdue.1
      have hst := State.isMember_iff.1 hm
      have hold : (s.path p).state ≠ .draining ∧ (s.path p).state ≠ .shedding := by
        obtain h | h := hst <;> simp [h]
      refine ite_keeps (fun _ => ?_) fun _ => ?_
      · have seen : (s.withPath p ((s.path p).afterSeen w)).lawful := State.toMember_law hs hold (.inl rfl) rfl
        refine ite_keeps (fun _ => ?_) fun _ => seen
        exact State.lawful_of (State.rejudge_law p seen) (by simp) (by simp) (by simp) (by simp) (by simp) (by simp)
      · have missed : (s.withPath p ((s.path p).afterMissed w)).lawful := State.toMember_law hs hold (.inr rfl) rfl
        refine ite_keeps (fun _ => ?_) fun _ => ite_keeps (fun _ => ?_) fun _ => missed
        · refine State.enterLost_law p _ (State.samePath_law (x := (s.path p).lastMissed) hs rfl rfl) ?_
          simpa [State.path, Path.lastMissed] using hst
        · exact State.lawful_of (State.rejudge_law p missed) (by simp) (by simp) (by simp) (by simp) (by simp) (by simp)
    · exact hs
  | drainTimerExpiry p => exact ends_next (ite_keeps (fun _ => State.drainTimer_law hs) fun _ => hs)
  | abortTimerExpiry p =>
    refine ends_next (ite_keeps (fun h0 => ite_keeps (fun hd => State.abortTimer_law _ hs h0 hd) fun hd => ?_) fun _ => hs)
    have := (hs.timer p (by simp [State.cores, h0])).1
    exact absurd this hd
  | submitCommand =>
    refine ends_next (ite_keeps (fun _ => hs) fun _ => ?_)
    split
    · next k e hk he =>
      obtain ⟨hm, hw⟩ := State.submissionChoice_waiting he
      exact State.submit_law hs hf hm hw
    · exact hs
  | driveAnswer k value =>
    refine ends_next ?_
    split
    exacts [State.resolve_law hs, hs]
  | cleared =>
    refine ends_next (ite_keeps (fun _ => ?_) fun _ => hs)
    dsimp only
    split <;> refine State.removed_law (fun _ => false) hs ?_ ?_ ?_ ?_ ?_ ?_ <;> simp [State.emptyFlight]
  | clearedTimerExpiry =>
    refine ends_next (ite_keeps (fun _ => ite_keeps (fun _ => ?_) fun _ => same rfl rfl rfl rfl) fun _ => hs)
    refine State.removed_law (fun _ => false) hs ?_ ?_ ?_ ?_ ?_ ?_ <;> simp [State.emptyFlight]
  | identifyAnswer entries =>
    refine ends_next (ite_keeps (fun _ => ?_) fun _ => hs)
    split <;> refine State.removed_law (fun e => e.stage.slot.isNone) hs ?_ ?_ ?_ ?_ ?_ ?_ <;> simp [State.freeSlots]
  | powerOnReset =>
    exact ends_next (State.lawful_outside (by simp [State.reset]) rfl rfl rfl fun p => by cases p <;> exact ⟨rfl, rfl⟩)
  | beacon | linkUp | requestBufferWrite | clearOverrun | answerBufferRead | i2cWriteOther | managementRequestMalformed
  | sendTransferFailure | sendAbort | sendQueueClear | sendIdentify | serverData | identifyRetryExpiry | resetAbortTimerExpiry =>
    exact quiet rfl
  | pullRequest | pullEnd | deliveryStart | deliveryEnd => exact transfer rfl
  | _ => exact request rfl

/-! ## All the laws -/

/-- The laws in the five groups in which the commands keep them. -/
theorem State.sound_iff (s : State) :
    s.sound ↔ s.intakesSound ∧ s.tableSound ∧ s.flightSound ∧ s.lawful ∧ s.settingsSound := by
  constructor
  · rintro ⟨hi, ht, hf, hd, ho, hw, hset, hc⟩
    exact ⟨hi, ht, hf, (State.lawful_iff ht).2 ⟨hd, ho, hw, hset⟩, hc⟩
  · rintro ⟨hi, ht, hf, hl, hc⟩
    obtain ⟨hd, ho, hw, hset⟩ := (State.lawful_iff ht).1 hl
    exact ⟨hi, ht, hf, hd, ho, hw, hset, hc⟩

theorem exec_sound (i : Instr) {s : State} (hs : s.sound) : Ends State.sound (exec i s) := by
  obtain ⟨hi, ht, hf, hl, hc⟩ := (State.sound_iff s).1 hs
  refine ends_iff.2 fun t h => (State.sound_iff t).2 ⟨?_, ?_, ?_, ?_, ?_⟩
  exacts [ends_iff.1 (exec_intakesSound i hi) t h, ends_iff.1 (exec_tableSound i ht) t h, ends_iff.1 (exec_flightSound i hf) t h,
    ends_iff.1 (exec_lawful i hl ht hf) t h, ends_iff.1 (exec_settingsSound i hc) t h]

theorem State.tick_sound {s : State} (hs : s.sound) : s.tick.sound := by
  obtain ⟨hi, ht, hf, hl, hc⟩ := (State.sound_iff s).1 hs
  refine (State.sound_iff _).2 ⟨State.intakesSound_of_ports hi (by simp), State.tableSound_of_table ht (by simp) rfl,
    State.flightSound_of hf (by simp), State.tick_law hl, State.settingsSound_of_tuning hc (State.tick_tuning s)⟩

/-- Settles O60: the commands keep the intakes, the table, the flight table and the settings each alone, and the laws of takeovers, owners
and writes by those of the two tables (`Law`, `exec_lawful`). -/
theorem stepKeepsSound : Obligations.StepKeepsSound := by
  intro s t hs ht
  exact ends_iff.1 (step_ends (P := State.sound) (fun s q hs => hs) (fun s hs => State.tick_sound hs)
    (fun i s hs => exec_sound i hs) s hs) t ht

/-- Settles O56: the part after power-on has no record, no entry and no port inside. -/
theorem resetIsSound : Obligations.ResetIsSound :=
  (State.sound_iff _).2 ⟨by decide, State.tableSound_empty rfl (by decide), by simp [State.flightSound, State.reset],
    State.lawful_outside (by simp [State.reset]) rfl rfl rfl fun p => by cases p <;> exact ⟨rfl, rfl⟩, State.reset_settingsSound⟩

end Sys2Proof.Machine
end

section
/-! PROOFS. The step, the queue and the table arbiter (chapter 0, R22, R23, R27, R95): what a step performs, what a command ends in, and
what stands next to be taken. -/

namespace Sys2Proof.Machine

/-- Settles O1. -/
theorem stepPerformsFrontCommand : Obligations.StepPerformsFrontCommand := fun _ _ _ => rfl

/-- Settles O11. -/
theorem powerOnValues : Obligations.PowerOnValues := ⟨fun _ => rfl, rfl⟩

/-! ## The events of an empty queue -/

/-- The first event of a list that is due. -/
def firstDue (events : List (Bool × Instr)) : Option Instr := (events.find? (·.1)).map (·.2)

theorem firstDue_of_append {before after : List (Bool × Instr)} {i : Instr} (hb : ∀ x ∈ before, x.1 = false) :
    firstDue (before ++ (true, i) :: after) = some i := by
  have hnone : before.find? (·.1) = none := List.find?_eq_none.2 fun x hx => by simp [hb x hx]
  simp [firstDue, List.find?_append, hnone]

theorem firstDue_eq_none {events : List (Bool × Instr)} (h : ∀ x ∈ events, x.1 = false) : firstDue events = none := by
  simp only [firstDue, Option.map_eq_none_iff, List.find?_eq_none]
  exact fun x hx => by simp [h x hx]

/-- The events that time brings, in the order in which the step looks for them. -/
def State.events (s : State) : List (Bool × Instr) :=
  [(s.windowDue .A, .windowEnd .A), (s.windowDue .B, .windowEnd .B),
   ((s.path .A).drainTimer = some 0, .drainTimerExpiry .A), ((s.path .B).drainTimer = some 0, .drainTimerExpiry .B),
   ((s.path .A).abortTimer = some 0, .abortTimerExpiry .A), ((s.path .B).abortTimer = some 0, .abortTimerExpiry .B),
   (s.part.retryTimer = some 0, .identifyRetryExpiry), (s.part.resetAbortTimer = some 0, .resetAbortTimerExpiry),
   (s.part.clearedTimer = some 0, .clearedTimerExpiry)]

theorem firstDue_cons (b : Bool) (i : Instr) (l : List (Bool × Instr)) : firstDue ((b, i) :: l) = if b then some i else firstDue l := by
  cases b <;> rfl

theorem State.dueEvent_eq (s : State) : s.dueEvent = firstDue s.events := by
  simp only [State.events, firstDue_cons, decide_eq_true_eq]
  rfl

theorem tickTimer_eq_map (t : Option Nat) : tickTimer t = t.map (· - 1) := by cases t <;> rfl

/-- Settles O2. -/
theorem emptyQueueIsTime : Obligations.EmptyQueueIsTime := by
  intro s hp
  have hstep : step s = s.idle := by unfold step; rw [hp]
  refine ⟨fun before after i hev hb => ?_, fun hnone => ?_⟩
  · have hdue : s.dueEvent = some i := by
      rw [State.dueEvent_eq, ← firstDue_of_append (after := after) hb, ← hev]
      rfl
    rw [hstep, State.idle, hdue]
  · have hdue : s.dueEvent = none := by
      rw [State.dueEvent_eq]
      exact firstDue_eq_none hnone
    rw [hstep, State.idle, hdue]
    simp only [State.tick, PartBlock.tick, Path.tick, Clock.tick, tickTimer_eq_map]

/-! ## What a command ends in -/

/-- Only a pull and a delivery can end in no next state. -/
theorem exec_next {c : Instr} (s : State) (hp : ∀ k, c ≠ .pullRequest k) (hd : ∀ k data, c ≠ .deliveryStart k data) :
    ∃ t, exec c s = .next t := by
  cases c with
  | pullRequest k => exact absurd rfl (hp k)
  | deliveryStart k data => exact absurd rfl (hd k data)
  | _ => exact ⟨_, rfl⟩

theorem Request.perform_pending (c : Client) (tag : Byte) (r : Request) (s : State) : (r.perform c tag s).pending = s.pending := by
  cases r <;> cases c <;> simp [Request.perform, State.controllerReset, State.enterResetting, State.resetBlocks]
  split <;> simp

theorem exec_pending (c : Instr) (s : State) : Ends (fun t => t.pending = s.pending) (exec c s) := by
  have request {cl : Client} (hc : commandClient c = some cl) : Ends (fun t => t.pending = s.pending) (exec c s) :=
    exec_request_ends hc rfl (fun tag r code => by simp) fun tag r t _ _ ht => by
      rw [Request.perform_pending]
      obtain rfl | rfl := ht <;> simp
  cases c with
  | pullRequest k =>
    change Ends _ (execPullRequest k s)
    unfold execPullRequest
    repeat' split
    all_goals simp [Ends, State.failTransfer]
  | deliveryStart k data =>
    change Ends _ (execDeliveryStart k data s)
    unfold execDeliveryStart
    repeat' split
    all_goals simp [Ends, State.failTransfer]
  | powerOnReset => rfl
  | read | write | trim | flush | linkUp => exact ends_next (by simp)
  | cleared =>
    refine ends_next (ite_keeps (P := fun t => t.pending = s.pending) (fun _ => ?_) fun _ => rfl)
    dsimp only
    split <;> simp
  | frameArrival | beacon | releaseCompletion | handOverCompletion | walkStep | linkDown | windowEnd | drainTimerExpiry | abortTimerExpiry
  | submitCommand | driveAnswer | clearedTimerExpiry | identifyAnswer | requestBufferWrite | clearOverrun | answerBufferRead | i2cWriteOther
  | managementRequestMalformed | sendTransferFailure | sendAbort | sendQueueClear | sendIdentify | serverData | identifyRetryExpiry
  | resetAbortTimerExpiry | pullEnd | deliveryEnd =>
    refine ends_next ?_
    repeat' split
    all_goals simp
  | _ => exact request rfl

/-- The faults of a pull: of an entry that is no WRITE, with the link up. -/
theorem execPullRequest_fault {k : Fin 32} {s : State} {f : Fault} : execPullRequest k s = .fault f ↔
    ∃ e, s.slotEntry k = some e ∧ (s.path e.port).linkUp = true ∧ e.kind ≠ .write ∧ f = .pullOfNonWrite := by
  unfold execPullRequest
  cases s.slotEntry k with
  | none => simp
  | some e =>
    dsimp only
    split
    · split
      · simp_all
      · simp_all only [Host.Outcome.fault.injEq, Option.some.injEq, ne_eq, exists_eq_left', not_false_eq_true, true_and]
        exact eq_comm
    · simp_all

/-- The faults of a delivery: of an entry that is no READ, with the link up. -/
theorem execDeliveryStart_fault {k : Fin 32} {data : List Byte} {s : State} {f : Fault} : execDeliveryStart k data s = .fault f ↔
    ∃ e, s.slotEntry k = some e ∧ (s.path e.port).linkUp = true ∧ e.kind ≠ .read ∧ f = .deliveryOfNonRead := by
  unfold execDeliveryStart
  cases s.slotEntry k with
  | none => simp
  | some e =>
    dsimp only
    split
    · split
      · simp_all
      · simp_all only [Host.Outcome.fault.injEq, Option.some.injEq, ne_eq, exists_eq_left', not_false_eq_true, true_and]
        exact eq_comm
    · simp_all

theorem exec_not_refused (c : Instr) (s : State) (r : Refusal) : exec c s ≠ .refused r := by
  cases c with
  | pullRequest k =>
    change execPullRequest k s ≠ _
    unfold execPullRequest
    repeat' split
    all_goals simp
  | deliveryStart k data =>
    change execDeliveryStart k data s ≠ _
    unfold execDeliveryStart
    repeat' split
    all_goals simp
  | _ => exact fun h => by cases h

/-- Settles O3. -/
theorem commandsEndAndKeepQueue : Obligations.CommandsEndAndKeepQueue := by
  refine fun c s => ⟨exec_not_refused c s, fun t ht => ends_iff.1 (exec_pending c s) t ht, fun f => ?_⟩
  by_cases hp : ∃ k, c = .pullRequest k
  · obtain ⟨k, rfl⟩ := hp
    exact execPullRequest_fault.trans (by simp)
  · by_cases hd : ∃ k data, c = .deliveryStart k data
    · obtain ⟨k, data, rfl⟩ := hd
      exact execDeliveryStart_fault.trans (by simp)
    · push Not at hp hd
      obtain ⟨t, ht⟩ := exec_next s hp hd
      rw [ht]
      simp [hp, hd]

/-! ## What stands next to be taken -/

theorem State.front_port_iff {s : State} {p : Port} {tag : Byte} {r : Request} : s.front (.port p) = some (tag, r) ↔
    (s.port p).roomWait = false ∧ ∃ rest, (s.port p).intake = { tag := tag, msg := .request r } :: rest := by
  simp only [State.front, State.headRequest]
  cases hw : (s.port p).roomWait with
  | true => simp
  | false =>
    cases hi : (s.port p).intake with
    | nil => simp
    | cons f rest =>
      obtain ⟨t, m⟩ := f
      cases m <;> simp

theorem State.headIo_iff {s : State} {p : Port} {tag : Byte} {c : IoCommand} : s.headIo p = some (tag, c) ↔
    ∃ rest, (s.port p).intake = { tag := tag, msg := .io c } :: rest := by
  simp only [State.headIo]
  cases hi : (s.port p).intake with
  | nil => simp
  | cons f rest =>
    obtain ⟨t, m⟩ := f
    cases m <;> simp

theorem State.mailboxTakes_iff {s : State} : s.mailboxTakes = true ↔
    s.mailbox.answerReady = false ∧ (s.part.state = .resetting ∨ s.mailbox.resetAnswer = false) := by
  simp [State.mailboxTakes]

theorem State.front_mgmt_iff {s : State} {tag : Byte} {r : Request} : s.front .mgmt = some (tag, r) ↔
    tag = 0 ∧ (∃ bytes, s.mailbox.request = some bytes ∧ envelopeRequest bytes = some r) ∧ s.mailbox.answerReady = false
      ∧ (s.part.state = .resetting ∨ s.mailbox.resetAnswer = false) := by
  rw [← State.mailboxTakes_iff]
  simp only [State.front]
  split
  · next h =>
    simp only [h, Option.map_eq_some_iff, Option.bind_eq_some_iff, Prod.mk.injEq, and_true]
    exact ⟨fun ⟨_, hb, ht, hr⟩ => ⟨ht.symm, hr ▸ hb⟩, fun ⟨ht, hb⟩ => ⟨r, hb, ht.symm, rfl⟩⟩
  · next h => simp [h]

theorem Request.isTable_iff {r : Request} : r.isTable = true ↔ r.code ≤ 8 ∨ r.code = 18 ∨ r.code = 19 := by
  cases r <;> simp [Request.isTable, Request.code]

theorem State.waits_clientSource_iff {s : State} {c : Client} : s.waits (clientSource c) = true ↔
    ∃ tag r, s.front c = some (tag, r) ∧ s.refusal c r = none ∧ (r.code ≤ 8 ∨ r.code = 18 ∨ r.code = 19) := by
  have hw : s.waits (clientSource c) = s.clientWaits c := by
    rcases c with p | _
    · cases p <;> rfl
    · rfl
  rw [hw]
  unfold State.clientWaits
  cases hf : s.front c with
  | none => simp
  | some x =>
    obtain ⟨tag, r⟩ := x
    simp [Request.isTable_iff, and_comm]

theorem State.waits_internal_iff {s : State} : s.waits .internal = true ↔ s.table.due ≠ []
    ∨ ∃ p ports, s.walk = p :: ports ∧ ∃ h ∈ s.table.holdings, h.tenure = .pending p := by
  simp only [State.waits, State.walkDue, Bool.or_eq_true, Bool.not_eq_true', List.isEmpty_eq_false_iff]
  cases s.walk <;> simp [Holding.isPendingOf]

/-! ## The rotation (R23) -/

theorem Source.forall_iff {P : Source → Prop} : (∀ x, P x) ↔ P .portA ∧ P .portB ∧ P .management ∧ P .internal :=
  ⟨fun h => ⟨h _, h _, h _, h _⟩, fun ⟨ha, hb, hm, hi⟩ x => by cases x <;> assumption⟩

/-- The first waiting source round the cycle from `q` is the one that stands nearest after `q`. -/
theorem Source.find?_cycle_iff (w : Source → Bool) (q x : Source) : [q, q.next, q.next.next, q.next.next.next].find? w = some x ↔
    w x = true ∧ ∀ y, w y = true → q.after x ≤ q.after y := by
  rw [Source.forall_iff]
  cases ha : w .portA <;> cases hb : w .portB <;> cases hm : w .management <;> cases hi : w .internal <;> cases q <;> cases x <;>
    simp [Source.next, Source.after, ha, hb, hm, hi]

/-- A grant to a source that stands before `x` moves the pointer nearer to `x`. -/
theorem Source.next_nearer {q x y : Source} (hne : y ≠ x) (h : q.after y ≤ q.after x) : y.next.after x < q.after x := by
  revert hne h
  cases q <;> cases x <;> cases y <;> decide

theorem State.grantee_iff {s : State} {x : Source} : s.grantee = some x ↔
    s.waits x = true ∧ ∀ y, s.waits y = true → s.table.pointer.after x ≤ s.table.pointer.after y :=
  Source.find?_cycle_iff s.waits s.table.pointer x

/-- Settles O4. -/
theorem arbiterGrantsInRotation : Obligations.ArbiterGrantsInRotation := by
  refine fun s x => ⟨fun p tag r => State.front_port_iff, fun p tag c => State.headIo_iff, fun tag r => State.front_mgmt_iff,
    fun c r i hi hf => exec_of_not_front (commandClient_of_commandFor hi) hf, fun c => State.waits_clientSource_iff,
    State.waits_internal_iff, State.grantee_iff, fun y hx hy hne => ?_⟩
  obtain ⟨-, hfirst⟩ := State.grantee_iff.1 hy
  exact Source.next_nearer hne (hfirst x hx)

/-! ## Refused, waiting, taken or granted -/

section
variable {s : State} {c : Client} {tag : Byte} {r : Request} {i : Instr}

/-- The command for a request that is taken at once performs it. -/
theorem exec_of_takes (hi : commandFor c r = some i) (ht : s.takes c tag r) (hr : r.isTable = false) :
    exec i s = .next (r.perform c tag (s.takeFront c)) := by
  obtain ⟨hf, hn⟩ := ht
  simp only [exec_of_front hi hf, State.handled, hr, State.atOnce, hn]
  rfl

/-- The command for a table request performs it at its grant. -/
theorem exec_of_grants (hi : commandFor c r = some i) (hg : s.grants c tag r) (hr : r.isTable = true) :
    exec i s = .next (r.perform c tag (s.atGrant c)) := by
  simp only [exec_of_front hi (State.front_of_grants hg), State.handled, hr, State.atTable_of_grants hg, if_true]

theorem exec_of_refusal {code : AnswerCode} (hi : commandFor c r = some i) (hf : s.front c = some (tag, r)) (hr : s.refusal c r = some code) :
    exec i s = .next ((s.takeFront c).respond c tag r.code code []) := by
  rw [exec_of_front hi hf, State.handled]
  split
  · simp only [State.atTable, hr]
  · simp only [State.atOnce, hr]

end

/-- Settles O5. -/
theorem requestsRefusedOrWaiting : Obligations.RequestsRefusedOrWaiting := by
  refine fun c r i tag s hi hf => ⟨fun code hr => exec_of_refusal hi hf hr, fun hr ht hg => ?_⟩
  simp only [exec_of_front hi hf, State.handled, ht, State.atTable, hr, hg, if_true, if_false]

/-! ## The gate (R95, R190) -/

theorem State.refusal_port_of_not_ready {s : State} {p : Port} {r : Request} (h : s.part.state ≠ .ready) :
    s.refusal (.port p) r = if r.code = 17 then none else some .notReady := by
  cases r <;> simp [State.refusal, needsReady, requestGate, Request.code, h]

theorem State.refusal_port_of_ready {s : State} {p : Port} {r : Request} (h : s.part.state = .ready) :
    s.refusal (.port p) r = requestGate (s.path p).state r := by
  simp [State.refusal, h]

/-- The table of R95 for requests. -/
theorem requestGate_eq (st : PathState) (r : Request) : requestGate st r =
    if r.code = 17 ∨ r.code = 12 then none
    else match st with
      | .outside => some .notMember
      | .member => none
      | .suspect => none
      | .lost => if r.code = 7 ∨ r.code = 8 ∨ r.code = 9 ∨ r.code = 10 then none else some .fenced
      | .draining => some .fenced
      | .shedding => some .fenced
      | .fenced => if r.code = 16 then none else some .fenced := by
  cases r <;> cases st <;> rfl

theorem State.refusal_mgmt {s : State} {r : Request} (hc : r.carriedBy .mgmt = true) : s.refusal .mgmt r =
    if s.part.state ≠ .ready ∧ r.code ∈ [7, 8, 18, 19, 20, 15] then some .notReady else none := by
  cases r <;> simp [Request.carriedBy] at hc <;> simp [State.refusal, needsReady, Request.code]

/-- Settles O6. -/
theorem requestGate_settled : Obligations.RequestGate :=
  fun _ _ => ⟨fun _ h => State.refusal_port_of_not_ready h,
    fun _ h => (State.refusal_port_of_ready h).trans (requestGate_eq ..), State.refusal_mgmt⟩

/-! ## Taking a frame (R180, R181) -/

/-- Sending on a path link changes what has left on it, while the link is up, and nothing else (R182). -/
theorem State.sendOn_eq (s : State) (p : Port) (o : LinkOut) : s.sendOn p o = { s with
    out := if (s.path p).linkUp = true then { s.out with links := s.out.links.set p (s.out.links.get p ++ [o]) } else s.out } := by
  unfold State.sendOn
  split <;> rfl

/-- A changed intake: the hold indication is judged again, and a change is signalled while the link is up. -/
theorem State.setIntake_eq (s : State) (p : Port) (frames : List IntakeFrame) : s.setIntake p frames = { s with
    ports := s.ports.set p { s.port p with intake := frames, hold := holdAfter (s.port p).hold frames.length }
    out := if holdAfter (s.port p).hold frames.length ≠ (s.port p).hold ∧ (s.path p).linkUp = true then
        { s.out with links := s.out.links.set p (s.out.links.get p ++ [.holdMark (holdAfter (s.port p).hold frames.length)]) }
      else s.out } := by
  simp only [State.setIntake, State.sendOn_eq]
  split
  · next h => simp only [h, ne_eq, not_true_eq_false, false_and, if_false]; rfl
  · next h => simp only [ne_eq, h, not_false_eq_true, true_and]; rfl

/-- The head is taken: the wait for room ends too. -/
theorem State.takeHead_eq {s : State} {p : Port} {f : IntakeFrame} {rest : List IntakeFrame} (h : (s.port p).intake = f :: rest) :
    s.takeHead p = { s with
      ports := s.ports.set p { intake := rest, roomWait := false, hold := holdAfter (s.port p).hold rest.length }
      out := if holdAfter (s.port p).hold rest.length ≠ (s.port p).hold ∧ (s.path p).linkUp = true then
          { s.out with links := s.out.links.set p (s.out.links.get p ++ [.holdMark (holdAfter (s.port p).hold rest.length)]) }
        else s.out } := by
  have hport : (s.withPort p { s.port p with roomWait := false }).port p = { s.port p with roomWait := false } := by
    simp only [State.port, State.withPort_ports, Pair.get_set_self]
  rw [State.takeHead, State.setIntake_eq, hport, h]
  simp only [State.withPort_ports, Pair.set_set, List.tail_cons]
  rfl

/-- Settles O7. -/
theorem takingAFrame : Obligations.TakingAFrame := by
  refine fun s p f rest h => ⟨State.takeHead_eq h, rfl, fun c => ?_⟩
  have ht : (s.takeFront c).table = s.table := by simp
  simp only [State.atGrant, State.granted, State.withTable, ht]

end Sys2Proof.Machine
end

section
/-! PROOFS. Encodings (R177, R183, R184, R186): numbers as bytes, the fields of a body, and the requests and I/O commands read back. -/

namespace Sys2Proof.Machine

/-! ## Numbers as bytes -/

@[simp] theorem be_length (n v : Nat) : (be n v).length = n := by
  induction n with
  | zero => rfl
  | succ n ih => simp [be, ih]

theorem be_one (v : Nat) : be 1 v = [BitVec.ofNat 8 v] := by simp [be]

theorem be_zero_value (n : Nat) : be n 0 = List.replicate n 0 := by
  induction n with
  | zero => rfl
  | succ n ih => simp [be, ih, List.replicate_succ]

theorem beNatFrom_append (acc : Nat) (xs ys : List Byte) : beNatFrom acc (xs ++ ys) = beNatFrom (beNatFrom acc xs) ys := by
  induction xs generalizing acc with
  | nil => rfl
  | cons x xs ih => exact ih _

theorem beNatFrom_be (acc n v : Nat) : beNatFrom acc (be n v) = acc * 256 ^ n + v % 256 ^ n := by
  induction n generalizing acc with
  | zero => simp [be, beNatFrom, Nat.mod_one]
  | succ n ih =>
    simp only [be, beNatFrom, ih, BitVec.toNat_ofNat, Nat.shiftRight_eq_div_pow, Nat.reducePow]
    have hpow : 2 ^ (8 * n) = 256 ^ n := by rw [pow_mul]; norm_num
    have hmod : v % 256 ^ (n + 1) = 256 ^ n * (v / 256 ^ n % 256) + v % 256 ^ n := by
      rw [pow_succ, Nat.mod_mul, add_comm]
    rw [hpow, hmod, pow_succ]
    ring

theorem beNat_be (n v : Nat) : beNat (be n v) = v % 256 ^ n := by simp [beNat, beNatFrom_be]

/-- The bytes of a number, most significant first. -/
theorem be_getElem? (n v i : Nat) (hi : i < n) : (be n v)[i]? = some (BitVec.ofNat 8 (v / 256 ^ (n - 1 - i))) := by
  induction n generalizing i with
  | zero => omega
  | succ n ih =>
    cases i with
    | zero =>
      have hpow : 2 ^ (8 * n) = 256 ^ n := by rw [pow_mul]; norm_num
      simp [be, Nat.shiftRight_eq_div_pow, hpow]
    | succ i =>
      rw [be, List.getElem?_cons_succ, ih i (by omega), show n + 1 - 1 - (i + 1) = n - 1 - i by omega]

/-! ## The fields of a body -/

/-- A field at the start of a body. -/
theorem field_be_append (n v : Nat) (rest : List Byte) : field (be n v ++ rest) 0 n = v % 256 ^ n := by
  simp [field, beNat_be]

theorem field_be (n v : Nat) : field (be n v) 0 n = v % 256 ^ n := by simpa using field_be_append n v []

/-- A field that a value fits. -/
theorem field_be_append_of_lt {n v : Nat} (rest : List Byte) (h : v < 256 ^ n) : field (be n v ++ rest) 0 n = v := by
  rw [field_be_append, Nat.mod_eq_of_lt h]

theorem field_be_of_lt {n v : Nat} (h : v < 256 ^ n) : field (be n v) 0 n = v := by rw [field_be, Nat.mod_eq_of_lt h]

/-- A field past the first bytes of a body. -/
theorem field_append_of_le {xs ys : List Byte} {i : Nat} (n : Nat) (h : xs.length ≤ i) : field (xs ++ ys) i n = field ys (i - xs.length) n := by
  simp [field, List.drop_append, List.drop_eq_nil_of_le h]

theorem field_be_skip (m v : Nat) (ys : List Byte) {i n : Nat} (h : m ≤ i) : field (be m v ++ ys) i n = field ys (i - m) n := by
  rw [field_append_of_le n (by simpa using h), be_length]

/-- A field within the first bytes of a body. -/
theorem field_append_left {xs : List Byte} (ys : List Byte) {i n : Nat} (h : i + n ≤ xs.length) : field (xs ++ ys) i n = field xs i n := by
  unfold field
  rw [List.drop_append_of_le_length (by omega), List.take_append_of_le_length (by rw [List.length_drop]; omega)]

theorem field_zero (bytes : List Byte) (i : Nat) : field bytes i 0 = 0 := by simp [field, beNat, beNatFrom]

/-- A field's next byte is its least significant one. -/
theorem field_succ {bytes : List Byte} {i n : Nat} {b : Byte} (h : bytes[i + n]? = some b) :
    field bytes i (n + 1) = 256 * field bytes i n + b.toNat := by
  have htake : (bytes.drop i).take (n + 1) = (bytes.drop i).take n ++ [b] := by
    rw [List.take_add_one, List.getElem?_drop, h]
    rfl
  rw [field, htake, beNat, beNatFrom_append]
  change beNat ((bytes.drop i).take n) * 256 + b.toNat = 256 * beNat ((bytes.drop i).take n) + b.toNat
  ring

theorem field_head (b : Byte) (rest : List Byte) : field (b :: rest) 0 1 = b.toNat := by
  have h := field_succ (bytes := b :: rest) (i := 0) (n := 0) rfl
  simpa [field_zero] using h

/-! ## Requests (R184) -/

theorem Request.body_eq (r : Request) : r.body = BitVec.ofNat 8 r.code :: r.fields := by
  rw [Request.body, be_one]
  rfl

theorem Request.envelope_eq (r : Request) : r.envelope = BitVec.ofNat 8 r.code :: BitVec.ofNat 8 r.fields.length :: r.fields := by
  simp [Request.envelope, be_one]

theorem Request.code_lt (r : Request) : r.code < 256 := by cases r <;> simp [Request.code]

theorem Request.fields_length_lt (r : Request) : r.fields.length < 256 := by
  cases r with
  | readmit port => cases port <;> simp [Request.fields, Request.layout]
  | status sect => cases sect <;> simp [Request.fields, Request.layout]
  | _ => simp [Request.fields, Request.layout]

theorem Request.fits_iff {r : Request} : r.fits = true ↔ ∀ x ∈ r.layout, x.2 < 256 ^ x.1 := by
  simp [Request.fits]

/-- The rows of R184's path column: code and body length. -/
theorem pathRequestOf_eq_none {body : List Byte} : pathRequestOf body = none ↔ (field body 0 1, body.length) ∉
    [(1, 17), (2, 9), (3, 9), (4, 9), (5, 5), (6, 3), (7, 8), (8, 9), (9, 1), (10, 2), (11, 2), (12, 1), (13, 1), (14, 1), (15, 1),
     (16, 1), (17, 1)] := by
  unfold pathRequestOf
  split
  case h_18 => simp_all
  all_goals simp_all

/-- The rows of R184's management column: code and length of the fields. -/
theorem mgmtRequestOf_eq_none {code : Nat} {fields : List Byte} : mgmtRequestOf code fields = none ↔ (code, fields.length + 1) ∉
    [(7, 8), (8, 9), (9, 1), (10, 2), (11, 2), (15, 2), (17, 2), (18, 4), (19, 3), (20, 2), (21, 2), (22, 5), (23, 3), (24, 1)] := by
  unfold mgmtRequestOf
  split
  case h_15 => simp_all
  all_goals simp_all

/-- A REQUEST body is read back (R179, R184). -/
theorem pathRequestOf_body {p : Port} {r : Request} (hc : r.carriedBy (.port p) = true) (hf : r.fits = true) :
    pathRequestOf r.body = some r := by
  rw [Request.fits_iff] at hf
  have hbody : r.body = be 1 r.code ++ r.fields := rfl
  have hcode : field r.body 0 1 = r.code := by rw [hbody, field_be_append_of_lt _ (by simpa using r.code_lt)]
  unfold pathRequestOf
  rw [hcode, hbody]
  cases r with
  | readmit port | status sect =>
    simp only [Request.carriedBy, Option.isNone_iff_eq_none] at hc
    subst hc
    rfl
  | adoptFor | dissolve | forceFence | readTakeover | configure | readConfig | controllerReset => cases hc
  | _ =>
    simp only [Request.layout, List.forall_mem_cons, Nat.reducePow] at hf
    simp [Request.code, Request.fields, Request.layout, field_be_skip, field_be_append_of_lt, field_be_of_lt, hf]

/-- The fields of a management request are read back (R184, R186). -/
theorem mgmtRequestOf_fields {r : Request} (hc : r.carriedBy .mgmt = true) (hf : r.fits = true) : mgmtRequestOf r.code r.fields = some r := by
  rw [Request.fits_iff] at hf
  unfold mgmtRequestOf
  cases r with
  | readmit x | status x =>
    obtain ⟨v, rfl⟩ := Option.isSome_iff_exists.1 hc
    simp only [Request.layout, Option.toList_some, List.map_cons, List.map_nil, List.forall_mem_cons, Nat.reducePow] at hf
    simp [Request.code, Request.fields, Request.layout, field_be_of_lt, hf]
  | acquire | release | handOver | split | setHeir | adopt | join | resign | fencePartner | rejoin => cases hc
  | _ =>
    simp only [Request.layout, List.forall_mem_cons, Nat.reducePow] at hf
    simp [Request.code, Request.fields, Request.layout, field_be_skip, field_be_append_of_lt, field_be_of_lt, hf]

/-- Bytes after an envelope are no part of it (log entry 32). -/
theorem envelopeRequest_envelope (r : Request) (after : List Byte) :
    envelopeRequest (r.envelope ++ after) = mgmtRequestOf r.code r.fields := by
  have hc : r.code % 256 = r.code := Nat.mod_eq_of_lt r.code_lt
  have hl : r.fields.length % 256 = r.fields.length := Nat.mod_eq_of_lt r.fields_length_lt
  simp [Request.envelope_eq, envelopeRequest, hc, hl]

theorem messageOf_of_request {head : Byte} (body : List Byte) (h : classOf head = 3) :
    messageOf head body = (pathRequestOf body).map .request := by
  simp only [messageOf, h]

theorem messageOf_of_command {head : Byte} (body : List Byte) (h : classOf head = 1) : messageOf head body = (commandOf body).map .io := by
  simp only [messageOf, h]

theorem messageOf_eq_none_of_request {head : Byte} {body : List Byte} (h : classOf head = 3) : messageOf head body = none ↔
    ¬ ∃ (code : Byte) (rest : List Byte), body = code :: rest ∧ (code.toNat, body.length) ∈
      [(1, 17), (2, 9), (3, 9), (4, 9), (5, 5), (6, 3), (7, 8), (8, 9), (9, 1), (10, 2), (11, 2), (12, 1), (13, 1), (14, 1), (15, 1),
       (16, 1), (17, 1)] := by
  rw [messageOf_of_request body h, Option.map_eq_none_iff, pathRequestOf_eq_none]
  cases body with
  | nil => simp
  | cons b rest => simp [field_head]

theorem envelopeRequest_eq_none {bytes : List Byte} : envelopeRequest bytes = none ↔
    ¬ ∃ (code n : Byte) (rest : List Byte), bytes = code :: n :: rest ∧ n.toNat ≤ rest.length ∧ (code.toNat, n.toNat + 1) ∈
      [(7, 8), (8, 9), (9, 1), (10, 2), (11, 2), (15, 2), (17, 2), (18, 4), (19, 3), (20, 2), (21, 2), (22, 5), (23, 3), (24, 1)] := by
  unfold envelopeRequest
  split
  · next code n rest =>
    split
    · next hle =>
      rw [mgmtRequestOf_eq_none, List.length_take_of_le hle]
      constructor
      · rintro hn ⟨c, m, r, he, -, hm⟩
        cases he
        exact hn hm
      · exact fun hn hm => hn ⟨_, _, _, rfl, hle, hm⟩
    · next hle =>
      refine ⟨fun _ => ?_, fun _ => rfl⟩
      rintro ⟨c, m, r, he, hm, -⟩
      cases he
      exact hle hm
  · next hshort =>
    refine ⟨fun _ => ?_, fun _ => rfl⟩
    rintro ⟨c, m, r, rfl, -⟩
    exact hshort c m r rfl

/-- Settles O9. -/
theorem requestsDecodeAsEncoded : Obligations.RequestsDecodeAsEncoded := by
  refine ⟨fun p r hc hf => ?_, fun r after hc hf => ?_, fun r => ⟨r.body_eq, ?_, Request.fits_iff, ?_⟩,
    fun n v => ⟨be_length n v, be_getElem? n v⟩, fun bytes i n b => ⟨field_zero bytes i, field_succ⟩,
    fun head body h => messageOf_eq_none_of_request h, fun bytes => envelopeRequest_eq_none⟩
  · rw [messageOf_of_request _ rfl, pathRequestOf_body hc hf]
    rfl
  · rw [envelopeRequest_envelope, mgmtRequestOf_fields hc hf]
  · rw [Request.envelope_eq, Request.body_eq]
    rfl
  · cases r with
    | readmit port => cases port <;> rfl
    | status sect => cases sect <;> rfl
    | _ => rfl

/-! ## I/O commands (R183) -/

theorem ioKindOf_num (k : IoKind) : ioKindOf k.num = some k := by cases k <;> rfl

theorem ioKindOf_eq_none {n : Nat} : ioKindOf n = none ↔ n < 1 ∨ 4 < n := by
  unfold ioKindOf
  split
  case h_5 h1 h2 h3 h4 =>
    have hne : n ≠ 1 ∧ n ≠ 2 ∧ n ≠ 3 ∧ n ≠ 4 := ⟨h1, h2, h3, h4⟩
    simp only [true_iff]
    omega
  all_goals simp

/-- The values of a READ, WRITE or TRIM that fit their bytes. -/
theorem IoCommand.fits_iff {c : IoCommand} : c.fits = true ↔
    c.ns < 256 ∧ 1 ≤ c.count ∧ c.count ≤ 256 ∧ c.start < 2 ^ 48 ∧ c.gen.getD 0 < 2 ^ 48 := by
  simp [IoCommand.fits, and_assoc]

/-- The flag byte of a COMMAND: bit 0 says that a generation is supplied. -/
def IoCommand.flagByte (c : IoCommand) (spare : Nat) : Nat := 2 * (spare % 128) + if c.gen.isSome then 1 else 0

theorem IoCommand.flagByte_lt (c : IoCommand) (spare : Nat) : c.flagByte spare < 256 := by
  unfold IoCommand.flagByte
  split <;> omega

theorem IoCommand.flagByte_odd (c : IoCommand) (spare : Nat) : c.flagByte spare % 2 = 1 ↔ c.gen.isSome = true := by
  unfold IoCommand.flagByte
  split <;> simp_all

theorem IoCommand.body_eq (c : IoCommand) (spare : Nat) : c.body spare = be 1 c.kind.num ++ (be 1 c.ns ++ (be 1 (c.count - 1) ++
    (be 1 (c.flagByte spare) ++ (be 6 c.start ++ be 6 (c.gen.getD spare))))) := by
  simp [IoCommand.body, IoCommand.flagByte]

section
variable {c : IoCommand} (spare : Nat)

theorem IoCommand.body_length : (c.body spare).length = 16 := by simp [IoCommand.body_eq]

theorem IoCommand.field_kind : field (c.body spare) 0 1 = c.kind.num := by
  rw [IoCommand.body_eq, field_be_append_of_lt]
  cases c.kind <;> simp [IoKind.num]

theorem IoCommand.field_ns (hf : c.fits = true) : field (c.body spare) 1 1 = c.ns := by
  obtain ⟨hn, -⟩ := IoCommand.fits_iff.1 hf
  simp [IoCommand.body_eq, field_be_skip, field_be_append_of_lt, hn]

theorem IoCommand.field_count (hf : c.fits = true) : field (c.body spare) 2 1 + 1 = c.count := by
  obtain ⟨-, h1, h2, -⟩ := IoCommand.fits_iff.1 hf
  have hlt : c.count - 1 < 256 ^ 1 := by omega
  simp only [IoCommand.body_eq, field_be_skip _ _ _ (show 1 ≤ 2 by omega), field_be_skip _ _ _ (show 1 ≤ 2 - 1 by omega)]
  rw [field_be_append_of_lt _ hlt]
  omega

theorem IoCommand.field_flags : field (c.body spare) 3 1 = c.flagByte spare := by
  simp [IoCommand.body_eq, field_be_skip, field_be_append_of_lt, c.flagByte_lt spare]

theorem IoCommand.field_start (hf : c.fits = true) : field (c.body spare) 4 6 = c.start := by
  obtain ⟨-, -, -, hs, -⟩ := IoCommand.fits_iff.1 hf
  have hlt : c.start < 256 ^ 6 := by simpa using hs
  simp [IoCommand.body_eq, field_be_skip, field_be_append_of_lt _ hlt]

theorem IoCommand.field_gen (hf : c.fits = true) {g : Nat} (hg : c.gen = some g) : field (c.body spare) 10 6 = g := by
  obtain ⟨-, -, -, -, hlt⟩ := IoCommand.fits_iff.1 hf
  have hlt' : g < 256 ^ 6 := by simpa [hg] using hlt
  simp [IoCommand.body_eq, field_be_skip, hg, field_be_of_lt hlt']

/-- A READ, WRITE or TRIM is read back. -/
theorem IoCommand.commandOf_body (hk : c.kind ≠ .flush) (hf : c.fits = true) : commandOf (c.body spare) = some c := by
  simp only [commandOf, IoCommand.body_length, if_true, IoCommand.field_kind, ioKindOf_num, Option.map_some, hk, if_false,
    IoCommand.field_ns spare hf, IoCommand.field_count spare hf, IoCommand.field_start spare hf, IoCommand.field_flags,
    IoCommand.flagByte_odd]
  cases hg : c.gen with
  | none =>
    obtain ⟨kind, ns, start, count, gen⟩ := c
    subst hg
    rfl
  | some g =>
    obtain ⟨kind, ns, start, count, gen⟩ := c
    subst hg
    simp [IoCommand.field_gen spare hf rfl]

end

theorem commandOf_eq_none {body : List Byte} : commandOf body = none ↔ body.length ≠ 16 ∨ ioKindOf (field body 0 1) = none := by
  unfold commandOf
  split <;> simp_all

theorem commandOf_flush (ns : Byte) {others : List Byte} (h : others.length = 14) :
    commandOf ([4, ns] ++ others) = some { kind := .flush, ns := ns.toNat, start := 0, count := 0, gen := none } := by
  have h0 : field (4 :: ns :: others) 0 1 = 4 := field_head 4 _
  have h1 : field (4 :: ns :: others) 1 1 = ns.toNat :=
    (field_append_of_le (xs := [4]) (ys := ns :: others) 1 (by simp)).trans (field_head ns others)
  have hl : (4 :: ns :: others : List Byte).length = 16 := by simp [h]
  change commandOf (4 :: ns :: others) = _
  simp only [commandOf, hl, h0, h1, if_true, show ioKindOf 4 = some .flush from rfl, Option.map_some]

/-- Settles O10. -/
theorem ioCommandsDecodeAsEncoded : Obligations.IoCommandsDecodeAsEncoded := by
  refine ⟨fun c spare hk hf => ?_, fun ns others ho => ?_, fun c spare hk hf => ?_, fun head body h => ?_, fun head body => ⟨rfl, fun h1 h3 => ?_⟩⟩
  · rw [messageOf_of_command _ rfl, IoCommand.commandOf_body spare hk hf]
    rfl
  · rw [messageOf_of_command _ rfl, commandOf_flush ns ho]
    rfl
  · refine ⟨IoCommand.body_length spare, IoCommand.field_ns spare hf, IoCommand.field_count spare hf, IoCommand.field_start spare hf, ?_,
      fun g hg => IoCommand.field_gen spare hf hg, IoCommand.field_kind spare⟩
    rw [IoCommand.field_flags, IoCommand.flagByte_odd]
  · rw [messageOf_of_command _ h, Option.map_eq_none_iff, commandOf_eq_none, ioKindOf_eq_none]
    cases body with
    | nil => simp
    | cons b rest =>
      simp only [field_head]
      refine or_congr_right ⟨fun h kind r he => ?_, fun h => h b rest rfl⟩
      cases he
      exact h
  · unfold messageOf
    split
    · exact absurd ‹_› h1
    · exact absurd ‹_› h3
    · rfl

end Sys2Proof.Machine
end

section
/-! PROOFS. What the part sends (R177, R182 to R187) and what an IDENTIFY answer installs (R1): layouts by byte and bit. -/

namespace Sys2Proof.Machine

/-! ## Frames, answers and codes -/

theorem State.reply_eq (s : State) (p : Port) (tag : Byte) (code : AnswerCode) : s.reply p tag code =
    if (s.path p).linkUp then
      { s with out := { s.out with links := s.out.links.set p (s.out.links.get p ++ [.frame 2 (s.port p).hold tag [BitVec.ofNat 8 code.num]]) } }
    else s := by
  simp only [State.reply, State.sendFrame, State.sendOn, be_one]
  rfl

theorem State.answer_eq (s : State) (p : Port) (tag : Byte) (echo : Nat) (code : AnswerCode) (result : List Byte) :
    s.answer p tag echo code result =
      if (s.path p).linkUp then
        { s with out := { s.out with links := s.out.links.set p (s.out.links.get p ++
          [.frame 4 (s.port p).hold tag ([BitVec.ofNat 8 code.num, BitVec.ofNat 8 echo] ++ result)]) } }
      else s := by
  simp only [State.answer, State.sendFrame, State.sendOn, be_one]
  rfl

theorem State.placeAnswer_eq (s : State) (echo : Nat) (code : AnswerCode) (result : List Byte) :
    s.placeAnswer echo code result = { s with mailbox := { s.mailbox with
      request := none
      answerReady := true
      answer := [BitVec.ofNat 8 code.num, BitVec.ofNat 8 echo, BitVec.ofNat 8 result.length] ++ result } } := by
  simp only [State.placeAnswer, be_one]
  rfl

/-- The header of a frame by byte and bit (R177). -/
theorem frameBytes_layout {cls : Nat} (hold : Bool) (tag : Byte) {body : List Byte} (hc : cls < 8) (hb : body.length < 65536) :
    ∃ head hi lo : Byte, (LinkOut.frame cls hold tag body).frameBytes = some ([head, tag, hi, lo] ++ body)
      ∧ head.toNat % 8 = cls ∧ (∀ i ∈ [3, 4, 5, 6], head.getLsbD i = false) ∧ head.getLsbD 7 = hold
      ∧ 256 * hi.toNat + lo.toNat = body.length := by
  refine ⟨BitVec.ofNat 8 (cls + bit hold 7), BitVec.ofNat 8 (body.length >>> 8), BitVec.ofNat 8 body.length, ?_, ?_⟩
  · simp [LinkOut.frameBytes, frameHeader, be]
  · have hlen : 256 * (BitVec.ofNat 8 (body.length >>> 8)).toNat + (BitVec.ofNat 8 body.length).toNat = body.length := by
      simp only [BitVec.toNat_ofNat, Nat.shiftRight_eq_div_pow, Nat.reducePow]
      omega
    have hhead : ∀ c : Fin 8, ∀ h : Bool, (BitVec.ofNat 8 (c + bit h 7)).toNat % 8 = c
        ∧ (∀ i ∈ [3, 4, 5, 6], (BitVec.ofNat 8 (c + bit h 7)).getLsbD i = false) ∧ (BitVec.ofNat 8 (c + bit h 7)).getLsbD 7 = h := by
      decide
    obtain ⟨h1, h2, h3⟩ := hhead ⟨cls, hc⟩ hold
    exact ⟨h1, h2, h3, hlen⟩

/-! ## The carried holding record (R185) -/

theorem holdingBytes_length (h : Holding) (u : Bool) : (holdingBytes h u).length = 26 := by simp [holdingBytes]

/-- Byte 22 of a carried record: the owner's and the receiver's port bit. -/
def Holding.portBits (h : Holding) : Nat := bit (h.tenure.anyOwner = .B) 0 + bit (h.tenure.receiver = some .B) 1

/-- Byte 23 of a carried record: what is present, and the flags. -/
def Holding.flagBits (h : Holding) (u : Bool) : Nat :=
  bit h.tenure.owner.isSome 0 + bit h.tenure.lastOwner.isSome 1 + bit h.tenure.receiver.isSome 2 + bit u 3
    + bit (h.access = .writeGuard) 4 + bit (h.heir = .partner) 5

theorem holdingBytes_eq (h : Holding) (u : Bool) : holdingBytes h u = be 2 h.id ++ (be 1 h.ns ++ (be 1 h.tenure.num ++ (be 6 h.start ++
    (be 6 h.length ++ (be 6 h.gen ++ (be 1 h.portBits ++ (be 1 (h.flagBits u) ++ (be 1 h.rank ++ be 1 0)))))))) := by
  simp [holdingBytes, Holding.portBits, Holding.flagBits]

/-- Two flags in the lowest bits of a byte. -/
theorem two_bits (a b : Bool) : (BitVec.ofNat 8 (bit a 0 + bit b 1)).getLsbD 0 = a ∧ (BitVec.ofNat 8 (bit a 0 + bit b 1)).getLsbD 1 = b
    ∧ ∀ j, 2 ≤ j → (BitVec.ofNat 8 (bit a 0 + bit b 1)).getLsbD j = false := by
  refine ⟨by cases a <;> cases b <;> rfl, by cases a <;> cases b <;> rfl, fun j hj => ?_⟩
  have hlt : bit a 0 + bit b 1 < 2 ^ j := lt_of_lt_of_le (by cases a <;> cases b <;> decide) (Nat.pow_le_pow_right (by omega) hj)
  simp [BitVec.getLsbD_ofNat, Nat.testBit_lt_two_pow hlt]

/-- Six flags in the lowest bits of a byte. -/
theorem six_bits : ∀ a b c d e f : Bool,
    let x := BitVec.ofNat 8 (bit a 0 + bit b 1 + bit c 2 + bit d 3 + bit e 4 + bit f 5)
    x.getLsbD 0 = a ∧ x.getLsbD 1 = b ∧ x.getLsbD 2 = c ∧ x.getLsbD 3 = d ∧ x.getLsbD 4 = e ∧ x.getLsbD 5 = f
      ∧ x.getLsbD 6 = false ∧ x.getLsbD 7 = false := by decide

theorem ofNat_mod_byte (n : Nat) : BitVec.ofNat 8 (n % 256 ^ 1) = BitVec.ofNat 8 n := by
  apply BitVec.eq_of_toNat_eq
  simp

theorem holdingBytes_portByte (h : Holding) (u : Bool) : BitVec.ofNat 8 (field (holdingBytes h u) 22 1) = BitVec.ofNat 8 h.portBits := by
  rw [← ofNat_mod_byte h.portBits]
  simp [holdingBytes_eq, field_be_skip, field_be_append]

theorem holdingBytes_flagByte (h : Holding) (u : Bool) :
    BitVec.ofNat 8 (field (holdingBytes h u) 23 1) = BitVec.ofNat 8 (h.flagBits u) := by
  rw [← ofNat_mod_byte (h.flagBits u)]
  simp [holdingBytes_eq, field_be_skip, field_be_append]

theorem Tenure.anyOwner_of {t : Tenure} {p : Port} (h : t.owner = some p ∨ t.lastOwner = some p) : t.anyOwner = p := by
  cases t <;> simpa [Tenure.owner, Tenure.lastOwner, Tenure.anyOwner] using h

theorem holdingBytes_fields (h : Holding) (u : Bool) : ∀ x ∈ [(0, 2, h.id), (2, 1, h.ns), (3, 1, h.tenure.num), (4, 6, h.start),
    (10, 6, h.length), (16, 6, h.gen), (24, 1, h.rank), (25, 1, 0)], field (holdingBytes h u) x.1 x.2.1 = x.2.2 % 256 ^ x.2.1 := by
  simp [holdingBytes_eq, field_be_skip, field_be_append, field_be]

theorem port_eq_B (p : Port) : decide (p = .B) = (p == .B) := by cases p <;> rfl

theorem detailBytes_layout (d : Detail) : (detailBytes d).length = 3 ∧ field (detailBytes d) 1 2 = min d.value 65535
    ∧ field (detailBytes d) 0 1 = (match d.port with
      | none => 0
      | some .A => 1
      | some .B => 2) := by
  have hlt : min d.value 65535 < 256 ^ 2 := by
    simp only [Nat.reducePow]
    omega
  refine ⟨by simp [detailBytes], ?_, ?_⟩
  · rw [detailBytes, field_be_skip _ _ _ (by omega), field_be_of_lt hlt]
  · rw [detailBytes, field_be_append]
    obtain ⟨port, value⟩ := d
    rcases port with _ | p
    · rfl
    · cases p <;> rfl

theorem NoticeKind.num_eq_iff {k : NoticeKind} {v : Nat} : k.num = v ↔ (v, k) ∈ [(1, NoticeKind.partnerLost), (2, .partnerSuspect),
    (3, .partnerBack), (4, .takeoverDone), (5, .orphans), (6, .unresolvedCleared), (7, .rejoinWaiting), (8, .contention), (9, .received),
    (10, .driveSilent)] := by
  cases k <;> simp [NoticeKind.num, eq_comm]

theorem noticeKindOf_num (k : NoticeKind) : noticeKindOf k.num = some k := by cases k <;> rfl

theorem noticeKindOf_eq_some_iff {k : NoticeKind} {v : Nat} : noticeKindOf v = some k ↔ k.num = v := by
  constructor
  · intro h
    unfold noticeKindOf at h
    split at h <;> cases h <;> rfl
  · rintro rfl
    exact noticeKindOf_num k

theorem portOf_eq_some_iff {v : Nat} {p : Port} : portOf v = some p ↔ (v = 1 ∧ p = .A) ∨ (v = 2 ∧ p = .B) := by
  unfold portOf
  split <;> simp_all [eq_comm]

theorem accessOf_eq_some_iff {v : Nat} {a : Access} : accessOf v = some a ↔ (v = 1 ∧ a = .exclusive) ∨ (v = 2 ∧ a = .writeGuard) := by
  unfold accessOf
  split <;> simp_all [eq_comm]

theorem heirOf_eq_some_iff {v : Nat} {h : Heir} : heirOf v = some h ↔ (v = 1 ∧ h = .partner) ∨ (v = 2 ∧ h = .none) := by
  unfold heirOf
  split <;> simp_all [eq_comm]

theorem rankOf_eq_some_iff {v r : Nat} : rankOf v = some r ↔ r = v ∧ 1 ≤ v ∧ v ≤ 15 := by
  unfold rankOf
  split
  · simp only [Option.some.injEq]
    omega
  · simp only [reduceCtorEq, false_iff]
    omega

/-- Settles O8. -/
theorem answersAndReplies : Obligations.AnswersAndReplies := by
  refine ⟨fun s p tag code echo result => ⟨s.reply_eq p tag code, s.answer_eq p tag echo code result, s.placeAnswer_eq echo code result⟩,
    fun cls hold tag body hc hb => frameBytes_layout hold tag hc hb, fun h u => ?_, detailBytes_layout, fun c => by cases c <;> rfl,
    fun k v => ⟨NoticeKind.num_eq_iff, noticeKindOf_eq_some_iff⟩, fun c => by cases c <;> rfl, fun x => by cases x <;> rfl,
    fun v => ⟨fun p => portOf_eq_some_iff, fun a => accessOf_eq_some_iff, fun h => heirOf_eq_some_iff, fun r => rankOf_eq_some_iff⟩⟩
  simp only [holdingBytes_portByte, holdingBytes_flagByte]
  obtain ⟨hp0, hp1, hp2⟩ := two_bits (h.tenure.anyOwner = .B) (h.tenure.receiver = some .B)
  obtain ⟨hf0, hf1, hf2, hf3, hf4, hf5, hf6, hf7⟩ := six_bits h.tenure.owner.isSome h.tenure.lastOwner.isSome h.tenure.receiver.isSome u
    (h.access = .writeGuard) (h.heir = .partner)
  refine ⟨holdingBytes_length h u, ?_, fun p hp => ?_, ?_, hp2, hf0, hf1, hf2, hf3, ?_, ?_, hf6, hf7⟩
  · exact holdingBytes_fields h u
  · rw [← port_eq_B, ← Tenure.anyOwner_of hp]
    exact hp0
  · refine hp1.trans ?_
    rcases h.tenure.receiver with _ | p
    · rfl
    · cases p <;> rfl
  · exact hf4.trans (by cases h.access <;> rfl)
  · exact hf5.trans (by cases h.heir <;> rfl)

/-! ## What an IDENTIFY answer installs (R1) -/

theorem entryQualifies_iff {e : IdentifyEntry} : entryQualifies e = true ↔
    e.id ≤ 7 ∧ 1 ≤ e.size ∧ e.size ≤ 2 ^ 48 - 1 ∧ (e.blockSize = 512 ∨ e.blockSize = 4096) := by
  simp only [entryQualifies, Bool.and_eq_true, Bool.or_eq_true, decide_eq_true_eq]
  constructor <;> intro h <;> omega

theorem mem_installFrom {seen : List Nat} {entries : List IdentifyEntry} {n : Namespace} : n ∈ installFrom seen entries ↔
    ∃ before e after, entries = before ++ e :: after ∧ n = { id := e.id, size := e.size, blockSize := e.blockSize }
      ∧ entryQualifies e = true ∧ e.id ∉ seen ∧ ∀ x ∈ before, x.id ≠ e.id := by
  induction entries generalizing seen with
  | nil => simp [installFrom]
  | cons y ys ih =>
    simp only [installFrom, List.mem_append, ih]
    constructor
    · rintro (hy | ⟨before, e, after, rfl, hn, hq, hs, hb⟩)
      · split at hy
        · next hc =>
          obtain ⟨hq, hs⟩ : entryQualifies y = true ∧ y.id ∉ seen := by simpa using hc
          exact ⟨[], y, ys, rfl, by simpa using hy, hq, hs, by simp⟩
        · cases hy
      · simp only [List.mem_cons, not_or] at hs
        refine ⟨y :: before, e, after, rfl, hn, hq, hs.2, fun x hx => ?_⟩
        obtain rfl | hx := List.mem_cons.1 hx
        exacts [Ne.symm hs.1, hb x hx]
    · rintro ⟨before, e, after, he, hn, hq, hs, hb⟩
      cases before with
      | nil =>
        cases he
        exact .inl (by simp [hq, hs, hn])
      | cons x xs =>
        cases he
        refine .inr ⟨xs, e, after, rfl, hn, hq, ?_, fun x hx => hb x (List.mem_cons_of_mem _ hx)⟩
        simp only [List.mem_cons, not_or]
        exact ⟨Ne.symm (hb y List.mem_cons_self), hs⟩

theorem installFrom_nodup (entries : List IdentifyEntry) : ∀ seen : List Nat, ((installFrom seen entries).map (·.id)).Nodup := by
  induction entries with
  | nil => exact fun _ => List.nodup_nil
  | cons y ys ih =>
    intro seen
    simp only [installFrom]
    split
    · rw [List.singleton_append, List.map_cons, List.nodup_cons]
      refine ⟨fun hy => ?_, ih _⟩
      obtain ⟨n, hn, hid⟩ := List.mem_map.1 hy
      obtain ⟨before, e, after, -, rfl, -, hs, -⟩ := mem_installFrom.1 hn
      exact hs (by simp only at hid; simp [hid])
    · exact ih _

/-- Settles O12. -/
theorem installedNamespaces : Obligations.InstalledNamespaces := by
  intro entries
  have hmem (n : Namespace) : n ∈ installed entries ↔ ∃ before e after, entries = before ++ e :: after
      ∧ n = { id := e.id, size := e.size, blockSize := e.blockSize } ∧ e.id ≤ 7 ∧ 1 ≤ e.size ∧ e.size ≤ 2 ^ 48 - 1
      ∧ (e.blockSize = 512 ∨ e.blockSize = 4096) ∧ ∀ x ∈ before, x.id ≠ e.id := by
    simp only [installed, mem_installFrom, entryQualifies_iff, List.not_mem_nil, not_false_eq_true, true_and, and_assoc]
  have hnodup : ((installed entries).map (·.id)).Nodup := installFrom_nodup entries []
  refine ⟨hmem, hnodup, ?_⟩
  have hsub : (installed entries).map (·.id) ⊆ List.range 8 := fun i hi => by
    obtain ⟨n, hn, rfl⟩ := List.mem_map.1 hi
    obtain ⟨_, e, _, -, rfl, hid, -⟩ := (hmem n).1 hn
    exact List.mem_range.2 (by simp only; omega)
  simpa using (hnodup.subperm hsub).length_le

end Sys2Proof.Machine
end

section
/-! PROOFS. STATUS (R96, R186, R190): the sections and the takeover record, field by field. -/

namespace Sys2Proof.Machine

/-! ## Lengths -/

theorem State.partSection_length (s : State) : s.partSection.length = 24 := by simp [State.partSection, stampBytes]

theorem windowBytes_length (w : Option Window) : (windowBytes w).length = 10 := by cases w <;> simp [windowBytes, stampBytes]

theorem lastBeaconBytes_length (b : Option LastBeacon) : (lastBeaconBytes b).length = 7 := by cases b <;> simp [lastBeaconBytes, stampBytes]

theorem pathSection_length (x : Path) : (pathSection x).length = 27 := by
  simp [pathSection, windowBytes_length, lastBeaconBytes_length]

theorem State.namespaceBytes_length (s : State) (id : Nat) : (s.namespaceBytes id).length = 9 := by
  unfold State.namespaceBytes
  cases s.namespaceById id <;> simp

theorem State.fullStatus_length (s : State) : s.fullStatus.length = 150 := by
  simp [State.fullStatus, State.partSection_length, pathSection_length, State.namespaceBytes_length]

/-! ## Fields of composite bytes -/

/-- Zeros spell 0. -/
theorem beNat_replicate_zero (n : Nat) : beNat (List.replicate n 0) = 0 := by
  rw [← be_zero_value, beNat_be, Nat.zero_mod]

theorem field_be_zero (m i n : Nat) : field (be m 0) i n = 0 := by
  rw [be_zero_value, field, List.drop_replicate, List.take_replicate, beNat_replicate_zero]

theorem Window.stop_toNat (w : Window) : w.stop.toNat % 256 ^ 4 = (w.start.toNat + w.width) % 256 ^ 4 := by
  simp only [Window.stop, BitVec.toNat_add, BitVec.toNat_ofNat, Nat.reducePow]
  omega

/-- Window start, window end and window W; zero when absent. -/
theorem windowBytes_fields (w : Option Window) :
    field (windowBytes w) 0 4 = (w.map fun w => w.start.toNat).getD 0 % 256 ^ 4
      ∧ field (windowBytes w) 4 4 = (w.map fun w => w.start.toNat + w.width).getD 0 % 256 ^ 4
      ∧ field (windowBytes w) 8 2 = (w.map fun w => w.width).getD 0 % 256 ^ 2 := by
  cases w with
  | none => simp [windowBytes, field_be_zero]
  | some w =>
    have hstop := w.stop_toNat
    have heq : windowBytes (some w) = be 4 w.start.toNat ++ (be 4 w.stop.toNat ++ be 2 w.width) := by simp [windowBytes, stampBytes]
    rw [heq]
    refine ⟨field_be_append .., ?_, ?_⟩
    · rw [field_be_skip _ _ _ (by omega), field_be_append, hstop]
      rfl
    · rw [field_be_skip _ _ _ (by omega), field_be_skip _ _ _ (by omega), field_be]
      rfl

/-- The last beacon; zero when absent. -/
theorem lastBeaconBytes_fields (b : Option LastBeacon) :
    field (lastBeaconBytes b) 0 2 = (b.map fun b => b.seq.toNat).getD 0 % 256 ^ 2
      ∧ field (lastBeaconBytes b) 2 1 = (b.map fun b => if b.view = .up then 1 else 2).getD 0 % 256 ^ 1
      ∧ field (lastBeaconBytes b) 3 4 = (b.map fun b => b.stamp.toNat).getD 0 % 256 ^ 4 := by
  cases b with
  | none => simp [lastBeaconBytes, field_be_zero]
  | some b =>
    have heq : lastBeaconBytes (some b) = be 2 b.seq.toNat ++ (be 1 b.view.num ++ be 4 b.stamp.toNat) := by
      simp [lastBeaconBytes, stampBytes]
    rw [heq]
    refine ⟨field_be_append .., ?_, ?_⟩
    · rw [field_be_skip _ _ _ (by omega), field_be_append]
      obtain ⟨seq, view, stamp⟩ := b
      cases view <;> rfl
    · rw [field_be_skip _ _ _ (by omega), field_be_skip _ _ _ (by omega), field_be]
      rfl

/-! ## The sections -/

theorem bit_eq (b : Bool) (i : Nat) : bit b i = if b then 2 ^ i else 0 := rfl

theorem Stage.isWaiting_eq (x : Stage) : x.isWaiting = decide (x = .waiting) := by cases x <;> rfl

theorem Stage.slot_isSome_eq (x : Stage) : x.slot.isSome = decide (x ≠ .waiting) := by cases x <;> rfl

theorem State.partSection_eq (s : State) : s.partSection = be 1 s.part.state.num ++ (be 4 s.clock.ms.toNat ++ (be 2 s.table.holdings.length ++
    (be 6 (s.table.gen.getD 0) ++ (be 1 s.settings.quotas.a ++ (be 1 s.settings.quotas.b ++ (be 1 (s.portCount .A) ++ (be 1 (s.portCount .B) ++
    (be 1 (s.entriesWith fun e => e.stage.isWaiting) ++ (be 1 (s.entriesWith fun e => e.stage.isSubmitted) ++
    (be 1 (s.entriesWith fun e => e.stage.isAborting) ++ (be 1 (s.entriesWith fun e => e.stage.isAbandoned) ++
    (be 1 (s.entriesWith fun e => e.stage.slot.isSome) ++ (be 1 s.media.abortList.length ++ be 1 0))))))))))))) := by
  simp [State.partSection, stampBytes, Pair.get]

/-- The flags of a path section: window, last beacon, and the keys present. -/
def Path.flagBits (x : Path) : Nat := bit x.window.isSome 0 + bit x.last.isSome 1 + bit x.rejoinKey 2 + bit x.readmitKey.isSome 3

theorem pathSection_eq (x : Path) : pathSection x = be 1 x.state.num ++ (be 1 (bit x.linkUp 0) ++ (be 1 (match x.cause with
      | none => 0
      | some c => c.num) ++ (be 2 x.w ++ (be 1 x.m ++ (be 1 x.flagBits ++ (be 1 (match x.readmitKey with
      | none => 0
      | some c => clientNum c) ++ (windowBytes x.window ++ (be 1 x.seen.num ++ (be 1 x.miss ++ lastBeaconBytes x.last))))))))) := by
  simp only [pathSection, Path.flagBits, List.append_assoc]
    <;> rfl

theorem Option.isSome_bit {α : Type} (x : Option α) (i : Nat) [Decidable (x = none)] : bit x.isSome i = if x = none then 0 else 2 ^ i := by
  cases x <;> simp [bit]

theorem State.partSection_fields (s : State) : ∀ x ∈ [(0, 1, s.part.state.num), (1, 4, s.clock.ms.toNat), (5, 2, s.table.holdings.length),
    (7, 6, s.table.gen.getD 0), (13, 1, s.settings.quotas.a), (14, 1, s.settings.quotas.b), (15, 1, s.portCount .A), (16, 1, s.portCount .B),
    (17, 1, s.entriesWith fun e => e.stage.isWaiting), (18, 1, s.entriesWith fun e => e.stage.isSubmitted),
    (19, 1, s.entriesWith fun e => e.stage.isAborting), (20, 1, s.entriesWith fun e => e.stage.isAbandoned),
    (21, 1, s.entriesWith fun e => e.stage.slot.isSome), (22, 1, s.media.abortList.length), (23, 1, 0)],
    field s.partSection x.1 x.2.1 = x.2.2 % 256 ^ x.2.1 := by
  simp [State.partSection_eq, field_be_skip, field_be_append, field_be]

theorem Path.flagBits_eq (x : Path) : x.flagBits = (if x.window = none then 0 else 1) + (if x.last = none then 0 else 2)
    + (if x.rejoinKey then 4 else 0) + (if x.readmitKey = none then 0 else 8) := by
  simp only [Path.flagBits, Option.isSome_bit, bit_eq x.rejoinKey, Nat.reducePow, pow_zero]

theorem pathSection_fields (x : Path) : ∀ y ∈ [(0, 1, x.state.num), (1, 1, if x.linkUp then 1 else 0),
    (2, 1, match x.cause with
      | none => 0
      | some c => c.num), (3, 2, x.w), (5, 1, x.m), (6, 1, x.flagBits), (7, 1, match x.readmitKey with
      | none => 0
      | some c => clientNum c), (8, 4, (x.window.map fun w => w.start.toNat).getD 0),
    (12, 4, (x.window.map fun w => w.start.toNat + w.width).getD 0), (16, 2, (x.window.map fun w => w.width).getD 0),
    (18, 1, x.seen.num), (19, 1, x.miss), (20, 2, (x.last.map fun b => b.seq.toNat).getD 0),
    (22, 1, (x.last.map fun b => if b.view = .up then 1 else 2).getD 0), (23, 4, (x.last.map fun b => b.stamp.toNat).getD 0)],
    field (pathSection x) y.1 y.2.1 = y.2.2 % 256 ^ y.2.1 := by
  obtain ⟨hw1, hw2, hw3⟩ := windowBytes_fields x.window
  obtain ⟨hb1, hb2, hb3⟩ := lastBeaconBytes_fields x.last
  have hwin {i n : Nat} (rest : List Byte) (h : i + n ≤ 10) : field (windowBytes x.window ++ rest) i n = field (windowBytes x.window) i n :=
    field_append_left rest (by rw [windowBytes_length]; exact h)
  have hrest {i n : Nat} (rest : List Byte) (h : 10 ≤ i) : field (windowBytes x.window ++ rest) i n = field rest (i - 10) n := by
    rw [field_append_of_le n (by rw [windowBytes_length]; exact h), windowBytes_length]
  simp only [List.forall_mem_cons, List.not_mem_nil, IsEmpty.forall_iff, implies_true, and_true]
  rw [pathSection_eq]
  simp only [field_be_skip, field_be_append, hwin, hrest, hw1, hw2, hw3, hb1, hb2, hb3, bit_eq, pow_zero, Nat.reduceLeDiff, Nat.reduceAdd,
    Nat.reduceSub, le_refl, and_self]

/-- One namespace id of sections 3 and 4. -/
theorem State.namespaceBytes_fields (s : State) (id : Nat) :
    field (s.namespaceBytes id) 0 1 = ((s.namespaceById id).map fun n => n.id + 128).getD 0 % 256 ^ 1
      ∧ field (s.namespaceBytes id) 1 6 = ((s.namespaceById id).map fun n => n.size).getD 0 % 256 ^ 6
      ∧ field (s.namespaceBytes id) 7 1 = ((s.namespaceById id).map fun n => if n.blockSize = 512 then 1 else 2).getD 0 % 256 ^ 1
      ∧ field (s.namespaceBytes id) 8 1 = (s.policy id).num % 256 ^ 1 := by
  unfold State.namespaceBytes
  cases s.namespaceById id with
  | none =>
    have hzero {i n : Nat} (rest : List Byte) (h : i + n ≤ 8) : field (be 8 0 ++ rest) i n = 0 := by
      rw [field_append_left rest (by simpa using h), field_be_zero]
    simp [hzero, field_be_skip, field_be]
  | some n => simp [field_be_skip, field_be_append, field_be, add_comm]

/-- A field of the `j`-th of four parts of nine bytes. -/
theorem field_four {f : Nat → List Byte} (hf : ∀ i, (f i).length = 9) {j i n : Nat} (hj : j < 4) (hi : i + n ≤ 9) :
    field (f 0 ++ f 1 ++ f 2 ++ f 3) (9 * j + i) n = field (f j) i n := by
  have hskip {k : Nat} (rest : List Byte) {m : Nat} (h : 9 ≤ m) : field (f k ++ rest) m n = field rest (m - 9) n := by
    rw [field_append_of_le n (by rw [hf]; exact h), hf]
  have hhere {k : Nat} (rest : List Byte) : field (f k ++ rest) i n = field (f k) i n := field_append_left rest (by rw [hf]; exact hi)
  simp only [List.append_assoc]
  have hcases : j = 0 ∨ j = 1 ∨ j = 2 ∨ j = 3 := by omega
  rcases hcases with rfl | rfl | rfl | rfl
  · rw [show 9 * 0 + i = i by omega, hhere]
  · rw [hskip _ (by omega), show 9 * 1 + i - 9 = i by omega, hhere]
  · rw [hskip _ (by omega), hskip _ (by omega), show 9 * 2 + i - 9 - 9 = i by omega, hhere]
  · rw [hskip _ (by omega), hskip _ (by omega), hskip _ (by omega), show 9 * 3 + i - 9 - 9 - 9 = i by omega]

theorem State.statusSection_namespaces (s : State) {id : Nat} (h : id < 8) : s.statusSection (3 + id / 4) =
    some (s.namespaceBytes (4 * (id / 4) + 0) ++ s.namespaceBytes (4 * (id / 4) + 1) ++ s.namespaceBytes (4 * (id / 4) + 2)
      ++ s.namespaceBytes (4 * (id / 4) + 3)) := by
  have hcases : id / 4 = 0 ∨ id / 4 = 1 := by omega
  rcases hcases with hk | hk <;> rw [hk] <;> rfl

/-! ## The takeover record -/

theorem optStampBytes_eq (x : Option Stamp) : optStampBytes x = be 4 ((x.map (·.toNat)).getD 0) := by cases x <;> rfl

/-- The flags of a takeover record: the record itself and the stamps present. -/
def Takeover.flagBits (t : Takeover) : Nat := bit true 0 + bit t.lostAt.isSome 1 + bit t.drainBegan.isSome 2 + bit t.fencedAt.isSome 3

theorem Takeover.flagBits_eq (t : Takeover) : t.flagBits = 1 + (if t.lostAt = none then 0 else 2) + (if t.drainBegan = none then 0 else 4)
    + (if t.fencedAt = none then 0 else 8) := by
  simp only [Takeover.flagBits, Option.isSome_bit, bit_eq true, if_true, Nat.reducePow, pow_zero]

theorem takeoverBytes_eq (t : Takeover) : takeoverBytes (some t) = be 1 t.flagBits ++ (be 1 t.cause.num ++ (be 1 (match t.survivor with
      | none => 0
      | some p => portNum p) ++ (be 4 ((t.lostAt.map (·.toNat)).getD 0) ++ (be 4 ((t.drainBegan.map (·.toNat)).getD 0) ++
    (be 4 ((t.fencedAt.map (·.toNat)).getD 0) ++ (be 1 t.withdrawn ++ (be 1 t.completed ++ (be 1 t.aborted ++ (be 1 t.abandoned ++
    (be 1 t.answeredLate ++ (be 2 t.transferred ++ be 2 t.orphaned))))))))))) := by
  simp only [takeoverBytes, Takeover.flagBits, optStampBytes_eq, List.append_assoc]
    <;> rfl

theorem takeoverBytes_fields (t : Takeover) : ∀ x ∈ [(0, 1, t.flagBits), (1, 1, t.cause.num), (2, 1, match t.survivor with
      | none => 0
      | some p => portNum p), (3, 4, (t.lostAt.map (·.toNat)).getD 0), (7, 4, (t.drainBegan.map (·.toNat)).getD 0),
    (11, 4, (t.fencedAt.map (·.toNat)).getD 0), (15, 1, t.withdrawn), (16, 1, t.completed), (17, 1, t.aborted), (18, 1, t.abandoned),
    (19, 1, t.answeredLate), (20, 2, t.transferred), (22, 2, t.orphaned)],
    field (takeoverBytes (some t)) x.1 x.2.1 = x.2.2 % 256 ^ x.2.1 := by
  simp only [List.forall_mem_cons, List.not_mem_nil, IsEmpty.forall_iff, implies_true, and_true]
  rw [takeoverBytes_eq]
  simp only [field_be_skip, field_be_append, field_be, Nat.reduceLeDiff, Nat.reduceSub, le_refl, and_self]

/-! ## The answers -/

theorem State.refusal_status (s : State) (c : Client) (sect : Option Nat) : s.refusal c (.status sect) = none := by
  cases c <;> simp [State.refusal, needsReady, requestGate]

theorem exec_status {s : State} {c : Client} {tag : Byte} {sect : Option Nat} (h : s.front c = some (tag, .status sect)) :
    exec (.status c) s = .next (State.statusAnswer c tag sect (s.takeFront c)) := by
  have hi : commandFor c (.status sect) = some (.status c) := by cases c <;> rfl
  rw [exec_of_takes hi ⟨h, s.refusal_status c sect⟩ rfl]
  cases c <;> rfl

theorem State.takeHead_fullStatus (s : State) (p : Port) : (s.takeHead p).fullStatus = s.fullStatus := by
  simp [State.fullStatus, State.partSection, State.portCount, State.entriesWith, State.namespaceBytes, State.namespaceById, State.policy,
    State.path]

theorem State.statusSection_eq_none {s : State} {k : Nat} (h : 4 < k) : s.statusSection k = none := by
  unfold State.statusSection
  split <;> first | omega | rfl

/-- A field whose value stands under another name. -/
theorem field_value {bytes : List Byte} {i n v w : Nat} (h : field bytes i n = v % 256 ^ n) (e : v = w) : field bytes i n = w % 256 ^ n :=
  e ▸ h

/-- Settles O18. -/
theorem statusAnswers : Obligations.StatusAnswers := by
  refine ⟨fun s tag sect => ⟨fun p h => ⟨exec_status h, s.takeHead_fullStatus p⟩, fun k bytes h hb => ?_, fun k h hk => ?_, ?_, ?_,
    s.fullStatus_length⟩, fun s bytes hb => ?_, fun s p bytes hb => ?_, fun s id bytes hid hb => ?_, rfl, fun t => ⟨?_, ?_⟩⟩
  · rw [exec_status h]
    simp only [State.statusAnswer, State.takeFront, Option.bind_some, hb]
  · rw [exec_status h]
    simp only [State.statusAnswer, State.takeFront, Option.bind_some, State.statusSection_eq_none hk]
  · simp [List.range, List.range.loop, State.statusSection, State.partSection_length, pathSection_length, State.namespaceBytes_length]
  · simp [List.range, List.range.loop, State.statusSection, State.fullStatus]
  · obtain rfl : s.partSection = bytes := Option.some.inj hb
    have h := s.partSection_fields
    simp only [State.entriesWith, Stage.isWaiting_eq, Stage.slot_isSome_eq] at h
    exact h
  · obtain rfl : pathSection (s.path p) = bytes := by
      cases p
      exacts [Option.some.inj hb, Option.some.inj hb]
    have h := pathSection_fields (s.path p)
    simp only [List.forall_mem_cons, List.not_mem_nil, IsEmpty.forall_iff, implies_true, and_true] at h ⊢
    obtain ⟨h0, h1, h2, h3, h4, h5, h6, h7, h8, h9, h10, h11, h12, h13, h14⟩ := h
    refine ⟨h0, h1, field_value h2 ?_, h3, h4, field_value h5 (Path.flagBits_eq _), field_value h6 ?_, h7, h8, h9, h10, h11, h12, h13, h14⟩
    · rcases (s.path p).cause with _ | c
      · rfl
      · cases c <;> rfl
    · rcases (s.path p).readmitKey with _ | c
      · rfl
      · rcases c with q | _
        · cases q <;> rfl
        · rfl
  · obtain rfl := Option.some.inj ((s.statusSection_namespaces hid).symm.trans hb)
    have hj : id % 4 < 4 := by omega
    have hf := fun i : Nat => s.namespaceBytes_length (4 * (id / 4) + i)
    have hid' : 4 * (id / 4) + id % 4 = id := by omega
    obtain ⟨h0, h1, h2, h3⟩ := s.namespaceBytes_fields id
    rw [← hid'] at h0 h1 h2 h3
    simp only [List.forall_mem_cons, List.not_mem_nil, IsEmpty.forall_iff, implies_true, and_true]
    refine ⟨(field_four (i := 0) hf hj (by omega)).trans (h0.trans ?_), (field_four hf hj (by omega)).trans (h1.trans ?_),
      (field_four hf hj (by omega)).trans (h2.trans ?_), (field_four hf hj (by omega)).trans (h3.trans ?_)⟩ <;> rw [hid']
    rfl
  · simp [takeoverBytes_eq]
  · have h := takeoverBytes_fields t
    simp only [List.forall_mem_cons, List.not_mem_nil, IsEmpty.forall_iff, implies_true, and_true] at h ⊢
    obtain ⟨h0, h1, h2, h⟩ := h
    refine ⟨field_value h0 (Takeover.flagBits_eq t), h1, field_value h2 ?_, h⟩
    rcases t.survivor with _ | p
    · rfl
    · cases p <;> rfl

end Sys2Proof.Machine
end

section
/-! PROOFS. Start-up and the resets (chapter 11), arrival and beacons (chapters 5 and 10), and the link reports. -/

namespace Sys2Proof.Machine

/-! ## Start-up (R1, R90, R192) -/

theorem State.countAttempt_eq (s : State) : s.countAttempt =
    if s.part.attempts < 9 then { s with part := { s.part with attempts := s.part.attempts + 1 } }
    else { s with part := { s.part with attempts := s.part.attempts + 1 } }.raise .driveSilent
      { port := none, value := min (s.part.attempts + 1) 65535 } [] := by
  simp only [State.countAttempt]
  split
  · next h => rw [if_neg (by omega)]; rfl
  · next h => rw [if_pos (by omega)]; rfl

theorem State.freeSlots_eq (s : State) : s.freeSlots = { s with
    flight := { s.flight with entries := s.flight.entries.filter fun e => e.stage.slot = none }
    media := { s.media with abortList := [] } } := by
  have hslot : (fun e : Entry => e.stage.slot.isNone) = fun e => decide (e.stage.slot = none) := by
    funext e
    cases e.stage.slot <;> rfl
  rw [State.freeSlots, hslot]
  rfl

/-- Settles O13. -/
theorem startUp : Obligations.StartUp := by
  refine fun s => ⟨fun entries hs hi => ?_, fun entries hs hi => ?_, fun entries hs => ?_, fun hs ht => ?_⟩
  · obtain ⟨n, ns, hn⟩ := List.exists_cons_of_ne_nil hi
    change execIdentifyAnswer entries s = _
    simp only [execIdentifyAnswer, hs, hn, if_true, State.freeSlots_eq]
    rfl
  · change execIdentifyAnswer entries s = _
    simp only [execIdentifyAnswer, hs, hi, if_true, State.freeSlots_eq, State.countAttempt_eq]
  · change execIdentifyAnswer entries s = _
    simp only [execIdentifyAnswer, hs, if_false]
  · change execIdentifyRetryExpiry s = _
    simp only [execIdentifyRetryExpiry, hs, ht, if_true, State.countAttempt_eq]
    rfl

/-! ## The end of the controller reset (R194) -/

/-- The reset answer is placed once RESETTING has ended, when the answer buffer is free. -/
theorem State.placeResetAnswer_eq {s : State} (h : s.part.state ≠ .resetting) : s.placeResetAnswer = { s with
    mailbox := if s.mailbox.resetAnswer = true ∧ s.mailbox.answerReady = false then
        { s.mailbox with answerReady := true, answer := [0, 24, 0], resetAnswer := false }
      else s.mailbox } := by
  unfold State.placeResetAnswer
  simp only [bne_iff_ne, ne_eq, h, not_false_eq_true, Bool.and_eq_true, Bool.not_eq_true', and_true]
  split <;> rfl

/-- Settles O15. -/
theorem controllerResetEnd : Obligations.ControllerResetEnd := by
  refine fun s hs => ⟨fun ht hc => ?_, fun hc hn => ?_, fun hc hn => ?_, fun ht => ?_⟩
  · change execResetAbortTimerExpiry s = _
    simp only [execResetAbortTimerExpiry, ht, hs, if_true, State.requestClear, State.withPart_media, hc]
    rfl
  · have hne : s.table.namespaces.isEmpty = false := by simpa using hn
    change execCleared s = _
    simp only [execCleared, hs, hc, decide_true, Bool.and_self, if_true, hne, Bool.false_eq_true, if_false]
    rw [State.placeResetAnswer_eq (by simp)]
    rfl
  · have he : s.table.namespaces.isEmpty = true := by simpa using hn
    change execCleared s = _
    simp only [execCleared, hs, hc, decide_true, Bool.and_self, if_true, he]
    rw [State.placeResetAnswer_eq (by simp [State.enterStarting])]
    rfl
  · change execClearedTimerExpiry s = _
    simp only [execClearedTimerExpiry, ht, hs, if_true]
    rw [State.placeResetAnswer_eq (by simp [State.enterStarting])]
    rfl

/-! ## Arrival (R53, R178, R179) -/

theorem Tenure.parked_bind_iff {t : Tenure} {p : Port} {tag : Byte} :
    (t.parked.bind fun x => if x.1 = p then some x.2 else none) = some tag ↔ t = .releasing p tag ∨ t = .handing p tag := by
  cases t <;> simp [Tenure.parked]

/-- The outstanding tags: in the intake, in the flight table, and of the parked answers. -/
theorem State.mem_outstanding {s : State} {p : Port} {tag : Byte} : tag ∈ s.outstanding p ↔ (∃ f ∈ (s.port p).intake, f.tag = tag)
    ∨ (∃ e ∈ s.flight.entries, e.port = p ∧ e.tag = tag) ∨ (∃ h ∈ s.table.holdings, h.tenure = .releasing p tag ∨ h.tenure = .handing p tag)
    ∨ (s.path p).parkedResign = some tag ∨ (s.path p).parkedRejoin = some tag := by
  simp only [State.outstanding, List.mem_append, List.mem_map, List.mem_filter, List.mem_filterMap, Tenure.parked_bind_iff, Option.mem_toList,
    decide_eq_true_eq, and_assoc, or_assoc]

theorem exec_frame {s : State} {p : Port} (head tag : Byte) (body : List Byte) (hl : (s.path p).linkUp = true) :
    exec (.frameArrival p (.frame head tag body)) s = .next (s.arrive p head tag body) := by
  change execFrameArrival p (.frame head tag body) s = _
  simp only [execFrameArrival, hl, if_true]

theorem State.arrive_of_refusal {s : State} {p : Port} {head tag : Byte} {body : List Byte} {c : AnswerCode} (h5 : classOf head ≠ 5)
    (hr : s.arrivalRefusal p head tag body = some c) : s.arrive p head tag body = s.answerArrival p head tag body c := by
  simp only [State.arrive, h5, hr, if_false]

theorem State.arrive_of_message {s : State} {p : Port} {head tag : Byte} {body : List Byte} {m : Message} (h5 : classOf head ≠ 5)
    (hr : s.arrivalRefusal p head tag body = none) (hm : messageOf head body = some m) : s.arrive p head tag body = s.enqueue p tag m := by
  simp only [State.arrive, h5, hr, hm, if_false]

theorem State.arrivalRefusal_eq (s : State) (p : Port) (head tag : Byte) (body : List Byte) : s.arrivalRefusal p head tag body =
    if tag ∈ s.outstanding p then some .tagInUse
    else if messageOf head body = none then some .malformed
    else if 16 ≤ (s.port p).intake.length then some .busy
    else none := by
  simp only [State.arrivalRefusal, Option.isNone_iff_eq_none]

/-- Settles O16. -/
theorem frameArrival : Obligations.FrameArrival := by
  intro p head tag body s hl
  dsimp only
  rw [← State.arrivalRefusal_eq]
  refine ⟨State.mem_outstanding, fun bytes => ?_, fun c h1 hc => ?_, fun c echo rest h1 h5 hc hb => ?_, fun c h1 h5 hc hb => ?_,
    fun m h5 hc hm => ?_⟩
  · change execFrameArrival p (.runt bytes) s = _
    simp only [execFrameArrival, hl, if_true]
  · rw [exec_frame head tag body hl, State.arrive_of_refusal (by omega) hc]
    simp only [State.answerArrival, h1, if_true]
  · subst hb
    rw [exec_frame _ _ _ hl, State.arrive_of_refusal h5 hc]
    simp only [State.answerArrival, h1, if_false, State.answer, be_one, BitVec.ofNat_toNat, BitVec.setWidth_eq, List.append_nil]
  · subst hb
    refine ⟨Config.freeByte s.free, ?_⟩
    rw [exec_frame _ _ _ hl, State.arrive_of_refusal h5 hc]
    have hl' : ((s.withFree (s.free + 1)).path p).linkUp = true := hl
    simp only [State.answerArrival, h1, if_false, State.sendFrame, State.sendOn, hl', if_true, be_one]
    rfl
  · rw [exec_frame _ _ _ hl, State.arrive_of_message h5 hc hm, State.enqueue, State.setIntake_eq]
    simp only [hl, and_true, List.length_append, List.length_singleton]
    rfl

/-! ## Beacons (R99, R100) -/

theorem exec_beacon {s : State} {p : Port} (seq : BitVec 16) (view : Byte) (hl : (s.path p).linkUp = true) :
    exec (.beacon p seq view) s = .next (s.takeBeacon p seq view) := by
  change execBeacon p seq view s = _
  simp only [execBeacon, hl, if_true]

/-- A BEACON body is read back. -/
theorem beacon_body (seq : BitVec 16) (view : Byte) : BitVec.ofNat 16 (field (be 2 seq.toNat ++ [view]) 0 2) = seq
    ∧ BitVec.ofNat 8 (field (be 2 seq.toNat ++ [view]) 2 1) = view := by
  constructor
  · rw [field_be_append_of_lt _ (by simpa using seq.isLt)]
    simp
  · rw [field_be_skip _ _ _ (le_refl 2), Nat.sub_self, field_head]
    simp

theorem viewOf_eq_none {view : Byte} (h : view ≠ 1 ∧ view ≠ 2) : viewOf view = none := by
  unfold viewOf
  split
  · next h1 => exact absurd (BitVec.eq_of_toNat_eq h1) h.1
  · next h2 => exact absurd (BitVec.eq_of_toNat_eq h2) h.2
  · rfl

theorem viewOf_num (v : PartnerView) : viewOf (if v = .up then 1 else 2) = some v := by cases v <;> rfl

theorem Path.validBeacon_iff {x : Path} {seq : BitVec 16} : x.validBeacon seq = true ↔ ∀ b, x.last = some b → b.seq ≠ seq := by
  unfold Path.validBeacon
  cases x.last <;> simp

/-- Settles O17. -/
theorem beacons : Obligations.Beacons := by
  intro p seq view s hl
  refine ⟨fun head tag h5 => ?_, fun head tag body h5 hlen => ?_, fun h => ?_, fun v hr hv => ⟨fun h => ?_, fun w hval hm hw => ?_⟩⟩
  · obtain ⟨hseq, hview⟩ := beacon_body seq view
    rw [exec_frame _ _ _ hl, exec_beacon seq view hl, State.arrive, if_pos h5, if_pos (by simp), hseq, hview]
  · rw [exec_frame _ _ _ hl, State.arrive, if_pos h5, if_neg hlen]
  · rw [exec_beacon seq view hl]
    simp only [State.takeBeacon, bne_iff_ne, ne_eq]
    obtain h | h := h
    · simp only [viewOf_eq_none h, ite_self]
    · simp only [h, not_false_eq_true, if_true]
  · rw [exec_beacon seq view hl]
    subst hv
    have hcond : ((s.path p).validBeacon seq && (s.path p).state.isMember) = false := by
      obtain h | h := h
      · rw [← Path.validBeacon_iff] at h
        simp [h]
      · simp [h]
    simp only [State.takeBeacon, hr, bne_self_eq_false, Bool.false_eq_true, if_false, viewOf_num, Path.heard, hcond]
  · rw [exec_beacon seq view hl]
    subst hv
    have hcond : ((s.path p).validBeacon seq && (s.path p).state.isMember) = true := by simp [Path.validBeacon_iff.2 hval, hm]
    simp only [State.takeBeacon, hr, bne_self_eq_false, Bool.false_eq_true, if_false, viewOf_num, Path.heard, hcond, if_true, seenAfter, hw,
      Window.offset]
    congr

/-! ## Link reports (R87, R93) -/

theorem State.failTransfers_eq (s : State) (p : Port) : s.failTransfers p = { s with
    flight := { s.flight with entries := s.flight.entries.map fun e => if e.port = p then { e with xfer := .none } else e }
    media := { s.media with failureList := s.media.failureList ++
      s.flight.entries.filterMap fun e => if e.port = p ∧ e.xfer ≠ .none then e.stage.slot else none } } := by
  simp only [State.failTransfers, Bool.and_eq_true, decide_eq_true_eq, bne_iff_ne]
  rfl

/-- Settles O19. -/
theorem linkReports : Obligations.LinkReports := by
  refine fun p s => ⟨?_, fun hm => ?_⟩
  · change execLinkUp p s = _
    have hl : ((s.withPath p ((s.path p).withLink true)).path p).linkUp = true := by simp [State.path, Path.withLink]
    rw [execLinkUp, State.sendOn_eq, if_pos hl]
    rfl
  · change execLinkDown p s = _
    simp only [execLinkDown, hm, Bool.false_eq_true, if_false, State.failTransfers_eq]
    rfl

end Sys2Proof.Machine
end

section
/-! PROOFS. The admission checks (chapter 3), the submission arbiter and the transfers (chapter 4), and the two drain timers. -/

namespace Sys2Proof.Machine

/-! ## The admission checks in order (R54) -/

theorem checkPath_eq (st : PathState) (kind : IoKind) : checkPath st kind =
    if st = .outside then some .notMember
    else if st = .draining ∨ st = .shedding ∨ st = .fenced then some .fenced
    else if st = .lost ∧ kind ≠ .read then some .fenced
    else none := by
  cases st <;> cases kind <;> rfl

theorem checkRange_eq (n : Namespace) (c : IoCommand) :
    checkRange n c = if n.size ≤ c.start ∨ n.size ≤ c.start + c.count - 1 then some .outOfRange else none := by
  unfold checkRange
  by_cases h : c.start < n.size ∧ c.start + c.count - 1 < n.size
  · rw [if_pos h, if_neg (by omega)]
  · rw [if_neg h, if_pos (by omega)]

/-- Settles O22. -/
theorem checksInOrder : Obligations.ChecksInOrder := by
  intro s p c segments
  rw [State.checkCommand, checkPath_eq]
  by_cases h1 : (s.path p).state = .outside
  · simp only [h1, if_true]
  by_cases h2 : (s.path p).state = .draining ∨ (s.path p).state = .shedding ∨ (s.path p).state = .fenced
  · simp only [if_neg h1, if_pos h2]
  by_cases h3 : (s.path p).state = .lost ∧ c.kind ≠ .read
  · simp only [if_neg h1, if_neg h2, if_pos h3]
  simp only [if_neg h1, if_neg h2, if_neg h3, bne_iff_ne]
  by_cases hr : s.part.state = .ready
  · simp only [hr, ne_eq, not_true_eq_false, if_false]
    cases s.namespaceById c.ns with
    | none => rfl
    | some n =>
      simp only [checkRange_eq]
      by_cases hf : c.kind = .flush
      · simp only [hf, if_true]
      · simp only [hf, if_false]
        by_cases ho : n.size ≤ c.start ∨ n.size ≤ c.start + c.count - 1
        · simp only [if_pos ho]
        · simp only [if_neg ho]
          change _ = (s.checkCoverage p c segments).or (checkGeneration c segments)
          cases s.checkCoverage p c segments <;> rfl
  · simp only [if_pos hr]

/-! ## From the intake head (R52, R64, R65) -/

/-- A state is what the judgment of the head command gives: the three outcomes of R52. -/
theorem State.judgeHead_outcomes (s : State) (p : Port) (tag : Byte) (c : IoCommand) :
    (∀ code, s.checkCommand p c = some code → s.judgeHead p tag c = (s.takeHead p).reply p tag code)
      ∧ (s.checkCommand p c = none → s.portCount p < s.settings.quotas.get p → s.flight.entries.length < 64 →
          s.judgeHead p tag c = (s.takeHead p).admitted p tag c)
      ∧ (s.checkCommand p c = none → s.settings.quotas.get p ≤ s.portCount p ∨ 64 ≤ s.flight.entries.length →
          s.judgeHead p tag c = s.withPort p { s.port p with roomWait := true }) := by
  refine ⟨fun code h => ?_, fun h hq hl => ?_, fun h hq => ?_⟩
  · simp only [State.judgeHead, h]
  · simp only [State.judgeHead, h, State.hasRoom, hq, hl, decide_true, Bool.and_true, if_true]
  · have hroom : s.hasRoom p = false := by
      simp only [State.hasRoom, Bool.and_eq_false_iff, decide_eq_false_iff_not]
      omega
    simp only [State.judgeHead, h, hroom, Bool.false_eq_true, if_false]

/-- The index of a new flight entry is the lowest free one, while the table has room (R68). -/
theorem firstFree_index {entries : List Entry} (h : entries.length < 64) :
    let index := (firstFree (entries.map (·.index)) 64 0).getD 0
    index < 64 ∧ (∀ e ∈ entries, e.index ≠ index) ∧ ∀ j < index, ∃ e ∈ entries, e.index = j := by
  obtain ⟨k, hk⟩ := firstFree_isSome (used := entries.map (·.index)) (n := 64) (by simpa using h)
  obtain ⟨hfree, -, hlt, hlow⟩ := firstFree_some hk
  rw [hk]
  exact ⟨by simpa using hlt, fun e he heq => hfree (List.mem_map.2 ⟨e, he, heq⟩),
    fun j hj => List.mem_map.1 (hlow j (Nat.zero_le j) hj)⟩

theorem State.takeCommand_of_head {s : State} {p : Port} {tag : Byte} {c : IoCommand} (h : s.headIo p = some (tag, c)) :
    s.takeCommand p c.kind = if (s.port p).roomWait then s
      else if s.part.state = .ready then s.judgeHead p tag c else (s.takeHead p).reply p tag .notReady := by
  simp only [State.takeCommand, h, decide_true, Bool.true_and]
  by_cases hw : (s.port p).roomWait = true <;> by_cases hr : s.part.state = .ready <;> simp [hw, hr]

theorem exec_ioCommandFor (p : Port) (kind : IoKind) (s : State) : exec (ioCommandFor p kind) s = .next (s.takeCommand p kind) := by
  cases kind <;> rfl

/-- Settles O21. -/
theorem ioCommands : Obligations.IoCommands := by
  intro p tag c s hhead judged
  have hjudged : judged (s.judgeHead p tag c) := by
    obtain ⟨hrefused, hadmitted, hwaits⟩ := s.judgeHead_outcomes p tag c
    refine ⟨hrefused, fun h hq hl => ?_, hwaits⟩
    obtain ⟨hlt, hfree, hlow⟩ := firstFree_index hl
    refine ⟨_, hlt, hfree, hlow, (hadmitted h hq hl).trans ?_⟩
    simp only [State.admitted, State.newEntry, State.takeHead_flight]
    rfl
  rw [exec_ioCommandFor, State.takeCommand_of_head hhead]
  refine ⟨fun hw => ⟨fun hr => ?_, fun hr => ⟨_, ?_, hjudged⟩⟩, fun hw => ⟨?_, ?_⟩, rfl⟩
  · simp only [hw, Bool.false_eq_true, if_false, hr]
  · simp only [hw, Bool.false_eq_true, if_false, hr, if_true]
  · simp only [hw, if_true]
  · have hrejudge : s.rejudge p = s.judgeHead p tag c := by simp only [State.rejudge, State.waitingHead, hw, if_true, hhead]
    rwa [hrejudge]

/-! ## The submission arbiter (R78, R79) -/

theorem State.urgent_eq_false {s : State} : s.urgent = false ↔ s.media.failureList = [] ∧ s.media.abortList = [] := by
  simp [State.urgent]

theorem State.managed_eq_false {s : State} : s.managed = false ↔ s.media.clear ≠ .requested ∧ s.media.identify = 0 := by
  simp [State.managed]

theorem State.slotEntry_isNone {s : State} {k : Fin 32} : (s.slotEntry k).isNone = true ↔ ∀ e ∈ s.flight.entries, e.stage.slot ≠ some k := by
  simp [State.slotEntry]

/-- The lowest slot that no entry holds is the free slot (R79). -/
theorem State.freeSlot_eq {s : State} {k : Fin 32} (hfree : ∀ x ∈ s.flight.entries, x.stage.slot ≠ some k)
    (hlow : ∀ j < k, ∃ x ∈ s.flight.entries, x.stage.slot = some j) : s.freeSlot = some k := by
  have hsplit : List.finRange 32 = (List.finRange 32).take k ++ k :: (List.finRange 32).drop (k + 1) := by
    have hk : (k : Nat) < (List.finRange 32).length := by simp
    rw [show k :: (List.finRange 32).drop (k + 1) = (List.finRange 32).drop k by
      rw [List.drop_eq_getElem_cons hk, List.getElem_finRange, Fin.cast_mk]]
    exact (List.take_append_drop _ _).symm
  rw [State.freeSlot, List.find?_eq_some_iff_append]
  refine ⟨State.slotEntry_isNone.2 hfree, _, _, hsplit, fun j hj => ?_⟩
  obtain ⟨i, hi, rfl⟩ := List.mem_take_iff_getElem.1 hj
  have hik : (List.finRange 32)[i] < k := by
    simp only [List.getElem_finRange, Fin.lt_def]
    simp at hi ⊢
    omega
  obtain ⟨x, hx, hslot⟩ := hlow _ hik
  rw [Bool.not_eq_true', ← Bool.not_eq_true, State.slotEntry_isNone]
  exact fun h => h x hx hslot

theorem State.oldestWaiting_eq {s : State} {before after : List Entry} {e : Entry} (hs : s.flight.entries = before ++ e :: after)
    (hw : e.stage = .waiting) (hb : ∀ x ∈ before, x.port = e.port → x.stage ≠ .waiting) : s.oldestWaiting e.port = some e := by
  rw [State.oldestWaiting, hs, List.find?_eq_some_iff_append]
  exact ⟨by simp [hw, Stage.isWaiting], before, after, rfl, fun x hx => by simpa [Stage.isWaiting_eq, imp_iff_not_or] using hb x hx⟩

theorem State.oldestWaiting_eq_none {s : State} {p : Port} :
    s.oldestWaiting p = none ↔ ∀ x ∈ s.flight.entries, x.port = p → x.stage ≠ .waiting := by
  simp [State.oldestWaiting, Stage.isWaiting_eq]

/-- The entry of the turn's port goes first, else the other port's (R79). -/
theorem State.submissionChoice_eq {s : State} {e : Entry} (h : s.oldestWaiting e.port = some e)
    (hturn : e.port = s.media.turn ∨ ∀ x ∈ s.flight.entries, x.port = s.media.turn → x.stage ≠ .waiting) :
    s.submissionChoice = some e := by
  unfold State.submissionChoice
  by_cases hp : e.port = s.media.turn
  · rw [← hp, h]
  · rw [State.oldestWaiting_eq_none.2 (hturn.resolve_left hp), ← Port.eq_partner_of_ne hp, h]

/-- A map that changes the entry of one index changes the one place where it stands, when indices are unique. -/
theorem map_index_eq {before after : List Entry} {e : Entry} (f : Entry → Entry)
    (hnodup : ((before ++ e :: after).map (·.index)).Nodup) :
    ((before ++ e :: after).map fun x => if x.index = e.index then f x else x) = before ++ f e :: after := by
  simp only [List.map_append, List.map_cons, List.nodup_append, List.nodup_cons, List.mem_map, List.mem_cons] at hnodup
  obtain ⟨-, ⟨hafter, -⟩, hne⟩ := hnodup
  have hb : ∀ x ∈ before, x.index ≠ e.index := fun x hx => hne _ ⟨x, hx, rfl⟩ _ (.inl rfl)
  have ha : ∀ x ∈ after, x.index ≠ e.index := fun x hx h => hafter ⟨x, hx, h⟩
  rw [List.map_append, List.map_cons, if_pos rfl]
  congr 1
  · exact List.map_congr_left (fun x hx => if_neg (hb x hx)) |>.trans (List.map_id' _)
  · congr 1
    exact List.map_congr_left (fun x hx => if_neg (ha x hx)) |>.trans (List.map_id' _)

/-- Settles O50. -/
theorem submitsOldest : Obligations.SubmitsOldest := by
  intro before after e k s hs hfail habort hclear hid hsplit hw hbefore hturn hfree hlow
  change execSubmitCommand s = _
  obtain ⟨-, hindex, -⟩ := hs
  have hu : s.urgent = false := State.urgent_eq_false.2 ⟨hfail, habort⟩
  have hm : s.managed = false := State.managed_eq_false.2 ⟨hclear, hid⟩
  have hchoice := State.submissionChoice_eq (State.oldestWaiting_eq hsplit hw hbefore) hturn
  simp only [execSubmitCommand, hu, hm, Bool.or_self, Bool.false_eq_true, if_false, State.freeSlot_eq hfree hlow, hchoice, State.submit]
  rw [hsplit, map_index_eq _ (hsplit ▸ hindex)]
  rfl

/-- Settles O51. -/
theorem sendsInOrder : Obligations.SendsInOrder := by
  refine fun s => ⟨fun k rest h => ?_, fun k rest h0 h1 => ?_, fun h0 h1 => ⟨fun hc => ?_, fun hc hi => ?_⟩, fun h => ?_, fun h => ?_,
    fun h => ?_, fun h => ?_, fun h => ?_⟩
  · change execSendTransferFailure s = _
    simp only [execSendTransferFailure, h]
    rfl
  · change execSendAbort s = _
    simp only [execSendAbort, h0, h1]
    rfl
  · change execSendQueueClear s = _
    simp only [execSendQueueClear, State.urgent_eq_false.2 ⟨h0, h1⟩, hc, decide_true, Bool.not_false, Bool.and_self, if_true]
    rfl
  · change execSendIdentify s = _
    have hne : s.media.identify ≠ 0 := by omega
    simp [execSendIdentify, State.urgent_eq_false.2 ⟨h0, h1⟩, hc, hne]
    rfl
  · change execSendAbort s = _
    obtain ⟨k, rest, hk⟩ := List.exists_cons_of_ne_nil h
    simp only [execSendAbort, hk]
  · have hu : s.urgent = true := by
      rw [← Bool.not_eq_false, State.urgent_eq_false]
      tauto
    exact ⟨by change execSendQueueClear s = _; simp [execSendQueueClear, hu],
      by change execSendIdentify s = _; simp [execSendIdentify, hu],
      by change execSubmitCommand s = _; simp [execSubmitCommand, hu]⟩
  · change execSendIdentify s = _
    obtain h | h := h <;> simp [execSendIdentify, h]
  · change execSendQueueClear s = _
    simp [execSendQueueClear, h]
  · change execSubmitCommand s = _
    have hm : s.managed = true := by
      rw [← Bool.not_eq_false, State.managed_eq_false]
      exact fun hm => h.elim hm.1 (fun hi => hi.ne' hm.2)
    simp [execSubmitCommand, hm]

/-! ## Transfers (R85 to R87) -/

/-- The pull that an occupied slot's entry names by its port and tag is the first such entry's. -/
theorem State.pullFor_eq {s : State} {p : Port} {tag : Byte} {before after : List Entry} {e : Entry} {k : Fin 32}
    (hs : s.flight.entries = before ++ e :: after) (hb : ∀ x ∈ before, x.port = p → x.tag = tag → x.xfer ≠ .pulling)
    (hp : e.port = p) (ht : e.tag = tag) (hx : e.xfer = .pulling) (hk : e.stage.slot = some k) : s.pullFor p tag = some k := by
  have hfind : s.flight.entries.find? (fun e => e.port = p && e.tag = tag && e.xfer = .pulling) = some e := by
    rw [hs, List.find?_eq_some_iff_append]
    exact ⟨by simp [hp, ht, hx], before, after, rfl, fun x hx => by simpa [imp_iff_not_or, or_assoc] using hb x hx⟩
  rw [State.pullFor, hfind]
  exact hk

theorem State.pullFor_eq_none {s : State} {p : Port} {tag : Byte}
    (h : ∀ e ∈ s.flight.entries, e.port = p → e.tag = tag → e.xfer ≠ .pulling) : s.pullFor p tag = none := by
  have hfind : s.flight.entries.find? (fun e => e.port = p && e.tag = tag && e.xfer = .pulling) = none := by simpa using h
  rw [State.pullFor, hfind]
  rfl

/-- Settles O53. -/
theorem transfers : Obligations.Transfers := by
  refine fun k s => ⟨fun hk => ⟨?_, ?_, ?_, fun data => ?_⟩, fun e hk => ⟨fun hl => ⟨?_, fun data => ?_⟩, fun hl hw r n hr hn => ?_,
    fun hl hr data => ?_, ?_, ?_⟩, fun p tag data => ⟨fun h => ?_, fun before after e hl hs hb hp ht hx hslot => ?_⟩⟩
  · change execPullRequest k s = _
    simp only [execPullRequest, hk]
    rfl
  · change execPullEnd k s = _
    simp only [execPullEnd, hk]
  · change execDeliveryEnd k s = _
    simp only [execDeliveryEnd, hk]
  · change execDeliveryStart k data s = _
    simp only [execDeliveryStart, hk]
    rfl
  · change execPullRequest k s = _
    simp only [execPullRequest, hk, hl, Bool.false_eq_true, if_false]
    rfl
  · change execDeliveryStart k data s = _
    simp only [execDeliveryStart, hk, hl, Bool.false_eq_true, if_false]
    rfl
  · change execPullRequest k s = _
    have hl' : ((s.setTransfer k .pulling).path e.port).linkUp = true := hl
    simp only [execPullRequest, hk, hl, hw, if_true, State.pullBytes, hr, hn, State.sendOn_eq, hl']
    rfl
  · change execDeliveryStart k data s = _
    have hl' : ((s.setTransfer k .delivering).path e.port).linkUp = true := hl
    simp only [execDeliveryStart, hk, hl, hr, if_true, State.sendOn_eq, hl']
    rfl
  · change execPullEnd k s = _
    simp only [execPullEnd, hk]
    rfl
  · change execDeliveryEnd k s = _
    simp only [execDeliveryEnd, hk]
    rfl
  · change execServerData p tag data s = _
    simp only [execServerData, State.pullFor_eq_none h, ite_self]
  · change execServerData p tag data s = _
    simp only [execServerData, hl, if_true, State.pullFor_eq hs hb hp ht hx hslot]
    rfl

/-! ## The drain timers (R123, R124) -/

theorem Entry.requestAbort_eq (p : Port) (e : Entry) : e.requestAbort (fun e => e.writeOf p) = match e.stage with
    | .submitted k => if e.port = p ∧ e.kind ≠ .read then { e with stage := .aborting k } else e
    | _ => e := by
  unfold Entry.requestAbort
  cases e.stage <;> simp [Entry.writeOf, IoKind.writeClass_iff]

theorem Entry.abortSlot_eq (p : Port) (e : Entry) : e.abortSlot (fun e => e.writeOf p) = match e.stage with
    | .submitted k => if e.port = p ∧ e.kind ≠ .read then some k else none
    | _ => none := by
  unfold Entry.abortSlot
  cases e.stage <;> simp [Entry.writeOf, IoKind.writeClass_iff]

theorem Entry.abandon_eq (p : Port) (e : Entry) : e.abandon p = match e.stage with
    | .aborting k => if e.port = p ∧ e.kind ≠ .read then { e with stage := .abandoned k } else e
    | _ => e := by
  unfold Entry.abandon
  cases e.stage <;> simp [Entry.writeOf, IoKind.writeClass_iff]

theorem IoKind.writeClass_eq (k : IoKind) : k.writeClass = decide (k ≠ .read) := by cases k <;> rfl

/-- The port's SUBMITTED write-class entries become ABORTING, and their slots join the abort list (R81). -/
theorem State.requestAborts_eq (s : State) (p : Port) : s.requestAborts (fun e => e.writeOf p) = { s with
    flight := { s.flight with entries := s.flight.entries.map fun e : Entry => match e.stage with
      | .submitted k => if e.port = p ∧ e.kind ≠ .read then { e with stage := .aborting k } else e
      | _ => e }
    media := { s.media with abortList := s.media.abortList ++ s.flight.entries.filterMap fun e : Entry => match e.stage with
      | .submitted k => if e.port = p ∧ e.kind ≠ .read then some k else none
      | _ => none } } := by
  rw [State.requestAborts, funext (Entry.requestAbort_eq p), funext (Entry.abortSlot_eq p)]
  rfl

theorem Holding.completion_eq (h : Holding) (p : Port) : h.completion p = match h.tenure with
    | .releasing o _ => if o = p then some { id := h.id, gen := h.gen, port := p, kind := .release } else none
    | .handing o _ => if o = p then some { id := h.id, gen := h.gen, port := p, kind := .handOver } else none
    | _ => none := by
  unfold Holding.completion
  cases h.tenure <;> simp [Tenure.dueKind, Tenure.owner]

theorem State.endDrain_eq (s : State) (p : Port) : s.endDrain p = State.walkTest { s with
    paths := s.paths.set p (s.path p).shed
    table := { s.table with due := s.table.due ++ s.table.holdings.filterMap fun h => h.completion p }
    walk := s.walk ++ [p] } := rfl

theorem State.onTakeover_eq (s : State) (p : Port) (f : Takeover → Takeover) : s.onTakeover p f = { s with
    paths := s.paths.set p { s.path p with takeover := (s.path p).takeover.map f } } := rfl

/-- Settles O49. -/
theorem drainTimers : Obligations.DrainTimers := by
  refine fun p s hd => ⟨fun ht => ?_, fun ht => ?_⟩
  · change execDrainTimerExpiry p s = _
    rw [execDrainTimerExpiry, if_pos ht]
    simp only [if_pos hd, Path.drainExpired, State.requestAborts_eq]
    rfl
  · change execAbortTimerExpiry p s = _
    have hcount : (fun e : Entry => e.writeOf p && e.stage.isAborting)
        = fun e => e.port = p && e.kind ≠ .read && e.stage.isAborting := by
      funext e
      rw [Entry.writeOf, IoKind.writeClass_eq]
    rw [execAbortTimerExpiry, if_pos ht]
    dsimp only
    rw [if_pos hd, State.endDrain_eq, hcount, funext (Entry.abandon_eq p), State.onTakeover_eq, funext fun h => Holding.completion_eq h p]
    simp only [State.path, State.withFlight, State.withPath, Pair.get_set_self, Pair.set_set, Path.shed, Path.abortExpired]
      <;> rfl

end Sys2Proof.Machine
end

section
/-! PROOFS. Check 5 block by block (R57 to R60): the segments of a range judged in order are its blocks judged in order. -/

namespace Sys2Proof.Machine

/-- A holding has a block. -/
def Holding.covers (h : Holding) (b : Nat) : Bool := h.start ≤ b && b < h.start + h.length

/-- The segment of one block, given the holdings of its namespace. -/
def blockSegment (hs : List Holding) (b : Nat) : Segment :=
  match hs.find? fun h => h.covers b with
  | some h => .holding h b b
  | none => .uncovered b b

theorem segmentsFrom_holdings (pos stop : Nat) (hs : List Holding) : ((segmentsFrom pos stop hs).filter Segment.isHolding).length = hs.length := by
  induction hs generalizing pos with
  | nil =>
    unfold segmentsFrom
    split <;> rfl
  | cons h hs ih =>
    unfold segmentsFrom
    split <;> simp [Segment.isHolding, ih, List.filter_cons]

theorem findSome?_congr {α β : Type} {l : List α} {f g : α → Option β} (h : ∀ x ∈ l, f x = g x) : l.findSome? f = l.findSome? g := by
  induction l with
  | nil => rfl
  | cons x xs ih =>
    rw [List.findSome?_cons, List.findSome?_cons, h x List.mem_cons_self, ih fun y hy => h y (List.mem_cons_of_mem x hy)]

/-- A test that says one thing of every number of a range says it of the range, unless that is empty. -/
theorem findSome?_range'_of_const {β : Type} {g : Nat → Option β} {v : Option β} {a n : Nat} (h : ∀ b, a ≤ b → b < a + n → g b = v) :
    (List.range' a n).findSome? g = if n = 0 then none else v := by
  cases v with
  | none =>
    rw [ite_self, List.findSome?_eq_none_iff]
    intro b hb
    obtain ⟨h1, h2⟩ := List.mem_range'_1.1 hb
    exact h b h1 h2
  | some w =>
    cases n with
    | zero => rfl
    | succ n => rw [List.range'_succ, List.findSome?_cons_of_isSome (by rw [h a (le_refl a) (by omega)]; rfl), h a (le_refl a) (by omega)]; rfl

theorem Holding.last_eq (h : Holding) : h.last = h.start + h.length - 1 := rfl

theorem Holding.covers_iff {h : Holding} {b : Nat} : h.covers b = true ↔ h.start ≤ b ∧ b < h.start + h.length := by
  simp [Holding.covers]

theorem Holding.covers_eq_false_iff {h : Holding} {b : Nat} : h.covers b = false ↔ ¬ (h.start ≤ b ∧ b < h.start + h.length) := by
  rw [← Bool.not_eq_true, Holding.covers_iff]

theorem blockSegment_cons_of_covers {h : Holding} {b : Nat} (hs : List Holding) (hb : h.covers b = true) :
    blockSegment (h :: hs) b = .holding h b b := by
  simp [blockSegment, hb]

theorem blockSegment_cons_of_not_covers {h : Holding} {b : Nat} (hs : List Holding) (hb : h.covers b = false) :
    blockSegment (h :: hs) b = blockSegment hs b := by
  simp [blockSegment, hb]

theorem blockSegment_of_uncovered {hs : List Holding} {b : Nat} (h : ∀ x ∈ hs, x.covers b = false) : blockSegment hs b = .uncovered b b := by
  have hnone : hs.find? (fun x => x.covers b) = none := by simpa using h
  rw [blockSegment, hnone]

/-- The blocks of a range up to a holding that ends after the range's first block, inside it, and after it. -/
theorem range'_split_at {pos stop start length : Nat} (hpos : pos ≤ stop) (hlen : 1 ≤ length) (hstart : start ≤ stop) (hend : pos < start + length) :
    List.range' pos (stop + 1 - pos) = List.range' pos (start - pos) ++ (List.range' (max pos start) (min (stop + 1) (start + length) - max pos start)
      ++ List.range' (start + length - 1 + 1) (stop + 1 - (start + length - 1 + 1))) := by
  have hfirst : max pos start = pos + (start - pos) := by omega
  by_cases hlast : start + length ≤ stop + 1
  · have hrest : start + length - 1 + 1 = max pos start + (min (stop + 1) (start + length) - max pos start) := by omega
    rw [hrest, List.range'_append_1, hfirst, List.range'_append_1]
    congr 1
    omega
  · have hnone : stop + 1 - (start + length - 1 + 1) = 0 := by omega
    rw [hnone, List.range'_zero, List.append_nil, hfirst, List.range'_append_1]
    congr 1
    omega

/-- A judgment of segments that looks at the holding alone gives the segments of a range, in order, what it gives the range's blocks, in
order. -/
theorem findSome?_segmentsFrom {β : Type} (f : Segment → Option β) (hf : ∀ h a b c d, f (.holding h a b) = f (.holding h c d))
    (hu : ∀ a b c d, f (.uncovered a b) = f (.uncovered c d)) (hs : List Holding) : ∀ {pos stop : Nat},
    (∀ h ∈ hs, pos ≤ stop ∧ 1 ≤ h.length ∧ h.start ≤ stop ∧ pos < h.start + h.length) →
    hs.Pairwise (fun x y => x.start + x.length ≤ y.start) →
    (segmentsFrom pos stop hs).findSome? f = (List.range' pos (stop + 1 - pos)).findSome? fun b => f (blockSegment hs b) := by
  induction hs with
  | nil =>
    intro pos stop _ _
    rw [findSome?_range'_of_const (v := f (.uncovered pos stop)) (g := fun b => f (blockSegment [] b)) (fun b _ _ => hu _ _ _ _)]
    unfold segmentsFrom
    by_cases h : pos ≤ stop
    · rw [if_pos h, if_neg (by omega)]
      simp
    · rw [if_neg h, if_pos (by omega)]
      rfl
  | cons h hs ih =>
    intro pos stop hin hsorted
    obtain ⟨hfirst, hsorted⟩ := List.pairwise_cons.1 hsorted
    obtain ⟨hpos, hlen, hstart, hend⟩ := hin h List.mem_cons_self
    have hgap : ∀ b, pos ≤ b → b < pos + (h.start - pos) → f (blockSegment (h :: hs) b) = f (.uncovered pos (h.start - 1)) := by
      intro b _ hb
      have hnone : ∀ x ∈ h :: hs, x.covers b = false := by
        intro x hx
        rw [Holding.covers_eq_false_iff]
        obtain rfl | hx := List.mem_cons.1 hx
        · omega
        · have := hfirst x hx
          omega
      rw [blockSegment_of_uncovered hnone]
      exact hu _ _ _ _
    have hinside : ∀ b, max pos h.start ≤ b → b < max pos h.start + (min (stop + 1) (h.start + h.length) - max pos h.start) →
        f (blockSegment (h :: hs) b) = f (.holding h (max pos h.start) (min stop h.last)) := by
      intro b _ hb
      rw [blockSegment_cons_of_covers hs (Holding.covers_iff.2 (by omega))]
      exact hf _ _ _ _ _
    have hafter : ∀ b ∈ List.range' (h.start + h.length - 1 + 1) (stop + 1 - (h.start + h.length - 1 + 1)),
        f (blockSegment hs b) = f (blockSegment (h :: hs) b) := by
      intro b hb
      rw [List.mem_range'_1] at hb
      rw [blockSegment_cons_of_not_covers hs (Holding.covers_eq_false_iff.2 (by omega))]
    have hrest := ih (pos := h.last + 1) (stop := stop) (fun x hx => by
      obtain ⟨-, hxl, hxs, -⟩ := hin x (List.mem_cons_of_mem _ hx)
      have := hfirst x hx
      unfold Holding.last
      omega) hsorted
    have hnonempty : min (stop + 1) (h.start + h.length) - max pos h.start ≠ 0 := by omega
    rw [segmentsFrom, range'_split_at hpos hlen hstart hend, List.findSome?_append, List.findSome?_append, List.findSome?_append,
      findSome?_range'_of_const hgap, findSome?_range'_of_const hinside, if_neg hnonempty, ← findSome?_congr hafter]
    congr 1
    · by_cases hgap : pos < h.start
      · rw [if_pos hgap, if_neg (by omega)]
        simp
      · rw [if_neg hgap, if_pos (by omega)]
        rfl
    · rw [List.findSome?_cons, hrest]
      cases f (.holding h (max pos h.start) (min stop h.last)) <;> rfl

/-- The first number of a range that a test answers, and the answer. -/
theorem findSome?_range'_eq_some_iff {β : Type} {g : Nat → Option β} {v : β} {n : Nat} : ∀ {a : Nat},
    (List.range' a n).findSome? g = some v ↔ ∃ b, a ≤ b ∧ b < a + n ∧ g b = some v ∧ ∀ j, a ≤ j → j < b → g j = none := by
  induction n with
  | zero =>
    intro a
    constructor
    · rintro ⟨⟩
    · rintro ⟨b, h1, h2, -⟩
      omega
  | succ n ih =>
    intro a
    rw [List.range'_succ, List.findSome?_cons]
    cases hg : g a with
    | some w =>
      constructor
      · rintro ⟨⟩
        exact ⟨a, le_refl a, by omega, hg, fun j h1 h2 => by omega⟩
      · rintro ⟨b, h1, -, hb, hbefore⟩
        obtain rfl | hlt := Nat.eq_or_lt_of_le h1
        · rw [← hg, hb]
        · rw [hbefore a (le_refl a) hlt] at hg
          cases hg
    | none =>
      rw [ih]
      constructor
      · rintro ⟨b, h1, h2, hb, hbefore⟩
        refine ⟨b, by omega, by omega, hb, fun j hj hlt => ?_⟩
        obtain rfl | hj := Nat.eq_or_lt_of_le hj
        · exact hg
        · exact hbefore j hj hlt
      · rintro ⟨b, h1, h2, hb, hbefore⟩
        obtain rfl | hlt := Nat.eq_or_lt_of_le h1
        · rw [hg] at hb
          cases hb
        · exact ⟨b, hlt, by omega, hb, fun j hj => hbefore j (by omega)⟩

theorem findSome?_range'_eq_none_iff {β : Type} {g : Nat → Option β} {a n : Nat} :
    (List.range' a n).findSome? g = none ↔ ∀ b, a ≤ b → b < a + n → g b = none := by
  simp [List.findSome?_eq_none_iff, List.mem_range'_1]

/-- The holdings of a range are those that meet it (R7, R21). -/
theorem State.rangeHoldings_eq_meets {s : State} {ns start count : Nat} (ht : s.tableSound) (hcount : 1 ≤ count) :
    s.rangeHoldings ns start (start + count - 1) = s.table.holdings.filter fun h => h.meets ns start count := by
  obtain ⟨-, -, -, -, hrecord, -⟩ := ht
  refine List.filter_congr fun h hm => ?_
  obtain ⟨-, hlen, -⟩ := hrecord h hm
  rw [Bool.eq_iff_iff]
  simp only [Holding.meets, rangesMeet, Bool.and_eq_true, decide_eq_true_eq, and_assoc]
  refine and_congr_right fun _ => ?_
  rw [Holding.last_eq]
  omega

/-- The one block of a range lies in the holding of its namespace that has the block. -/
theorem State.blockSegment_range {s : State} {ns start count b : Nat} (h1 : start ≤ b) (h2 : b < start + count) :
    blockSegment (s.rangeHoldings ns start (start + count - 1)) b =
      match s.table.holdings.find? fun h => h.ns = ns && h.start ≤ b && b < h.start + h.length with
      | some h => .holding h b b
      | none => .uncovered b b := by
  have hfind : (s.rangeHoldings ns start (start + count - 1)).find? (fun h => h.covers b)
      = s.table.holdings.find? fun h => h.ns = ns && h.start ≤ b && b < h.start + h.length := by
    rw [State.rangeHoldings, List.find?_filter]
    congr 1
    funext h
    rw [Bool.eq_iff_iff]
    simp only [Holding.covers, Bool.and_eq_true, decide_eq_true_eq, and_assoc]
    refine and_congr_right fun _ => ?_
    rw [Holding.last_eq]
    omega
  rw [blockSegment, hfind]

/-- The judgment of a segment (R58). -/
def State.judgeSegment (s : State) (p : Port) (c : IoCommand) : Segment → Option AnswerCode :=
  if c.kind = .read then judgeRead p (s.policy c.ns) else judgeWrite p (s.policy c.ns)

theorem State.judgeSegment_holding (s : State) (p : Port) (c : IoCommand) (h : Holding) (a b : Nat) : s.judgeSegment p c (.holding h a b) =
    if h.tenure = .pending .A ∨ h.tenure = .pending .B then some AnswerCode.transferPending
    else if c.kind = .read then if h.tenure.owner = some p ∨ h.access = .writeGuard then none else some .notOwner
    else if h.tenure = .held p then none else some .notOwner := by
  by_cases hk : c.kind = .read
  · rw [State.judgeSegment, if_pos hk, if_pos hk]
    cases ht : h.tenure with
    | pending q => cases q <;> simp [judgeRead, ht]
    | _ => simp [judgeRead, ht]
  · rw [State.judgeSegment, if_neg hk, if_neg hk]
    cases ht : h.tenure with
    | pending q => cases q <;> simp [judgeWrite, ht]
    | _ => simp [judgeWrite, ht]

theorem State.judgeSegment_uncovered (s : State) (p : Port) (c : IoCommand) (a b : Nat) : s.judgeSegment p c (.uncovered a b) =
    if s.policy c.ns = .openArea ∨ (c.kind = .read ∧ s.policy c.ns = .readOnly) then none else some .closedArea := by
  by_cases hk : c.kind = .read
  · rw [State.judgeSegment, if_pos hk]
    cases hp : s.policy c.ns <;> simp [judgeRead, hk]
  · rw [State.judgeSegment, if_neg hk]
    cases hp : s.policy c.ns <;> simp [judgeWrite, hk]

/-- Check 5 is the number of holdings met and then the judgment of the blocks in order (R57, R58). -/
theorem State.checkCoverage_eq {s : State} {p : Port} {c : IoCommand} (ht : s.tableSound) (hcount : 1 ≤ c.count) :
    s.checkCoverage p c (s.coverage c.ns c.start (c.start + c.count - 1)) =
      if 4 < (s.table.holdings.filter fun h => h.meets c.ns c.start c.count).length then some .span
      else (List.range' c.start c.count).findSome? fun b =>
        s.judgeSegment p c (blockSegment (s.rangeHoldings c.ns c.start (c.start + c.count - 1)) b) := by
  rw [State.checkCoverage, State.coverage, segmentsFrom_holdings, ← State.rangeHoldings_eq_meets ht hcount]
  congr 1
  have hpairs : (s.rangeHoldings c.ns c.start (c.start + c.count - 1)).Pairwise (fun x y => x.start + x.length ≤ y.start) := by
    refine (ht.1.filter _).imp_of_mem fun {x y} hx hy hb => ?_
    simp only [State.rangeHoldings, List.mem_filter, Bool.and_eq_true, decide_eq_true_eq] at hx hy
    obtain ⟨-, ⟨hnx, -⟩, -⟩ := hx
    obtain ⟨-, ⟨hny, -⟩, -⟩ := hy
    unfold Holding.before at hb
    omega
  have hin : ∀ h ∈ s.rangeHoldings c.ns c.start (c.start + c.count - 1),
      c.start ≤ c.start + c.count - 1 ∧ 1 ≤ h.length ∧ h.start ≤ c.start + c.count - 1 ∧ c.start < h.start + h.length := by
    obtain ⟨-, -, -, -, hrecord, -⟩ := ht
    intro h hh
    simp only [State.rangeHoldings, List.mem_filter, Bool.and_eq_true, decide_eq_true_eq] at hh
    obtain ⟨hm, ⟨-, h1⟩, h2⟩ := hh
    rw [Holding.last_eq] at h2
    obtain ⟨-, hlen, -⟩ := hrecord h hm
    omega
  have hseg := findSome?_segmentsFrom (s.judgeSegment p c) (fun h a b x y => by rw [State.judgeSegment_holding, State.judgeSegment_holding])
    (fun a b x y => by rw [State.judgeSegment_uncovered, State.judgeSegment_uncovered]) _ hin hpairs
  rw [show c.start + c.count - 1 + 1 - c.start = c.count by omega] at hseg
  exact hseg

/-- What check 5 asks of a block (R59, R60). -/
def State.blockUsable (s : State) (p : Port) (c : IoCommand) (b : Nat) : Prop :=
  if c.kind = .read then
    (∀ h ∈ s.table.holdings, h.ns = c.ns → h.start ≤ b → b < h.start + h.length →
        (∀ q, h.tenure ≠ .pending q) ∧ (h.tenure.owner = some p ∨ h.access = .writeGuard))
      ∧ ((∀ h ∈ s.table.holdings, h.ns = c.ns → ¬ (h.start ≤ b ∧ b < h.start + h.length)) → s.policy c.ns ≠ .closed)
  else
    (∀ h ∈ s.table.holdings, h.ns = c.ns → h.start ≤ b → b < h.start + h.length → h.tenure = .held p)
      ∧ ((∀ h ∈ s.table.holdings, h.ns = c.ns → ¬ (h.start ≤ b ∧ b < h.start + h.length)) → s.policy c.ns = .openArea)

theorem State.judgeSegment_uncovered_iff {s : State} {p : Port} {c : IoCommand} {b a z : Nat}
    (h : ∀ h ∈ s.table.holdings, h.ns = c.ns → ¬ (h.start ≤ b ∧ b < h.start + h.length)) :
    s.judgeSegment p c (.uncovered a z) = none ↔ s.blockUsable p c b := by
  have hno : ∀ P : Holding → Prop, ∀ x ∈ s.table.holdings, x.ns = c.ns → x.start ≤ b → b < x.start + x.length → P x :=
    fun _ x hx hn h1 h2 => absurd ⟨h1, h2⟩ (h x hx hn)
  rw [State.judgeSegment_uncovered, State.blockUsable]
  by_cases hk : c.kind = .read
  · rw [if_pos hk]
    refine Iff.trans ?_ ((and_iff_right (hno _)).trans (imp_iff_right h)).symm
    cases s.policy c.ns <;> simp [hk]
  · rw [if_neg hk]
    refine Iff.trans ?_ ((and_iff_right (hno _)).trans (imp_iff_right h)).symm
    cases s.policy c.ns <;> simp [hk]

theorem State.judgeSegment_holding_iff {s : State} {p : Port} {c : IoCommand} {b a z : Nat} {h : Holding} (hm : h ∈ s.table.holdings)
    (hn : h.ns = c.ns) (hb : h.start ≤ b ∧ b < h.start + h.length)
    (hone : ∀ x ∈ s.table.holdings, x.ns = c.ns → x.start ≤ b → b < x.start + x.length → x = h) :
    s.judgeSegment p c (.holding h a z) = none ↔ s.blockUsable p c b := by
  have hall : ∀ P : Holding → Prop, (∀ x ∈ s.table.holdings, x.ns = c.ns → x.start ≤ b → b < x.start + x.length → P x) ↔ P h :=
    fun P => ⟨fun hP => hP h hm hn hb.1 hb.2, fun hP x hx hxn h1 h2 => hone x hx hxn h1 h2 ▸ hP⟩
  have hcovered : ∀ P : Prop, ((∀ h ∈ s.table.holdings, h.ns = c.ns → ¬ (h.start ≤ b ∧ b < h.start + h.length)) → P) ↔ True :=
    fun P => iff_true_intro fun hno => absurd hb (hno h hm hn)
  have hpending : (∀ q, h.tenure ≠ .pending q) ↔ ¬ (h.tenure = .pending .A ∨ h.tenure = .pending .B) := by
    rw [not_or]
    exact ⟨fun hq => ⟨hq .A, hq .B⟩, fun hq q => q.casesOn hq.1 hq.2⟩
  rw [State.judgeSegment_holding, State.blockUsable]
  by_cases hk : c.kind = .read
  · simp only [if_pos hk, hcovered, and_true, hall fun x => (∀ q, x.tenure ≠ .pending q) ∧ (x.tenure.owner = some p ∨ x.access = .writeGuard),
      hpending]
    by_cases ht : h.tenure = .pending .A ∨ h.tenure = .pending .B
    · simp [ht]
    · simp [ht, or_iff_not_imp_left]
  · simp only [if_neg hk, hcovered, and_true, hall fun x => x.tenure = .held p]
    by_cases ht : h.tenure = .held p
    · simp [ht]
    · simp [ht, ite_eq_iff]

/-- The judgment of a block's segment passes exactly when the block may be used. -/
theorem State.judgeSegment_block_iff {s : State} {p : Port} {c : IoCommand} {b : Nat} (ht : s.tableSound) (h1 : c.start ≤ b)
    (h2 : b < c.start + c.count) :
    s.judgeSegment p c (blockSegment (s.rangeHoldings c.ns c.start (c.start + c.count - 1)) b) = none ↔ s.blockUsable p c b := by
  rw [State.blockSegment_range h1 h2]
  cases hf : s.table.holdings.find? fun h => h.ns = c.ns && h.start ≤ b && b < h.start + h.length with
  | none =>
    simp only [List.find?_eq_none, Bool.and_eq_true, decide_eq_true_eq] at hf
    exact State.judgeSegment_uncovered_iff fun x hx hn hb => hf x hx ⟨⟨hn, hb.1⟩, hb.2⟩
  | some h =>
    have hcov := List.find?_some hf
    simp only [Bool.and_eq_true, decide_eq_true_eq] at hcov
    obtain ⟨⟨hn, hb1⟩, hb2⟩ := hcov
    have hm := List.mem_of_find?_eq_some hf
    exact State.judgeSegment_holding_iff hm hn ⟨hb1, hb2⟩ fun x hx hxn h1 h2 =>
      State.record_of_block ht hx hm (hxn.trans hn.symm) ⟨h1, h2⟩ ⟨hb1, hb2⟩

/-- Settles O23. -/
theorem coverageBlockByBlock : Obligations.CoverageBlockByBlock := by
  intro s p c ht hcount _ met judge
  have hjudge : ∀ b, c.start ≤ b → b < c.start + c.count →
      s.judgeSegment p c (blockSegment (s.rangeHoldings c.ns c.start (c.start + c.count - 1)) b) = judge b := by
    intro b h1 h2
    rw [State.blockSegment_range h1 h2]
    dsimp only [judge]
    cases s.table.holdings.find? fun h => h.ns = c.ns && h.start ≤ b && b < h.start + h.length with
    | some h => exact s.judgeSegment_holding p c h b b
    | none => exact s.judgeSegment_uncovered p c b b
  rw [State.checkCoverage_eq ht hcount]
  refine ⟨?_, fun code => ?_⟩
  · by_cases hmet : 4 < met
    · rw [if_pos hmet]
      exact ⟨fun h => (by cases h), fun h => absurd hmet (by omega)⟩
    · rw [if_neg hmet, findSome?_range'_eq_none_iff, and_iff_right (by omega)]
      exact forall_congr' fun b => forall_congr' fun h1 => forall_congr' fun h2 => State.judgeSegment_block_iff ht h1 h2
  · by_cases hmet : 4 < met
    · rw [if_pos hmet, if_pos hmet, Option.some_inj]
      exact ⟨Eq.symm, Eq.symm⟩
    · rw [if_neg hmet, if_neg hmet, findSome?_range'_eq_some_iff]
      refine exists_congr fun b => and_congr_right fun h1 => and_congr_right fun h2 => ?_
      rw [hjudge b h1 h2]
      exact and_congr_right fun _ => forall_congr' fun j => forall_congr' fun hj1 => forall_congr' fun hj2 => by
        rw [hjudge j hj1 (by omega)]

end Sys2Proof.Machine
end

section
/-! PROOFS. The mailbox on the I2C link and the configuration (chapter 11). -/

namespace Sys2Proof.Machine

/-! ## The mailbox (R188, R189) -/

theorem State.statusRead_length (s : State) (n : Nat) : (s.statusRead n).length = n := by
  cases n <;> simp [State.statusRead]

/-- The status byte by its bits (R189): REQUEST-FULL, ANSWER-READY, OVERRUN, the alert line, and the part state from bit 4 on. -/
theorem statusByte_bits (full ready overrun alert : Bool) (st : PartState) :
    let x : Byte := BitVec.ofNat 8 ((if full then 1 else 0) + (if ready then 2 else 0) + (if overrun then 4 else 0)
      + (if alert then 8 else 0) + 16 * st.num)
    x.getLsbD 0 = full ∧ x.getLsbD 1 = ready ∧ x.getLsbD 2 = overrun ∧ x.getLsbD 3 = alert ∧ x.toNat / 16 = st.num := by
  cases st <;> revert full ready overrun alert <;> decide

/-- Settles O54. -/
theorem mailboxAccess : Obligations.MailboxAccess := by
  intro s m
  obtain ⟨hfull, hready, hoverrun, -, hstate⟩ := statusByte_bits s.mailbox.request.isSome s.mailbox.answerReady s.mailbox.overrun s.alertLine s.part.state
  refine ⟨fun bytes stop h => ?_, fun bytes h => ?_, fun value stop => ?_, fun n stop => ?_, fun selector bytes => ?_,
    fun n => ⟨fun h => ?_, fun h => ?_, fun h => ?_⟩, ?_, ?_, ?_, ?_, fun code rest hreq hready hreset henv => ?_⟩
  · change execRequestBufferWrite bytes stop s = _
    have hno : (stop && decide (2 ≤ bytes.length)) = false := by
      rw [Bool.and_eq_false_iff, decide_eq_false_iff_not]
      exact h.imp id (by omega)
    rw [execRequestBufferWrite, hno]
    rfl
  · change execRequestBufferWrite bytes true s = _
    rw [execRequestBufferWrite, if_pos (by simpa using h), State.bufferRequest]
    dsimp only [m, State.select]
    cases hr : s.mailbox.request with
    | none => simp [State.withMailbox]
    | some r => simp [State.withMailbox]
  · change execClearOverrun value stop s = _
    cases stop <;> rfl
  · change execAnswerBufferRead n stop s = _
    cases stop with
    | false => rfl
    | true =>
      simp only [execAnswerBufferRead, if_true, State.placeResetAnswer, Bool.true_eq_false, if_false]
      congr 1
      by_cases h : m.resetAnswer = true ∧ s.part.state ≠ .resetting
      · rw [if_pos h, if_pos (by simpa [State.select, m] using h)]
        rfl
      · rw [if_neg h, if_neg (by simpa [State.select, m] using h)]
        rfl
  · change execI2cWriteOther selector bytes s = _
    rw [execI2cWriteOther]
    congr 1
    by_cases h0 : selector = 0
    · subst h0
      simp only [if_true, true_or]
      rfl
    by_cases h1 : selector = 1
    · subst h1
      cases bytes with
      | nil => rfl
      | cons b bs => rfl
    by_cases h3 : selector = 3
    · subst h3
      rfl
    · simp only [h0, h1, h3, if_false, false_or, false_and]
  · rw [State.readBytes, h]
    exact ⟨s.statusRead_length n, by rw [State.readBytes, h]; rfl⟩
  · rw [State.readBytes, h]
    rfl
  · obtain h | h := h <;> simp only [State.readBytes, show s.mailbox.selector = _ from h]
  · exact hfull
  · exact hready
  · exact hoverrun
  · exact hstate.trans (by cases s.part.state <;> rfl)
  · change execManagementRequestMalformed s = _
    have htakes : s.mailboxTakes = true := State.mailboxTakes_iff.2 ⟨hready, hreset⟩
    rw [execManagementRequestMalformed, show s.mailbox.request = _ from hreq]
    simp only [htakes, henv, Option.isNone_none, Bool.and_self, if_true, State.placeAnswer_eq]
    simp [AnswerCode.num, m]

/-! ## Configuration (R191) -/

theorem clamp_eq (lo hi v : Nat) (h : lo ≤ hi) : clamp lo hi v = if v < lo then lo else if hi < v then hi else v := by
  unfold clamp
  split
  · omega
  · split <;> omega

theorem flag_eq (v : Nat) : (if v = 0 then 0 else 1) = if v < 0 then 0 else if 1 < v then 1 else v := by
  obtain _ | _ | v := v
  · rfl
  · rfl
  · rw [if_neg (by omega), if_neg (by omega), if_pos (by omega)]

theorem policyOf_eq {v : Nat} (h : 1 ≤ v) : policyOf v = if v = 1 then .openArea else if v = 2 then .readOnly else .closed := by
  obtain _ | _ | _ | v := v
  · cases h
  · rfl
  · rfl
  · rfl

theorem State.storeQuota_eq (s : State) (p : Port) (v : Nat) : s.storeQuota p v =
    if s.settings.quotas.get p = v then s
    else State.rejudge { s with settings := { s.settings with quotas := s.settings.quotas.set p v } } p := by
  rw [State.storeQuota]
  split
  · next h =>
    subst h
    rw [Pair.set_get]
    rfl
  · rfl

/-- A row of R191's table says of a parameter its range, the value in force, and what storing a value that is in range does. -/
def State.rowAgrees (s : State) : Option (Nat × Nat × Nat × (Nat → State)) → Option Parameter → Prop
  | none, none => True
  | some (lo, hi, value, store), some x =>
    value = s.parameter x ∧ ∀ v, (if v < lo then lo else if hi < v then hi else v) = x.stored v ∧ store (x.stored v) = s.store x (x.stored v)
  | _, _ => False

/-- What READ-CONFIG answers of a row. -/
def State.readRow (s : State) (number index : Nat) : Option (Nat × Nat × Nat × (Nat → State)) → State
  | none => s.placeAnswer 23 .malformed []
  | some (_, _, value, _) => s.placeAnswer 23 .good (be 1 number ++ be 1 index ++ be 2 value)

theorem State.readConfig_of_row {s : State} {number index : Nat} {row : Option (Nat × Nat × Nat × (Nat → State))}
    (h : s.rowAgrees row (parameterOf number index)) : State.readConfig number index s = s.readRow number index row := by
  unfold State.readConfig
  revert h
  match row, parameterOf number index with
  | none, none => exact fun _ => rfl
  | some (lo, hi, value, store), some x =>
    rintro ⟨hv, -⟩
    rw [State.readRow, hv]
  | none, some x => exact False.elim
  | some x, none => exact False.elim

/-- What CONFIGURE does by a row. -/
def State.configureRow (s : State) (number index value : Nat) : Option (Nat × Nat × Nat × (Nat → State)) → State
  | none => s.placeAnswer 22 .malformed []
  | some (lo, hi, _, store) =>
    let v := if value < lo then lo else if hi < value then hi else value
    (store v).placeAnswer 22 .good (be 1 number ++ be 1 index ++ be 2 v)

theorem State.configure_of_row {s : State} {number index value : Nat} {row : Option (Nat × Nat × Nat × (Nat → State))}
    (h : s.rowAgrees row (parameterOf number index)) : State.configure number index value s = s.configureRow number index value row := by
  unfold State.configure
  revert h
  match row, parameterOf number index with
  | none, none => exact fun _ => rfl
  | some (lo, hi, _, store), some x =>
    rintro ⟨-, hs⟩
    obtain ⟨hv, hst⟩ := hs value
    simp only [State.configureRow, hv, hst]
  | none, some x => exact False.elim
  | some x, none => exact False.elim

/-- Settles O55. -/
theorem configuration : Obligations.Configuration := by
  intro tag s g set num quota target path row
  have hrow : ∀ number index, s.rowAgrees (row number index) (parameterOf number index) := by
    have hclamp : ∀ lo hi v, lo ≤ hi → (if v < lo then lo else if hi < v then hi else v) = clamp lo hi v :=
      fun lo hi v h => (clamp_eq lo hi v h).symm
    have hflag : ∀ b, num b = bit b 0 := fun b => by cases b <;> rfl
    intro number index
    obtain _ | _ | _ | _ | _ | _ | _ | _ | _ | _ | _ | _ | n := number
    · trivial
    · obtain _ | _ | _ | k := index
      · trivial
      · exact ⟨rfl, fun v => ⟨hclamp _ _ _ (by decide), rfl⟩⟩
      · exact ⟨rfl, fun v => ⟨hclamp _ _ _ (by decide), rfl⟩⟩
      · trivial
    · obtain _ | _ | _ | k := index
      · trivial
      · exact ⟨rfl, fun v => ⟨hclamp _ _ _ (by decide), rfl⟩⟩
      · exact ⟨rfl, fun v => ⟨hclamp _ _ _ (by decide), rfl⟩⟩
      · trivial
    · obtain _ | k := index
      · exact ⟨rfl, fun v => ⟨hclamp _ _ _ (by decide), rfl⟩⟩
      · trivial
    · obtain _ | k := index
      · exact ⟨rfl, fun v => ⟨hclamp _ _ _ (by decide), rfl⟩⟩
      · trivial
    · obtain _ | _ | _ | k := index
      · trivial
      · exact ⟨rfl, fun v => ⟨hclamp _ _ _ (by decide), (s.storeQuota_eq .A _).symm⟩⟩
      · exact ⟨rfl, fun v => ⟨hclamp _ _ _ (by decide), (s.storeQuota_eq .B _).symm⟩⟩
      · trivial
    · obtain _ | k := index
      · exact ⟨hflag _, fun v => ⟨(flag_eq v).symm, rfl⟩⟩
      · trivial
    · obtain _ | k := index
      · exact ⟨hflag _, fun v => ⟨(flag_eq v).symm, rfl⟩⟩
      · trivial
    · obtain _ | k := index
      · trivial
      · by_cases hk : k < 10
        · change s.rowAgrees (if k < 10 then some _ else none) (if 1 ≤ k + 1 ∧ k + 1 ≤ 10 then some (.priority (k + 1)) else none)
          rw [if_pos hk, if_pos (by omega)]
          exact ⟨rfl, fun v => ⟨hclamp _ _ _ (by decide), rfl⟩⟩
        · change s.rowAgrees (if k < 10 then some _ else none) (if 1 ≤ k + 1 ∧ k + 1 ≤ 10 then some (.priority (k + 1)) else none)
          rw [if_neg hk, if_neg (by omega)]
          trivial
    · obtain _ | k := index
      · trivial
      · by_cases hk : k < 10
        · change s.rowAgrees (if k < 10 then some _ else none) (if 1 ≤ k + 1 ∧ k + 1 ≤ 10 then some (.copyFlag (k + 1)) else none)
          rw [if_pos hk, if_pos (by omega)]
          exact ⟨hflag _, fun v => ⟨(flag_eq v).symm, rfl⟩⟩
        · change s.rowAgrees (if k < 10 then some _ else none) (if 1 ≤ k + 1 ∧ k + 1 ≤ 10 then some (.copyFlag (k + 1)) else none)
          rw [if_neg hk, if_neg (by omega)]
          trivial
    · obtain _ | _ | _ | _ | k := index
      · trivial
      · exact ⟨rfl, fun v => ⟨hclamp _ _ _ (by decide), rfl⟩⟩
      · exact ⟨rfl, fun v => ⟨hclamp _ _ _ (by decide), rfl⟩⟩
      · exact ⟨rfl, fun v => ⟨hclamp _ _ _ (by decide), rfl⟩⟩
      · trivial
    · by_cases hk : index < 8
      · change s.rowAgrees (if index < 8 then some _ else none) (if index ≤ 7 then some (.policy index) else none)
        rw [if_pos hk, if_pos (by omega)]
        refine ⟨?_, fun v => ⟨hclamp _ _ _ (by decide), ?_⟩⟩
        · change _ = (s.settings.policies.getD index .readOnly).num
          dsimp only [g]
          cases s.settings.policies.getD index .readOnly <;> rfl
        · have hv : 1 ≤ (Parameter.policy index).stored v := by
            rw [Parameter.stored, clamp]
            omega
          dsimp only [State.store]
          rw [policyOf_eq hv]
          rfl
      · change s.rowAgrees (if index < 8 then some _ else none) (if index ≤ 7 then some (.policy index) else none)
        rw [if_neg hk, if_neg (by omega)]
        trivial
    · trivial
  refine ⟨fun port ht => ⟨?_, fun h1 h2 => ?_⟩, fun number index value ht => ?_, fun number index ht => ?_⟩
  · rintro p rfl
    rw [exec_of_takes rfl ht rfl]
    simp only [Request.perform, State.readTakeover, portOf_portNum]
    rfl
  · rw [exec_of_takes rfl ht rfl]
    simp only [Request.perform, State.readTakeover, portOf_eq_none h1 h2]
    rfl
  · rw [exec_of_takes rfl ht rfl]
    refine congrArg _ ((State.configure_of_row (hrow number index)).trans ?_)
    cases row number index <;> rfl
  · rw [exec_of_takes rfl ht rfl]
    refine congrArg _ ((State.readConfig_of_row (hrow number index)).trans ?_)
    cases row number index <;> rfl

end Sys2Proof.Machine
end

section
/-! PROOFS. ACQUIRE and the id checks at a grant (R29 to R34), and what overlaps what (R7). -/

namespace Sys2Proof.Machine

/-! ## What a grant leaves as it was -/

section
variable (s : State) (c : Client)

@[simp] theorem State.atGrant_namespaceById (id : Nat) : (s.atGrant c).namespaceById id = s.namespaceById id := by
  simp [State.namespaceById]

@[simp] theorem State.atGrant_policy (id : Nat) : (s.atGrant c).policy id = s.policy id := by simp [State.policy]

@[simp] theorem State.atGrant_writesOver (p : Port) (h : Holding) : (s.atGrant c).writesOver p h = s.writesOver p h := by
  simp [State.writesOver]

@[simp] theorem State.atGrant_freeId : (s.atGrant c).freeId = s.freeId := by simp [State.freeId]

@[simp] theorem State.atGrant_holdingsOver (ns start length : Nat) :
    (s.atGrant c).holdingsOver ns start length = s.holdingsOver ns start length := by
  simp [State.holdingsOver]

@[simp] theorem State.atGrant_acquireRefusal (p : Port) (ns start length : Nat) :
    (s.atGrant c).acquireRefusal p ns start length = s.acquireRefusal p ns start length := by
  simp [State.acquireRefusal, State.ownOver, State.otherOver]

@[simp] theorem State.atGrant_splitRefusal (h : Holding) (offset : Nat) : (s.atGrant c).splitRefusal h offset = s.splitRefusal h offset := by
  simp [State.splitRefusal]

@[simp] theorem State.atGrant_ownedHolding (p : Port) (id : Nat) (gen : Option Nat) :
    (s.atGrant c).ownedHolding p id gen = s.ownedHolding p id gen := by
  simp [State.ownedHolding]

@[simp] theorem State.atGrant_holdingRecord (h : Holding) : (s.atGrant c).holdingRecord h = s.holdingRecord h := by
  simp [State.holdingRecord]

end

/-! ## What overlaps what (R7) -/

theorem Holding.meets_iff {h : Holding} {ns start length : Nat} : h.meets ns start length = true ↔
    h.ns = ns ∧ ∃ b, h.start ≤ b ∧ b < h.start + h.length ∧ start ≤ b ∧ b < start + length := by
  simp only [Holding.meets, rangesMeet, Bool.and_eq_true, decide_eq_true_eq]
  refine and_congr_right fun _ => ⟨fun _ => ⟨max h.start start, by omega⟩, ?_⟩
  rintro ⟨b, hb⟩
  omega

theorem Entry.meets_iff {e : Entry} {ns start length : Nat} : e.meets ns start length = true ↔
    e.ns = ns ∧ (e.range = none ∨ ∃ r b, e.range = some r ∧ r.start ≤ b ∧ b < r.start + r.count ∧ start ≤ b ∧ b < start + length) := by
  rw [Entry.meets, Bool.and_eq_true, decide_eq_true_eq]
  refine and_congr_right fun _ => ?_
  cases hr : e.range with
  | none => simp
  | some r =>
    simp only [rangesMeet, decide_eq_true_eq, reduceCtorEq, Option.some.injEq, false_or]
    refine ⟨fun h => ⟨r, max r.start start, rfl, by omega⟩, ?_⟩
    rintro ⟨_, b, rfl, hb⟩
    omega

/-! ## ACQUIRE (R30 to R34) -/

section
variable {s : State} {p : Port} {tag : Byte} {ns start length access heir rank : Nat} {acc : Access} {hr : Heir}

theorem rankOf_of_range (h1 : 1 ≤ rank) (h2 : rank ≤ 15) : rankOf rank = some rank := if_pos ⟨h1, h2⟩

theorem State.acquire_of_malformed (h : accessOf access = none ∨ heirOf heir = none ∨ rank < 1 ∨ 15 < rank) :
    State.acquire p tag ns start length access heir rank s = s.answer p tag 1 .malformed [] := by
  unfold State.acquire
  split
  · next ha hh hr =>
    rw [rankOf] at hr
    split at hr
    · simp only [ha, hh, reduceCtorEq, false_or] at h
      omega
    · cases hr
  · rfl

/-- The bytes that a refusal of ACQUIRE carries: the record in the way, if one is named (R31). -/
def State.blockerBytes (s : State) : Option Holding → List Byte
  | some h => holdingBytes h (s.unresolved h)
  | none => []

theorem State.acquire_of_refusal {code : AnswerCode} {blocker : Option Holding} (ha : accessOf access = some acc) (hh : heirOf heir = some hr)
    (h1 : 1 ≤ rank) (h2 : rank ≤ 15) (href : s.acquireRefusal p ns start length = some (code, blocker)) :
    State.acquire p tag ns start length access heir rank s =
      (if code = .conflict then s.contention p ns start length else s).answer p tag 1 code (s.blockerBytes blocker) := by
  simp only [State.acquire, ha, hh, rankOf_of_range h1 h2, href]
  cases blocker <;> rfl

theorem State.acquire_of_granted {g : Nat} (ha : accessOf access = some acc) (hh : heirOf heir = some hr)
    (h1 : 1 ≤ rank) (h2 : rank ≤ 15) (href : s.acquireRefusal p ns start length = none) (hg : s.table.gen = some g) :
    State.acquire p tag ns start length access heir rank s =
      let h : Holding := { id := s.freeId, ns := ns, start := start, length := length, access := acc, heir := hr, rank := rank, gen := g,
                           tenure := .held p }
      ({ s with table := { s.table with holdings := insertHolding h s.table.holdings, gen := genAfter g } }).answer p tag 1 .good
        (holdingBytes h (s.unresolved h)) := by
  simp only [State.acquire, ha, hh, rankOf_of_range h1 h2, href, State.newHolding, hg, Option.getD_some]
  rfl

end

theorem State.freeId_free {s : State} (h : s.table.holdings.length < 1024) :
    s.freeId < 1024 ∧ (∀ x ∈ s.table.holdings, x.id ≠ s.freeId) ∧ ∀ j < s.freeId, ∃ x ∈ s.table.holdings, x.id = j := by
  obtain ⟨hfree, hlt, hlow⟩ := s.freeId_spec h
  exact ⟨hlt, fun x hx hid => hfree (List.mem_map.2 ⟨x, hx, hid⟩), fun j hj => List.mem_map.1 (hlow j hj)⟩

/-- Nothing in the way of an ACQUIRE: the checks of R30 pass. -/
theorem State.acquireRefusal_of_clear {s : State} {p : Port} {ns start length g : Nat} {n : Namespace} (hn : s.namespaceById ns = some n)
    (hl : 1 ≤ length) (hend : start + length ≤ n.size) (hclear : ∀ h ∈ s.table.holdings, h.meets ns start length = false)
    (hentries : ∀ e ∈ s.flight.entries, e.writeOf p.partner = true → e.meets ns start length = false)
    (hroom : s.table.holdings.length < 1024) (hg : s.table.gen = some g) : s.acquireRefusal p ns start length = none := by
  have hover : s.holdingsOver ns start length = [] := by simpa [State.holdingsOver] using hclear
  have hany : (s.flight.entries.any fun e => e.writeOf p.partner && e.meets ns start length) = false := by simpa using hentries
  simp only [State.acquireRefusal, hn, State.ownOver, State.otherOver, hover, List.find?_nil, hany, hg, Option.isNone_some,
    if_neg (show ¬ (length = 0 ∨ n.size < start + length) by omega), Bool.false_eq_true, if_false, if_neg (Nat.not_le.2 hroom)]

/-- Settles O26. -/
theorem acquireGrants : Obligations.AcquireGrants := by
  intro p tag ns start length access heir rank g acc hr n s hs ha hh h1 h2 hn hl hend hclear hentries hroom hg
  obtain ⟨hlt, hfree, hlow⟩ := State.freeId_free hroom
  refine ⟨s.freeId, hlt, hfree, hlow, ?_⟩
  have href := State.acquireRefusal_of_clear hn hl hend hclear hentries hroom hg
  rw [exec_of_grants rfl hs rfl]
  refine congrArg _ ((State.acquire_of_granted ha hh h1 h2 (by simpa using href) (by simpa using hg)).trans ?_)
  simp only [State.atGrant_freeId, State.atGrant_holdings, State.atGrant_unresolved]
  rfl

/-- Settles O27. -/
theorem acquireRefusals : Obligations.AcquireRefusals := by
  refine ⟨?_, fun h ns start length => Holding.meets_iff, fun e ns start length => Entry.meets_iff⟩
  intro p tag ns start length access heir rank s hs s0 inWay mine theirs told
  have hexec : exec (.acquire p) s = .next (State.acquire p tag ns start length access heir rank s0) := exec_of_grants rfl hs rfl
  rw [hexec]
  by_cases hm : accessOf access = none ∨ heirOf heir = none ∨ rank < 1 ∨ 15 < rank
  · rw [if_pos hm, State.acquire_of_malformed hm]
  rw [if_neg hm]
  simp only [not_or, not_lt] at hm
  obtain ⟨ha, hh, h1, h2⟩ := hm
  obtain ⟨acc, ha⟩ := Option.ne_none_iff_exists'.1 ha
  obtain ⟨hr, hh⟩ := Option.ne_none_iff_exists'.1 hh
  have hrefused : ∀ code blocker, code ≠ .conflict → s.acquireRefusal p ns start length = some (code, blocker) →
      State.acquire p tag ns start length access heir rank s0 = s0.answer p tag 1 code (s.blockerBytes blocker) := by
    intro code blocker hne href
    rw [State.acquire_of_refusal ha hh h1 h2 (by simpa [s0] using href), if_neg hne]
    cases blocker with
    | none => rfl
    | some h => rw [State.blockerBytes, State.blockerBytes, State.atGrant_unresolved]
  cases hn : s.namespaceById ns with
  | none => exact congrArg _ (hrefused .badNamespace none (by decide) (by simp only [State.acquireRefusal, hn]))
  | some n =>
    dsimp only
    by_cases hrange : length = 0 ∨ n.size < start + length
    · rw [if_pos hrange]
      exact congrArg _ (hrefused .outOfRange none (by decide) (by simp only [State.acquireRefusal, hn, if_pos hrange]))
    rw [if_neg hrange]
    have howned : s.ownOver p ns start length = mine := rfl
    cases hmine : mine with
    | some h =>
      exact congrArg _ (hrefused .overlap (some h) (by decide) (by
        simp only [State.acquireRefusal, hn, if_neg hrange, howned, hmine]))
    | none =>
      cases hway : inWay with
      | cons h rest =>
        have hother : s.otherOver p ns start length = some h := by
          have hnot : h.tenure.owner ≠ some p := by
            have hnone := List.find?_eq_none.1 hmine h (hway ▸ List.mem_cons_self)
            simpa using hnone
          change inWay.find? (fun h => h.tenure.owner != some p) = some h
          rw [hway, List.find?_cons_of_pos (by simpa using hnot)]
        have href : s.acquireRefusal p ns start length = some (.conflict, some h) := by
          simp only [State.acquireRefusal, hn, if_neg hrange, howned, hmine, hother]
        refine congrArg _ ((State.acquire_of_refusal ha hh h1 h2 (by simpa [s0] using href)).trans ?_)
        rw [if_pos rfl, State.blockerBytes, State.atGrant_unresolved]
        have htold : s0.contention p ns start length = told := by
          simp only [State.contention, State.partnerOver, s0, State.atGrant_holdingsOver, State.atGrant_isMember]
          rfl
        rw [htold]
      | nil =>
        have hother : s.otherOver p ns start length = none := by
          change inWay.find? (fun h => h.tenure.owner != some p) = none
          rw [hway]
          rfl
        dsimp only
        by_cases hbusy : (s.flight.entries.any fun e => e.writeOf p.partner && e.meets ns start length) = true
        · rw [if_pos hbusy]
          exact congrArg _ (hrefused .busyRange none (by decide) (by
            simp only [State.acquireRefusal, hn, if_neg hrange, howned, hmine, hother, hbusy, if_true]))
        rw [if_neg hbusy]
        by_cases hfull : 1024 ≤ s.table.holdings.length
        · rw [if_pos hfull]
          exact congrArg _ (hrefused .tableFull none (by decide) (by
            simp only [State.acquireRefusal, hn, if_neg hrange, howned, hmine, hother, if_neg hbusy, if_pos hfull]))
        rw [if_neg hfull]
        intro hg
        exact congrArg _ (hrefused .generationSpent none (by decide) (by
          simp only [State.acquireRefusal, hn, if_neg hrange, howned, hmine, hother, if_neg hbusy, if_neg hfull, hg, Option.isNone_none, if_true]))

/-! ## The id checks (R29) -/

section
variable {s : State} {p : Port} {id : Nat} {gen : Option Nat} {h : Holding}

theorem State.ownedHolding_of_absent (hh : s.holdingById id = none) : s.ownedHolding p id gen = .error .noHolding := by
  simp [State.ownedHolding, hh]

theorem State.ownedHolding_of_pending {q : Port} (hh : s.holdingById id = some h) (ht : h.tenure = .pending q) :
    s.ownedHolding p id gen = .error .transferPending := by
  simp [State.ownedHolding, hh, ht]

/-- The checks of a holding that is not PENDING, in their order. -/
theorem State.ownedHolding_of_not_pending (hh : s.holdingById id = some h) (ht : ∀ q, h.tenure ≠ .pending q) :
    s.ownedHolding p id gen =
      if h.tenure.owner = some p then
        if gen.all (fun g => h.gen = g) then if h.tenure = .held p then .ok h else .error .wrongState else .error .stale
      else .error .noHolding := by
  unfold State.ownedHolding
  rw [hh]
  dsimp only
  split
  · next q hq => exact absurd hq (ht q)
  · cases gen with
    | none => rfl
    | some g => simp

theorem State.ownedHolding_of_held (hh : s.holdingById id = some h) (ht : h.tenure = .held p) (hg : ∀ g, gen = some g → h.gen = g) :
    s.ownedHolding p id gen = .ok h := by
  have hall : gen.all (fun g => h.gen = g) = true := by
    cases gen with
    | none => rfl
    | some g => simpa using hg g rfl
  rw [State.ownedHolding_of_not_pending hh (fun q hq => by rw [ht] at hq; cases hq), if_pos (by rw [ht]; rfl), if_pos hall, if_pos ht]

end

/-- The id and generation that RELEASE, HAND-OVER, SPLIT and SET-HEIR check, once their fields have defined values. -/
def Request.checked : Request → Option (Nat × Option Nat)
  | .release id gen => some (id, some gen)
  | .handOver id gen => some (id, some gen)
  | .split id _ => some (id, none)
  | .setHeir id heir rank => if heirOf heir ≠ none ∧ rankOf rank ≠ none then some (id, none) else none
  | _ => none

/-- A request that the id checks refuse is answered with their code. -/
theorem Request.perform_of_error {r : Request} {p : Port} {tag : Byte} {id : Nat} {gen : Option Nat} {code : AnswerCode} {s : State}
    (hr : r.checked = some (id, gen)) (hc : s.ownedHolding p id gen = .error code) :
    r.perform (.port p) tag s = s.answer p tag r.code code [] := by
  cases r with
  | release i g => cases hr; simp only [Request.perform, State.release, hc]; rfl
  | handOver i g => cases hr; simp only [Request.perform, State.handOver, hc]; rfl
  | split i o => cases hr; simp only [Request.perform, State.split, hc]; rfl
  | setHeir i heir rank =>
    simp only [Request.checked] at hr
    split at hr
    · next hd =>
      cases hr
      obtain ⟨hheir, hrank⟩ := hd
      obtain ⟨x, hx⟩ := Option.ne_none_iff_exists'.1 hheir
      obtain ⟨y, hy⟩ := Option.ne_none_iff_exists'.1 hrank
      simp only [Request.perform, State.setHeir, hx, hy, hc]
      rfl
    · cases hr
  | _ => cases hr

theorem Request.isTable_of_checked {r : Request} {x : Nat × Option Nat} (hr : r.checked = some x) : r.isTable = true := by
  cases r with
  | release | handOver | split | setHeir => rfl
  | _ => cases hr

/-- Settles O28. -/
theorem idChecks : Obligations.IdChecks := by
  intro p tag id r s i hs hi carried gen hcarried
  have hchecked : r.checked = some (id, gen) := by
    cases r with
    | release x g | handOver x g =>
      obtain ⟨rfl, h⟩ := Option.ite_none_right_eq_some.1 (show (if x = id then some (some g) else none) = some gen from hcarried)
      cases h
      rfl
    | split x o =>
      obtain ⟨rfl, h⟩ := Option.ite_none_right_eq_some.1 (show (if x = id then some none else none) = some gen from hcarried)
      cases h
      rfl
    | setHeir x heir rank =>
      obtain ⟨⟨rfl, hdefined⟩, h⟩ := Option.ite_none_right_eq_some.1
        (show (if x = id ∧ heirOf heir ≠ none ∧ rankOf rank ≠ none then some none else none) = some gen from hcarried)
      cases h
      exact if_pos hdefined
    | _ => exact nomatch (show (none : Option (Option Nat)) = some gen from hcarried)
  intro answered
  have hanswered : ∀ code, s.ownedHolding p id gen = .error code → answered code := fun code hc => by
    change exec i s = _
    rw [exec_of_grants hi hs (Request.isTable_of_checked hchecked), Request.perform_of_error hchecked (by simpa using hc)]
  cases hh : s.holdingById id with
  | none => exact hanswered _ (State.ownedHolding_of_absent hh)
  | some h =>
    refine ⟨fun ⟨q, hq⟩ => hanswered _ (State.ownedHolding_of_pending hh hq), fun hp ho => hanswered _ ?_, fun hp ho hg => hanswered _ ?_,
      fun hp ho hg ht => hanswered _ ?_⟩
    · rw [State.ownedHolding_of_not_pending hh hp, if_neg ho]
    · obtain ⟨g, rfl, hne⟩ := hg
      rw [State.ownedHolding_of_not_pending hh hp, if_pos ho, if_neg (by simpa using Ne.symm hne)]
    · have hall : gen.all (fun g => h.gen = g) = true := by
        cases gen with
        | none => rfl
        | some g => simpa using (hg g rfl).symm
      rw [State.ownedHolding_of_not_pending hh hp, if_pos ho, if_pos hall, if_neg ht]

end Sys2Proof.Machine
end

section
/-! PROOFS. RELEASE, HAND-OVER, SPLIT, SET-HEIR, QUERY and LIST at a grant, and the completions of waits (R35 to R50). -/

namespace Sys2Proof.Machine

theorem Entry.overlaps_iff {e : Entry} {h : Holding} : e.overlaps h = true ↔
    e.ns = h.ns ∧ (e.range = none ∨ ∃ r b, e.range = some r ∧ r.start ≤ b ∧ b < r.start + r.count ∧ h.start ≤ b ∧ b < h.start + h.length) :=
  Entry.meets_iff

theorem State.writesOver_eq_false_iff {s : State} {p : Port} {h : Holding} :
    s.writesOver p h = false ↔ ∀ e ∈ s.flight.entries, e.writeOf p = true → e.overlaps h = false := by
  simp [State.writesOver]

theorem State.writesOver_iff {s : State} {p : Port} {h : Holding} :
    s.writesOver p h = true ↔ ∃ e ∈ s.flight.entries, e.writeOf p = true ∧ e.overlaps h = true := by
  simp [State.writesOver]

/-- Settles O29. -/
theorem releases : Obligations.Releases := by
  refine ⟨?_, fun e h => Entry.overlaps_iff⟩
  intro p tag id gen h s hs hh ht hg s0
  have howned : s0.ownedHolding p id (some gen) = .ok h := by
    rw [State.atGrant_ownedHolding]
    exact State.ownedHolding_of_held hh ht (fun g hg' => by cases hg'; exact hg)
  have hexec : exec (.release p) s = .next (State.release p tag id gen s0) := exec_of_grants rfl hs rfl
  refine ⟨fun hno => ?_, fun hw => ?_⟩
  · have hw : s0.writesOver p h = false := by
      rw [State.atGrant_writesOver]
      exact State.writesOver_eq_false_iff.2 hno
    rw [hexec, State.release, howned]
    simp only [hw, Bool.false_eq_true, if_false, State.retire_eq, s0, State.atGrant_holdings]
    rfl
  · have hw : s0.writesOver p h = true := by
      rw [State.atGrant_writesOver]
      exact State.writesOver_iff.2 hw
    rw [hexec, State.release, howned]
    simp only [hw, if_true, State.setHolding, s0, State.atGrant_holdings]
    rfl

/-! ## Completions (R25, R37) -/

theorem State.takeDue_eq {s : State} {d : Due} {rest : List Due} (h : s.table.due = d :: rest) :
    s.takeDue = { s with table := { s.table with due := rest, pointer := .portA } } := by
  simp only [State.takeDue, h, List.tail_cons]
  rfl

theorem State.dueHolding_spec {s : State} {d : Due} {h : Holding} (hh : s.dueHolding d = some h) :
    h ∈ s.table.holdings ∧ h.id = d.id ∧ h.gen = d.gen := by
  have hn := List.find?_some hh
  simp only [Due.names, Bool.and_eq_true, decide_eq_true_eq] at hn
  exact ⟨List.mem_of_find?_eq_some hh, hn⟩

/-- Settles O30. -/
theorem releaseCompletions : Obligations.ReleaseCompletions := by
  intro d rest s hdue hk hg s0
  have hexec : exec .releaseCompletion s = .next (s0.completeRelease d).walkTest := by
    change execReleaseCompletion s = _
    simp only [execReleaseCompletion, hdue, hk, hg, and_self, if_true, State.takeDue_eq hdue]
    rfl
  refine ⟨fun h o tag hh ht => ?_, fun hno => ?_⟩
  · have hd : s0.dueHolding d = some h := hh
    rw [hexec, State.completeRelease, hd]
    simp only [ht, State.retire_eq]
    rfl
  · rw [hexec, State.completeRelease]
    cases hd : s0.dueHolding d with
    | none => rfl
    | some h =>
      obtain ⟨hm, hid, hgen⟩ := State.dueHolding_spec hd
      dsimp only
      split
      · next o tag ht => exact absurd ht (hno h hm hid hgen o tag)
      · rfl

/-! ## HAND-OVER (R39 to R41) -/

theorem returnTenure_eq (st : PathState) (p : Port) :
    returnTenure st p = if st = .draining ∨ st = .shedding then .pending p else .held p := by
  cases st <;> rfl

section
variable {s : State} {p : Port} {h : Holding} {tag : Byte} {g : Nat}

/-- A hand-over that is not made: the holding returns to the giver, and the answer carries the code. -/
theorem State.finishHandOver_of_refusal {code : AnswerCode} (href : s.handOverRefusal p h = some code) : s.finishHandOver p h tag =
    ({ s with table := { s.table with holdings := s.table.holdings.map fun x : Holding =>
      if x.id = h.id then { x with tenure := returnTenure (s.path p).state p } else x } }).answer p tag 3 code [] := by
  simp only [State.finishHandOver, href]
  rfl

theorem State.handOverRefusal_of_unresolved (hu : s.unresolved h = true) : s.handOverRefusal p h = some .unresolved := by
  simp [State.handOverRefusal, hu]

theorem State.handOverRefusal_of_absent (hu : s.unresolved h = false) (hm : s.isMember p.partner = false) :
    s.handOverRefusal p h = some .partnerAbsent := by
  simp [State.handOverRefusal, hu, hm]

theorem State.handOverRefusal_of_spent (hu : s.unresolved h = false) (hm : s.isMember p.partner = true) (hg : s.table.gen = none) :
    s.handOverRefusal p h = some .generationSpent := by
  simp [State.handOverRefusal, hu, hm, hg]

theorem State.handOverRefusal_of_granted (hu : s.unresolved h = false) (hm : s.isMember p.partner = true) (hg : s.table.gen = some g) :
    s.handOverRefusal p h = none := by
  simp [State.handOverRefusal, hu, hm, hg]

/-- The state in which a hand-over has passed the record to the partner. -/
def State.handedOver (s : State) (p : Port) (h : Holding) (g : Nat) : State := { s with
  table := { s.table with
    holdings := s.table.holdings.map fun x : Holding => if x.id = h.id then { x with tenure := .held p.partner, gen := g } else x
    gen := genAfter g }
  paths := if (s.path p).state = .draining ∨ (s.path p).state = .shedding then
      s.paths.set p { s.path p with takeover := (s.path p).takeover.map fun t : Takeover => { t with transferred := t.transferred + 1 } }
    else s.paths }

theorem State.finishHandOver_of_granted (hu : s.unresolved h = false) (hm : s.isMember p.partner = true) (hg : s.table.gen = some g) :
    s.finishHandOver p h tag = ((s.handedOver p h g).raise .received { port := none, value := h.id } [p.partner]).answer p tag 3 .good
      (holdingBytes { h with tenure := .held p.partner, gen := g } false) := by
  have hrecord : ∀ t : State, t.flight = s.flight → t.holdingRecord (h.grantedTo p.partner g)
      = holdingBytes { h with tenure := .held p.partner, gen := g } false := fun t ht => by
    have hu' : t.unresolved (h.grantedTo p.partner g) = false := (State.unresolved_congr ht rfl rfl rfl).trans hu
    rw [State.holdingRecord, hu']
    rfl
  have hleaving : returnTenure (s.path p).state p = .pending p ↔ (s.path p).state = .draining ∨ (s.path p).state = .shedding := by
    rw [returnTenure_eq]
    split <;> simp [*]
  simp only [State.finishHandOver, State.handOverRefusal_of_granted hu hm hg, hg, Option.getD_some, hleaving]
  have hpassed : (if (s.path p).state = .draining ∨ (s.path p).state = .shedding then
      ((s.setHolding h.id fun x => x.grantedTo p.partner g).advanceGen g).onTakeover p fun t => { t with transferred := t.transferred + 1 }
      else (s.setHolding h.id fun x => x.grantedTo p.partner g).advanceGen g) = s.handedOver p h g := by
    unfold State.handedOver
    split <;> rfl
  rw [hpassed, hrecord _ (by rw [State.raise_flight]; rfl)]

end

/-- Settles O31. -/
theorem handOvers : Obligations.HandOvers := by
  intro p tag id gen h s hs hh ht hg s0 waits
  have howned : s0.ownedHolding p id (some gen) = .ok h := by
    rw [State.atGrant_ownedHolding]
    exact State.ownedHolding_of_held hh ht (fun g hg' => by cases hg'; exact hg)
  have hid : h.id = id := (State.ownedHolding_ok howned).2.1
  have hmember : (s.path p).state.isMember = true := State.isMember_of_refusal hs.1.2 fun st => by cases st <;> simp [requestGate, PathState.isMember]
  have hstays : ¬ ((s.path p).state = .draining ∨ (s.path p).state = .shedding) := by
    intro hl
    obtain hl | hl := hl <;> rw [hl] at hmember <;> cases hmember
  have hpath : s0.path p = s.path p := by simp [s0, State.path]
  have hexec : exec (.handOver p) s = .next (State.handOver p tag id gen s0) := exec_of_grants rfl hs rfl
  have hwaits : s0.writesOver p h = true ↔ waits := by
    rw [State.atGrant_writesOver]
    exact State.writesOver_iff
  have hfinish : s.isMember p.partner = true → ¬ waits → State.handOver p tag id gen s0 = s0.finishHandOver p h tag := by
    intro hm hw
    have hm' : s0.isMember p.partner = true := by simpa [s0] using hm
    have hw' : s0.writesOver p h = false := Bool.eq_false_iff.2 (fun hc => hw (hwaits.1 hc))
    simp only [State.handOver, howned, hm', hw', Bool.not_true, Bool.false_eq_true, if_false]
  have hreturned : ∀ code, s.isMember p.partner = true → ¬ waits → s0.handOverRefusal p h = some code →
      exec (.handOver p) s = .next (({ s0 with table := { s0.table with
        holdings := s.table.holdings.map fun x : Holding => if x.id = id then { x with tenure := .held p } else x } }).answer p tag 3 code []) := by
    intro code hm hw href
    rw [hexec, hfinish hm hw, State.finishHandOver_of_refusal href, hpath, returnTenure_eq, if_neg hstays, hid,
      show s0.table.holdings = s.table.holdings from State.atGrant_holdings _ _]
  have hu' : s0.unresolved h = s.unresolved h := State.atGrant_unresolved _ _ _
  have hm' : s0.isMember p.partner = s.isMember p.partner := State.atGrant_isMember _ _ _
  have hgen' : s0.table.gen = s.table.gen := State.atGrant_gen _ _
  refine ⟨fun hm => ?_, fun hm hw => ?_, fun hm hw hu => ?_, fun hm hw hu hnone => ?_, fun g hm hw hu hsome => ?_⟩
  · simp only [hexec, State.handOver, howned, hm', hm, Bool.not_false, if_true]
  · simp only [hexec, State.handOver, howned, hm', hm, Bool.not_true, Bool.false_eq_true, if_false, hwaits.2 hw, if_true, State.setHolding, s0,
      State.atGrant_holdings]
    rfl
  · exact hreturned _ hm hw (State.handOverRefusal_of_unresolved (hu'.trans hu))
  · exact hreturned _ hm hw (State.handOverRefusal_of_spent (hu'.trans hu) (hm'.trans hm) (hgen'.trans hnone))
  · rw [hexec, hfinish hm hw, State.finishHandOver_of_granted (hu'.trans hu) (hm'.trans hm) (hgen'.trans hsome), State.handedOver, hpath,
      if_neg hstays, hid, show s0.table.holdings = s.table.holdings from State.atGrant_holdings _ _]

/-! ## A due hand-over (R25, R40) -/

/-- Another completion of the same wait loses its generation. -/
theorem Due.spend_eq (d : Due) : d.spend = fun x => if x.id = d.id ∧ x.gen = d.gen then { x with gen := 0 } else x := by
  funext x
  simp only [Due.spend, Bool.and_eq_true, decide_eq_true_eq]

/-- Settles O32. -/
theorem handOverCompletions : Obligations.HandOverCompletions := by
  intro d rest s hdue hk hg s0
  have hexec : exec .handOverCompletion s = .next (s0.completeHandOver d).walkTest := by
    change execHandOverCompletion s = _
    simp only [execHandOverCompletion, hdue, hk, hg, and_self, if_true, State.takeDue_eq hdue]
    rfl
  refine ⟨fun hno => ?_, ?_⟩
  · rw [hexec, State.completeHandOver]
    cases hd : s0.dueHolding d with
    | none => rfl
    | some h =>
      obtain ⟨hm, hid, hgen⟩ := State.dueHolding_spec hd
      dsimp only
      split
      · next o tag ht => exact absurd ht (hno h hm hid hgen o tag)
      · rfl
  · intro h o tag hh ht spent leaving back
    have hd : s0.dueHolding d = some h := hh
    have hspent : s0.spendDue d = { s0 with table := { s0.table with due := spent } } := by
      rw [State.spendDue, Due.spend_eq]
      rfl
    have hdone : exec .handOverCompletion s = .next (State.finishHandOver { s0 with table := { s0.table with due := spent } } o h tag).walkTest := by
      rw [hexec, State.completeHandOver, hd, ← hspent]
      simp only [ht]
    have hreturned : ∀ code, State.handOverRefusal { s0 with table := { s0.table with due := spent } } o h = some code →
        exec .handOverCompletion s = .next (back.answer o tag 3 code []).walkTest := by
      intro code href
      rw [hdone, State.finishHandOver_of_refusal href, returnTenure_eq]
      rfl
    by_cases hu : s.unresolved h = true
    · rw [if_pos hu]
      exact hreturned _ (State.handOverRefusal_of_unresolved hu)
    rw [if_neg hu, Bool.not_eq_true] at *
    by_cases hm : s.isMember o.partner = false
    · rw [if_pos hm]
      exact hreturned _ (State.handOverRefusal_of_absent hu hm)
    rw [if_neg hm, Bool.not_eq_false] at *
    cases hgen : s.table.gen with
    | none => exact hreturned _ (State.handOverRefusal_of_spent hu hm hgen)
    | some g =>
      dsimp only
      rw [hdone]
      exact congrArg (fun t => Host.Outcome.next (State.walkTest t)) (State.finishHandOver_of_granted hu hm hgen)

end Sys2Proof.Machine
end

section
/-! PROOFS. SPLIT, SET-HEIR, QUERY and LIST at a grant (R43 to R50), and the shedding walk (R128 to R130). -/

namespace Sys2Proof.Machine

/-! ## SPLIT and SET-HEIR (R43, R44) -/

section
variable {s : State} {p : Port} {tag : Byte} {id offset : Nat} {h : Holding}

theorem State.split_of_refusal {code : AnswerCode} (ho : s.ownedHolding p id none = .ok h) (hr : s.splitRefusal h offset = some code) :
    State.split p tag id offset s = s.answer p tag 4 code [] := by
  simp only [State.split, ho, hr]

theorem State.split_of_granted {g : Nat} (ho : s.ownedHolding p id none = .ok h) (hr : s.splitRefusal h offset = none) (hg : s.table.gen = some g) :
    State.split p tag id offset s =
      let old : Holding := { h with length := offset }
      let upper : Holding := { h with id := s.freeId, start := h.start + offset, length := h.length - offset, gen := g }
      ({ s with table := { s.table with
        holdings := insertHolding upper (s.table.holdings.map fun x : Holding => if x.id = id then { x with length := offset } else x)
        gen := genAfter g } }).answer p tag 4 .good (holdingBytes old (s.unresolved old) ++ holdingBytes upper (s.unresolved upper)) := by
  simp only [State.split, ho, hr, hg, Option.getD_some]
  rfl

end

/-- Settles O33. -/
theorem splits : Obligations.Splits := by
  intro p tag id offset h s hs hh ht s0
  have howned : s0.ownedHolding p id none = .ok h := by
    rw [State.atGrant_ownedHolding]
    exact State.ownedHolding_of_held hh ht (fun g hg => by cases hg)
  have hexec : exec (.split p) s = .next (State.split p tag id offset s0) := exec_of_grants rfl hs rfl
  have hrefused : ∀ code, s.splitRefusal h offset = some code → exec (.split p) s = .next (s0.answer p tag 4 code []) := by
    intro code hr
    rw [hexec, State.split_of_refusal howned (by simpa [s0] using hr)]
  refine ⟨fun hoff => hrefused _ (if_pos hoff), fun hpos hlt => ?_⟩
  have hoff : ¬ (offset = 0 ∨ h.length ≤ offset) := by omega
  refine ⟨fun hfull => hrefused _ ?_, fun hroom hnone => hrefused _ ?_, fun g hroom hg => ?_⟩
  · rw [State.splitRefusal, if_neg hoff, if_pos hfull]
  · rw [State.splitRefusal, if_neg hoff, if_neg (Nat.not_le.2 hroom), if_pos (by rw [hnone]; rfl)]
  · obtain ⟨hid, hfree, hlow⟩ := State.freeId_free hroom
    have hr : s0.splitRefusal h offset = none := by
      rw [State.atGrant_splitRefusal, State.splitRefusal, if_neg hoff, if_neg (Nat.not_le.2 hroom), if_neg (by rw [hg]; simp)]
    refine ⟨s.freeId, hid, hfree, hlow, ?_⟩
    rw [hexec, State.split_of_granted howned hr (by simpa [s0] using hg)]
    simp only [s0, State.atGrant_freeId, State.atGrant_holdings, State.atGrant_unresolved]

/-- Settles O34. -/
theorem setsHeir : Obligations.SetsHeir := by
  intro p tag id heir rank s hs s0
  have hexec : exec (.setHeir p) s = .next (State.setHeir p tag id heir rank s0) := exec_of_grants rfl hs rfl
  refine ⟨fun hbad => ?_, fun h hr hh ht hheir h1 h2 => ?_⟩
  · rw [hexec, State.setHeir]
    split
    · next x y hx hy =>
      obtain ⟨-, h1, h2⟩ := rankOf_eq_some_iff.1 hy
      rw [hx] at hbad
      simp only [reduceCtorEq, false_or] at hbad
      omega
    · rfl
  · have howned : s0.ownedHolding p id none = .ok h := by
      rw [State.atGrant_ownedHolding]
      exact State.ownedHolding_of_held hh ht (fun g hg => by cases hg)
    have hu : s0.unresolved h = s.unresolved h := State.atGrant_unresolved _ _ _
    rw [hexec, State.setHeir, hheir, rankOf_of_range h1 h2]
    simp only [howned, State.setHolding, ← hu, ← State.atGrant_holdings s (.port p)]
    rfl

/-! ## QUERY and LIST (R49, R50) -/

theorem State.lookup_eq_some {s : State} (ht : s.tableSound) {ns block : Nat} {h : Holding} (hm : h ∈ s.table.holdings)
    (hc : h.ns = ns ∧ h.start ≤ block ∧ block < h.start + h.length) : s.lookup ns block = some h := by
  obtain ⟨hn, h1, h2⟩ := hc
  cases hf : s.lookup ns block with
  | none =>
    have hno := List.find?_eq_none.1 hf h hm
    simp only [Bool.and_eq_true, decide_eq_true_eq, not_and, and_imp] at hno
    exact absurd (show block ≤ h.last by rw [Holding.last_eq]; omega) (hno hn h1)
  | some x =>
    have hx := List.find?_some hf
    simp only [Bool.and_eq_true, decide_eq_true_eq] at hx
    obtain ⟨⟨hxn, hx1⟩, hx2⟩ := hx
    have hxm := List.mem_of_find?_eq_some hf
    obtain ⟨-, -, -, -, hrecord, -⟩ := id ht
    obtain ⟨-, hlen, -⟩ := hrecord x hxm
    rw [Holding.last_eq] at hx2
    rw [State.record_of_block ht hxm hm (hxn.trans hn.symm) ⟨hx1, by omega⟩ ⟨h1, h2⟩]

theorem State.lookup_eq_none {s : State} (ht : s.tableSound) {ns block : Nat}
    (hno : ∀ h ∈ s.table.holdings, ¬ (h.ns = ns ∧ h.start ≤ block ∧ block < h.start + h.length)) : s.lookup ns block = none := by
  obtain ⟨-, -, -, -, hrecord, -⟩ := ht
  rw [State.lookup, List.find?_eq_none]
  intro x hx hc
  simp only [Bool.and_eq_true, decide_eq_true_eq] at hc
  obtain ⟨⟨hn, h1⟩, h2⟩ := hc
  obtain ⟨-, hlen, -⟩ := hrecord x hx
  rw [Holding.last_eq] at h2
  exact hno x hx ⟨hn, h1, by omega⟩

/-- Settles O37. -/
theorem queries : Obligations.Queries := by
  intro c tag ns block s hs s0 covers
  have hlookup : s0.lookup ns block = s.lookup ns block := by simp only [State.lookup, s0, State.atGrant_holdings]
  have hexec : exec (.query c) s = .next (State.query c tag ns block s0) := by
    cases c <;> exact exec_of_grants rfl hs rfl
  refine ⟨fun hn => ?_, fun n hn => ⟨fun hout => ?_, fun hin ht => ⟨fun h hm hc => ?_, fun hno => ?_⟩⟩⟩
  · rw [hexec, State.query, State.atGrant_namespaceById, hn]
  · rw [hexec, State.query, State.atGrant_namespaceById, hn]
    simp only [if_pos hout]
  · rw [hexec, State.query, State.atGrant_namespaceById, hn]
    simp only [if_neg (Nat.not_le.2 hin), hlookup, State.lookup_eq_some ht hm hc, State.holdingRecord, s0, State.atGrant_unresolved]
  · rw [hexec, State.query, State.atGrant_namespaceById, hn]
    simp only [if_neg (Nat.not_le.2 hin), hlookup, State.lookup_eq_none ht hno, s0, State.atGrant_policy]

/-- Settles O38. -/
theorem lists : Obligations.Lists := by
  intro c tag ns fromBlock max s hs s0 top found records
  have hexec : exec (.list c) s = .next (State.list c tag ns fromBlock max s0) := by
    cases c <;> exact exec_of_grants rfl hs rfl
  have htop : listMax c = top := by cases c <;> rfl
  have hfound : s0.recordsFrom ns fromBlock = found := by
    simp only [State.recordsFrom, s0, State.atGrant_holdings]
    rfl
  rw [hexec, State.list, htop]
  by_cases hmax : max < 1 ∨ top < max
  · rw [if_pos hmax, if_pos (by omega)]
  rw [if_neg hmax, if_neg (by omega), State.atGrant_namespaceById]
  cases hn : s.namespaceById ns with
  | none => rfl
  | some n =>
    have hid : n.id = ns := by
      have := List.find?_some hn
      simpa using this
    dsimp only
    by_cases hout : n.size ≤ fromBlock
    · rw [if_pos hout, if_pos hout]
    have hresult : s0.listResult n fromBlock max = be 1 (found.take max).length ++ be 1 (bit (!(found.drop max).isEmpty) 0)
        ++ be 6 (match found.drop max with
          | [] => n.size
          | h :: _ => h.start) ++ records := by
      have hrecord : s0.holdingRecord = fun h => holdingBytes h (s.unresolved h) :=
        funext fun h => by rw [State.holdingRecord, State.atGrant_unresolved]
      rw [State.listResult, hid, hfound, hrecord]
        <;> rfl
    rw [if_neg hout, if_neg hout, hresult]
    refine ⟨fun hl => ?_, fun h hh => ?_⟩
    · rw [List.drop_eq_nil_of_le hl, List.take_of_length_le hl]
      rfl
    · obtain ⟨hlt, rfl⟩ := List.getElem?_eq_some_iff.1 hh
      rw [List.drop_eq_getElem_cons hlt, List.length_take_of_le hlt.le]
      rfl

/-! ## The shedding walk (R129) -/

/-- A choice of the better of two leaves a value that no other is better than. -/
theorem foldl_choice_best {α : Type} {f : α → α → α} {le : α → α → Prop} (hrefl : ∀ x, le x x) (htrans : ∀ x y z, le x y → le y z → le x z)
    (hleft : ∀ x y, le x (f x y)) (hright : ∀ x y, le y (f x y)) : ∀ (xs : List α) (a : α), ∀ x ∈ a :: xs, le x (xs.foldl f a)
  | [], a, x, hx => by
    rw [List.mem_singleton.1 hx]
    exact hrefl a
  | y :: xs, a, x, hx => by
    have ih := foldl_choice_best hrefl htrans hleft hright xs (f a y)
    obtain rfl | hx := List.mem_cons.1 hx
    · exact htrans _ _ _ (hleft _ y) (ih _ List.mem_cons_self)
    · obtain rfl | hx := List.mem_cons.1 hx
      · exact htrans _ _ _ (hright a _) (ih _ List.mem_cons_self)
      · exact ih x (List.mem_cons_of_mem _ hx)

/-- A holding is walked no earlier than another: its rank is lower, or equal with an id that is no lower (R6). -/
def Holding.walkedAfter (x y : Holding) : Prop := x.rank < y.rank ∨ (x.rank = y.rank ∧ y.id ≤ x.id)

theorem walkedFirst_left (x y : Holding) : x.walkedAfter (walkedFirst x y) := by
  unfold walkedFirst Holding.walkedAfter
  split
  · exact .inl ‹_›
  · split
    · next h =>
      simp only [Bool.and_eq_true, decide_eq_true_eq] at h
      omega
    · omega

theorem walkedFirst_right (x y : Holding) : y.walkedAfter (walkedFirst x y) := by
  unfold walkedFirst Holding.walkedAfter
  split
  · omega
  · split
    · omega
    · next h =>
      simp only [Bool.and_eq_true, decide_eq_true_eq] at h
      omega

/-- The walk takes the one PENDING holding that every other is walked after. -/
theorem State.walkChoice_eq {s : State} {p : Port} {h : Holding} (ht : s.tableSound) (hm : h ∈ s.table.holdings) (hp : h.tenure = .pending p)
    (hbest : ∀ x ∈ s.table.holdings, x.tenure = .pending p → x.walkedAfter h) : s.walkChoice p = some h := by
  have hin : h ∈ s.table.holdings.filter fun h => h.isPendingOf p := List.mem_filter.2 ⟨hm, by simp [Holding.isPendingOf, hp]⟩
  cases hc : s.walkChoice p with
  | none =>
    unfold State.walkChoice at hc
    split at hc
    · next hnil =>
      rw [hnil] at hin
      cases hin
    · cases hc
  | some x =>
    obtain ⟨hxm, hxp⟩ := State.walkChoice_mem hc
    have hx : h.walkedAfter x := by
      unfold State.walkChoice at hc
      split at hc
      · cases hc
      · next y ys hl =>
        cases hc
        rw [hl] at hin
        refine foldl_choice_best (le := Holding.walkedAfter) (fun x => .inr ⟨rfl, le_refl _⟩) ?_ walkedFirst_left walkedFirst_right ys y h hin
        unfold Holding.walkedAfter
        omega
    have hh := hbest x hxm hxp
    unfold Holding.walkedAfter at hx hh
    rw [State.record_of_id ht hxm hm (by omega)]

/-- Settles O39. -/
theorem walkSteps : Obligations.WalkSteps := by
  intro p ports h s ht hdue hwalk hg hm hp hbest walked
  have hexec : exec .walkStep s = .next ((s.granted .internal).walkOne p h).walkTest := by
    change execWalkStep s = _
    simp only [execWalkStep, hdue, hwalk, hg, if_true, State.walkChoice_eq ht hm hp hbest]
  have htransfer : (s.granted .internal).transferable p h = s.transferable p h := rfl
  have hgen : (s.granted .internal).table.gen = s.table.gen := rfl
  refine ⟨fun hstays => ?_, fun g hu hheir hmember hsome => ?_⟩
  · have horphaned : (s.granted .internal).walkOne p h = walked (fun x => { x with tenure := .orphaned p }) s.table.gen
        fun t => { t with orphaned := t.orphaned + 1 } := by
      have hno : ∀ g, s.table.gen = some g → s.transferable p h = false := by
        intro g hs
        simp only [State.transferable, Bool.and_eq_false_iff, Bool.not_eq_false', decide_eq_false_iff_not]
        obtain hx | hx | hx | hx := hstays
        · exact .inl (.inl hx)
        · exact .inl (.inr (by rw [hx]; decide))
        · exact .inr hx
        · rw [hs] at hx
          cases hx
      unfold State.walkOne
      split
      · next g hs =>
        rw [htransfer, hno g hs]
        rfl
      · rfl
    rw [hexec, horphaned]
  · have hyes : s.transferable p h = true := by simp [State.transferable, hu, hheir, hmember]
    have hpassed : (s.granted .internal).walkOne p h = walked (fun x => { x with tenure := .held p.partner, gen := g }) (genAfter g)
        fun t => { t with transferred := t.transferred + 1 } := by
      unfold State.walkOne
      rw [hgen, hsome]
      dsimp only
      rw [htransfer, if_pos hyes]
      rfl
    rw [hexec, hpassed]


/-! ## The end of a walk (R128, R130) -/

/-- What is owed to a port that sheds: a walk step, or the completion of a wait of its own. -/
theorem State.walkOver_eq_false_iff {s : State} {p : Port} : s.walkOver p = false ↔
    (∃ h ∈ s.table.holdings, h.tenure = .pending p)
      ∨ ∃ d ∈ s.table.due, ∃ h ∈ s.table.holdings, h.id = d.id ∧ h.gen = d.gen ∧
          ((∃ tag, h.tenure = .releasing p tag) ∨ ∃ tag, h.tenure = .handing p tag) := by
  have hcompletion : ∀ h : Holding, (h.completion p).isSome = true ↔ (∃ tag, h.tenure = .releasing p tag) ∨ ∃ tag, h.tenure = .handing p tag := by
    intro h
    rw [Holding.completion_eq]
    cases h.tenure with
    | releasing o tag | handing o tag => by_cases ho : o = p <;> simp [ho]
    | _ => simp
  simp only [State.walkOver, Bool.and_eq_false_iff, Bool.not_eq_false', List.any_eq_true, Bool.and_eq_true, hcompletion,
    Holding.isPendingOf, Due.names, decide_eq_true_eq, and_assoc]

theorem State.enterFenced_walk (s : State) (p : Port) : (s.enterFenced p).walk = s.walk.filter fun q => q != p := by
  unfold State.enterFenced
  dsimp only
  split <;> simp

/-- Settles O40. -/
theorem walkEnds : Obligations.WalkEnds := by
  refine fun s => ⟨fun h => ?_, ?_⟩
  · rw [State.walkTest, h]
    rfl
  · intro p ports hwalk hall owed
    have hstep : s.walkTest = if s.walkOver p then settleWalk ports (s.enterFenced p) else s := by
      rw [State.walkTest, hwalk]
      rfl
    refine ⟨fun ho => ?_, ?_⟩
    · rw [hstep, if_neg (by rw [State.walkOver_eq_false_iff.2 ho]; decide)]
    · intro ho x count s1 s2 s3 s4
      have hover : s.walkOver p = true := by
        rw [← Bool.not_eq_false, State.walkOver_eq_false_iff]
        exact ho
      have hports : s.walk.filter (fun q => q != p) = ports := by
        rw [hwalk, List.filter_cons_of_neg (by simp), List.filter_eq_self]
        simpa using hall
      have hwalk1 : (s.enterFenced p).walk = ports := (s.enterFenced_walk p).trans hports
      have hfenced : s.enterFenced p = s4 := by
        have hs1 : (s.withPath p (x.fenced s.clock.ms)).withWalk (s.walk.filter fun q => q != p) = s1 := by
          rw [hports]
          rfl
        have hpaths : s3.paths = s1.paths := by
          have hs2 : s2.paths = s1.paths := State.raise_paths _ _ _ _
          dsimp only [s3]
          split
          · rw [State.raise_paths, hs2]
          · exact hs2
        have hparked : (s3.path p).parkedResign = x.parkedResign := by
          rw [State.path, hpaths]
          dsimp only [s1]
          rw [Pair.get_set_self]
        have hfirst : s.enterFenced p = s3.settleResign p .good := by
          dsimp only [s3, s2]
          rw [← hs1]
          rfl
        rw [hfirst, State.settleResign, hparked]
        rfl
      rw [hstep, if_pos hover, ← hfenced, State.walkTest, hwalk1]

end Sys2Proof.Machine
end

section
/-! PROOFS. Notices (chapter 8): recording, the alert line, and TAKE-NOTICE, ACK-NOTICE and SET-THRESHOLD. -/

namespace Sys2Proof.Machine

/-! ## Recording (R153 to R158) -/

/-- The entry that a recording leaves for its kind. -/
def Target.recordedNotice (t : Target) (k : NoticeKind) (d : Detail) : Notice where
  kind := k
  detail := d
  occurrences := match t.find k with
    | none => 1
    | some m => min 255 (m.occurrences + 1)

theorem Target.find_record (t : Target) (k : NoticeKind) (d : Detail) : (t.record k d).find k = some (t.recordedNotice k d) := by
  rw [Target.recordedNotice]
  cases hf : t.find k with
  | none =>
    have hnone : t.pending.find? (fun n => n.kind = k) = none := hf
    rw [Target.record, hf, Target.find]
    simp [List.find?_append, hnone]
  | some m =>
    have hm : m.kind = k := by
      have := List.find?_some hf
      simpa using this
    have hsome : t.pending.find? (fun n => n.kind = k) = some m := hf
    have hkeeps : ((fun n : Notice => decide (n.kind = k)) ∘ fun n : Notice =>
        if n.kind = k then { n with occurrences := min 255 (n.occurrences + 1), detail := d } else n) = fun n => decide (n.kind = k) := by
      funext n
      by_cases hn : n.kind = k <;> simp [hn]
    rw [Target.record, hf, Target.find]
    dsimp only
    rw [List.find?_map, hkeeps, hsome, Option.map_some, if_pos hm, hm]

theorem State.recordAtPort_of_skipped {s : State} {k : NoticeKind} {d : Detail} {p : Port} (h : s.isMember p = false ∨ s.priority k = 0) :
    s.recordAtPort k d p = s := by
  rw [State.recordAtPort, if_neg]
  obtain h | h := h <;> simp [h]

theorem State.qualifies_iff {s : State} {t : Target} {k : NoticeKind} :
    s.qualifies t k = true ↔ max t.threshold t.level < s.priority k ∨ s.priority k = 15 := by
  simp [State.qualifies]

theorem Target.record_limits (t : Target) (k : NoticeKind) (d : Detail) :
    (t.record k d).threshold = t.threshold ∧ (t.record k d).level = t.level := by
  unfold Target.record
  split <;> exact ⟨rfl, rfl⟩

/-- Settles O41. -/
theorem noticesRecorded : Obligations.NoticesRecorded := by
  intro s k d high recorded
  have hrecorded : ∀ t, recorded t = t.record k d := fun t => by
    unfold Target.record
    rfl
  refine ⟨fun p h => State.recordAtPort_of_skipped h, fun p hm hp => ?_, ?_, fun p => rfl, rfl, rfl, ?_⟩
  · intro t s1
    have hfind := t.find_record k d
    obtain ⟨hth, hlv⟩ := t.record_limits k d
    have hq : s.qualifies (t.record k d) k = true ↔ high t := by
      rw [State.qualifies_iff, hth, hlv]
    have hrec : s.recordAtPort k d p = if s.qualifies (t.record k d) k then s1.alertFrame p k (t.recordedNotice k d) else s1 := by
      rw [State.recordAtPort, if_pos (by simp [hm, hp])]
      dsimp only
      rw [show s.target (.port p) = t from rfl, hfind]
      dsimp only [s1]
      rw [hrecorded]
      rfl
    refine ⟨_, by rw [hrecorded]; exact hfind, rfl, rfl, fun hh => ?_, fun hh => ?_⟩
    · rw [hrec, if_pos (hq.2 hh)]
      rfl
    · rw [hrec, if_neg (fun hc => hh (hq.1 hc))]
  · rw [State.recordAtMgmt, hrecorded]
    simp [or_assoc]
    rfl
  · obtain ⟨-, -, -, halert, -⟩ := statusByte_bits s.mailbox.request.isSome s.mailbox.answerReady s.mailbox.overrun s.alertLine s.part.state
    rw [show s.statusByte.getLsbD 3 = s.alertLine from halert]
    simp only [State.alertLine, List.any_eq_true, State.qualifies_iff]

/-! ## TAKE-NOTICE, ACK-NOTICE and SET-THRESHOLD (R159 to R162) -/

/-- A pending entry goes no earlier than another. -/
def State.noticedAfter (s : State) (x y : Notice) : Prop :=
  s.priority x.kind < s.priority y.kind ∨ (s.priority x.kind = s.priority y.kind ∧ y.kind.num ≤ x.kind.num)

theorem State.higher_choice (s : State) (x y : Notice) : s.higher x y = x ∨ s.higher x y = y := by
  unfold State.higher
  split
  · exact .inr rfl
  · split
    · exact .inr rfl
    · exact .inl rfl

theorem State.higher_left (s : State) (x y : Notice) : s.noticedAfter x (s.higher x y) := by
  unfold State.higher State.noticedAfter
  split
  · exact .inl ‹_›
  · split
    · next h =>
      simp only [Bool.and_eq_true, decide_eq_true_eq] at h
      omega
    · omega

theorem State.higher_right (s : State) (x y : Notice) : s.noticedAfter y (s.higher x y) := by
  unfold State.higher State.noticedAfter
  split
  · omega
  · split
    · omega
    · next h =>
      simp only [Bool.and_eq_true, decide_eq_true_eq] at h
      omega

/-- The top entry is the one that every other goes after (R159). -/
theorem State.topNotice_eq {s : State} {t : Target} {n : Notice} (hn : n ∈ t.pending)
    (hbest : ∀ m ∈ t.pending, m = n ∨ s.priority m.kind < s.priority n.kind
      ∨ (s.priority m.kind = s.priority n.kind ∧ n.kind.num < m.kind.num)) : s.topNotice t = some n := by
  unfold State.topNotice
  cases hl : t.pending with
  | nil =>
    rw [hl] at hn
    cases hn
  | cons x xs =>
    rw [hl] at hn hbest
    have hin := foldl_choice_mem s.higher_choice xs x
    have hafter := foldl_choice_best (le := s.noticedAfter) (fun x => .inr ⟨rfl, le_refl _⟩)
      (by unfold State.noticedAfter; omega) s.higher_left s.higher_right xs x n hn
    obtain heq | hlt := hbest _ hin
    · exact congrArg some heq
    · unfold State.noticedAfter at hafter
      omega

@[simp] theorem State.takeFront_target (s : State) (c a : Client) : (s.takeFront c).target a = s.target a := by
  cases a <;> simp [State.target]

@[simp] theorem State.takeFront_priority (s : State) (c : Client) (k : NoticeKind) : (s.takeFront c).priority k = s.priority k := by
  simp [State.priority]

@[simp] theorem State.takeFront_topNotice (s : State) (c : Client) (t : Target) : (s.takeFront c).topNotice t = s.topNotice t := by
  have hh : (s.takeFront c).higher = s.higher := by
    funext x y
    simp [State.higher]
  simp [State.topNotice, hh]

/-- Settles O42. -/
theorem takesNotice : Obligations.TakesNotice := by
  intro c tag s hs t
  have hexec : exec (.takeNotice c) s = .next (State.takeNotice c tag (s.takeFront c)) := by
    cases c <;> exact exec_of_takes rfl hs rfl
  refine ⟨fun hnil => ?_, fun n hn hbest => ?_⟩
  · have htop : s.topNotice t = none := by rw [State.topNotice, hnil]
    simp only [hexec, State.takeNotice, State.takeFront_target, State.takeFront_topNotice, show s.target c = t from rfl, htop]
  · simp only [hexec, State.takeNotice, State.takeFront_target, State.takeFront_topNotice, show s.target c = t from rfl,
      State.topNotice_eq hn hbest, State.takeFront_priority]

/-- Settles O43. -/
theorem acknowledgesNotice : Obligations.AcknowledgesNotice := by
  intro c tag s t
  refine ⟨fun v hs => ?_, fun v hs hv => ?_, fun k hs => ?_⟩
  · have hexec : exec (.setThreshold c) s = .next (State.setThreshold c tag v (s.takeFront c)) := by
      cases c <;> exact exec_of_takes rfl hs rfl
    refine ⟨fun hv => ?_, fun hv => ?_⟩
    · rw [hexec, State.setThreshold, if_pos hv, State.takeFront_target]
    · rw [hexec, State.setThreshold, if_neg (Nat.not_le.2 hv)]
  · have hexec : exec (.ackNotice c) s = .next (State.ackNotice c tag v (s.takeFront c)) := by
      cases c <;> exact exec_of_takes rfl hs rfl
    have hnone : noticeKindOf v = none := by
      cases hk : noticeKindOf v with
      | none => rfl
      | some k =>
        have hnum := noticeKindOf_eq_some_iff.1 hk
        have hrange : 1 ≤ k.num ∧ k.num ≤ 10 := by cases k <;> decide
        omega
    rw [hexec, State.ackNotice, hnone]
  · have hexec : exec (.ackNotice c) s = .next (State.ackNotice c tag k.num (s.takeFront c)) := by
      cases c <;> exact exec_of_takes rfl hs rfl
    intro rest t1 high answered
    have ht1 : t.acknowledge k = t1 := by
      have hkind : (fun n : Notice => n.kind != k) = fun n => decide (n.kind ≠ k) := funext fun n => by simp [bne, beq_eq_decide]
      rw [Target.acknowledge, hkind]
    have hpending : t1.pending = rest := by
      dsimp only [t1]
      split <;> rfl
    have hhigh : (rest.any fun n => (s.takeFront c).qualifies t1 n.kind) = high := by
      simp only [State.qualifies, State.takeFront_priority]
      rfl
    have hack : State.acknowledge c tag k (s.takeFront c) = answered := by
      rw [State.acknowledge, State.takeFront_target, show s.target c = t from rfl, ht1, hpending, hhigh]
      rfl
    refine ⟨fun hno => ?_, fun hyes => ?_⟩
    · have hfind : t.find k = none := by simpa [Target.find] using hno
      simp only [hexec, State.ackNotice, noticeKindOf_num, State.takeFront_target, show s.target c = t from rfl, hfind]
    · obtain ⟨m, hm⟩ : ∃ m, t.find k = some m := by
        rw [← Option.isSome_iff_exists]
        simpa [Target.find] using hyes
      simp only [hexec, State.ackNotice, noticeKindOf_num, State.takeFront_target, show s.target c = t from rfl, hm]
      refine ⟨fun hc => ?_, fun y hy hk => ?_⟩
      · split
        · next y => simp at hc
        · rw [hack]
      · subst hy
        subst hk
        rw [← hack]

end Sys2Proof.Machine
end

section
/-! PROOFS. Joining, returning and the window train (chapters 5 and 7), and the fence requests that start nothing. -/

namespace Sys2Proof.Machine

@[simp] theorem State.takeHead_path (s : State) (p q : Port) : (s.takeHead p).path q = s.path q := by simp [State.path]

/-! ## JOIN (R98) -/

/-- The answer's bytes for a member: W, M, and the start of the window in progress. -/
theorem membershipBytes_eq (x : Path) : membershipBytes x = be 2 x.w ++ be 1 x.m ++ (match x.window with
    | some w => be 4 w.start.toNat
    | none => [0, 0, 0, 0]) := by
  unfold membershipBytes
  cases x.window <;> rfl

/-- Settles O44. -/
theorem joins : Obligations.Joins := by
  intro p tag s s0 x good
  have hpath : s0.path p = x := s.takeHead_path p p
  have hgoodAt : ∀ t echo, (t.path p).w = x.w → (t.path p).m = x.m →
      good t echo = t.answer p tag echo .good (membershipBytes (t.path p)) := fun t echo hw hm => by
    rw [membershipBytes_eq, hw, hm]
      <;> rfl
  have hgood : ∀ echo, good s0 echo = s0.answer p tag echo .good (membershipBytes x) := fun echo => by
    rw [hgoodAt s0 echo (by rw [hpath]) (by rw [hpath]), hpath]
  refine ⟨fun hs => ?_, fun hs hm => ?_⟩
  · have hexec : exec (.join p) s = .next (State.join p tag s0) := exec_of_takes rfl hs rfl
    refine ⟨fun hx => ?_, fun hx => ?_, fun hx => ?_, fun hx => ?_⟩
    · have hjoined : (s0.withPath p (x.started s.clock.ms)).path p = x.started s.clock.ms := Pair.get_set_self _ _ _
      have hfirst := hgoodAt (s0.withPath p (x.started s.clock.ms)) 12 (by rw [hjoined]; rfl) (by rw [hjoined]; rfl)
      rw [hjoined] at hfirst
      have hclock : s0.clock = s.clock := s.takeHead_clock p
      rw [hexec, State.join, hpath, hx]
      refine congrArg Host.Outcome.next (Eq.trans ?_ hfirst.symm)
      dsimp only
      rw [hclock]
    · rw [hexec, State.join, hpath, hgood]
      cases hst : x.state with
      | member | suspect => rfl
      | _ => rw [hst] at hx; cases hx
    · rw [hexec, State.join, hpath, hx]
    · obtain hx | hx | hx := hx <;> rw [hexec, State.join, hpath, hx]
  · have hexec : exec (.rejoin p) s = .next (State.rejoin p tag s0) := exec_of_takes rfl hs rfl
    have hne : x.state ≠ .fenced := fun h => by rw [h] at hm; cases hm
    rw [hexec, State.rejoin, hpath, if_neg hne, hgood]

/-! ## The return to MEMBER (R141 to R147) -/

/-- The path record that a return to MEMBER leaves. -/
def Path.member (x : Path) (now : Stamp) : Path :=
  { x with state := .member, cause := none, window := some { start := now, width := x.w }, miss := 0, seen := .clear, parkedRejoin := none }

/-- The bytes of a member's answer at the start of a window train. -/
def Path.memberBytes (x : Path) (now : Stamp) : List Byte := be 2 x.w ++ be 1 x.m ++ be 4 now.toNat

theorem State.returnToMember_eq (s : State) (p : Port) : s.returnToMember p =
    match (s.path p).parkedRejoin with
    | some parked => (s.withPath p ((s.path p).member s.clock.ms)).answer p parked 16 .good ((s.path p).memberBytes s.clock.ms)
    | none => s.withPath p ((s.path p).member s.clock.ms) := by
  have hset : ∀ x, (s.withPath p x).path p = x := fun x => Pair.get_set_self _ _ _
  have htwice : ∀ x y, (s.withPath p x).withPath p y = s.withPath p y := fun x y => by simp [State.withPath]
  have hbytes : membershipBytes ((s.path p).returned s.clock.ms) = (s.path p).memberBytes s.clock.ms := by
    rw [membershipBytes_eq]
    rfl
  have hkeeps : ((s.path p).returned s.clock.ms).parkedRejoin = (s.path p).parkedRejoin := rfl
  rw [State.returnToMember, State.settleRejoin, hset, hkeeps, hbytes]
  cases hparked : (s.path p).parkedRejoin with
  | some parked =>
    dsimp only
    rw [htwice]
    rfl
  | none =>
    have hmember : (s.path p).returned s.clock.ms = (s.path p).member s.clock.ms := by
      rw [Path.member, ← hparked]
      rfl
    dsimp only
    rw [hmember]

theorem State.returnToMember_path (s : State) (p : Port) : (s.returnToMember p).path p = (s.path p).member s.clock.ms := by
  rw [State.returnToMember_eq]
  split
  · rw [State.answer_path]
    exact Pair.get_set_self _ _ _
  · exact Pair.get_set_self _ _ _

/-- Settles O47. -/
theorem returnsToMember : Obligations.ReturnsToMember := by
  intro p tag s x window member back
  have hset : ∀ (t : State) (y : Path), (t.withPath p y).path p = y := fun t y => Pair.get_set_self _ _ _
  have htwice : ∀ (t : State) (y z : Path), (t.withPath p y).withPath p z = t.withPath p z := fun t y z => by simp [State.withPath]
  have hback : ∀ (t : State) (y : Path), t.clock = s.clock → y.w = x.w → y.parkedRejoin = x.parkedRejoin → y.m = x.m →
      (t.withPath p y).returnToMember p = back t y := by
    intro t y hclock hw hparked hm
    have hpath : y.member (t.withPath p y).clock.ms
        = { y with state := .member, cause := none, window := some window, miss := 0, seen := .clear, parkedRejoin := none } := by
      rw [Path.member, show (t.withPath p y).clock = s.clock from hclock, hw]
    have hbytes : y.memberBytes (t.withPath p y).clock.ms = member := by
      rw [Path.memberBytes, show (t.withPath p y).clock = s.clock from hclock, hw, hm]
    rw [State.returnToMember_eq, hset, htwice, hparked, hpath, hbytes]
      <;> rfl
  refine ⟨fun c port hs hc => ?_, fun v hs h1 h2 => ?_, fun hs hx => ?_⟩
  · intro s0
    have hexec : exec (.readmit c) s = .next (State.readmitPort c tag p s0) := by
      have hfirst : exec (.readmit c) s = .next (State.readmit c tag port s0) := by
        cases c <;> exact exec_of_takes rfl hs rfl
      rw [hfirst]
      obtain rfl | ⟨rfl, rfl⟩ := hc
      · rw [State.readmit, Port.partner_partner]
      · rw [State.readmit, Option.bind_some, portOf_portNum]
    have hpath : s0.path p = x := by simp [s0, State.path, x]
    have hclock : s0.clock = s.clock := s.takeFront_clock c
    rw [hexec, State.readmitPort, hpath]
    refine ⟨fun hx => ?_, fun hx hk => ?_, fun hx hk hr => ?_, fun hx hk hr => ?_⟩
    · rw [if_neg hx]
    · obtain ⟨k, hk⟩ := Option.ne_none_iff_exists'.1 hk
      rw [if_pos hx, hk, hx]
      rfl
    · rw [if_pos hx, hk]
      dsimp only
      rw [hr]
      simp only [Bool.false_eq_true, if_false, hset, hx]
      rfl
    · rw [if_pos hx, hk]
      dsimp only
      rw [if_pos hr, State.returnToMember_path, hset, hback s0 { x with readmitKey := some c } hclock rfl rfl rfl]
      rfl
  · have hexec : exec (.readmit .mgmt) s = .next (State.readmit .mgmt tag (some v) s) := exec_of_takes rfl hs rfl
    rw [hexec, State.readmit, Option.bind_some, portOf_eq_none h1 h2]
  · intro s0
    have hexec : exec (.rejoin p) s = .next (State.rejoin p tag s0) := exec_of_takes rfl hs rfl
    have hpath : s0.path p = x := s.takeHead_path p p
    have hclock : s0.clock = s.clock := s.takeHead_clock p
    rw [hexec, State.rejoin, hpath, if_pos hx]
    refine ⟨fun hr hk => ?_, fun hr hk => ?_, fun hr =>
      ⟨Config.freeByte s0.free, Config.freeByte (s0.free + 1), Config.freeByte (s0.free + 2), Config.freeByte (s0.free + 3), ?_⟩⟩
    · rw [hr, hk]
      simp only [Bool.false_eq_true, if_false, hset, htwice, hk]
    · obtain ⟨k, hk⟩ := Option.ne_none_iff_exists'.1 hk
      rw [hr, hk]
      simp only [Bool.false_eq_true, if_false, hk]
      rw [State.returnToMember_path, hset, hback s0 { x with rejoinKey := true, readmitKey := some k } hclock rfl rfl rfl, membershipBytes_eq]
      dsimp only [member, Path.member]
      rw [show (s0.withPath p _).clock = s.clock from hclock]
    · rw [if_pos hr, State.repeatRejoin, hpath, State.freeStamp, show s0.free = s.free from s.takeHead_free p]
      rfl

/-! ## Fences that start nothing (R111, R116, R118) -/

/-- Settles O46. -/
theorem fencesWithoutEffect : Obligations.FencesWithoutEffect := by
  intro p tag s code
  refine ⟨fun c hc hs => ?_, fun c hc hs => ?_, fun v h1 h2 hs => ?_, fun t ht => ?_⟩
  · have hexec : exec (.fencePartner p.partner) s = .next (State.fencePartner p.partner tag (s.takeHead p.partner)) :=
      exec_of_takes rfl hs rfl
    rw [hexec, State.fencePartner, Port.partner_partner, State.takeHead_path]
    dsimp only [code] at hc
    cases hst : (s.path p).state with
    | outside | draining | shedding | fenced => rw [hst] at hc; cases hc; rfl
    | _ => rw [hst] at hc; cases hc
  · have hexec : exec .forceFence s = .next (State.forceFence (portNum p) s) := exec_of_takes rfl hs rfl
    rw [hexec, State.forceFence, portOf_portNum]
    dsimp only [code, State.forceFencePort] at hc ⊢
    cases hst : (s.path p).state with
    | outside | draining | shedding | fenced => rw [hst] at hc; cases hc; rfl
    | _ => rw [hst] at hc; cases hc
  · have hexec : exec .forceFence s = .next (State.forceFence v s) := exec_of_takes rfl hs rfl
    rw [hexec, State.forceFence, portOf_eq_none h1 h2]
  · have hno : (t.isMember p.partner && (t.path p).state = .lost && t.actEnable (t.path p).cause) = false := by
      obtain h | h | ⟨hc, ha⟩ | ⟨hc, ha⟩ := ht
      · simp [h]
      · simp [h]
      · simp [hc, State.actEnable, ha]
      · simp [hc, State.actEnable, ha]
    rw [State.acknowledgeLoss, Port.partner_partner, hno]
    rfl

/-! ## Window ends (R101 to R103) -/

/-- Settles O48. -/
theorem windowEnds : Obligations.WindowEnds := by
  intro p w s hw x next told seen missed
  have hexec : exec (.windowEnd p) s = .next (if s.windowDue p then
      if (s.path p).seen = .set then s.seenWindow p w else s.missedWindow p w else s) := by
    change execWindowEnd p s = _
    simp only [execWindowEnd, hw]
  have hdue : s.windowDue p = (s.isMember p && decide (w.width ≤ (s.clock.ms - w.start).toNat)) := by
    rw [State.windowDue, hw]
    rfl
  refine ⟨fun h => ?_, fun hm hend => ⟨fun hset => ?_, fun hset hmiss => ?_⟩⟩
  · have hno : s.windowDue p = false := by
      rw [hdue, Bool.and_eq_false_iff, decide_eq_false_iff_not, Nat.not_le]
      exact h
    rw [hexec, hno]
    rfl
  · have hyes : s.windowDue p = true := by rw [hdue, hm, decide_eq_true hend]; rfl
    rw [hexec, hyes, if_pos rfl, if_pos hset]
    rfl
  · have hyes : s.windowDue p = true := by rw [hdue, hm, decide_eq_true hend]; rfl
    rw [hexec, hyes, if_pos rfl, if_neg hset, State.missedWindow]
    dsimp only
    rw [if_neg (Nat.not_le.2 hmiss)]
    rfl

end Sys2Proof.Machine
end

section
/-! PROOFS. CONTROLLER_RESET (R193): what the sweep sends on each path link, and the blocks' values at the entry to RESETTING. -/

namespace Sys2Proof.Machine

/-! ## What an operation sends on the path links -/

/-- From `s` to `t` these have been sent on the path links that are up, and nothing on the others; the links, W and M stay. -/
def State.emits (s t : State) (sent : Port → List LinkOut) : Prop :=
  (t.out.drive = s.out.drive ∧ t.out.i2c = s.out.i2c)
    ∧ ∀ p, ((t.path p).linkUp = (s.path p).linkUp ∧ (t.path p).w = (s.path p).w ∧ (t.path p).m = (s.path p).m)
      ∧ t.out.links.get p = s.out.links.get p ++ if (s.path p).linkUp then sent p else []

theorem State.emits_of_out {s t : State} (ho : t.out = s.out)
    (hp : ∀ p, (t.path p).linkUp = (s.path p).linkUp ∧ (t.path p).w = (s.path p).w ∧ (t.path p).m = (s.path p).m) :
    s.emits t fun _ => [] := by
  refine ⟨by rw [ho]; exact ⟨rfl, rfl⟩, fun p => ⟨hp p, ?_⟩⟩
  rw [ho, ite_self, List.append_nil]

theorem State.emits_refl (s : State) : s.emits s fun _ => [] := State.emits_of_out rfl fun _ => ⟨rfl, rfl, rfl⟩

theorem State.emits.trans {s t u : State} {a b : Port → List LinkOut} (h1 : s.emits t a) (h2 : t.emits u b) :
    s.emits u fun p => a p ++ b p := by
  obtain ⟨⟨hd1, hi1⟩, hp1⟩ := h1
  obtain ⟨⟨hd2, hi2⟩, hp2⟩ := h2
  refine ⟨⟨hd2.trans hd1, hi2.trans hi1⟩, fun p => ?_⟩
  obtain ⟨⟨hl1, hw1, hm1⟩, ho1⟩ := hp1 p
  obtain ⟨⟨hl2, hw2, hm2⟩, ho2⟩ := hp2 p
  refine ⟨⟨hl2.trans hl1, hw2.trans hw1, hm2.trans hm1⟩, ?_⟩
  rw [ho2, ho1, hl1]
  split <;> simp

theorem State.emits.congr {s t : State} {a b : Port → List LinkOut} (h : s.emits t a) (hab : ∀ p, a p = b p) : s.emits t b :=
  funext hab ▸ h

theorem State.emits_sendOn (s : State) (p : Port) (o : LinkOut) : s.emits (s.sendOn p o) fun q => if q = p then [o] else [] := by
  refine ⟨?_, fun q => ⟨by simp [State.path], ?_⟩⟩
  · rw [State.sendOn_eq]
    dsimp only
    split <;> exact ⟨rfl, rfl⟩
  · rw [State.sendOn_eq]
    dsimp only
    by_cases hq : q = p
    · subst hq
      by_cases hl : (s.path q).linkUp = true <;> simp [hl]
    · by_cases hl : (s.path p).linkUp = true <;> simp [hl, hq, Pair.get_set]

/-- A fold of operations that send sends what they send in turn. -/
theorem State.emits_foldl {α : Type} {f : State → α → State} {sent : α → Port → List LinkOut} {P : State → Prop}
    (hf : ∀ t x, P t → t.emits (f t x) (sent x) ∧ P (f t x)) : ∀ (xs : List α) (s : State), P s →
    s.emits (xs.foldl f s) fun p => xs.flatMap fun x => sent x p
  | [], s, _ => s.emits_refl
  | x :: xs, s, hs => by
    obtain ⟨hx, hP⟩ := hf s x hs
    exact (hx.trans (State.emits_foldl hf xs _ hP)).congr fun p => by rw [List.flatMap_cons]

/-- A NOT-READY answer under the hold flag of this moment. -/
theorem State.emits_notReady {s t : State} (ht : t.ports = s.ports) (p : Port) (tag : Byte) (echo : Nat) :
    t.emits (t.answer p tag echo .notReady []) fun q => if q = p then [.frame 4 (s.port p).hold tag [6, BitVec.ofNat 8 echo]] else [] := by
  have h := t.emits_sendOn p (.frame 4 (t.port p).hold tag (be 1 AnswerCode.notReady.num ++ be 1 echo ++ []))
  refine h.congr fun q => ?_
  rw [State.port, ht, List.append_nil, be_one, be_one]
  rfl

/-! ## The sweep (R193) -/

/-- The NOT-READY answers of the holdings' parked requests, on port `p`'s link. -/
def State.sweptHolding (s : State) (p : Port) (h : Holding) : Option LinkOut := match h.tenure with
  | .releasing o x => if o = p then some (LinkOut.frame 4 (s.port p).hold x [6, 2]) else none
  | .handing o x => if o = p then some (LinkOut.frame 4 (s.port p).hold x [6, 3]) else none
  | _ => none

theorem State.sweepHoldings_emits (s : State) : s.emits s.sweepHoldings fun p => s.table.holdings.filterMap (s.sweptHolding p) := by
  have h := State.emits_foldl (P := fun t => t.ports = s.ports) (sent := fun h p => (s.sweptHolding p h).toList)
    (f := fun x h => match h.tenure.parked with
      | some (p, tag) => x.answer p tag h.tenure.parkedEcho .notReady []
      | none => x) (fun t h ht => ?_) s.table.holdings s rfl
  · refine h.congr fun p => ?_
    rw [List.filterMap_eq_flatMap_toList]
  · cases hten : h.tenure with
    | releasing o x | handing o x =>
      refine ⟨(State.emits_notReady ht o x _).congr fun q => ?_, by simpa [Tenure.parked] using ht⟩
      rw [State.sweptHolding, hten]
      by_cases hq : q = o
      · subst hq
        simp [Tenure.parkedEcho]
      · simp [hq, Ne.symm hq]
    | _ => exact ⟨t.emits_refl.congr fun p => by rw [State.sweptHolding, hten]; rfl, ht⟩

/-- The NOT-READY answers of a port's parked RESIGN and REJOIN. -/
def State.sweptPath (s : State) (p : Port) : List LinkOut :=
  (s.path p).parkedResign.toList.map (fun x => LinkOut.frame 4 (s.port p).hold x [6, 13])
    ++ (s.path p).parkedRejoin.toList.map (fun x => LinkOut.frame 4 (s.port p).hold x [6, 16])

theorem State.emits_withPath (s : State) (p : Port) (x : Path) (hx : x.linkUp = (s.path p).linkUp ∧ x.w = (s.path p).w ∧ x.m = (s.path p).m) :
    s.emits (s.withPath p x) fun _ => [] := by
  refine State.emits_of_out rfl fun q => ?_
  rw [State.path, State.withPath_paths, Pair.get_set]
  split
  · next hq => exact hq ▸ hx
  · exact ⟨rfl, rfl, rfl⟩

theorem State.settleResign_emits (s : State) (p : Port) : s.emits (s.settleResign p .notReady) fun q =>
    if q = p then (s.path p).parkedResign.toList.map (fun x => LinkOut.frame 4 (s.port p).hold x [6, 13]) else [] := by
  unfold State.settleResign
  split
  · next x hx =>
    refine ((s.emits_withPath p { s.path p with parkedResign := none } ⟨rfl, rfl, rfl⟩).trans (State.emits_notReady rfl p x 13)).congr fun q => ?_
    rw [hx]
    rfl
  · next hx =>
    refine s.emits_refl.congr fun q => ?_
    rw [hx]
    simp

theorem State.settleRejoin_emits (s : State) (p : Port) : s.emits (s.settleRejoin p .notReady []) fun q =>
    if q = p then (s.path p).parkedRejoin.toList.map (fun x => LinkOut.frame 4 (s.port p).hold x [6, 16]) else [] := by
  unfold State.settleRejoin
  split
  · next x hx =>
    refine ((s.emits_withPath p { s.path p with parkedRejoin := none } ⟨rfl, rfl, rfl⟩).trans (State.emits_notReady rfl p x 16)).congr fun q => ?_
    rw [hx]
    rfl
  · next hx =>
    refine s.emits_refl.congr fun q => ?_
    rw [hx]
    simp

theorem State.settleResign_parkedRejoin (s : State) (p : Port) (code : AnswerCode) :
    ((s.settleResign p code).path p).parkedRejoin = (s.path p).parkedRejoin := by
  unfold State.settleResign
  split
  · rw [State.answer_path, State.path, State.withPath_paths, Pair.get_set_self]
  · rfl

theorem State.sweepPath_path_partner (s : State) (p : Port) : (s.sweepPath p).path p.partner = s.path p.partner := by
  have hresign : (s.settleResign p .notReady).path p.partner = s.path p.partner := by
    unfold State.settleResign
    split
    · rw [State.answer_path, State.path, State.withPath_paths, Pair.get_set_partner]
      rfl
    · rfl
  rw [State.sweepPath, ← hresign, State.settleRejoin]
  split
  · rw [State.answer_path, State.path, State.withPath_paths, Pair.get_set_partner]
    rfl
  · rfl

theorem State.sweepPath_emits (s : State) (p : Port) : s.emits (s.sweepPath p) fun q => if q = p then s.sweptPath p else [] := by
  refine ((s.settleResign_emits p).trans ((s.settleResign p .notReady).settleRejoin_emits p)).congr fun q => ?_
  rw [State.settleResign_parkedRejoin, show (s.settleResign p .notReady).port p = s.port p by simp [State.port]]
  by_cases hq : q = p <;> simp [hq, State.sweptPath]

/-- An emptied intake leaves no hold indication standing. -/
theorem State.emptyIntake_eq (s : State) (p : Port) : s.emptyIntake p = { s with
    ports := s.ports.set p { intake := [], roomWait := false, hold := false }
    out := if (s.port p).hold = true ∧ (s.path p).linkUp = true then
        { s.out with links := s.out.links.set p (s.out.links.get p ++ [.holdMark false]) }
      else s.out } := by
  have hport : (s.withPort p { s.port p with roomWait := false }).port p = { s.port p with roomWait := false } := Pair.get_set_self _ _ _
  have hfalls : ∀ b, holdAfter b 0 = false := fun b => by cases b <;> rfl
  rw [State.emptyIntake, State.setIntake_eq, hport]
  simp only [List.length_nil, hfalls, State.withPort_ports, Pair.set_set, ne_eq, eq_comm (a := false), Bool.not_eq_false]
  rfl

/-- An intake emptied by the reset: a standing hold indication falls, under a hold mark. -/
theorem State.emptyIntake_emits (s : State) (p : Port) :
    s.emits (s.emptyIntake p) (fun q => if q = p ∧ (s.port p).hold = true then [LinkOut.holdMark false] else []) := by
  rw [State.emptyIntake_eq]
  refine ⟨by dsimp only; split <;> exact ⟨rfl, rfl⟩, fun q => ⟨⟨rfl, rfl, rfl⟩, ?_⟩⟩
  dsimp only
  by_cases hq : q = p
  · subst hq
    by_cases hh : (s.port q).hold = true <;> by_cases hl : (s.path q).linkUp = true <;> simp [hh, hl]
  · by_cases hh : (s.port p).hold = true ∧ (s.path p).linkUp = true
    · simp [hh, hq, Pair.get_set]
    · simp [hh, hq]

theorem State.emptyIntake_port (s : State) (p q : Port) :
    (s.emptyIntake p).port q = if q = p then { intake := [], roomWait := false, hold := false } else s.port q := by
  rw [State.emptyIntake_eq]
  exact Pair.get_set _ _ _ _

theorem State.removeWaiting_emits {s : State} (hh : ∀ p, (s.port p).hold = false) : s.emits s.removeWaiting fun p =>
    (s.flight.entries.filter fun e => e.port = p && e.stage.isWaiting).map (fun e => LinkOut.frame 2 false e.tag [6]) := by
  have hreply : ∀ (t : State) (e : Entry), t.ports = s.ports → t.emits (t.reply e.port e.tag .notReady)
      (fun p => if p = e.port then [LinkOut.frame 2 false e.tag [6]] else []) ∧ (t.reply e.port e.tag .notReady).ports = s.ports := by
    intro t e ht
    refine ⟨(t.emits_sendOn e.port (.frame 2 (t.port e.port).hold e.tag (be 1 AnswerCode.notReady.num))).congr fun p => ?_, by simpa using ht⟩
    rw [show t.port e.port = s.port e.port by rw [State.port, ht]; rfl, hh, be_one]
    rfl
  have h := State.emits_foldl (P := fun t => t.ports = s.ports) hreply (s.flight.entries.filter fun e => e.stage.isWaiting) s rfl
  refine (h.trans (State.emits_of_out rfl fun p => ⟨rfl, rfl, rfl⟩)).congr fun p => ?_
  rw [List.append_nil]
  have hfold : ∀ es : List Entry, (es.flatMap fun e => if p = e.port then [LinkOut.frame 2 false e.tag [6]] else [])
      = (es.filter fun e => e.port = p).map fun e => LinkOut.frame 2 false e.tag [6] := by
    intro es
    induction es with
    | nil => rfl
    | cons e es ih =>
      rw [List.flatMap_cons, ih, List.filter_cons]
      by_cases he : e.port = p
      · simp [he]
      · simp [he, Ne.symm he]
  rw [hfold, List.filter_filter]

/-- What the whole sweep sends on a link, in order (R193). -/
def State.swept (s : State) (p : Port) : List LinkOut :=
  s.table.holdings.filterMap (s.sweptHolding p) ++ s.sweptPath p ++ (if (s.port p).hold then [LinkOut.holdMark false] else [])
    ++ (s.flight.entries.filter fun e => e.port = p && e.stage.isWaiting).map (fun e => LinkOut.frame 2 false e.tag [6])

theorem State.sweptPath_congr {s t : State} {p : Port} (hp : t.path p = s.path p) (hh : t.ports = s.ports) : t.sweptPath p = s.sweptPath p := by
  rw [State.sweptPath, State.sweptPath, hp, State.port, hh]
  rfl

/-- The intakes after the sweep. -/
theorem State.sweep_port (s : State) (p : Port) : s.sweep.port p = { intake := [], roomWait := false, hold := false } := by
  rw [State.sweep, State.port, State.removeWaiting_ports]
  change State.port _ p = _
  rw [State.emptyIntake_port, State.emptyIntake_port]
  cases p <;> rfl

theorem State.sweep_emits (s : State) : s.emits s.sweep s.swept := by
  have h1 := s.sweepHoldings_emits
  have h2 := s.sweepHoldings.sweepPath_emits .A
  have h3 := (s.sweepHoldings.sweepPath .A).sweepPath_emits .B
  have h4 := ((s.sweepHoldings.sweepPath .A).sweepPath .B).emptyIntake_emits .A
  have h5 := (((s.sweepHoldings.sweepPath .A).sweepPath .B).emptyIntake .A).emptyIntake_emits .B
  have hhold : ∀ p, ((((((s.sweepHoldings.sweepPath .A).sweepPath .B).emptyIntake .A).emptyIntake .B)).port p).hold = false := fun p => by
    rw [State.emptyIntake_port, State.emptyIntake_port]
    cases p <;> rfl
  have h6 := State.removeWaiting_emits hhold
  refine (((((h1.trans h2).trans h3).trans h4).trans h5).trans h6).congr fun p => ?_
  have hA : s.sweepHoldings.sweptPath .A = s.sweptPath .A := State.sweptPath_congr (by simp [State.path]) (by simp)
  have hB : (s.sweepHoldings.sweepPath .A).sweptPath .B = s.sweptPath .B :=
    State.sweptPath_congr ((s.sweepHoldings.sweepPath_path_partner .A).trans (by simp [State.path, Port.partner])) (by simp)
  rw [hA, hB, State.emptyIntake_port]
  cases p <;> simp [State.swept, State.port] <;> congr

/-! ## The blocks' values (R193) -/

/-- The state at entry to RESETTING, given the flight entries that are kept. -/
def State.resetState (s : State) (kept : List Entry) : State :=
  let part : PartBlock := { s.part with
    state := .resetting, retryTimer := none, resetAbortTimer := if kept = [] then none else some (2 ^ s.settings.abortExp), clearedTimer := none }
  { s.sweep.resetBlocks with
    part := part
    flight := { entries := kept.map (Entry.requestAbort fun _ => true), spaceTurn := .A }
    media := { s.media with
      abortList := if kept = [] then [] else s.media.abortList ++ kept.filterMap (Entry.abortSlot fun _ => true)
      turn := .A
      clear := if kept = [] then .requested else .idle
      identify := 0 } }

theorem State.enterResetting_eq (s : State) : s.enterResetting = s.resetState (s.flight.entries.filter fun e => !e.stage.isWaiting) := by
  have hpart : s.sweep.part = s.part := s.sweep_part
  have hmedia : s.sweep.media = s.media := s.sweep_media
  have hentries : (s.sweep.resetBlocks.requestAborts fun _ => true).flight.entries
      = s.sweep.flight.entries.map (Entry.requestAbort fun _ => true) := rfl
  rw [← s.sweep_entries, State.enterResetting, State.clearWhenEmpty, hentries, State.resetState, ← hpart, ← hmedia, ← s.sweep_settings]
  cases he : s.sweep.flight.entries with
  | nil =>
    rw [if_pos (by rfl)]
    simp only [State.requestAborts, State.requestClear, State.resetBlocks, he]
    rfl
  | cons e es =>
    rw [if_neg (by simp)]
    simp only [State.requestAborts, State.resetBlocks, he, reduceCtorEq, if_false]
    rfl

/-- Settles O14. -/
theorem controllerResetEntry : Obligations.ControllerResetEntry := by
  intro s tag hf
  have hexec : exec .controllerReset s = .next (State.controllerReset s) := exec_of_takes (c := .mgmt) rfl ⟨hf, rfl⟩ rfl
  refine ⟨fun h => ?_, fun h => ⟨s.enterResetting, ?_, ?_⟩⟩
  · rw [hexec, State.controllerReset, if_pos h]
  · rw [hexec, State.controllerReset, if_neg h]
  · intro kept
    obtain ⟨⟨hdrive, hi2c⟩, hlinks⟩ := s.sweep_emits
    rw [s.enterResetting_eq]
    have hnotices : s.sweep.notices = s.notices := s.sweep_notices
    have htable : s.sweep.table = s.table := s.sweep_table
    have hmailbox : s.sweep.mailbox = s.mailbox := s.sweep_mailbox
    refine ⟨rfl, rfl, s.sweep_settings, ?_, rfl, rfl, rfl, ?_, ?_, hdrive, hi2c, s.sweep_free, s.sweep_pending,
      fun p => ⟨s.sweep_port p, ?_, ?_, ?_⟩⟩
    · rw [← htable]
      rfl
    · rw [← hmailbox]
      rfl
    · rw [← hnotices]
      rfl
    · obtain ⟨⟨hl, hw, hm⟩, -⟩ := hlinks p
      rw [← hl, ← hw, ← hm]
      cases p <;> rfl
    · rw [← hnotices]
      cases p <;> rfl
    · obtain ⟨-, hsent⟩ := hlinks p
      refine hsent.trans ?_
      rw [State.swept, State.sweptPath, ← List.append_assoc]
      rfl

end Sys2Proof.Machine
end

section
/-! PROOFS. Moves of the flight table: what an entry's leaving, a reply and a new judgment of a waiting head command do together, and the
places that departures free (R65, R66, R71, R74). -/

namespace Sys2Proof.Machine

/-! ## What becomes of one waiting head command -/

/-- The flight entry that admits port `q`'s waiting command under an index (R68). -/
def entryOf (q : Port) (tag : Byte) (c : IoCommand) (index : Nat) : Entry :=
  { index := index, port := q, tag := tag, kind := c.kind, ns := c.ns,
    range := if c.kind = .flush then none else some { start := c.start, count := c.count },
    stage := .waiting, xfer := .none }

/-- What became of the head of port `q`'s intake from `s` to `t`: it stands there still, and if it was judged then it passed the checks and
waits for room; or it was refused; or it joined the flight table (R52, R65). -/
inductive State.HeadMove (s t : State) (q : Port) (judged : Bool) (joined : List Entry) : Prop
  | kept (port : t.port q = s.port q) (others : ∀ e ∈ joined, e.port ≠ q)
      (waits : judged = true → ∀ tag c, s.waitingHead q = some (tag, c) → s.checkCommand q c = none
        ∧ (s.settings.quotas.get q ≤ t.portCount q ∨ 64 ≤ t.flight.entries.length))
  | refused (tag : Byte) (c : IoCommand) (code : AnswerCode) (isJudged : judged = true) (head : s.waitingHead q = some (tag, c))
      (check : s.checkCommand q c = some code) (port : t.port q = (s.takeHead q).port q) (others : ∀ e ∈ joined, e.port ≠ q)
  | admitted (tag : Byte) (c : IoCommand) (index : Nat) (isJudged : judged = true) (head : s.waitingHead q = some (tag, c))
      (check : s.checkCommand q c = none) (port : t.port q = (s.takeHead q).port q)
      (one : joined.filter (fun e => e.port = q) = [entryOf q tag c index])

/-- The refusal that a new judgment of port `q`'s waiting head command gives. -/
def State.refusedAt (s : State) (q : Port) (judged : Bool) : List (Byte × AnswerCode) :=
  match s.waitingHead q with
  | some (tag, c) => if judged then (s.checkCommand q c).toList.map fun code => (tag, code) else []
  | none => []

/-- The frames of replies. -/
def replyFrames (xs : List (Byte × AnswerCode)) : List LinkOut := xs.map fun x => .frame 2 false x.1 [BitVec.ofNat 8 x.2.num]

/-- From `s` to `t`: entries that satisfy a test left the flight table, others joined it, the ports `judged` had their waiting head
commands judged again, replies went out and completions came due; nothing else changed but the hold marks of the frames taken. -/
structure State.Moves (s t : State) (gone : Entry → Bool) (judged : Port → Bool) (replies : Port → List (Byte × AnswerCode))
    (joined : List Entry) (ended : List Due) : Prop where
  frame : t = { s with
    flight := { entries := s.flight.entries.filter (fun e => !gone e) ++ joined, spaceTurn := t.flight.spaceTurn }
    ports := t.ports
    table := { s.table with due := s.table.due ++ ended }
    out := { s.out with links := t.out.links } }
  head : ∀ q, s.HeadMove t q (judged q) joined
  sent : ∀ q, t.sent q = s.sent q ++ if (s.path q).linkUp then replyFrames (s.refusedAt q (judged q) ++ replies q) else []
  marks : ∀ q, t.marks q = s.marks q ++
    if (s.path q).linkUp = true ∧ (t.port q).hold ≠ (s.port q).hold then [(t.port q).hold] else []

section Moves
variable {s t : State} {gone : Entry → Bool} {judged : Port → Bool} {replies : Port → List (Byte × AnswerCode)}
  {joined : List Entry} {ended : List Due}

theorem State.Moves.path (h : s.Moves t gone judged replies joined ended) (q : Port) : t.path q = s.path q := by
  rw [h.frame]; rfl

theorem State.Moves.settings (h : s.Moves t gone judged replies joined ended) : t.settings = s.settings := by
  rw [h.frame]

theorem State.Moves.checkCommand (h : s.Moves t gone judged replies joined ended) (q : Port) (c : IoCommand) :
    t.checkCommand q c = s.checkCommand q c := by
  rw [h.frame]; rfl

theorem State.Moves.entries (h : s.Moves t gone judged replies joined ended) :
    t.flight.entries = s.flight.entries.filter (fun e => !gone e) ++ joined := by
  rw [h.frame]

theorem State.Moves.holdings (h : s.Moves t gone judged replies joined ended) : t.table.holdings = s.table.holdings := by
  rw [h.frame]

end Moves

theorem State.waitingHead_of_port {s t : State} {q : Port} (h : t.port q = s.port q) : t.waitingHead q = s.waitingHead q := by
  simp only [State.waitingHead, State.headIo, h]

theorem State.takeHead_port_of_port {s t : State} {q : Port} (h : t.port q = s.port q) :
    (t.takeHead q).port q = (s.takeHead q).port q := by
  simp only [State.takeHead_port, h]

/-- A frame that has been taken leaves no command waiting for room behind it (R180). -/
theorem State.waitingHead_taken {s t : State} {q : Port} (h : t.port q = (s.takeHead q).port q) : t.waitingHead q = none := by
  simp [State.waitingHead, h, State.takeHead_port]

theorem State.portCount_eq (s : State) (q : Port) : s.portCount q = (s.flight.entries.filter fun e => e.port = q).length := rfl

/-- A head that is not judged, or does not wait, stays. -/
theorem State.HeadMove.unmoved {s t : State} {q : Port} {judged : Bool} {joined : List Entry} (h : s.HeadMove t q judged joined)
    (hj : judged = false ∨ s.waitingHead q = none) : t.port q = s.port q ∧ ∀ e ∈ joined, e.port ≠ q := by
  cases h with
  | kept port others => exact ⟨port, others⟩
  | refused _ _ _ isJudged head => exact absurd hj (by simp [isJudged, head])
  | admitted _ _ _ isJudged head => exact absurd hj (by simp [isJudged, head])

/-! ## Moves in succession -/

section Trans
variable {s t u : State} {g1 g2 : Entry → Bool} {J1 J2 : Port → Bool} {r1 r2 : Port → List (Byte × AnswerCode)}
  {j1 j2 : List Entry} {d1 d2 : List Due}

/-- One head through two moves: it moves at most once, and one that the first judgment left waiting waits on or is judged again. -/
theorem State.HeadMove.trans {q : Port} (h1 : s.Moves t g1 J1 r1 j1 d1) (h2 : t.Moves u g2 J2 r2 j2 d2)
    (hwait : (∀ e, g2 e = false) ∨ (J1 q = true → J2 q = true)) : s.HeadMove u q (J1 q || J2 q) (j1 ++ j2) := by
  have stays : t.port q = (s.takeHead q).port q → u.port q = t.port q ∧ ∀ e ∈ j2, e.port ≠ q := fun hp =>
    (h2.head q).unmoved (.inr (State.waitingHead_taken hp))
  have both : (∀ e ∈ j1, e.port ≠ q) → (∀ e ∈ j2, e.port ≠ q) → ∀ e ∈ j1 ++ j2, e.port ≠ q :=
    fun a b e he => (List.mem_append.1 he).elim (a e) (b e)
  have none_of : ∀ {j : List Entry}, (∀ e ∈ j, e.port ≠ q) → j.filter (fun e => e.port = q) = [] :=
    fun a => List.filter_eq_nil_iff.2 fun e he => by simpa using a e he
  cases h1.head q with
  | kept port1 others1 waits1 =>
    have hhead := State.waitingHead_of_port port1
    cases h2.head q with
    | kept port2 others2 waits2 =>
      refine .kept (port2.trans port1) (both others1 others2) fun hj tag c hh => ?_
      by_cases hj2 : J2 q = true
      · obtain ⟨hc, hroom⟩ := waits2 hj2 tag c (hhead.trans hh)
        rw [h1.checkCommand] at hc
        rw [h1.settings] at hroom
        exact ⟨hc, hroom⟩
      · have hj1 : J1 q = true := by simpa [hj2] using hj
        obtain ⟨hc, hroom⟩ := waits1 hj1 tag c hh
        refine ⟨hc, ?_⟩
        have hgrow : u.flight.entries = t.flight.entries ++ j2 := by
          rw [h2.entries, List.filter_eq_self.2]
          intro e _
          simpa using (hwait.resolve_right fun h => hj2 (h hj1)) e
        refine hroom.imp (fun h => h.trans ?_) (fun h => h.trans ?_)
        · rw [State.portCount_eq, State.portCount_eq, hgrow, List.filter_append, List.length_append]
          exact Nat.le_add_right _ _
        · rw [hgrow, List.length_append]
          exact Nat.le_add_right _ _
    | refused tag c code hj hh hc hp ho =>
      exact .refused tag c code (by simp [hj]) (hhead ▸ hh) (h1.checkCommand q c ▸ hc)
        (hp.trans (State.takeHead_port_of_port port1)) (both others1 ho)
    | admitted tag c index hj hh hc hp hone =>
      refine .admitted tag c index (by simp [hj]) (hhead ▸ hh) (h1.checkCommand q c ▸ hc)
        (hp.trans (State.takeHead_port_of_port port1)) ?_
      rw [List.filter_append, none_of others1, hone, List.nil_append]
  | refused tag c code hj hh hc hp ho =>
    obtain ⟨port2, others2⟩ := stays hp
    exact .refused tag c code (by simp [hj]) hh hc (port2.trans hp) (both ho others2)
  | admitted tag c index hj hh hc hp hone =>
    obtain ⟨port2, others2⟩ := stays hp
    refine .admitted tag c index (by simp [hj]) hh hc (port2.trans hp) ?_
    rw [List.filter_append, none_of others2, hone, List.append_nil]

/-- The refusals of two moves in succession are those of one judgment. -/
theorem State.refusedAt_trans {q : Port} (h1 : s.Moves t g1 J1 r1 j1 d1) (hr : r1 q = [] ∨ J1 q = true) :
    s.refusedAt q (J1 q) ++ r1 q ++ t.refusedAt q (J2 q) = s.refusedAt q (J1 q || J2 q) ++ r1 q := by
  have gone_after : t.waitingHead q = none → J1 q = true →
      s.refusedAt q (J1 q) ++ r1 q ++ t.refusedAt q (J2 q) = s.refusedAt q (J1 q || J2 q) ++ r1 q := by
    intro ht hj
    simp [State.refusedAt, ht, hj]
  cases h1.head q with
  | kept port others waits =>
    have hsame : t.refusedAt q (J2 q) = s.refusedAt q (J2 q) := by
      simp only [State.refusedAt, State.waitingHead_of_port port, h1.checkCommand]
    by_cases hj : J1 q = true
    · have hnone : ∀ j, s.refusedAt q j = [] := by
        intro j
        unfold State.refusedAt
        split
        · next tag c hh => simp [(waits hj tag c hh).1]
        · rfl
      simp [hsame, hnone]
    · have hj' : J1 q = false := by simpa using hj
      have hempty : s.refusedAt q false = [] := by unfold State.refusedAt; split <;> simp
      simp [hsame, hj', hempty, hr.resolve_right hj]
  | refused _ _ _ hj _ _ hp => exact gone_after (State.waitingHead_taken hp) hj
  | admitted _ _ _ hj _ _ hp => exact gone_after (State.waitingHead_taken hp) hj

/-- A head moves in at most one of two moves in succession. -/
theorem State.Moves.port_once (h1 : s.Moves t g1 J1 r1 j1 d1) (h2 : t.Moves u g2 J2 r2 j2 d2) (q : Port) :
    t.port q = s.port q ∨ u.port q = t.port q := by
  have stays : t.port q = (s.takeHead q).port q → u.port q = t.port q := fun hp =>
    ((h2.head q).unmoved (.inr (State.waitingHead_taken hp))).1
  cases h1.head q with
  | kept port => exact .inl port
  | refused _ _ _ _ _ _ hp => exact .inr (stays hp)
  | admitted _ _ _ _ _ _ hp => exact .inr (stays hp)

theorem State.Moves.trans (h1 : s.Moves t g1 J1 r1 j1 d1) (h2 : t.Moves u g2 J2 r2 j2 d2)
    (hwait : (∀ e, g2 e = false) ∨ ∀ q, J1 q = true → J2 q = true) (hstay : ∀ e ∈ j1, g2 e = false)
    (hr : ∀ q, r1 q = [] ∨ J1 q = true) :
    s.Moves u (fun e => g1 e || g2 e) (fun q => J1 q || J2 q) (fun q => r1 q ++ r2 q) (j1 ++ j2) (d1 ++ d2) where
  frame := by
    have hstays : j1.filter (fun e => !g2 e) = j1 := List.filter_eq_self.2 fun e he => by simp [hstay e he]
    have hentries : u.flight.entries = s.flight.entries.filter (fun e => !(g1 e || g2 e)) ++ (j1 ++ j2) := by
      rw [h2.entries, h1.entries, List.filter_append, List.filter_filter, List.append_assoc, hstays]
      simp only [Bool.not_or, Bool.and_comm]
    rw [← hentries]
    have hu := h2.frame
    rw [← h2.entries, h1.frame] at hu
    simpa only [List.append_assoc] using hu
  head := fun q => State.HeadMove.trans h1 h2 (hwait.imp id fun h => h q)
  sent := fun q => by
    rw [h2.sent, h1.sent, h1.path, List.append_assoc]
    congr 1
    by_cases hl : (s.path q).linkUp = true
    · simp only [hl, if_true, replyFrames, ← List.map_append]
      rw [← List.append_assoc, State.refusedAt_trans h1 (hr q), List.append_assoc]
    · simp [hl]
  marks := fun q => by
    rw [h2.marks, h1.marks, h1.path, List.append_assoc]
    congr 1
    rcases h1.port_once h2 q with h | h <;> simp [h]

end Trans

end Sys2Proof.Machine
end

section
/-! PROOFS. The single moves of the flight table: a taken head, a new judgment, an entry's leaving, a reply; and a departure made of them
(R65, R66, R74). -/

namespace Sys2Proof.Machine

/-! ## Taking the head of an intake -/

theorem State.takeHead_frame (s : State) (p : Port) : s.takeHead p =
    { s with ports := (s.takeHead p).ports, out := { s.out with links := (s.takeHead p).out.links } } := by
  rw [State.takeHead, State.setIntake_eq]
  split <;> rfl

theorem State.sent_takeHead (s : State) (p q : Port) : (s.takeHead p).sent q = s.sent q := by
  rw [State.takeHead, State.setIntake]
  dsimp only
  split
  · rfl
  · rw [State.sent_sendOn]
    simp only [LinkOut.unmarked, Option.toList_none, ite_self, List.append_nil]
    rfl

/-- Taking a frame signals the hold indication exactly when it changes and the link is up (R181). -/
theorem State.marks_takeHead (s : State) (p q : Port) : (s.takeHead p).marks q = s.marks q ++
    if (s.path q).linkUp = true ∧ ((s.takeHead p).port q).hold ≠ (s.port q).hold then [((s.takeHead p).port q).hold] else [] := by
  refine forall_port_of (P := fun q => (s.takeHead p).marks q = s.marks q ++
    if (s.path q).linkUp = true ∧ ((s.takeHead p).port q).hold ≠ (s.port q).hold then [((s.takeHead p).port q).hold] else [])
    p ?_ ?_ q
  · have hport : (s.withPort p { s.port p with roomWait := false }).port p = { s.port p with roomWait := false } := by
      simp only [State.port, State.withPort_ports, Pair.get_set_self]
    rw [State.takeHead_port, State.takeHead, State.setIntake, hport]
    dsimp only
    split
    · next h => simp only [h, ne_eq, not_true_eq_false, and_false, if_false, List.append_nil]; rfl
    · next h =>
      rw [State.marks_sendOn]
      simp only [ne_eq, h, not_false_eq_true, and_true, true_and, LinkOut.mark, Option.toList_some]
      rfl
  · rw [State.takeHead_port_partner, State.takeHead, State.setIntake]
    dsimp only
    simp only [ne_eq, not_true_eq_false, and_false, if_false, List.append_nil]
    split
    · rfl
    · rw [State.marks_sendOn, if_neg fun h => Port.partner_ne p h.1, List.append_nil]
      rfl

/-! ## Moves that leave the intakes -/

section Still
variable {s t : State} {gone : Entry → Bool} {replies : Port → List (Byte × AnswerCode)} {ended : List Due}

/-- A move that leaves the intakes and the hold marks judges nothing, and nothing joins the flight table. -/
theorem State.Moves.still (hframe : t = { s with
      flight := { entries := s.flight.entries.filter (fun e => !gone e) ++ [], spaceTurn := t.flight.spaceTurn }
      ports := t.ports
      table := { s.table with due := s.table.due ++ ended }
      out := { s.out with links := t.out.links } })
    (hport : ∀ q, t.port q = s.port q) (hmarks : ∀ q, t.marks q = s.marks q)
    (hsent : ∀ q, t.sent q = s.sent q ++ if (s.path q).linkUp then replyFrames (replies q) else []) :
    s.Moves t gone (fun _ => false) replies [] ended where
  frame := hframe
  head := fun q => .kept (hport q) (by simp) (by simp)
  sent := fun q => by
    have hnone : s.refusedAt q false = [] := by unfold State.refusedAt; split <;> simp
    rw [hsent q, hnone, List.nil_append]
  marks := fun q => by simp [hport q, hmarks q]

end Still

/-- An entry leaves the flight table, and the waits it ends come due (R74). -/
theorem State.moves_departed {s : State} {e : Entry} (he : e ∈ s.flight.entries) (hs : s.flightSound) :
    s.Moves (s.departed e) (fun x => decide (x.index = e.index)) (fun _ => false) (fun _ => []) []
      (s.waitsEnded e.port fun x => decide (x.index = e.index)) := by
  obtain ⟨-, hnodup, -⟩ := hs
  refine .still ?_ (fun q => rfl) (fun q => rfl) fun q => ?_
  · rw [← State.endedWaits_eq_waitsEnded s e he hnodup, List.append_nil]
    rfl
  · simp [replyFrames]
    rfl

/-- A REPLY on one port's link (R183). -/
theorem State.moves_reply (s : State) (p : Port) (tag : Byte) (code : AnswerCode) :
    s.Moves (s.reply p tag code) (fun _ => false) (fun _ => false) (fun q => if q = p then [(tag, code)] else []) [] [] := by
  refine .still ?_ (fun q => ?_) (fun q => State.marks_reply s p q tag code) fun q => ?_
  · rw [State.reply_eq]
    split <;> simp
  · simp [State.port]
  · rw [State.sent_reply]
    by_cases hq : q = p <;> by_cases hl : (s.path q).linkUp = true <;> simp_all [replyFrames]

/-- The space turn changes (R66). -/
theorem State.moves_turn (s : State) (turn : Port) :
    s.Moves (s.withFlight { s.flight with spaceTurn := turn }) (fun _ => false) (fun _ => false) (fun _ => []) [] [] := by
  refine .still ?_ (fun q => rfl) (fun q => rfl) fun q => ?_
  · simp
    rfl
  · simp [replyFrames]
    rfl

/-! ## A new judgment of one waiting head command -/

/-- The entry with which the waiting head command of port `q` joins the flight table when it is judged now, if it does. -/
def State.admits (s : State) (q : Port) : List Entry :=
  match s.waitingHead q with
  | some (tag, c) => if s.checkCommand q c = none ∧ s.hasRoom q = true then [s.newEntry q tag c] else []
  | none => []

/-- A waiting head command that passes its checks and has no room is left as it stands. -/
theorem State.rejudge_waits {s : State} {q : Port} {tag : Byte} {c : IoCommand} (hh : s.waitingHead q = some (tag, c))
    (hc : s.checkCommand q c = none) (hr : s.hasRoom q = false) : s.rejudge q = s := by
  obtain ⟨-, hwait⟩ := State.headIo_of_waitingHead hh
  have hport : { s.port q with roomWait := true } = s.port q := by rw [← hwait]
  have hset : s.ports.set q { s.port q with roomWait := true } = s.ports := by rw [hport, State.port, Pair.set_get]
  simp only [State.rejudge, hh, State.judgeHead, hc, hr, Bool.false_eq_true, if_false, State.withPort, hset]

theorem State.refusedAt_false (s : State) (q : Port) : s.refusedAt q false = [] := by
  unfold State.refusedAt; split <;> simp

/-- The waiting head command of port `p`, if there is one, passes its checks and has no room: a new judgment changes nothing (R65). -/
theorem State.moves_waiting {s : State} {p : Port}
    (h : ∀ tag c, s.waitingHead p = some (tag, c) → s.checkCommand p c = none ∧ s.hasRoom p = false) :
    s.Moves s (fun _ => false) (fun q => decide (q = p)) (fun _ => []) [] [] where
  frame := by simp
  head := fun q => .kept rfl (by simp) fun hq tag c hh => by
    obtain rfl : q = p := by simpa using hq
    obtain ⟨hc, hr⟩ := h tag c hh
    refine ⟨hc, ?_⟩
    simp only [State.hasRoom, Bool.and_eq_false_iff, decide_eq_false_iff_not, not_lt] at hr
    exact hr
  sent := fun q => by
    have hnone : s.refusedAt q (decide (q = p)) = [] := by
      unfold State.refusedAt
      split
      · next tag c hh =>
        by_cases hq : q = p
        · subst hq
          simp [(h tag c hh).1]
        · simp [hq]
      · rfl
    simp [hnone, replyFrames]
  marks := fun q => by simp

/-- A waiting head command taken from the intake: refused, or admitted (R52). -/
theorem State.moves_taken {s : State} {p : Port} {tag : Byte} {c : IoCommand} (hh : s.waitingHead p = some (tag, c)) :
    (∀ code, s.checkCommand p c = some code →
      s.Moves ((s.takeHead p).reply p tag code) (fun _ => false) (fun q => decide (q = p)) (fun _ => []) [] [])
    ∧ (s.checkCommand p c = none →
      s.Moves ((s.takeHead p).admitted p tag c) (fun _ => false) (fun q => decide (q = p)) (fun _ => []) [s.newEntry p tag c] []) := by
  have partner : (s.takeHead p).port p.partner = s.port p.partner := s.takeHead_port_partner p
  have elsewhere : ∀ q, q ≠ p → s.refusedAt q (decide (q = p)) = [] := fun q hq => by
    rw [decide_eq_false hq, State.refusedAt_false]
  refine ⟨fun code hc => ⟨?_, ?_, fun q => ?_, fun q => ?_⟩, fun hc => ⟨?_, ?_, fun q => ?_, fun q => ?_⟩⟩
  · rw [State.reply_eq]
    split
    · rw [State.takeHead_frame]; simp
    · conv_lhs => rw [State.takeHead_frame]
      simp
  · refine forall_port_of p (.refused tag c code (by simp) hh hc ?_ (by simp)) (.kept ?_ (by simp) ?_)
    · simp [State.port]
    · rw [← partner]
      simp [State.port]
    · intro hj
      exact absurd (of_decide_eq_true hj) (Port.partner_ne p)
  · rw [State.sent_reply, State.sent_takeHead]
    by_cases hq : q = p
    · subst hq
      simp [State.refusedAt, hh, hc, replyFrames]
    · rw [elsewhere q hq]
      simp [replyFrames, hq]
  · have hport : ((s.takeHead p).reply p tag code).port q = (s.takeHead p).port q := by simp [State.port]
    rw [State.marks_reply, State.marks_takeHead, hport]
  · rw [State.admitted, State.withFlight]
    conv_lhs => rw [State.takeHead_frame]
    simp
    rfl
  · refine forall_port_of p (.admitted tag c (s.newEntry p tag c).index (by simp) hh hc rfl ?_) (.kept partner ?_ ?_)
    · simp [State.newEntry, entryOf]
    · simp [State.newEntry, (Port.partner_ne p).symm]
    · intro hj
      exact absurd (of_decide_eq_true hj) (Port.partner_ne p)
  · have hnone : s.refusedAt q (decide (q = p)) = [] := by
      by_cases hq : q = p
      · subst hq
        simp [State.refusedAt, hh, hc]
      · exact elsewhere q hq
    rw [hnone]
    simp only [replyFrames, List.append_nil, List.map_nil, ite_self]
    exact s.sent_takeHead p q
  · exact s.marks_takeHead p q

/-- A waiting head command judged again (R65). -/
theorem State.moves_rejudge (s : State) (p : Port) :
    s.Moves (s.rejudge p) (fun _ => false) (fun q => decide (q = p)) (fun _ => []) (s.admits p) [] := by
  cases hh : s.waitingHead p with
  | none =>
    have hstay : s.rejudge p = s := by simp only [State.rejudge, hh]
    rw [hstay, State.admits, hh]
    exact State.moves_waiting (by simp [hh])
  | some x =>
    obtain ⟨tag, c⟩ := x
    cases hc : s.checkCommand p c with
    | some code =>
      have ht : s.rejudge p = (s.takeHead p).reply p tag code := by simp only [State.rejudge, hh, State.judgeHead, hc]
      rw [ht]
      simp only [State.admits, hh, hc, reduceCtorEq, false_and, if_false]
      exact (State.moves_taken hh).1 code hc
    | none =>
      cases hr : s.hasRoom p with
      | true =>
        have ht : s.rejudge p = (s.takeHead p).admitted p tag c := by simp only [State.rejudge, hh, State.judgeHead, hc, hr, if_true]
        rw [ht]
        simp only [State.admits, hh, hc, hr, and_self, if_true]
        exact (State.moves_taken hh).2 hc
      | false =>
        rw [State.rejudge_waits hh hc hr]
        simp only [State.admits, hh, hc, hr, Bool.false_eq_true, and_false, if_false]
        refine State.moves_waiting fun tag' c' h' => ?_
        obtain ⟨rfl, rfl⟩ : tag = tag' ∧ c = c' := by simpa [hh] using h'
        exact ⟨hc, hr⟩

theorem State.rejudge_spaceTurn (s : State) (p : Port) : (s.rejudge p).flight.spaceTurn = s.flight.spaceTurn := by
  unfold State.rejudge
  split
  · unfold State.judgeHead
    split
    · simp
    · split <;> simp [State.admitted]
  · rfl

/-! ## A departure -/

theorem State.Moves.congr {s t : State} {gone gone' : Entry → Bool} {judged judged' : Port → Bool}
    {replies replies' : Port → List (Byte × AnswerCode)} {joined : List Entry} {ended : List Due}
    (h : s.Moves t gone judged replies joined ended) (hgone : ∀ e ∈ s.flight.entries, gone' e = gone e)
    (hjudged : ∀ q, judged' q = judged q) (hreplies : ∀ q, replies' q = replies q) :
    s.Moves t gone' judged' replies' joined ended := by
  obtain rfl : judged' = judged := funext hjudged
  obtain rfl : replies' = replies := funext hreplies
  obtain ⟨hframe, hhead, hsent, hmarks⟩ := h
  have hfilter : s.flight.entries.filter (fun e => !gone' e) = s.flight.entries.filter (fun e => !gone e) :=
    List.filter_congr fun e he => by rw [hgone e he]
  exact ⟨by rw [hfilter]; exact hframe, hhead, hsent, hmarks⟩

/-- The entries that join when both heads are judged again, the space turn's first. -/
def State.letIn (s : State) : List Entry :=
  s.admits s.flight.spaceTurn ++ (s.rejudge s.flight.spaceTurn).admits s.flight.spaceTurn.partner

/-- Both waiting head commands judged again (R65, R66). -/
theorem State.moves_rejudgeBoth (s : State) (full : Bool) :
    s.Moves (s.rejudgeBoth full) (fun _ => false) (fun _ => true) (fun _ => []) s.letIn [] := by
  set turn := s.flight.spaceTurn with hturn
  have first := s.moves_rejudge turn
  have second : (s.rejudge turn).Moves (s.rejudgeBoth full) (fun _ => false) (fun q => decide (q = turn.partner)) (fun _ => [])
      ((s.rejudge turn).admits turn.partner) [] := by
    rw [State.rejudgeBoth]
    dsimp only
    split
    · refine (((s.rejudge turn).moves_turn turn.partner).trans (State.moves_rejudge _ turn.partner) (.inl fun _ => rfl) (by simp)
        fun _ => .inl rfl).congr (fun _ _ => rfl) (fun q => ?_) (fun q => rfl)
      simp
    · exact (s.rejudge turn).moves_rejudge turn.partner
  refine (first.trans second (.inl fun _ => rfl) (fun _ _ => rfl) fun _ => .inl rfl).congr (fun _ _ => rfl) (fun q => ?_)
    (fun q => rfl)
  revert q
  exact forall_port_of turn (by simp) (by simp)

/-- The space turn after both heads have been judged again (R66). -/
theorem State.rejudgeBoth_spaceTurn (s : State) (full : Bool) : (s.rejudgeBoth full).flight.spaceTurn =
    if full && (s.waitingHead s.flight.spaceTurn).isSome && (s.waitingHead s.flight.spaceTurn.partner).isSome
        && s.wouldAdmit s.flight.spaceTurn then s.flight.spaceTurn.partner else s.flight.spaceTurn := by
  rw [State.rejudgeBoth]
  dsimp only
  rw [State.rejudge_spaceTurn]
  split
  · rfl
  · exact s.rejudge_spaceTurn _

/-- A departure: its entry leaves, the waits it ends come due, and both heads are judged again (R65, R74). -/
theorem State.moves_depart {s : State} {e : Entry} (he : e ∈ s.flight.entries) (hs : s.flightSound) :
    s.Moves (s.depart e) (fun x => decide (x.index = e.index)) (fun _ => true) (fun _ => []) (s.departed e).letIn
      (s.waitsEnded e.port fun x => decide (x.index = e.index)) := by
  rw [State.depart_eq]
  have h := (State.moves_departed he hs).trans (State.moves_rejudgeBoth (s.departed e) (decide (64 ≤ s.flight.entries.length)))
    (.inl fun _ => rfl) (by simp) fun _ => .inl rfl
  simpa only [List.append_nil, List.nil_append, Bool.or_false, Bool.false_or] using h

theorem State.depart_spaceTurn (s : State) (e : Entry) : (s.depart e).flight.spaceTurn =
    if decide (64 ≤ s.flight.entries.length) && (s.waitingHead s.flight.spaceTurn).isSome
        && (s.waitingHead s.flight.spaceTurn.partner).isSome && (s.departed e).wouldAdmit s.flight.spaceTurn then
      s.flight.spaceTurn.partner
    else s.flight.spaceTurn := (s.departed e).rejudgeBoth_spaceTurn _

/-- The space turn stays while the table has room or a port has no head that waits (R66). -/
theorem State.depart_spaceTurn_of {s : State} {e : Entry} {p : Port}
    (h : s.flight.entries.length < 64 ∨ s.waitingHead p = none ∨ s.waitingHead p.partner = none) :
    (s.depart e).flight.spaceTurn = s.flight.spaceTurn := by
  rw [State.depart_spaceTurn, if_neg]
  intro hmoves
  simp only [Bool.and_eq_true, decide_eq_true_eq] at hmoves
  obtain ⟨⟨⟨hfull, hturn⟩, hpartner⟩, -⟩ := hmoves
  have hall : ∀ q, (s.waitingHead q).isSome = true := forall_port_of s.flight.spaceTurn hturn hpartner
  rcases h with h | h | h
  · omega
  · simpa [h] using hall p
  · simpa [h] using hall p.partner

/-! ## The statements' form of a move -/

theorem State.HeadMove.headTo {s t : State} {q : Port} {joined : List Entry} {tag : Byte} {c : IoCommand}
    (h : s.HeadMove t q true joined) (hh : s.waitingHead q = some (tag, c)) : s.headTo t q joined tag c := by
  have same : ∀ {tag' c'}, s.waitingHead q = some (tag', c') → tag' = tag ∧ c' = c := by
    intro tag' c' h'
    simpa [hh, eq_comm] using h'
  unfold State.headTo
  cases h with
  | kept port others waits =>
    obtain ⟨hc, hroom⟩ := waits rfl tag c hh
    rw [hc]
    exact .inr ⟨port, others, hroom⟩
  | refused tag' c' code _ h' hc port others =>
    obtain ⟨rfl, rfl⟩ := same h'
    rw [hc]
    exact ⟨port, others⟩
  | admitted tag' c' index _ h' hc port one =>
    obtain ⟨rfl, rfl⟩ := same h'
    rw [hc]
    exact .inl ⟨port, index, one⟩

theorem State.Moves.leaveTo {s t : State} {p : Port} {gone : Entry → Bool} {judged : Port → Bool}
    {replies : List (Byte × AnswerCode)} {joined : List Entry} {ended : List Due}
    (h : s.Moves t gone judged (fun q => if q = p then replies else []) joined ended)
    (hturn : s.flight.entries.length < 64 ∨ s.waitingHead p = none ∨ s.waitingHead p.partner = none →
      t.flight.spaceTurn = s.flight.spaceTurn) : s.leaveTo t p gone judged replies ended := by
  refine ⟨joined, h.frame, hturn, fun q => ⟨?_, h.sent q, h.marks q⟩⟩
  have hq := h.head q
  cases hh : s.waitingHead q with
  | none => exact hq.unmoved (.inr hh)
  | some x =>
    obtain ⟨tag, c⟩ := x
    dsimp only
    split
    · next hj => exact (hj ▸ hq).headTo hh
    · next hj => exact hq.unmoved (.inl (by simpa using hj))

end Sys2Proof.Machine
end

section
/-! PROOFS. DRIVE_ANSWER (R83): the resolution, the departure of its entry, and what the departure ends (R74, R122, R133, R194). -/

namespace Sys2Proof.Machine

/-! ## What joins the flight table -/

/-- An entry that joined is the admitted head command of its port. -/
theorem State.Moves.of_joined {s t : State} {gone : Entry → Bool} {judged : Port → Bool}
    {replies : Port → List (Byte × AnswerCode)} {joined : List Entry} {ended : List Due}
    (h : s.Moves t gone judged replies joined ended) {x : Entry} (hx : x ∈ joined) :
    ∃ tag c index, s.waitingHead x.port = some (tag, c) ∧ s.checkCommand x.port c = none ∧ x = entryOf x.port tag c index := by
  cases h.head x.port with
  | kept _ others => exact absurd rfl (others x hx)
  | refused _ _ _ _ _ _ _ others => exact absurd rfl (others x hx)
  | admitted tag c index _ hh hc _ one =>
    have hmem : x ∈ joined.filter (fun e => e.port = x.port) := List.mem_filter.2 ⟨hx, by simp⟩
    rw [one, List.mem_singleton] at hmem
    exact ⟨tag, c, index, hh, hc, hmem⟩

theorem State.Moves.waiting_of_joined {s t : State} {gone : Entry → Bool} {judged : Port → Bool}
    {replies : Port → List (Byte × AnswerCode)} {joined : List Entry} {ended : List Due}
    (h : s.Moves t gone judged replies joined ended) {x : Entry} (hx : x ∈ joined) : x.stage = .waiting := by
  obtain ⟨tag, c, index, -, -, heq⟩ := h.of_joined hx
  rw [heq]
  rfl

/-! ## The resolution -/

theorem State.slotEntry_eq_some {s : State} {k : Fin 32} {e : Entry} (h : s.slotEntry k = some e) :
    e ∈ s.flight.entries ∧ e.stage.slot = some k :=
  ⟨List.mem_of_find?_eq_some h, by simpa using List.find?_some h⟩

/-- No other entry holds the slot of one (R77). -/
theorem State.eq_of_slot {s : State} (hs : s.flightSound) {k : Fin 32} {x y : Entry} (hx : x ∈ s.flight.entries)
    (hy : y ∈ s.flight.entries) (hxk : x.stage.slot = some k) (hyk : y.stage.slot = some k) : x = y := by
  obtain ⟨-, -, -, hslots, -⟩ := hs
  rw [List.Nodup, List.pairwise_filterMap] at hslots
  have hsymm : Std.Symm fun a b : Entry => ∀ i, a.stage.slot = some i → ∀ j, b.stage.slot = some j → i ≠ j :=
    ⟨fun a b h j hj i hi => (h i hi j hj).symm⟩
  by_contra hne
  exact hslots.forall hx hy hne k hxk k hyk rfl

theorem resolvedValue_eq (kind : IoKind) (value : DriveValue) : resolvedValue kind value = match value, kind with
    | .good, _ => .good
    | .mediaError, _ => .mediaError
    | .dataLost, .write => .dataLost
    | .dataLost, _ => .mediaError
    | .aborted, _ => .aborted
    | .other _, _ => .mediaError := by
  cases value <;> cases kind <;> rfl

/-- What a resolution adds to a takeover record (R127). -/
def Takeover.counted (draining write abandoned : Bool) (code : AnswerCode) (r : Takeover) : Takeover :=
  { r with
    aborted := r.aborted + (if draining && write && !abandoned && decide (code = .aborted) then 1 else 0)
    completed := r.completed + (if draining && write && !abandoned && decide (code ≠ .aborted) then 1 else 0)
    answeredLate := r.answeredLate + (if write && abandoned then 1 else 0) }

theorem State.countResolution_eq (s : State) (e : Entry) (code : AnswerCode) : s.countResolution e code = { s with
    paths := s.paths.set e.port { s.path e.port with
      takeover := (s.path e.port).takeover.map
        (Takeover.counted (decide ((s.path e.port).state = .draining)) e.kind.writeClass e.stage.isAbandoned code) } } := by
  have same : ∀ {f : Takeover → Takeover}, (∀ r, f r = r) →
      s.paths.set e.port { s.path e.port with takeover := (s.path e.port).takeover.map f } = s.paths := by
    intro f hf
    have hid : f = id := funext hf
    rw [hid, Option.map_id, id, State.path, Pair.set_get]
  unfold State.countResolution
  cases hw : e.kind.writeClass with
  | false => rw [same fun r => by simp [Takeover.counted]]; rfl
  | true =>
    cases ha : e.stage.isAbandoned with
    | true =>
      have hlate : Takeover.counted (decide ((s.path e.port).state = .draining)) true true code =
          fun t => { t with answeredLate := t.answeredLate + 1 } := funext fun r => by simp [Takeover.counted]
      rw [hlate]
      rfl
    | false =>
      by_cases hd : (s.path e.port).state = .draining
      · have hdrain : Takeover.counted true true false code = fun t => t.countDrain code := funext fun r => by
          by_cases hc : code = .aborted <;> simp [Takeover.counted, Takeover.countDrain, hc]
        simp only [if_true, Bool.false_eq_true, if_false]
        rw [if_pos hd, decide_eq_true hd, hdrain]
        rfl
      · simp only [hd, if_true, Bool.false_eq_true, if_false, decide_false]
        rw [same fun r => by simp [Takeover.counted]]

theorem State.drainTest_eq (s : State) (p : Port) : s.drainTest p =
    if (s.path p).state = .draining ∧
        (s.flight.entries.any fun y => y.writeOf p && (y.stage.isSubmitted || y.stage.isAborting)) = false then s.shed p
    else s := by
  rw [State.drainTest, State.endDrain_eq_shed]
  simp [Entry.inDrain]

/-- The state in which a resolved entry departs: replied to and counted, and its ABORT no longer due (R73, R82, R127). -/
def State.resolved (s : State) (e : Entry) (k : Fin 32) (code : AnswerCode) : State :=
  let replied := if e.stage.isAbandoned then s else s.reply e.port e.tag code
  { replied with
    paths := s.paths.set e.port { s.path e.port with
      takeover := (s.path e.port).takeover.map
        (Takeover.counted (decide ((s.path e.port).state = .draining)) e.kind.writeClass e.stage.isAbandoned code) }
    media := { s.media with abortList := s.media.abortList.filter fun x => x ≠ k } }

theorem State.resolveLeft_eq (s : State) (e : Entry) (k : Fin 32) (code : AnswerCode) :
    s.resolveLeft e k code = (s.resolved e k code).depart e := by
  have hpaths : (s.replyResolved e code).paths = s.paths := by unfold State.replyResolved; split <;> simp
  have hmedia : (s.replyResolved e code).media = s.media := by unfold State.replyResolved; split <;> simp
  have hfilter : (s.media.abortList.filter fun x => x != k) = s.media.abortList.filter fun x => x ≠ k :=
    List.filter_congr fun x _ => by rw [Bool.eq_iff_iff]; simp
  unfold State.resolveLeft
  simp only [hfilter, State.countResolution_eq, State.path, hpaths, State.withMedia, hmedia]
  rfl

theorem State.resolved_flight (s : State) (e : Entry) (k : Fin 32) (code : AnswerCode) :
    (s.resolved e k code).flight = s.flight := by
  unfold State.resolved
  dsimp only
  split <;> simp

theorem State.resolved_part (s : State) (e : Entry) (k : Fin 32) (code : AnswerCode) :
    (s.resolved e k code).part = s.part := by
  unfold State.resolved
  dsimp only
  split <;> simp

theorem State.resolved_path_state (s : State) (e : Entry) (k : Fin 32) (code : AnswerCode) (q : Port) :
    ((s.resolved e k code).path q).state = (s.path q).state := by
  unfold State.resolved State.path
  dsimp only
  rw [Pair.get_set]
  split
  · next h => rw [h]
  · rfl

/-- UNRESOLVED-CLEARED, read off a state with the same holdings and the same flight table (R133). -/
theorem State.raiseCleared_eq {x w : State} (e : Entry) (hflight : x.flight = w.flight)
    (hholdings : x.table.holdings = w.table.holdings) : x.raiseCleared e =
    (if e.stage.isAbandoned && decide (e.kind ≠ .read) then
        w.table.holdings.filter fun h => h.tenure.lastOwner.isSome && e.overlaps h && !w.unresolved h
      else []).foldl (fun u h => u.raise .unresolvedCleared { port := none, value := h.id } [.A, .B]) x := by
  have hunresolved : ∀ h, x.unresolved h = w.unresolved h := fun h => by rw [State.unresolved, hflight]; rfl
  rw [State.raiseCleared, ← IoKind.writeClass_eq, hholdings]
  simp only [hunresolved]
  split <;> rfl

theorem State.drainTest_if (w : State) (p : Port) (draining write : Bool) (hd : draining = decide ((w.path p).state = .draining)) :
    (if write then w.drainTest p else w) =
      if draining && write && !(w.flight.entries.any fun y => y.writeOf p && (y.stage.isSubmitted || y.stage.isAborting)) then
        w.shed p
      else w := by
  subst hd
  rw [State.drainTest_eq]
  cases write
  · simp
  · by_cases hs : (w.path p).state = .draining
    · simp only [hs, true_and, if_true, decide_true, Bool.true_and, Bool.not_eq_true']
    · simp only [hs, false_and, if_false, if_true, decide_false, Bool.false_and, Bool.false_eq_true]

/-- The end of RESETTING's wait for the flight table (R194). -/
theorem State.clearWhenEmpty_eq (y : State) : y.clearWhenEmpty =
    if y.part.state = .resetting ∧ y.flight.entries = [] then { y with
      part := { y.part with resetAbortTimer := none }
      media := if y.media.clear = .idle then { y.media with abortList := [], clear := .requested } else y.media }
    else y := by
  simp only [State.clearWhenEmpty, Bool.and_eq_true, decide_eq_true_eq, List.isEmpty_iff]
  split
  · unfold State.requestClear
    split <;> next h => simp only [State.withPart] at h; simp [h, State.withPart, State.withMedia]
  · rfl

/-- Settles O52. -/
theorem driveAnswers : Obligations.DriveAnswers := by
  refine ⟨fun k value s hk => ?_, fun k value e s hs hk => ?_⟩
  · change execDriveAnswer k value s = _
    rw [execDriveAnswer, hk]
  · obtain ⟨he, hslot⟩ := State.slotEntry_eq_some hk
    intro code p write abandoned draining gone counted replied v
    have hcode : code = resolvedValue e.kind value := (resolvedValue_eq e.kind value).symm
    have hv : v = s.resolved e k code := by
      unfold State.resolved
      rw [IoKind.writeClass_eq]
      rfl
    have hflight : v.flight = s.flight := hv ▸ s.resolved_flight e k code
    have hsound : v.flightSound := State.flightSound_of hs (by rw [hflight])
    have hmoves := State.moves_depart (s := v) (hflight ▸ he) hsound
    have hleave : v.leaveTo (v.depart e) p gone (fun _ => true) [] (v.waitsEnded p gone) :=
      State.Moves.leaveTo (hmoves.congr (fun _ _ => rfl) (fun _ => rfl) fun q => ite_self _) State.depart_spaceTurn_of
    refine ⟨v.depart e, hleave, ?_, ?_⟩
    · have hfree : ∀ x ∈ (v.depart e).flight.entries, x.stage.slot ≠ some k := by
        rw [hmoves.entries, hflight]
        intro x hx hxk
        rcases List.mem_append.1 hx with hx | hx
        · obtain ⟨hx, hne⟩ := List.mem_filter.1 hx
          rw [State.eq_of_slot hs hx he hxk hslot] at hne
          simp at hne
        · rw [hmoves.waiting_of_joined hx] at hxk
          cases hxk
      exact Option.isNone_iff_eq_none.1 (State.slotEntry_isNone.2 hfree)
    · have hexec : exec (.driveAnswer k value) s = .next (s.resolve e k code) := by
        change execDriveAnswer k value s = _
        rw [execDriveAnswer, hk, hcode]
      have hpath : ((v.depart e).path p).state = (s.path p).state := by
        rw [State.path, State.depart_paths, hv]
        exact s.resolved_path_state e k code p
      intro x cleared y
      have hx : (if e.kind.writeClass then (v.depart e).drainTest e.port else v.depart e) = x := by
        rw [IoKind.writeClass_eq]
        exact State.drainTest_if _ _ _ _ (by rw [hpath])
      have hxflight : x.flight = (v.depart e).flight := by rw [← hx]; split <;> simp
      have hxholdings : x.table.holdings = (v.depart e).table.holdings := by rw [← hx]; split <;> simp
      have hy : x.raiseCleared e = y := State.raiseCleared_eq e hxflight hxholdings
      have hyflight : y.flight = (v.depart e).flight := by rw [← hy, State.raiseCleared_flight, hxflight]
      have hypart : y.part = s.part := by
        rw [← hy, State.raiseCleared_part, ← hx, apply_ite State.part, State.drainTest_part, ite_self, State.depart_part, hv,
          State.resolved_part]
      have hymedia : y.media = v.media := by
        rw [← hy, State.raiseCleared_media, ← hx, apply_ite State.media, State.drainTest_media, ite_self, State.depart_media]
      rw [hexec, State.resolve_eq, State.resolveLeft_eq, ← hv, hx, hy, State.clearWhenEmpty_eq, hypart, hymedia, hyflight]

end Sys2Proof.Machine
end

section
/-! PROOFS. The place that a departure frees (R65, R66, R68): who is let in, under which index, and the space turn. -/

namespace Sys2Proof.Machine

/-! ## One head let in -/

/-- The waiting head command of port `q` passes its checks, and among these entries its port is below its quota. -/
def State.passesIn (s : State) (left : List Entry) (q : Port) : Bool :=
  match s.waitingHead q with
  | some (_, c) => decide (s.checkCommand q c = none) && decide ((left.filter fun x => x.port = q).length < s.settings.quotas.get q)
  | none => false

theorem State.wouldAdmit_eq (s : State) (q : Port) :
    s.wouldAdmit q = (s.passesIn s.flight.entries q && decide (s.flight.entries.length < 64)) := by
  unfold State.wouldAdmit State.passesIn
  cases s.waitingHead q with
  | none => rfl
  | some x =>
    rw [Bool.eq_iff_iff]
    simp only [State.hasRoom, Bool.and_eq_true, decide_eq_true_eq, Option.isNone_iff_eq_none, and_assoc]
    rfl

theorem State.admits_of_wouldAdmit {s : State} {q : Port} (h : s.wouldAdmit q = true) :
    ∃ tag c, s.waitingHead q = some (tag, c) ∧ s.hasRoom q = true ∧ s.admits q = [s.newEntry q tag c] := by
  unfold State.wouldAdmit at h
  split at h
  · next tag c hh =>
    simp only [Bool.and_eq_true, Option.isNone_iff_eq_none] at h
    exact ⟨tag, c, hh, h.2, by simp only [State.admits, hh, h, and_self, if_true]⟩
  · cases h

theorem State.admits_of_not_wouldAdmit {s : State} {q : Port} (h : s.wouldAdmit q = false) : s.admits q = [] := by
  unfold State.wouldAdmit at h
  unfold State.admits
  split
  · next tag c hh =>
    simp only [hh, Bool.and_eq_false_iff] at h
    rw [if_neg]
    rintro ⟨hc, hr⟩
    simp [hc, hr] at h
  · rfl

theorem State.admits_ports (s : State) (q : Port) : (s.admits q).map (·.port) = if s.wouldAdmit q then [q] else [] := by
  cases h : s.wouldAdmit q with
  | true =>
    obtain ⟨tag, c, -, -, heq⟩ := State.admits_of_wouldAdmit h
    rw [heq]
    rfl
  | false =>
    rw [State.admits_of_not_wouldAdmit h]
    rfl

/-! ## Entries that join under the lowest free index -/

/-- Each of these entries is the waiting head command of its port, under the lowest index free among a list and those before it (R68). -/
def State.joinsLowest (s : State) (base joined : List Entry) : Prop :=
  ∀ before x after, joined = before ++ x :: after →
    (∃ c, s.waitingHead x.port = some (x.tag, c) ∧ x.kind = c.kind ∧ x.ns = c.ns
      ∧ x.range = (if c.kind = .flush then none else some { start := c.start, count := c.count })
      ∧ x.stage = .waiting ∧ x.xfer = .none)
    ∧ x.index < 64 ∧ (∀ y ∈ base ++ before, y.index ≠ x.index) ∧ ∀ j < x.index, ∃ y ∈ base ++ before, y.index = j

theorem State.joinsLowest_nil (s : State) (base : List Entry) : s.joinsLowest base [] := by
  intro before x after h
  simp at h

theorem State.joinsLowest_append {s : State} {base a b : List Entry} (ha : s.joinsLowest base a) (hb : s.joinsLowest (base ++ a) b) :
    s.joinsLowest base (a ++ b) := by
  intro before x after h
  rcases List.append_eq_append_iff.1 h with ⟨rest, hbefore, hrest⟩ | ⟨rest, hfirst, hrest⟩
  · rw [hbefore, ← List.append_assoc]
    exact hb rest x after hrest
  · cases rest with
    | nil =>
      have hbx := hb [] x after (by simpa using hrest.symm)
      rw [List.append_nil] at hfirst
      rw [← hfirst]
      simpa using hbx
    | cons y ys =>
      obtain ⟨rfl, -⟩ : x = y ∧ _ := by simpa using hrest
      exact ha before x ys hfirst

theorem State.joinsLowest_admits (s : State) (q : Port) : s.joinsLowest s.flight.entries (s.admits q) := by
  cases h : s.wouldAdmit q with
  | false =>
    rw [State.admits_of_not_wouldAdmit h]
    exact s.joinsLowest_nil _
  | true =>
    obtain ⟨tag, c, hh, hr, heq⟩ := State.admits_of_wouldAdmit h
    intro before x after hx
    rw [heq] at hx
    obtain ⟨rfl, rfl⟩ : before = [] ∧ x = s.newEntry q tag c := by
      cases before with
      | nil => exact ⟨rfl, (List.cons.inj hx).1.symm⟩
      | cons y ys => simp at hx
    rw [List.append_nil]
    exact ⟨⟨c, hh, rfl, rfl, rfl, rfl, rfl⟩, firstFree_index (State.hasRoom_length hr)⟩

/-! ## Both heads -/

/-- What the second head finds after the first has been judged again: its own head as before, and one place fewer if the first took one. -/
theorem State.wouldAdmit_second (u : State) (turn : Port) : (u.rejudge turn).wouldAdmit turn.partner =
    (u.passesIn u.flight.entries turn.partner
      && decide (u.flight.entries.length + (if u.wouldAdmit turn then 1 else 0) < 64)) := by
  have hmoves := u.moves_rejudge turn
  have hentries : (u.rejudge turn).flight.entries = u.flight.entries ++ u.admits turn := by
    rw [hmoves.entries]
    simp
  have hlength : (u.admits turn).length = if u.wouldAdmit turn then 1 else 0 := by
    rw [← List.length_map (f := (·.port)), State.admits_ports]
    split <;> rfl
  have hother : (u.admits turn).filter (fun x => x.port = turn.partner) = [] := by
    rw [List.filter_eq_nil_iff]
    intro x hx
    have hport : x.port ∈ (u.admits turn).map (·.port) := List.mem_map_of_mem hx
    rw [State.admits_ports] at hport
    split at hport
    · simp [List.mem_singleton.1 hport, (Port.partner_ne turn).symm]
    · cases hport
  obtain ⟨hport, -⟩ := (hmoves.head turn.partner).unmoved (.inl (by simp [Port.partner_ne]))
  have hpasses : (u.rejudge turn).passesIn (u.flight.entries ++ u.admits turn) turn.partner
      = u.passesIn u.flight.entries turn.partner := by
    simp only [State.passesIn, State.waitingHead_of_port hport, hmoves.checkCommand, hmoves.settings, List.filter_append, hother,
      List.append_nil]
  rw [State.wouldAdmit_eq, hentries, hpasses, List.length_append, hlength]

/-- The ports let in: those whose heads pass, the space turn's first, as far as the room goes. -/
theorem State.letIn_ports {u : State} (hroom : u.flight.entries.length < 64) : u.letIn.map (·.port) =
    ([u.flight.spaceTurn, u.flight.spaceTurn.partner].filter (u.passesIn u.flight.entries)).take (64 - u.flight.entries.length) := by
  obtain ⟨n, hn⟩ : ∃ n, 64 - u.flight.entries.length = n + 1 := ⟨63 - u.flight.entries.length, by omega⟩
  rw [State.letIn, List.map_append, State.admits_ports, State.admits_ports, State.wouldAdmit_second, State.wouldAdmit_eq,
    decide_eq_true hroom, Bool.and_true, hn]
  have hnext : u.flight.entries.length + 1 < 64 ↔ 0 < n := by omega
  cases hfirst : u.passesIn u.flight.entries u.flight.spaceTurn with
  | false =>
    cases hsecond : u.passesIn u.flight.entries u.flight.spaceTurn.partner <;> simp [hfirst, hsecond, hroom]
  | true =>
    cases hsecond : u.passesIn u.flight.entries u.flight.spaceTurn.partner with
    | false => simp [hfirst, hsecond]
    | true => cases n <;> simp [hfirst, hsecond, hnext]

/-- The entries let in are the heads of their ports, under the lowest free indices in turn. -/
theorem State.letIn_joinsLowest (u : State) : u.joinsLowest u.flight.entries u.letIn := by
  set turn := u.flight.spaceTurn with hturn
  have hmoves := u.moves_rejudge turn
  have hentries : (u.rejudge turn).flight.entries = u.flight.entries ++ u.admits turn := by
    rw [hmoves.entries]
    simp
  refine State.joinsLowest_append (u.joinsLowest_admits turn) ?_
  rw [← hentries]
  intro before x after hx
  obtain ⟨⟨c, hhead, hrest⟩, hindex⟩ := (u.rejudge turn).joinsLowest_admits turn.partner before x after hx
  refine ⟨⟨c, ?_, hrest⟩, hindex⟩
  have hport : x.port ∈ ((u.rejudge turn).admits turn.partner).map (·.port) := by
    rw [hx]
    simp
  rw [State.admits_ports] at hport
  split at hport
  · rw [List.mem_singleton.1 hport] at hhead ⊢
    rw [← hhead]
    exact (State.waitingHead_of_port ((hmoves.head turn.partner).unmoved (.inl (by simp [Port.partner_ne]))).1).symm
  · cases hport

/-! ## The freed place -/

/-- A departure gives the freed place by the turn (R65, R66, R68). -/
theorem State.depart_freedTo {s : State} {e : Entry} (he : e ∈ s.flight.entries) (hs : s.flightSound) :
    s.freedTo (s.depart e) e := by
  have hmoves := State.moves_depart he hs
  have hleft : (s.departed e).flight.entries = s.flight.entries.filter fun x => x.index ≠ e.index :=
    List.filter_congr fun x _ => by rw [Bool.eq_iff_iff]; simp
  obtain ⟨hlen, -⟩ := hs
  have hroom : (s.departed e).flight.entries.length < 64 := by
    rw [hleft]
    refine lt_of_lt_of_le (List.length_filter_lt_length_iff_exists.2 ⟨e, he, by simp⟩) hlen
  have hports := State.letIn_ports hroom
  have hlowest := (s.departed e).letIn_joinsLowest
  rw [hleft] at hports hlowest
  unfold State.freedTo
  intro left turn passes placed
  have hpasses : passes = (s.departed e).passesIn left := by
    funext q
    simp only [passes, State.passesIn]
    rfl
  have hplaced : (s.departed e).letIn.map (·.port) = placed := by
    rw [hports]
    simp only [placed, hpasses]
    rfl
  refine ⟨(s.departed e).letIn, ?_, hplaced, hlowest, ?_, fun q => ?_⟩
  · rw [hmoves.entries]
    congr 1
  · rw [State.depart_spaceTurn]
    have hturn : (s.departed e).wouldAdmit turn = passes turn := by
      rw [State.wouldAdmit_eq, decide_eq_true hroom, Bool.and_true, hleft, hpasses]
    have hhead : passes turn = true → (s.waitingHead turn).isSome = true := by
      intro h
      cases hh : s.waitingHead turn with
      | none => simp [passes, hh] at h
      | some x => rfl
    rw [hturn]
    refine if_congr ?_ rfl rfl
    simp only [Bool.and_eq_true, decide_eq_true_eq]
    constructor
    · rintro ⟨⟨⟨hfull, -⟩, hpartner⟩, hpass⟩
      exact ⟨le_antisymm hlen hfull, hpass, hpartner⟩
    · rintro ⟨hfull, hpass, hpartner⟩
      exact ⟨⟨⟨hfull.ge, hhead hpass⟩, hpartner⟩, hpass⟩
  · have hin : q ∈ placed ↔ ∃ x ∈ (s.departed e).letIn, x.port = q := by rw [← hplaced, List.mem_map]
    cases hmoves.head q with
    | kept port others waits =>
      split
      · next tag c hh =>
        rw [if_neg, port]
        rw [hin, (waits rfl tag c hh).1]
        rintro (h | ⟨x, hx, hxq⟩)
        · exact h rfl
        · exact others x hx hxq
      · exact port
    | refused tag c code _ hh hc port others =>
      rw [port]
      simp only [hh, hc]
      rw [if_pos (.inl (by simp))]
    | admitted tag c index _ hh hc port one =>
      have hone : entryOf q tag c index ∈ (s.departed e).letIn := by
        have hmem : entryOf q tag c index ∈ (s.departed e).letIn.filter (fun e => e.port = q) := one ▸ List.mem_singleton_self _
        exact (List.mem_filter.1 hmem).1
      rw [port]
      simp only [hh]
      rw [if_pos (.inr (hin.2 ⟨_, hone, rfl⟩))]

/-- `State.freedTo` reads the flight table, the intakes and the checks before, and the flight table and the intakes after. -/
theorem State.freedTo_of {s s' t t' : State} {e : Entry} (h : s.freedTo t e) (hflight : s'.flight = s.flight)
    (hports : s'.ports = s.ports) (hsettings : s'.settings = s.settings)
    (hcheck : ∀ q c, s'.checkCommand q c = s.checkCommand q c) (hflight' : t'.flight = t.flight) (hports' : t'.ports = t.ports) :
    s'.freedTo t' e := by
  have hport : ∀ q, s'.port q = s.port q := fun q => by rw [State.port, State.port, hports]
  have hport' : ∀ q, t'.port q = t.port q := fun q => by rw [State.port, State.port, hports']
  have hhead : ∀ q, s'.waitingHead q = s.waitingHead q := fun q => State.waitingHead_of_port (hport q)
  have htake : ∀ q, (s'.takeHead q).port q = (s.takeHead q).port q := fun q => State.takeHead_port_of_port (hport q)
  unfold State.freedTo at h ⊢
  simp only [hflight, hhead, hcheck, hsettings, hflight', hport', htake, hport]
  exact h

/-- The checks of a command read the part, the table, the settings and the port's path state. -/
theorem State.checkCommand_congr {s t : State} {q : Port} (c : IoCommand) (hstate : (t.path q).state = (s.path q).state)
    (hpart : t.part = s.part) (htable : t.table = s.table) (hsettings : t.settings = s.settings) :
    t.checkCommand q c = s.checkCommand q c := by
  have hnamespace : t.namespaceById = s.namespaceById := funext fun id => by rw [State.namespaceById, htable]; rfl
  have hcoverage : t.coverage = s.coverage := by
    funext ns first last
    rw [State.coverage, State.rangeHoldings, htable]
    rfl
  have hcheck : t.checkCoverage = s.checkCoverage := by
    funext p c segments
    rw [State.checkCoverage, State.policy, hsettings]
    rfl
  unfold State.checkCommand
  rw [hnamespace, hcoverage, hcheck, hstate, hpart]

/-- A resolution's reply and counts keep the intakes, the table and the settings. -/
theorem State.resolved_keeps (s : State) (e : Entry) (k : Fin 32) (code : AnswerCode) :
    (s.resolved e k code).ports = s.ports ∧ (s.resolved e k code).table = s.table
      ∧ (s.resolved e k code).settings = s.settings := by
  unfold State.resolved
  dsimp only
  split <;> simp

/-- What follows a resolution's departure keeps the flight table and the intakes. -/
theorem State.resolve_keeps (s : State) (e : Entry) (k : Fin 32) (code : AnswerCode) :
    (s.resolve e k code).flight = ((s.resolved e k code).depart e).flight
      ∧ (s.resolve e k code).ports = ((s.resolved e k code).depart e).ports := by
  rw [State.resolve_eq, State.resolveLeft_eq]
  split <;> simp

/-- Settles O25. -/
theorem freedPlaceGoesByTurn : Obligations.FreedPlaceGoesByTurn := by
  refine ⟨fun k value e s hs hk => ⟨s.resolve e k (resolvedValue e.kind value), ?_, ?_⟩,
    fun e s hs he => ⟨State.depart_freedTo he hs, ?_⟩⟩
  · change execDriveAnswer k value s = _
    rw [execDriveAnswer, hk]
  · set code := resolvedValue e.kind value
    have hflight := s.resolved_flight e k code
    obtain ⟨hports, htable, hsettings⟩ := s.resolved_keeps e k code
    obtain ⟨hflight', hports'⟩ := s.resolve_keeps e k code
    have he : e ∈ (s.resolved e k code).flight.entries := hflight ▸ (State.slotEntry_eq_some hk).1
    have hsound : (s.resolved e k code).flightSound := State.flightSound_of hs (by rw [hflight])
    refine State.freedTo_of (State.depart_freedTo he hsound) hflight.symm hports.symm hsettings.symm (fun q c => ?_) hflight' hports'
    exact (State.checkCommand_congr c (s.resolved_path_state e k code q) (s.resolved_part e k code) htable hsettings).symm
  · rw [(State.moves_depart he hs).frame]

end Sys2Proof.Machine
end

section
/-! PROOFS. Withdrawals (R71): the FENCED replies and departures of an entry to LOST or DRAINING, taken together. -/

namespace Sys2Proof.Machine

/-! ## The waits that several departures end -/

/-- Two lists of values picked from one list, when no element gives a value to both, are together those that either picks. -/
theorem filterMap_perm_append {α β : Type} {f g h : α → Option β} (l : List α)
    (hpick : ∀ x ∈ l, (f x = none ∧ h x = g x) ∨ (g x = none ∧ h x = f x)) :
    (l.filterMap f ++ l.filterMap g).Perm (l.filterMap h) := by
  induction l with
  | nil => exact .refl _
  | cons x xs ih =>
    have hrest := ih fun y hy => hpick y (List.mem_cons_of_mem x hy)
    rcases hpick x List.mem_cons_self with ⟨hnone, heq⟩ | ⟨hnone, heq⟩
    · rw [List.filterMap_cons_none hnone]
      cases hg : g x with
      | none => rwa [List.filterMap_cons_none hg, List.filterMap_cons_none (heq.trans hg)]
      | some b =>
        rw [List.filterMap_cons_some hg, List.filterMap_cons_some (heq.trans hg)]
        exact List.perm_middle.trans (hrest.cons b)
    · rw [List.filterMap_cons_none hnone]
      cases hf : f x with
      | none => rwa [List.filterMap_cons_none hf, List.filterMap_cons_none (heq.trans hf)]
      | some b =>
        rw [List.filterMap_cons_some hf, List.filterMap_cons_some (heq.trans hf)]
        exact hrest.cons b

/-- A write-class entry of port `p` that satisfies a test overlaps the holding. -/
def State.hits (s : State) (p : Port) (f : Entry → Bool) (h : Holding) : Bool :=
  s.flight.entries.any fun e => f e && e.writeOf p && e.overlaps h

theorem State.waitsEnded_eq (s : State) (p : Port) (gone : Entry → Bool) : s.waitsEnded p gone =
    s.table.holdings.filterMap fun h => if s.hits p gone h && !s.hits p (fun e => !gone e) h then h.waitOf p else none := rfl

theorem State.hits_iff {s : State} {p : Port} {f : Entry → Bool} {h : Holding} :
    s.hits p f h = true ↔ ∃ e ∈ s.flight.entries, f e = true ∧ e.writeOf p = true ∧ e.overlaps h = true := by
  simp [State.hits, and_assoc]

theorem State.hits_congr {s : State} {p : Port} {f g : Entry → Bool} (hfg : ∀ e ∈ s.flight.entries, f e = g e) (h : Holding) :
    s.hits p f h = s.hits p g h := by
  rw [Bool.eq_iff_iff, State.hits_iff, State.hits_iff]
  refine exists_congr fun e => and_congr_right fun he => ?_
  rw [hfg e he]

theorem State.hits_or (s : State) (p : Port) (f g : Entry → Bool) (h : Holding) :
    s.hits p (fun e => f e || g e) h = (s.hits p f h || s.hits p g h) := by
  rw [Bool.eq_iff_iff, Bool.or_eq_true, State.hits_iff, State.hits_iff, State.hits_iff, ← exists_or]
  refine exists_congr fun e => ?_
  rw [Bool.or_eq_true]
  tauto

theorem State.waitsEnded_none (s : State) (p : Port) : s.waitsEnded p (fun _ => false) = [] := by
  simp [State.waitsEnded]

theorem State.waitsEnded_congr {s : State} {p : Port} {gone gone' : Entry → Bool}
    (h : ∀ e ∈ s.flight.entries, gone' e = gone e) : s.waitsEnded p gone' = s.waitsEnded p gone := by
  rw [State.waitsEnded_eq, State.waitsEnded_eq]
  simp only [State.hits_congr h, State.hits_congr fun e he => congrArg Bool.not (h e he)]

/-- The entries of a list, by their indices. -/
def indexIn (l : List Entry) (x : Entry) : Bool := l.any fun e => decide (x.index = e.index)

theorem indexIn_append (l : List Entry) (e x : Entry) : indexIn (l ++ [e]) x = (indexIn l x || decide (x.index = e.index)) := by
  simp [indexIn]

/-! ## One withdrawal after others -/

/-- What the withdrawals of the entries `l` of port `p` have done to `v`, the port's own head judged first (R65, R71). -/
structure State.Withdrew (v w : State) (p : Port) (l : List Entry) : Prop where
  moves : ∃ joined ended, v.Moves w (indexIn l) (fun q => decide (q = p) || !l.isEmpty)
    (fun q => if q = p then l.map (fun e => (e.tag, .fenced)) else []) joined ended
      ∧ ended.Perm (v.waitsEnded p (indexIn l))
  sound : w.flightSound
  turn : v.flight.entries.length < 64 ∨ v.waitingHead p = none ∨ v.waitingHead p.partner = none →
    w.flight.spaceTurn = v.flight.spaceTurn

theorem State.withdrew_nil {v : State} {p : Port} (hs : v.flightSound) : v.Withdrew (v.rejudge p) p [] where
  moves := ⟨v.admits p, [], (v.moves_rejudge p).congr (fun _ _ => rfl) (fun q => by simp) (fun q => by simp), by
    rw [show indexIn [] = fun _ => false from rfl, State.waitsEnded_none]⟩
  sound := State.rejudge_flightSound p hs
  turn := fun _ => v.rejudge_spaceTurn p

/-- When both heads wait still, nothing has joined the flight table. -/
theorem State.Moves.joined_nil {s t : State} {gone : Entry → Bool} {judged : Port → Bool}
    {replies : Port → List (Byte × AnswerCode)} {joined : List Entry} {ended : List Due}
    (h : s.Moves t gone judged replies joined ended) (hheads : ∀ q, t.waitingHead q ≠ none) : joined = [] := by
  rw [List.eq_nil_iff_forall_not_mem]
  intro x hx
  cases h.head x.port with
  | kept _ others => exact others x hx rfl
  | refused _ _ _ _ _ _ port => exact hheads _ (State.waitingHead_taken port)
  | admitted _ _ _ _ _ _ port => exact hheads _ (State.waitingHead_taken port)

/-- While the table had room or a head did not wait, that is so after any move. -/
theorem State.Moves.room_or_head {s t : State} {gone : Entry → Bool} {judged : Port → Bool}
    {replies : Port → List (Byte × AnswerCode)} {joined : List Entry} {ended : List Due}
    (h : s.Moves t gone judged replies joined ended) {p : Port}
    (hs : s.flight.entries.length < 64 ∨ s.waitingHead p = none ∨ s.waitingHead p.partner = none) :
    t.flight.entries.length < 64 ∨ t.waitingHead p = none ∨ t.waitingHead p.partner = none := by
  have stays : ∀ q, s.waitingHead q = none → t.waitingHead q = none := fun q hq =>
    (State.waitingHead_of_port ((h.head q).unmoved (.inr hq)).1).trans hq
  rcases hs with hlen | hp | hp
  · by_contra hnot
    simp only [not_or] at hnot
    obtain ⟨hfull, hhead, hhead'⟩ := hnot
    have hnil := h.joined_nil (forall_port_of p hhead hhead')
    rw [h.entries, hnil, List.append_nil] at hfull
    exact hfull (lt_of_le_of_lt (List.length_filter_le _ _) hlen)
  · exact .inr (.inl (stays p hp))
  · exact .inr (.inr (stays _ hp))

/-- The waits that one more entry's leaving ends, in a state where the others have left and nothing of write class has joined (R36, R74). -/
theorem State.Moves.waits_perm {v t : State} {p : Port} {gone judged replies joined ended}
    (h : v.Moves t gone judged replies joined ended) (hjoined : ∀ x ∈ joined, x.writeOf p = false) {i : Nat}
    (he : ∀ x ∈ v.flight.entries, x.index = i → gone x = false) :
    (v.waitsEnded p gone ++ t.waitsEnded p fun x => decide (x.index = i)).Perm
      (v.waitsEnded p fun x => gone x || decide (x.index = i)) := by
  have hits_of : ∀ f x, t.hits p f x = v.hits p (fun y => !gone y && f y) x := by
    intro f x
    rw [State.hits, h.entries, List.any_append, List.any_filter]
    have hnone : (joined.any fun y => f y && y.writeOf p && y.overlaps x) = false := by
      rw [List.any_eq_false]
      intro y hy
      simp [hjoined y hy]
    rw [hnone, Bool.or_false]
    exact List.any_congr rfl fun y => by simp [Bool.and_assoc]
  rw [State.waitsEnded_eq, State.waitsEnded_eq, State.waitsEnded_eq, h.holdings]
  refine filterMap_perm_append _ fun x _ => ?_
  have hnew : t.hits p (fun y => decide (y.index = i)) x = v.hits p (fun y => decide (y.index = i)) x := by
    rw [hits_of]
    exact State.hits_congr (fun y hy => by by_cases hi : y.index = i <;> simp [hi, he y hy]) x
  have hrest : t.hits p (fun y => !decide (y.index = i)) x = v.hits p (fun y => !(gone y || decide (y.index = i))) x := by
    rw [hits_of]
    simp only [Bool.not_or]
  have hstill : v.hits p (fun y => !gone y) x =
      (v.hits p (fun y => !(gone y || decide (y.index = i))) x || v.hits p (fun y => decide (y.index = i)) x) := by
    rw [← State.hits_or]
    refine State.hits_congr (fun y hy => ?_) x
    by_cases hi : y.index = i
    · simp [hi, he y hy hi]
    · simp [hi]
  rw [hnew, hrest, hstill, State.hits_or]
  cases v.hits p (fun y => decide (y.index = i)) x
  · exact .inr (by simp)
  · exact .inl (by simp)

/-- One more withdrawal: a FENCED reply, and a departure (R71, R74). -/
theorem State.Withdrew.step {v w : State} {p : Port} {l : List Entry} (h : v.Withdrew w p l)
    (hread : ∀ c, v.checkCommand p c = none → c.kind.writeClass = false) {e : Entry} (he : e ∈ v.flight.entries) (hp : e.port = p)
    (hnew : indexIn l e = false) : v.Withdrew ((w.reply p e.tag .fenced).depart e) p (l ++ [e]) := by
  obtain ⟨⟨joined, ended, hmoves, hended⟩, hsound, hturn⟩ := h
  have hreply := w.moves_reply p e.tag .fenced
  have hthere : (w.reply p e.tag .fenced).flight.entries = w.flight.entries := by rw [hreply.entries]; simp
  have hrsound : (w.reply p e.tag .fenced).flightSound := State.flightSound_of hsound hthere
  have hew : e ∈ w.flight.entries := by
    rw [hmoves.entries]
    exact List.mem_append_left _ (List.mem_filter.2 ⟨he, by simp [hnew]⟩)
  have hdepart := State.moves_depart (hthere ▸ hew) hrsound
  have hfresh : ∀ x ∈ joined, decide (x.index = e.index) = false := by
    intro x hx
    obtain ⟨-, hnodup, -⟩ := hsound
    rw [hmoves.entries, List.map_append, List.nodup_append] at hnodup
    have hmem : e.index ∈ (v.flight.entries.filter fun y => !indexIn l y).map (·.index) :=
      List.mem_map_of_mem (List.mem_filter.2 ⟨he, by simp [hnew]⟩)
    exact decide_eq_false fun heq => hnodup.2.2 _ hmem _ (List.mem_map_of_mem hx) heq.symm
  have hsofar := hmoves.trans hreply (.inl fun _ => rfl) (fun _ _ => rfl) fun q => by
    by_cases hq : q = p <;> simp [hq]
  have hall := hsofar.trans hdepart (.inr fun _ _ => rfl) (by simpa using hfresh) fun q => by
    by_cases hq : q = p <;> simp [hq]
  refine ⟨⟨joined ++ [] ++ _, ended ++ [] ++ _, hall.congr (fun x _ => ?_) (fun q => ?_) (fun q => ?_), ?_⟩, ?_, ?_⟩
  · rw [indexIn_append, Bool.or_false]
  · simp
  · by_cases hq : q = p <;> simp [hq]
  · have hjoined : ∀ x ∈ joined ++ [], x.writeOf p = false := by
      intro x hx
      obtain ⟨tag, c, index, -, hcheck, heq⟩ := hsofar.of_joined hx
      by_cases hxp : x.port = p
      · rw [hxp] at hcheck
        have hkind : x.kind = c.kind := by rw [heq]; rfl
        simp [Entry.writeOf, hkind, hread c hcheck]
      · simp [Entry.writeOf, hxp]
    have hperm := hsofar.waits_perm hjoined (i := e.index) fun x hx hi => by
      rw [Bool.or_false]
      rw [← hnew, indexIn, indexIn, hi]
    rw [List.append_nil, hp, funext (indexIn_append l e)]
    simp only [Bool.or_false] at hperm
    exact (hended.append_right _).trans hperm
  · exact State.depart_flightSound e hrsound
  · intro hroom
    rw [State.depart_spaceTurn_of (hsofar.room_or_head hroom), State.reply_flight]
    exact hturn hroom

/-! ## All withdrawals of one event -/

/-- The withdrawals of entries of port `p`, one after the other (R71). -/
theorem State.withdrew_foldl {v : State} {p : Port} (hs : v.flightSound)
    (hread : ∀ c, v.checkCommand p c = none → c.kind.writeClass = false) (l : List Entry)
    (hl : ∀ e ∈ l, e ∈ v.flight.entries ∧ e.port = p) (hnodup : (l.map (·.index)).Nodup) : v.Withdrew (v.withdrawing p l) p l := by
  induction l using List.reverseRecOn with
  | nil => exact State.withdrew_nil hs
  | append_singleton l e ih =>
    rw [List.map_append, List.nodup_append] at hnodup
    obtain ⟨hfirst, -, hfresh⟩ := hnodup
    obtain ⟨he, hp⟩ := hl e (by simp)
    have hnew : indexIn l e = false := by
      rw [indexIn, List.any_eq_false]
      intro x hx
      simpa using (hfresh _ (List.mem_map_of_mem hx) e.index (by simp)).symm
    rw [State.withdrawing, List.foldl_append]
    exact (ih (fun x hx => hl x (List.mem_append_left _ hx)) hfirst).step hread he hp hnew

/-- What an entry to LOST or DRAINING of port `p` does with the entries it withdraws (R65, R71, R74). -/
theorem State.withdrawing_leaveTo {v : State} {p : Port} {gone : Entry → Bool} (hs : v.flightSound)
    (hread : ∀ c, v.checkCommand p c = none → c.kind.writeClass = false) (hgone : ∀ e, gone e = true → e.port = p) :
    ∃ ended : List Due, ended.Perm (v.waitsEnded p gone)
      ∧ v.leaveTo (v.withdrawing p (v.flight.entries.filter gone)) p gone (fun q => q = p || v.flight.entries.any gone)
        (v.withdrawn gone) ended := by
  have ⟨_, hnodup, _⟩ := hs
  have hsub : (v.flight.entries.filter gone).Sublist v.flight.entries := List.filter_sublist
  obtain ⟨⟨joined, ended, hmoves, hended⟩, -, hturn⟩ := State.withdrew_foldl hs hread (v.flight.entries.filter gone)
    (fun e he => ⟨hsub.mem he, hgone e (List.mem_filter.1 he).2⟩) (hnodup.sublist (hsub.map _))
  have hindex : ∀ e ∈ v.flight.entries, gone e = indexIn (v.flight.entries.filter gone) e := by
    intro e he
    rw [Bool.eq_iff_iff, indexIn, List.any_eq_true]
    constructor
    · exact fun h => ⟨e, List.mem_filter.2 ⟨he, h⟩, by simp⟩
    · rintro ⟨x, hx, heq⟩
      obtain ⟨hx, hgx⟩ := List.mem_filter.1 hx
      rwa [List.inj_on_of_nodup_map hnodup he hx (of_decide_eq_true heq)]
  refine ⟨ended, ?_, State.Moves.leaveTo (hmoves.congr hindex (fun q => ?_) fun q => rfl) hturn⟩
  · rwa [State.waitsEnded_congr hindex]
  · congr 1
    rw [Bool.eq_iff_iff]
    simp

end Sys2Proof.Machine
end

section
/-! PROOFS. Entry to LOST (R107): the withdrawals begun by the machine, and the table request that the path no longer carries (R22). -/

namespace Sys2Proof.Machine

/-! ## The withdrawals as the machine begins them -/

theorem State.of_mem_admits {v : State} {p : Port} {x : Entry} (hx : x ∈ v.admits p) :
    x.port = p ∧ ∃ c, v.checkCommand p c = none ∧ x.kind = c.kind := by
  have hport : x.port ∈ (v.admits p).map (·.port) := List.mem_map_of_mem hx
  rw [State.admits_ports] at hport
  have hp : x.port = p := by
    split at hport
    · exact List.mem_singleton.1 hport
    · cases hport
  obtain ⟨tag, c, index, -, hcheck, heq⟩ := (v.moves_rejudge p).of_joined hx
  refine ⟨hp, c, hp ▸ hcheck, ?_⟩
  rw [heq]
  rfl

theorem State.withdrawAll_eq {s : State} {p : Port} {es : List Entry} (hes : ∀ e ∈ es, e.port = p) :
    s.withdrawAll es = es.foldl (fun u e => (u.reply p e.tag .fenced).depart e) s := by
  induction es generalizing s with
  | nil => rfl
  | cons e es ih =>
    have he : e.port = p := hes e List.mem_cons_self
    simp only [State.withdrawAll, List.foldl_cons, State.withdraw, he] at ih ⊢
    exact ih fun x hx => hes x (List.mem_cons_of_mem e hx)

/-- The entries withdrawn are those of the flight table before the port's own head was judged: none that this lets in is withdrawn (R71). -/
theorem State.waitingEntries_rejudge {v : State} {p : Port} {writesOnly : Bool} {gone : Entry → Bool}
    (hgone : ∀ e, gone e = (e.port = p && e.stage.isWaiting && (!writesOnly || e.kind.writeClass)))
    (hjoined : ∀ x ∈ v.admits p, gone x = false) :
    (v.rejudge p).waitingEntries p writesOnly = v.flight.entries.filter gone
      ∧ (v.rejudge p).withdrawAll (v.flight.entries.filter gone) = v.withdrawing p (v.flight.entries.filter gone) := by
  constructor
  · have hnone : (v.admits p).filter gone = [] := List.filter_eq_nil_iff.2 fun x hx => by simp [hjoined x hx]
    rw [State.waitingEntries, ← funext hgone, (v.moves_rejudge p).entries, List.filter_append, hnone]
    simp
  · refine State.withdrawAll_eq fun e he => ?_
    have hge := (List.mem_filter.1 he).2
    rw [hgone, Bool.and_eq_true, Bool.and_eq_true] at hge
    exact of_decide_eq_true hge.1.1

/-! ## A table request that stops waiting (R22) -/

theorem State.roomWait_of_front {s : State} {p : Port} {x : Byte × Request} (h : s.front (.port p) = some x) :
    (s.port p).roomWait = false := by
  by_contra hw
  rw [Bool.not_eq_false] at hw
  rw [State.front, if_pos hw] at h
  cases h

theorem State.front_of_port {s t : State} {p : Port} (h : t.port p = s.port p) : t.front (.port p) = s.front (.port p) := by
  simp only [State.front, State.headRequest, h]

/-- A request that waited at the arbiter and that the path state now refuses is answered (R22). -/
theorem State.dropRefused_eq {s x : State} {p : Port}
    (hport : (s.port p).roomWait = false → x.port p = s.port p) : x.dropRefused p (s.clientWaits (.port p)) =
    match s.front (.port p) with
    | some (tag, r) =>
      if r.isTable = true ∧ s.refusal (.port p) r = none then
        match requestGate (x.path p).state r with
        | some code => (x.takeHead p).answer p tag r.code code []
        | none => x
      else x
    | none => x := by
  cases hf : s.front (.port p) with
  | none =>
    have hwas : s.clientWaits (.port p) = false := by rw [State.clientWaits, hf]
    rw [hwas, State.dropRefused]
    split
    · split <;> rfl
    · rfl
  | some y =>
    obtain ⟨tag, r⟩ := y
    have hfx : x.front (.port p) = some (tag, r) := (State.front_of_port (hport (State.roomWait_of_front hf))).trans hf
    have hwas : s.clientWaits (.port p) = decide (r.isTable = true ∧ s.refusal (.port p) r = none) := by
      rw [State.clientWaits, hf, Bool.eq_iff_iff]
      simp
    rw [State.dropRefused, hfx, hwas]
    dsimp only
    by_cases hw : r.isTable = true ∧ s.refusal (.port p) r = none
    · cases requestGate (x.path p).state r <;> simp [hw]
    · cases requestGate (x.path p).state r <;> simp [hw]

/-- Of the table requests a LOST path carries QUERY and LIST alone, and a DRAINING one none (R95). -/
theorem requestGate_table {r : Request} (h : r.isTable = true) :
    requestGate .lost r = (if r.code ≠ 7 ∧ r.code ≠ 8 then some .fenced else none) ∧ requestGate .draining r = some .fenced := by
  cases r <;> first | exact ⟨rfl, rfl⟩ | cases h

/-! ## Entry to LOST -/

theorem IoKind.writeClass_of_lost {k : IoKind} (h : checkPath .lost k = none) : k.writeClass = false := by
  cases k <;> first | rfl | cases h

theorem State.enterLost_lostTo {s : State} {p : Port} (cause : Cause) (hs : s.flightSound) : s.lostTo (s.enterLost p cause) p cause := by
  unfold State.lostTo
  intro gone v w
  have hv : v.path p = (s.path p).lost cause := Pair.get_set_self _ _ _
  have hread : ∀ c, v.checkCommand p c = none → c.kind.writeClass = false := by
    intro c hc
    have hpath := State.checkCommand_path hc
    rw [hv] at hpath
    exact IoKind.writeClass_of_lost hpath
  have hgone : ∀ e, gone e = (e.port = p && e.stage.isWaiting && (!true || e.kind.writeClass)) := by
    intro e
    simp only [gone, Entry.writeOf, Bool.not_true, Bool.false_or, Bool.and_right_comm]
  obtain ⟨hes, hall⟩ := State.waitingEntries_rejudge hgone fun x hx => by
    obtain ⟨-, c, hc, hkind⟩ := State.of_mem_admits hx
    rw [hgone, hkind, hread c hc]
    simp
  obtain ⟨ended, hended, hleave⟩ := State.withdrawing_leaveTo (v := v) (p := p) (gone := gone) hs hread fun e he => by
    rw [hgone, Bool.and_eq_true, Bool.and_eq_true] at he
    exact of_decide_eq_true he.1.1
  refine ⟨ended, hended, hleave, ?_⟩
  intro record x
  have henter : s.enterLost p cause = x.dropRefused p (s.clientWaits (.port p)) := by
    have hbegun : s.withPath p ((s.path p).lost cause) = v := rfl
    rw [State.enterLost, hbegun, hes, hall]
    rfl
  obtain ⟨joined, hframe, -, hheads⟩ := hleave
  have hwpaths : w.paths = v.paths := (congrArg State.paths hframe :)
  have hxpath : (x.path p).state = .lost := by
    simp only [x, State.path, State.raise_paths, Pair.get_set_self, hwpaths]
    exact congrArg Path.state hv
  have hxport : (s.port p).roomWait = false → x.port p = s.port p := by
    intro hroom
    have hnone : v.waitingHead p = none := by
      rw [State.waitingHead, if_neg]
      exact Bool.eq_false_iff.1 hroom
    have hp := (hheads p).1
    rw [hnone] at hp
    have hxw : x.port p = w.port p := by simp only [x, State.port, State.raise_ports]
    exact hxw.trans hp.1
  rw [henter, State.dropRefused_eq hxport, hxpath]
  cases s.front (.port p) with
  | none => rfl
  | some y =>
    obtain ⟨tag, r⟩ := y
    dsimp only
    by_cases hw : r.isTable = true ∧ s.refusal (.port p) r = none
    · obtain ⟨htable, hrefusal⟩ := hw
      rw [if_pos ⟨htable, hrefusal⟩, (requestGate_table htable).1]
      by_cases hcode : r.code ≠ 7 ∧ r.code ≠ 8
      · rw [if_pos hcode, if_pos ⟨htable, hrefusal, hcode⟩]
      · rw [if_neg hcode, if_neg fun h => hcode h.2.2]
    · rw [if_neg hw, if_neg fun h => hw ⟨h.1, h.2.1⟩]

/-- Settles O20. -/
theorem entersLost : Obligations.EntersLost := by
  refine fun p s hs hm => ⟨?_, fun w hw hdue hseen hmiss => ?_⟩
  · refine ⟨_, ?_, State.enterLost_lostTo .link ?_⟩
    · change execLinkDown p s = _
      rw [execLinkDown, if_pos hm, State.failTransfers_eq]
      rfl
    · exact State.flightSound_map (fun e => if e.port = p then { e with xfer := .none } else e)
        (fun e => by split <;> simp) hs rfl
  · refine ⟨_, ?_, State.enterLost_lostTo .beacon hs⟩
    change execWindowEnd p s = _
    have hwindow : s.windowDue p = true := by
      rw [State.windowDue, hw, hm]
      exact decide_eq_true hdue
    rw [execWindowEnd, if_pos hwindow, hw]
    dsimp only
    rw [if_neg hseen, State.missedWindow, if_pos hmiss]
    rfl

end Sys2Proof.Machine
end

section
/-! PROOFS. Entry to DRAINING (R119 to R122, R126) and the requests that begin it (R110, R111, R116, R118). -/

namespace Sys2Proof.Machine

/-! ## The path state after the end of a drain -/

/-- An entry to FENCED changes no other port's path state (R130). -/
theorem State.enterFenced_state (s : State) (p q : Port) :
    ((s.enterFenced p).path q).state = if q = p then .fenced else (s.path q).state := by
  have hcores := congrArg Prod.fst (congrFun (s.enterFenced_cores p) q)
  refine hcores.trans ?_
  unfold Core.set
  split <;> rfl

theorem State.settleWalk_state : ∀ (l : List Port) (s : State) (q : Port),
    ((settleWalk l s).path q).state = (s.path q).state ∨ ((settleWalk l s).path q).state = .fenced
  | [], _, _ => .inl rfl
  | p :: l, s, q => by
    unfold settleWalk
    split
    · refine (State.settleWalk_state l (s.enterFenced p) q).elim (fun h => ?_) .inr
      rw [h, State.enterFenced_state]
      split
      · exact .inr rfl
      · exact .inl rfl
    · exact .inl rfl

/-- After a drain's end the port is SHEDDING, or FENCED at once when it owed no walk (R126, R128). -/
theorem State.shed_state (s : State) (p : Port) : ((s.shed p).path p).state = .shedding ∨ ((s.shed p).path p).state = .fenced := by
  rw [State.shed, State.walkTest]
  refine (State.settleWalk_state _ _ p).imp_left fun h => h.trans ?_
  simp only [State.path, Pair.get_set_self]

/-- From DRAINING on a path refuses every table request as FENCED (R95). -/
theorem requestGate_leaving {r : Request} {st : PathState} (h : r.isTable = true) (hst : st = .draining ∨ st = .shedding ∨ st = .fenced) :
    requestGate st r = some .fenced := by
  rcases hst with rfl | rfl | rfl <;> cases r <;> first | rfl | cases h

/-! ## Entry to DRAINING -/

theorem State.drainedTo_of {u : State} {p : Port} {cause : Cause} {kept : Option Cause} {record : Takeover} (hs : u.flightSound)
    (hcause : (if (u.path p).state = .lost then (u.path p).cause else some cause) = kept)
    (hrecord : (if (u.path p).state = .lost then (u.path p).takeover else some (Takeover.begin cause none 0)) = some record) :
    u.drainedTo (u.enterDraining p cause) p kept record false ∧ u.drainedTo (u.fence p cause) p kept record true := by
  suffices hboth : ∀ (dropping : Bool), u.drainedTo (if dropping then u.fence p cause else u.enterDraining p cause) p kept record dropping
    from ⟨hboth false, hboth true⟩
  intro dropping
  unfold State.drainedTo
  intro gone begun v w
  have hbegun : u.drainBegun p cause = v := by
    rw [State.drainBegun, Path.drained, hcause, hrecord]
    rfl
  have hv : (v.path p).state = .draining := by
    simp only [v, State.path, Pair.get_set_self]
  have hread : ∀ c, v.checkCommand p c ≠ none := by
    intro c hc
    have hpath := State.checkCommand_path hc
    rw [hv] at hpath
    cases c.kind <;> cases hpath
  have hgone : ∀ e, gone e = (e.port = p && e.stage.isWaiting && (!false || e.kind.writeClass)) := by
    intro e
    simp only [gone, Bool.not_false, Bool.true_or, Bool.and_true]
  obtain ⟨hes, hall⟩ := State.waitingEntries_rejudge hgone fun x hx => by
    obtain ⟨-, c, hc, -⟩ := State.of_mem_admits hx
    exact absurd hc (hread c)
  obtain ⟨ended, hended, hleave⟩ := State.withdrawing_leaveTo (v := v) (p := p) (gone := gone) hs (fun c hc => absurd hc (hread c))
    fun e he => by
      rw [hgone, Bool.and_eq_true, Bool.and_eq_true] at he
      exact of_decide_eq_true he.1.1
  refine ⟨ended, hended, hleave, ?_⟩
  intro x y
  obtain ⟨joined, hframe, -, hheads⟩ := hleave
  have hwpath : w.path p = v.path p := by
    rw [State.path, State.path, (congrArg State.paths hframe :)]
  have hwithdrawn : w.onTakeover p (Takeover.countWithdrawn (u.flight.entries.filter gone)) = x := by
    have hbefore : (w.path p).takeover = some begun := by
      rw [hwpath]
      simp only [v, State.path, Pair.get_set_self]
    have hafter : (some begun).map (Takeover.countWithdrawn (u.flight.entries.filter gone)) = some { begun with
        withdrawn := record.withdrawn + (u.flight.entries.filter fun e => gone e && e.kind.writeClass).length } := by
      rw [Option.map_some, Takeover.countWithdrawn, List.filter_filter]
      simp only [Bool.and_comm]
      rfl
    rw [State.onTakeover_eq, hbefore, hafter]
  have hxstate : (x.path p).state = .draining := by
    have hx : (x.path p).state = (w.path p).state := by simp only [x, State.path, Pair.get_set_self]
    rw [hx, hwpath, hv]
  have henter : u.enterDraining p cause = y := by
    have htest : u.enterDraining p cause = x.drainTest p := by
      rw [State.enterDraining, hbegun, hes, hall, ← hwithdrawn]
    rw [htest, State.drainTest_eq, hxstate]
    by_cases hwait : (x.flight.entries.any fun e => e.writeOf p && (e.stage.isSubmitted || e.stage.isAborting)) = true
    · simp only [y, hwait, if_true, Bool.true_eq_false, and_false, if_false]
    · simp only [y, Bool.eq_false_iff.2 hwait, Bool.false_eq_true, if_false, and_self, if_true]
  have hystate : (y.path p).state = .draining ∨ (y.path p).state = .shedding ∨ (y.path p).state = .fenced := by
    by_cases hwait : (x.flight.entries.any fun e => e.writeOf p && (e.stage.isSubmitted || e.stage.isAborting)) = true
    · exact .inl (by simp only [y, hwait, if_true, hxstate])
    · refine .inr ?_
      simp only [y, hwait]
      exact x.shed_state p
  have hyport : (u.port p).roomWait = false → y.port p = u.port p := by
    intro hroom
    have hnone : v.waitingHead p = none := by
      rw [State.waitingHead, if_neg]
      exact Bool.eq_false_iff.1 hroom
    have hp := (hheads p).1
    rw [hnone] at hp
    have hyx : y.ports = w.ports := by
      simp only [y]
      split
      · rfl
      · rw [State.shed, State.walkTest_ports]
    rw [State.port, hyx]
    exact hp.1
  cases dropping with
  | false =>
    simp only [Bool.false_eq_true, if_false, false_and, henter]
    split <;> rfl
  | true =>
    rw [if_pos rfl, State.fence, henter, State.dropRefused_eq hyport]
    cases u.front (.port p) with
    | none => rfl
    | some z =>
      obtain ⟨tag, r⟩ := z
      dsimp only
      by_cases hw : r.isTable = true ∧ u.refusal (.port p) r = none
      · rw [if_pos hw, if_pos ⟨rfl, hw⟩, requestGate_leaving hw.1 hystate]
      · rw [if_neg hw, if_neg fun h => hw h.2]

/-- A member's, or a port's that is not LOST, entry to DRAINING takes the cause given and a new takeover record (R119). -/
theorem State.drainedTo_direct {u : State} {p : Port} {cause : Cause} (hs : u.flightSound) (hp : (u.path p).state ≠ .lost) :
    u.drainedTo (u.enterDraining p cause) p (some cause) (Takeover.begin cause none 0) false
      ∧ u.drainedTo (u.fence p cause) p (some cause) (Takeover.begin cause none 0) true :=
  State.drainedTo_of hs (if_neg hp) (if_neg hp)

/-- A LOST port keeps its cause and its takeover record (R108, R119). -/
theorem State.drainedTo_lost {u : State} {p : Port} {cause : Cause} {record : Takeover} (hs : u.flightSound)
    (hp : (u.path p).state = .lost) (hrecord : (u.path p).takeover = some record) :
    u.drainedTo (u.fence p cause) p (u.path p).cause record true :=
  (State.drainedTo_of hs (if_pos hp) ((if_pos hp).trans hrecord)).2

/-! ## The requests that begin it -/

theorem PathState.ne_lost_of_isMember {st : PathState} (h : st.isMember = true) : st ≠ .lost := by
  rintro rfl
  cases h

theorem State.fencePartner_starts {s : State} {p : Port} {tag : Byte}
    (h : (s.path p).state.isMember = true ∨ (s.path p).state = .lost) :
    State.fencePartner p.partner tag (s.takeHead p.partner) =
      ((s.takeHead p.partner).answer p.partner tag 14 .good []).fence p .partnerFence := by
  rw [State.fencePartner, Port.partner_partner, State.takeHead_path]
  cases hst : (s.path p).state with
  | member | suspect | lost => rfl
  | _ => rw [hst] at h; rcases h with h | h <;> cases h

theorem State.forceFencePort_member {s : State} {p : Port} (h : (s.path p).state.isMember = true) : State.forceFencePort p s =
    ((s.placeAnswer 20 .good []).raise .partnerLost { port := none, value := Cause.mgmtFence.num } [p.partner]).fence p .mgmtFence := by
  rw [State.forceFencePort]
  cases hst : (s.path p).state with
  | member | suspect => rfl
  | _ => rw [hst] at h; cases h

/-- A member's acknowledgment of a pending PARTNER-LOST about a port LOST by a cause whose act enable is set (R116). -/
theorem State.ackNotice_starts {s : State} {p : Port} {tag : Byte}
    (hn : ∃ n ∈ (s.target (.port p.partner)).pending, n.kind = .partnerLost) (hm : s.isMember p.partner = true)
    (hlost : (s.path p).state = .lost)
    (hact : ((s.path p).cause = some .beacon ∧ s.settings.actOnBeacon = true)
      ∨ ((s.path p).cause = some .link ∧ s.settings.actOnLink = true)) :
    State.ackNotice (.port p.partner) tag NoticeKind.partnerLost.num (s.takeHead p.partner) =
      ((s.takeHead p.partner).acknowledge (.port p.partner) tag .partnerLost).fence p .partnerFence := by
  have htarget : (s.takeHead p.partner).target (.port p.partner) = s.target (.port p.partner) :=
    s.takeFront_target (.port p.partner) (.port p.partner)
  obtain ⟨m, hfind⟩ : ∃ m, (s.target (.port p.partner)).find .partnerLost = some m := by
    rw [← Option.isSome_iff_exists]
    simpa [Target.find] using hn
  have hpaths : ((s.takeHead p.partner).acknowledge (.port p.partner) tag .partnerLost).paths = s.paths := by simp
  have hsettings : ((s.takeHead p.partner).acknowledge (.port p.partner) tag .partnerLost).settings = s.settings := by simp
  have henabled : s.actEnable (s.path p).cause = true := by
    rcases hact with ⟨hc, ha⟩ | ⟨hc, ha⟩ <;> rw [hc, State.actEnable, ha]
  have hpasses : (s.isMember p.partner && decide ((s.path p).state = .lost) && s.actEnable (s.path p).cause) = true := by
    simp [hm, hlost, henabled]
  simp only [State.ackNotice, noticeKindOf_num, htarget, hfind]
  rw [State.acknowledgeLoss, Port.partner_partner]
  refine if_pos ?_
  rw [State.isMember, State.path, State.path, hpaths]
  have hsame : ((s.takeHead p.partner).acknowledge (.port p.partner) tag .partnerLost).actEnable = s.actEnable :=
    funext fun c => by unfold State.actEnable; rw [hsettings]
  rw [hsame]
  exact hpasses

/-- Settles O45. -/
theorem entersDraining : Obligations.EntersDraining := by
  intro p tag s hs told direct partner
  have sound : ∀ {u : State}, u.flight = s.flight → u.flightSound := fun h => State.flightSound_of hs (by rw [h])
  have hfence : s.takes partner tag .fencePartner →
      exec (.fencePartner p.partner) s = .next (State.fencePartner p.partner tag (s.takeHead p.partner)) :=
    fun h => exec_of_takes rfl h rfl
  have hforce : s.takes .mgmt tag (.forceFence (portNum p)) → exec .forceFence s = .next (State.forceFencePort p s) := fun h => by
    have hexec : exec .forceFence s = .next (State.forceFence (portNum p) s) := exec_of_takes rfl h rfl
    rw [hexec, State.forceFence, portOf_portNum]
  refine ⟨fun h => ?_, fun hm h => ?_, fun hm h => ?_, fun record hlost hrecord => ⟨fun h => ?_, fun h => ?_, fun h hn hm hact => ?_⟩⟩
  · have hexec : exec (.resign p) s = .next (State.resign p tag (s.takeHead p)) := exec_of_takes rfl h rfl
    have hmember : s.isMember p = true := State.isMember_of_refusal h.2 fun st => by cases st <;> simp [requestGate, PathState.isMember]
    rw [State.resign, State.takeHead_path] at hexec
    refine ⟨_, hexec, (State.drainedTo_direct (sound (by simp [told])) ?_).1⟩
    have hstate : ∀ x : Path, (((s.takeHead p).withPath p x).raise .partnerLost
        { port := none, value := Cause.resigned.num } [p.partner]).path p = x := fun x => by simp [State.path]
    rw [hstate]
    exact PathState.ne_lost_of_isMember hmember
  · rw [hfence h, State.fencePartner_starts (.inl hm)]
    refine ⟨_, rfl, (State.drainedTo_direct (sound (by simp)) ?_).2⟩
    rw [State.answer_path, State.takeHead_path]
    exact PathState.ne_lost_of_isMember hm
  · rw [hforce h, State.forceFencePort_member hm]
    refine ⟨_, rfl, (State.drainedTo_direct (sound (by simp [told])) ?_).2⟩
    have hpath : (told (s.placeAnswer 20 .good []) .mgmtFence).path p = s.path p := by simp [told, State.path]
    rw [hpath]
    exact PathState.ne_lost_of_isMember hm
  · rw [hfence h, State.fencePartner_starts (.inr hlost)]
    have hpath : ((s.takeHead p.partner).answer p.partner tag 14 .good []).path p = s.path p := by
      rw [State.answer_path, State.takeHead_path]
    rw [← hpath] at hlost hrecord ⊢
    exact ⟨_, rfl, State.drainedTo_lost (sound (by simp)) hlost hrecord⟩
  · rw [hforce h, State.forceFencePort, hlost]
    have hpath : (s.placeAnswer 20 .good []).path p = s.path p := by simp [State.path]
    rw [← hpath] at hlost hrecord ⊢
    exact ⟨_, rfl, State.drainedTo_lost (sound (by simp)) hlost hrecord⟩
  · have hexec : exec (.ackNotice partner) s = .next (State.ackNotice partner tag NoticeKind.partnerLost.num (s.takeHead p.partner)) :=
      exec_of_takes rfl h rfl
    have hpath : ((s.takeHead p.partner).acknowledge partner tag .partnerLost).path p = s.path p := by simp [State.path]
    rw [hexec, State.ackNotice_starts hn hm hlost hact]
    rw [← hpath] at hlost hrecord ⊢
    exact ⟨_, rfl, State.drainedTo_lost (sound (by simp)) hlost hrecord⟩

end Sys2Proof.Machine
end
